-- ==== Sys2Proof/Word.lean ====
section
/-! DEFINITION. The plain data types of the infteor codec core: 64-bit registers, stream bytes, bit strings, and the
entries of the tree and dictionary memories. -/

namespace Sys2Proof

/-- A register of the window, an argument, a result or a histogram count: 64 bits (00_scope R7). -/
abbrev Word := BitVec 64

/-- A byte of IN, OUT or the phrase buffer: 8 bits (00_scope R7). -/
abbrev Byte := BitVec 8

/-- A bit string, its first bit first in stream order (00_scope R10). -/
abbrev Bits := List Bool

/-- One entry of NODES: the (left, right) index pair of an internal node (10_state R32). -/
structure Node where
  left  : Nat
  right : Nat
deriving DecidableEq, Repr, Inhabited

/-- One entry of LZNODES: the (parent, byte) pair of a dictionary node (10_state R35). -/
structure LzNode where
  parent : Nat
  byte   : Byte
deriving DecidableEq, Repr, Inhabited

end Sys2Proof
end

