-- ==== Sys2Proof/Syntax.lean ====
section
/-! DEFINITION. The 35 commands of spec/opcode_table.json (30_encoding R84). -/

namespace Sys2Proof

/-- A command. Where a constructor has an argument it is IMM8, an unsigned count or width (30_encoding R81). 64-bit
operands are not part of a command: its rule reads them from ARG0 and ARG1 (R82). -/
inductive Instr where
  | nop
  | bwWrite (n : Nat)
  | bwFlush
  | brRead (n : Nat)
  | brWord (w : Nat)
  | inRewind
  | inLength
  | gammaEnc
  | gammaDec
  | zzEnc
  | zzDec
  | histBuild (w : Nat)
  | histClear (w : Nat)
  | histSet
  | histGet
  | htBuild
  | htWrite
  | htRead
  | htEnc
  | htDec
  | htCode
  | htNode
  | hufComp (w : Nat)
  | hufDecomp
  | lzInit
  | lzAdd
  | lzGet
  | lzFind
  | lzSize
  | lzNode
  | pbClear
  | pbPush
  | pbGet
  | lzEnc
  | lzDec
deriving DecidableEq, Repr

/-- The mnemonic of a command, as spec/opcode_table.json spells it. -/
def Instr.mnemonic : Instr → String
  | .nop => "NOP"
  | .bwWrite _ => "BW.WRITE"
  | .bwFlush => "BW.FLUSH"
  | .brRead _ => "BR.READ"
  | .brWord _ => "BR.WORD"
  | .inRewind => "IN.REWIND"
  | .inLength => "IN.LENGTH"
  | .gammaEnc => "GAMMA.ENC"
  | .gammaDec => "GAMMA.DEC"
  | .zzEnc => "ZZ.ENC"
  | .zzDec => "ZZ.DEC"
  | .histBuild _ => "HIST.BUILD"
  | .histClear _ => "HIST.CLEAR"
  | .histSet => "HIST.SET"
  | .histGet => "HIST.GET"
  | .htBuild => "HT.BUILD"
  | .htWrite => "HT.WRITE"
  | .htRead => "HT.READ"
  | .htEnc => "HT.ENC"
  | .htDec => "HT.DEC"
  | .htCode => "HT.CODE"
  | .htNode => "HT.NODE"
  | .hufComp _ => "HUF.COMP"
  | .hufDecomp => "HUF.DECOMP"
  | .lzInit => "LZ.INIT"
  | .lzAdd => "LZ.ADD"
  | .lzGet => "LZ.GET"
  | .lzFind => "LZ.FIND"
  | .lzSize => "LZ.SIZE"
  | .lzNode => "LZ.NODE"
  | .pbClear => "PB.CLEAR"
  | .pbPush => "PB.PUSH"
  | .pbGet => "PB.GET"
  | .lzEnc => "LZ.ENC"
  | .lzDec => "LZ.DEC"

/-- The commands that use IMM8 (30_encoding R81). -/
def Instr.usesImm : Instr → Bool
  | .bwWrite _ | .brRead _ | .brWord _ | .histBuild _ | .histClear _ | .hufComp _ => true
  | .nop | .bwFlush | .inRewind | .inLength | .gammaEnc | .gammaDec | .zzEnc | .zzDec | .histSet | .histGet
  | .htBuild | .htWrite | .htRead | .htEnc | .htDec | .htCode | .htNode | .hufDecomp | .lzInit | .lzAdd | .lzGet
  | .lzFind | .lzSize | .lzNode | .pbClear | .pbPush | .pbGet | .lzEnc | .lzDec => false

/-- The IMM8 of a command, 0 for a command that does not use it (30_encoding R80). -/
def Instr.imm : Instr → Nat
  | .bwWrite n | .brRead n => n
  | .brWord w | .histBuild w | .histClear w | .hufComp w => w
  | .nop | .bwFlush | .inRewind | .inLength | .gammaEnc | .gammaDec | .zzEnc | .zzDec | .histSet | .histGet
  | .htBuild | .htWrite | .htRead | .htEnc | .htDec | .htCode | .htNode | .hufDecomp | .lzInit | .lzAdd | .lzGet
  | .lzFind | .lzSize | .lzNode | .pbClear | .pbPush | .pbGet | .lzEnc | .lzDec => 0

end Sys2Proof
end

