-- ==== Sys2Proof/WellFormed.lean ====
section
/-! DEFINITION. Which commands have a command word. -/

namespace Sys2Proof

/-- IMM8 is an 8-bit field (30_encoding R80). A value outside a command's own legal range is still a legal encoding: the
command then faults INVALID_PARAM (R81). -/
def Instr.wf (i : Instr) : Bool := decide (i.imm < 2 ^ 8)

end Sys2Proof
end

