-- ==== Sys2Proof/Decode.lean ====
section
/-! DEFINITION. Decoding a command word (30_encoding R83) and encoding a command (R86). -/

namespace Sys2Proof

/-- Why a word is no command: the three tests of 30_encoding R83, each of which raises ILLEGAL_CMD. -/
inductive DecodeError where
  /-- CMD[63:16] is not zero. -/
  | reservedBits
  /-- OP is not an opcode of R84. -/
  | unassignedOp (op : Byte)
  /-- IMM8 is not zero, and the command does not use it. -/
  | immNotUsed (op : Byte)
deriving DecidableEq, Repr

/-- OP, bits 7:0 of a command word (30_encoding R80). -/
def opField (c : Word) : Byte := c.extractLsb' 0 8

/-- IMM8, bits 15:8 of a command word, zero-extended (30_encoding R80, R81). -/
def immField (c : Word) : Nat := (c.extractLsb' 8 8).toNat

/-- The reserved bits 63:16 of a command word (30_encoding R80). -/
def reservedField (c : Word) : BitVec 48 := c.extractLsb' 16 48

/-- The opcode map of 30_encoding R84: the command with this OP, its IMM8 filled in where it has one. -/
def ofOpcode (op imm : Nat) : Option Instr :=
  match op with
  | 0x01 => some .nop
  | 0x10 => some (.bwWrite imm)
  | 0x11 => some .bwFlush
  | 0x12 => some (.brRead imm)
  | 0x13 => some (.brWord imm)
  | 0x14 => some .inRewind
  | 0x15 => some .inLength
  | 0x20 => some .gammaEnc
  | 0x21 => some .gammaDec
  | 0x22 => some .zzEnc
  | 0x23 => some .zzDec
  | 0x30 => some (.histBuild imm)
  | 0x31 => some (.histClear imm)
  | 0x32 => some .histSet
  | 0x33 => some .histGet
  | 0x40 => some .htBuild
  | 0x41 => some .htWrite
  | 0x42 => some .htRead
  | 0x43 => some .htEnc
  | 0x44 => some .htDec
  | 0x45 => some .htCode
  | 0x46 => some .htNode
  | 0x50 => some (.hufComp imm)
  | 0x51 => some .hufDecomp
  | 0x60 => some .lzInit
  | 0x61 => some .lzAdd
  | 0x62 => some .lzGet
  | 0x63 => some .lzFind
  | 0x64 => some .lzSize
  | 0x65 => some .lzNode
  | 0x68 => some .pbClear
  | 0x69 => some .pbPush
  | 0x6A => some .pbGet
  | 0x70 => some .lzEnc
  | 0x71 => some .lzDec
  | _ => none

/-- Decoding a command word, its three tests in the order of 30_encoding R83. -/
def decode (c : Word) : Except DecodeError Instr :=
  if reservedField c ≠ 0 then .error .reservedBits
  else
    match ofOpcode (opField c).toNat (immField c) with
    | none => .error (.unassignedOp (opField c))
    | some i => if i.usesImm = false ∧ immField c ≠ 0 then .error (.immNotUsed (opField c)) else .ok i

/-- The opcode of a command (30_encoding R84). -/
def Instr.op : Instr → Byte
  | .nop => 0x01
  | .bwWrite _ => 0x10
  | .bwFlush => 0x11
  | .brRead _ => 0x12
  | .brWord _ => 0x13
  | .inRewind => 0x14
  | .inLength => 0x15
  | .gammaEnc => 0x20
  | .gammaDec => 0x21
  | .zzEnc => 0x22
  | .zzDec => 0x23
  | .histBuild _ => 0x30
  | .histClear _ => 0x31
  | .histSet => 0x32
  | .histGet => 0x33
  | .htBuild => 0x40
  | .htWrite => 0x41
  | .htRead => 0x42
  | .htEnc => 0x43
  | .htDec => 0x44
  | .htCode => 0x45
  | .htNode => 0x46
  | .hufComp _ => 0x50
  | .hufDecomp => 0x51
  | .lzInit => 0x60
  | .lzAdd => 0x61
  | .lzGet => 0x62
  | .lzFind => 0x63
  | .lzSize => 0x64
  | .lzNode => 0x65
  | .pbClear => 0x68
  | .pbPush => 0x69
  | .pbGet => 0x6A
  | .lzEnc => 0x70
  | .lzDec => 0x71

/-- The command word `(IMM8 << 8) | OP`, bits 63:16 zero (30_encoding R86). -/
def encode (i : Instr) : Word := (BitVec.ofNat 64 i.imm <<< 8) ||| i.op.setWidth 64

/-- The command this decoder reads from a row of spec/opcode_table.json: a command is one 64-bit word, and every bit above
`nbits` is 0. -/
def decodeTableWord (nbits w : Nat) : Option Instr :=
  (decode (BitVec.ofNat 64 (w % 2 ^ nbits))).toOption

end Sys2Proof
end

