-- ==== Sys2Proof/Machine/Bits.lean ====
section
/-! DEFINITION. Bit strings and integers (00_scope R9, R10, R11; 20_memory R60). -/

namespace Sys2Proof.Machine

/-- `bin_n(v mod 2^n)`: the low `n` bits of `v`, most significant first (00_scope R10, 41_bitstream R131). -/
def bin : Nat → Nat → Bits
  | 0, _ => []
  | n + 1, v => v.testBit n :: bin n v

/-- `val(s)`: the unsigned integer a bit string stands for, its first bit the most significant (00_scope R10). -/
def val (s : Bits) : Nat := s.foldl (fun a b => 2 * a + b.toNat) 0

/-- `bin_8` of a byte: bit 7 is the first bit of the stream (20_memory R60). -/
def binByte (b : Byte) : Bits := bin 8 b.toNat

/-- The byte whose bits are a bit string of length 8. -/
def valByte (s : Bits) : Byte := BitVec.ofNat 8 (val s)

/-- A bit string padded with zero bits to 8 bits (41_bitstream R133). -/
def padByte (s : Bits) : Bits := s ++ bin (8 - s.length) 0

/-- `bitLength(x)`: the number of bits of `x` without leading zeros (00_scope R11). -/
def bitLength (x : Nat) : Nat := if x = 0 then 0 else Nat.log2 x + 1

/-- `bits64(s)`: an integer written as 64 bits, two's complement (00_scope R9). -/
def bits64 (s : Int) : Word := BitVec.ofInt 64 s

end Sys2Proof.Machine
end

