-- ==== Sys2Proof/Config.lean ====
section
/-! DEFINITION. The implementation parameters (00_scope R6) and the free values: what the spec leaves open, as constants
without a body, so that no proof can see what they are. -/

namespace Sys2Proof

/-- The implementation parameters of 00_scope R6. "Every value in range is a legal implementation." State carries them,
so a statement about every state is about every implementation (log 1). -/
structure Params where
  base       : Nat
  maxHistW   : Nat
  maxCodeLen : Nat
  dictCap    : Nat
  pbCap      : Nat
deriving DecidableEq, Repr, Inhabited

/-- The ranges of 00_scope R6. -/
def Params.wf (p : Params) : Bool :=
  p.base % 0x100 == 0
    && decide (17 ≤ p.maxHistW) && decide (p.maxHistW ≤ 31)
    && decide (p.maxHistW ≤ p.maxCodeLen) && decide (p.maxCodeLen ≤ 64)
    && decide (1 ≤ p.dictCap) && decide (p.dictCap ≤ 2 ^ 24 - 2)
    && decide (p.dictCap + 1 ≤ p.pbCap) && decide (p.pbCap ≤ 2 ^ 24 - 1)

/-- DESIGN CHOICE, unsafe (log 1): the implementation State.reset describes. R6 recommends the first two sizes, and
95_test_vectors V9 calls the other two "an illustrative choice of parameters". No statement rests on these values. -/
def Params.default : Params where
  base       := 0
  maxHistW   := 17
  maxCodeLen := 64
  dictCap    := 2 ^ 16
  pbCap      := 2 ^ 16 + 1

/-! ## Free values. The first argument is State's counter `fresh`, so that each use is a value of its own. -/

/-- What a host read returns, while BUSY = 1, in the fields 40_control R125 leaves unspecified (log 7). -/
opaque Config.busyRead : Nat → Word

/-- RES0 after an execution fault (60_exceptions R236; log 6). -/
opaque Config.residueRes0 : Nat → Word
/-- RES1 after an execution fault (R236; log 6). -/
opaque Config.residueRes1 : Nat → Word
/-- RPEND after an execution fault, cut to its range where it is used (R236; log 6). -/
opaque Config.residueRpend : Nat → Bits
/-- WPEND after an IO_OUT fault, cut to its range where it is used (60_exceptions R237; log 6). -/
opaque Config.residueWpend : Nat → Bits
/-- HW after an execution fault (R236; log 6). -/
opaque Config.residueHw : Nat → Nat
/-- The count in one slot of COUNTS after an execution fault (R236; log 6). -/
opaque Config.residueCount : Nat → Nat → Word
/-- TW after an execution fault (R236; log 6). -/
opaque Config.residueTw : Nat → Nat
/-- One entry of NODES after an execution fault (R236; log 6). -/
opaque Config.residueNode : Nat → Nat → Node
/-- STRAT after an execution fault (R236; log 6). -/
opaque Config.residueStrat : Nat → Word
/-- LZNODES after an execution fault (R236; log 6). -/
opaque Config.residueLzNodes : Nat → List LzNode
/-- LZINDEX after an execution fault (R236; log 6). -/
opaque Config.residueLzIndex : Nat → List (List Byte × Nat)
/-- PB after an execution fault (R236; log 6). -/
opaque Config.residuePb : Nat → List Byte

/-- The 64-bit length SrcLen answers for a source of 2^64 bytes or more, which 20_memory R56 does not state (log 11).
The argument is the length. -/
opaque Config.longLength : Nat → Word

end Sys2Proof
end

