-- ==== Sys2Proof/Machine/State.lean ====
section
/-! DEFINITION. The state of the block, of its two ports and of the host's side, as plain data (10_state). -/

namespace Sys2Proof.Machine

/-- Why the model stops with a fault of its own. A fault of the block (60_exceptions R230) is none of these: it is a next
state. -/
inductive Fault where
  /-- Raised by HIST.SET, HIST.GET, HIST.BUILD and HUF.COMP when COUNTS lacks a slot that 10_state R31 says it has. No run
  reaches such a state (log 12). Safe: the spec gives no effect there. -/
  | brokenHistogram
  /-- Raised by HT.WRITE, HT.ENC, HT.DEC, HT.CODE, HT.NODE, HUF.COMP and HUF.DECOMP when NODES is not the valid tree that
  10_state R33 says it is. No run reaches such a state (log 12). Safe: the spec gives no effect there. -/
  | brokenTree
deriving DecidableEq, Repr

/-- Why a step has no meaning. -/
inductive Refusal where
  /-- Raised by an arm of exec whose command has no meaning yet. None is left. Safe. -/
  | notModelled (mnemonic : String)
  /-- Raised when the host attaches a new source while BUSY = 1: "A model gives no meaning to a run that breaks this duty"
  (20_memory R59; log 16). Safe. -/
  | sourceChangedWhileBusy
deriving DecidableEq, Repr

/-- The fault codes of 60_exceptions R231. The reserved codes 10 to 15 are never reported. -/
inductive FaultCode where
  | none
  | illegalCmd
  | invalidParam
  | endOfStream
  | malformed
  | ioIn
  | ioOut
  | capacity
  | state
  | noEntry
deriving DecidableEq, Repr

/-- A port transaction (00_scope glossary: one PullByte, SrcLen, SrcRewind or PushByte). -/
inductive Transaction where
  | pull
  | length
  | rewind
  | push (b : Byte)
deriving DecidableEq, Repr

/-- A port transaction that has no answer yet. `took` says whether it has its effect if a reset cuts it off, which is a
free draw (70_reset R263, 92_eei_decisions D48). -/
structure InFlight where
  what : Transaction
  took : Bool
deriving DecidableEq, Repr

/-- What the host can do to the block (20_memory R50, 10_state R39, 70_reset R260). -/
inductive HostAction where
  /-- A read of `size` bytes at a bus address. -/
  | read (addr size : Nat)
  /-- A write of `size` bytes at a bus address. -/
  | write (addr size : Nat) (v : Word)
  /-- Attach a byte source to IN, its read position at 0. -/
  | attachIn (src : List Byte) (seekable : Bool)
  /-- Attach a new, empty byte sink to OUT. -/
  | attachOut
  /-- Assert the hardware reset input RST. -/
  | assertRst
  /-- Release the hardware reset input RST. -/
  | releaseRst
deriving DecidableEq, Repr

/-- What the host gets back for one access. -/
inductive Response where
  /-- The value a read returned. -/
  | data (v : Word)
  /-- A write was taken (which includes a write that is ignored or dropped). -/
  | ack
  /-- A bus error (20_memory R52). -/
  | busError
  /-- The address is not in the window: the block is not concerned (log 17). -/
  | outside
deriving DecidableEq, Repr

/-- How a port transaction is answered (20_memory R58). -/
inductive Answer where
  | ok
  | ioError
  /-- Never: the command stays BUSY until a reset. -/
  | never
deriving DecidableEq, Repr

/-- The free draw of one port transaction (20_memory R58): what the host does to the block before the answer comes, the
answer, and whether the transaction has its effect if a reset cuts it off (70_reset R263). -/
structure Draw where
  during : List HostAction
  answer : Answer
  took   : Bool
deriving DecidableEq, Repr

/-- The draw of a transaction that is answered at once with success. -/
def Draw.prompt : Draw where
  during := []
  answer := .ok
  took   := false

/-- The whole machine. -/
structure State where
  /-- The implementation parameters (00_scope R6). Configuration: nothing changes them (log 1). -/
  params     : Params
  /-- 10_state R20. -/
  arg0       : Word
  arg1       : Word
  /-- 10_state R21. -/
  res0       : Word
  res1       : Word
  /-- STATUS (10_state R23). RLEN, WLEN, HW and TW are read from `rpend`, `wpend`, `hw` and `tw`. -/
  busy       : Bool
  done       : Bool
  err        : Bool
  drop       : Bool
  errcode    : FaultCode
  errop      : Byte
  endFlag    : Bool
  existsFlag : Bool
  nfFlag     : Bool
  /-- CTRL.IE (10_state R25). -/
  ie         : Bool
  /-- WPEND (10_state R29). -/
  wpend      : Bits
  /-- RPEND (10_state R30). -/
  rpend      : Bits
  /-- HW and COUNTS (10_state R31), COUNTS empty when HW = 0 (log 13). -/
  hw         : Nat
  counts     : List Word
  /-- TW and NODES (10_state R32), NODES empty when TW = 0 (log 13). -/
  tw         : Nat
  nodes      : List Node
  /-- STRAT, LZNODES (node 1 first) and LZINDEX (oldest key first) (10_state R35; log 13). -/
  strat      : Word
  lznodes    : List LzNode
  lzindex    : List (List Byte × Nat)
  /-- PB (10_state R38). -/
  pb         : List Byte
  /-- The level of the hardware reset input (70_reset R261). -/
  rst        : Bool
  /-- The port transaction of the running command that has no answer yet (20_memory R58). -/
  inflight   : Option InFlight
  /-- The host's port state (10_state R39). -/
  src        : List Byte
  pos        : Nat
  seekable   : Bool
  sink       : List Byte
  /-- The model's own: what the host does next, oldest first (log 5). -/
  host       : List HostAction
  /-- The model's own: what the host got back for its accesses, oldest first (log 5). -/
  log        : List Response
  /-- The model's own: what the host does while each command still to come runs, before its first port transaction
  (log 4). -/
  overlaps   : List (List HostAction)
  /-- The model's own: the draws of the port transactions still to come (log 3). -/
  draws      : List Draw
  /-- The model's own: numbers the free values read so far (log 21). -/
  fresh      : Nat
deriving DecidableEq, Repr

/-- The machine right after a hardware reset (10_state R42), RST released. The parameters are DESIGN CHOICE (log 1), the
host's side is DESIGN CHOICE (log 2, log 3, log 4, log 5), and the counter `fresh` is DESIGN CHOICE (log 21). -/
def State.reset : State where
  params     := Params.default
  arg0       := 0
  arg1       := 0
  res0       := 0
  res1       := 0
  busy       := false
  done       := false
  err        := false
  drop       := false
  errcode    := .none
  errop      := 0
  endFlag    := false
  existsFlag := false
  nfFlag     := false
  ie         := false
  wpend      := []
  rpend      := []
  hw         := 0
  counts     := []
  tw         := 0
  nodes      := []
  strat      := 0
  lznodes    := []
  lzindex    := []
  pb         := []
  rst        := false
  inflight   := Option.none
  src        := []
  pos        := 0
  seekable   := true
  sink       := []
  host       := []
  log        := []
  overlaps   := []
  draws      := []
  fresh      := 0

end Sys2Proof.Machine
end

