-- ==== Sys2Proof/Machine/Operands.lean ====
section
/-! DEFINITION. The operand forms of the commands (30_encoding R82): ARG0 and ARG1 as unsigned integers, ARG0 as a signed
integer, ARG0[7:0], and a strategy. The snapshot A0, A1 of 40_control R121 is ARG0, ARG1 themselves, which cannot change
while a command runs (R122; log 18). -/

namespace Sys2Proof.Machine

/-- ARG0 as an unsigned 64-bit integer. -/
def arg0Nat (s : State) : Nat := s.arg0.toNat

/-- ARG1 as an unsigned 64-bit integer. -/
def arg1Nat (s : State) : Nat := s.arg1.toNat

/-- `s64(ARG0)` (00_scope R9). -/
def arg0Int (s : State) : Int := s.arg0.toInt

/-- ARG0[7:0] (30_encoding R82, 46_lz78_dictionary R212). -/
def arg0Byte (s : State) : Byte := s.arg0.setWidth 8

/-- The strategy kinds of 10_state R36. -/
inductive Strategy where
  | never
  | dropAt (n : Nat)
  | freezeAt (n : Nat)
deriving DecidableEq, Repr

/-- `Kind(v)` (10_state R36): Never for 0, Drop(s) for a positive s, Freeze(-s) for a negative s. -/
def strategyKind (v : Word) : Strategy :=
  if v.toInt = 0 then .never
  else if 0 < v.toInt then .dropAt v.toInt.toNat
  else .freezeAt (-v.toInt).toNat

end Sys2Proof.Machine
end

