-- ==== Sys2Proof/Machine/Flags.lean ====
section
/-! DEFINITION. STATUS, CTRL, CAPS and IRQ as the host sees them, and the three condition flags (10_state R23 to R27). -/

namespace Sys2Proof.Machine

/-- The four bits of STATUS.ERRCODE (60_exceptions R231). -/
def FaultCode.bits : FaultCode → BitVec 4
  | .none => 0
  | .illegalCmd => 1
  | .invalidParam => 2
  | .endOfStream => 3
  | .malformed => 4
  | .ioIn => 5
  | .ioOut => 6
  | .capacity => 7
  | .state => 8
  | .noEntry => 9

/-- STATUS, most significant field first, reserved fields 0 (10_state R23). -/
def statusWord (s : State) : Word :=
  0#19 ++ BitVec.ofNat 5 s.tw ++ 0#3 ++ BitVec.ofNat 5 s.hw ++ 0#5 ++ BitVec.ofNat 3 s.wpend.length ++ 0#1
    ++ BitVec.ofNat 3 s.rpend.length ++ 0#1 ++ BitVec.ofBool s.nfFlag ++ BitVec.ofBool s.existsFlag
    ++ BitVec.ofBool s.endFlag ++ s.errop ++ s.errcode.bits ++ BitVec.ofBool s.drop ++ BitVec.ofBool s.err
    ++ BitVec.ofBool s.done ++ BitVec.ofBool s.busy

/-- The fields of STATUS that read an unspecified value while BUSY = 1: all but BUSY, DROP and the reserved fields
(40_control R125, 10_state R23; log 7). -/
def busyStatusFree : Word :=
  0#19 ++ 0x1F#5 ++ 0#3 ++ 0x1F#5 ++ 0#5 ++ 7#3 ++ 0#1 ++ 7#3 ++ 0#1 ++ 7#3 ++ 0xFF#8 ++ 0xF#4 ++ 0#1 ++ 3#2 ++ 0#1

/-- STATUS read while BUSY = 1: BUSY reads 1, DROP its true value, `any` stands in the unspecified fields
(40_control R125). -/
def busyStatusWord (any : Word) (s : State) : Word :=
  (any &&& busyStatusFree) ||| (0#60 ++ BitVec.ofBool s.drop ++ 0#2 ++ 1#1)

/-- CTRL: IE in bit 1, every other bit reads 0 (10_state R25). -/
def ctrlWord (s : State) : Word := 0#62 ++ BitVec.ofBool s.ie ++ 0#1

/-- CAPS (10_state R26). -/
def capsWord (p : Params) : Word :=
  BitVec.ofNat 24 p.pbCap ++ BitVec.ofNat 24 p.dictCap ++ BitVec.ofNat 8 p.maxCodeLen ++ BitVec.ofNat 8 p.maxHistW

/-- IRQ = CTRL.IE AND STATUS.DONE (10_state R27, 60_exceptions R245). -/
def irq (s : State) : Bool := s.ie && s.done

/-- Acceptance clears END, EXISTS and NF (10_state R24). -/
def clearFlags (s : State) : State := { s with endFlag := false, existsFlag := false, nfFlag := false }

/-- STATUS.END (41_bitstream R138). -/
def setEnd (b : Bool) (s : State) : State := { s with endFlag := b }

/-- STATUS.EXISTS <- 1 (46_lz78_dictionary R206). -/
def setExists (s : State) : State := { s with existsFlag := true }

/-- STATUS.NF <- 1 (46_lz78_dictionary R207, R208, R210, R213). -/
def setNotFound (s : State) : State := { s with nfFlag := true }

end Sys2Proof.Machine
end

