-- ==== Sys2Proof/Machine/Ops.lean ====
section
/-! DEFINITION. The operations the commands share: the register window, reset, host accesses, port transactions, fault
entry, and the lifecycle of a command. -/

namespace Sys2Proof.Machine

/-! ## The register window (20_memory R50 to R54) -/

/-- The registers of the window (20_memory R51). -/
inductive Reg where
  | cmd | arg0 | arg1 | res0 | res1 | status | ctrl | caps
deriving DecidableEq, Repr

/-- What an access is addressed to. -/
inductive Target where
  /-- No address of the window. -/
  | outside
  /-- Wrong size, misaligned or unassigned (20_memory R52). -/
  | busError
  | reg (r : Reg)
deriving DecidableEq, Repr

/-- The register at an offset of the window (20_memory R51). -/
def regAt : Nat → Option Reg
  | 0x00 => some .cmd
  | 0x08 => some .arg0
  | 0x10 => some .arg1
  | 0x18 => some .res0
  | 0x20 => some .res1
  | 0x28 => some .status
  | 0x30 => some .ctrl
  | 0x38 => some .caps
  | _ => none

/-- What an access of `size` bytes at a bus address is addressed to (20_memory R51, R52). The window is 0x100 bytes at
BASE. -/
def target (p : Params) (addr size : Nat) : Target :=
  if addr < p.base ∨ p.base + 0x100 ≤ addr then .outside
  else if size ≠ 8 then .busError
  else
    match regAt (addr - p.base) with
    | some r => .reg r
    | none => .busError

/-- The true value of a register (20_memory R51, 10_state R20 to R26). -/
def readReg (s : State) : Reg → Word
  | .cmd => 0
  | .arg0 => s.arg0
  | .arg1 => s.arg1
  | .res0 => s.res0
  | .res1 => s.res1
  | .status => statusWord s
  | .ctrl => ctrlWord s
  | .caps => capsWord s.params

/-- What a read returns while BUSY = 1, `any` standing for what is unspecified (40_control R125). -/
def busyReadReg (any : Word) (s : State) : Reg → Word
  | .cmd => 0
  | .arg0 => s.arg0
  | .arg1 => s.arg1
  | .res0 => any
  | .res1 => any
  | .status => busyStatusWord any s
  | .ctrl => ctrlWord s
  | .caps => capsWord s.params

/-- The host gets a response. -/
def respond (r : Response) (s : State) : State := { s with log := s.log ++ [r] }

/-! ## Reset (10_state R42, 70_reset R261 to R263) -/

/-- The effect on the host's ports of a transaction that a reset cuts off, when the free draw says it took effect
(70_reset R263; for SrcRewind, which has an effect only on a seekable source, 20_memory R56, log 10). -/
def settleInFlight (s : State) : State :=
  match s.inflight with
  | some ⟨.pull, true⟩ => { s with pos := if s.pos < s.src.length then s.pos + 1 else s.pos }
  | some ⟨.push b, true⟩ => { s with sink := s.sink ++ [b] }
  | some ⟨.rewind, true⟩ => { s with pos := if s.seekable then 0 else s.pos }
  | some ⟨.length, true⟩ => s
  | some ⟨_, false⟩ => s
  | none => s

/-- Every piece of block state takes its value of 10_state R42, with CTRL.IE = `ie`. The host's state, the parameters and
the level of RST stay. -/
def resetBlock (ie : Bool) (s : State) : State :=
  { s with
    arg0 := 0, arg1 := 0, res0 := 0, res1 := 0
    busy := false, done := false, err := false, drop := false, errcode := .none, errop := 0
    endFlag := false, existsFlag := false, nfFlag := false, ie := ie
    wpend := [], rpend := [], hw := 0, counts := [], tw := 0, nodes := []
    strat := 0, lznodes := [], lzindex := [], pb := [], inflight := none }

/-- A reset from any state: a running command is aborted, its transaction in flight has its free-drawn outcome
(70_reset R263). -/
def resetNow (ie : Bool) (s : State) : State := resetBlock ie (settleInFlight s)

/-! ## What the host does (20_memory R54, 40_control R121, R122, R125, R128, 70_reset R261, R262) -/

/-- What comes of one action of the host other than the issue of a command. -/
inductive Reply where
  /-- The machine goes on from here. -/
  | goOn (s : State)
  /-- The block was reset. A command that ran is gone. -/
  | wasReset (s : State)
  /-- The run has no meaning (20_memory R59). -/
  | refuse (r : Refusal)

/-- A read of the window (20_memory R52, R54, 40_control R125, 70_reset R261). It changes nothing but what the host knows. -/
def hostRead (addr size : Nat) (s : State) : State :=
  match target s.params addr size with
  | .outside => respond .outside s
  | .busError => if s.rst then respond (.data 0) s else respond .busError s
  | .reg r =>
    if s.rst then respond (.data 0) s
    else if s.busy then
      respond (.data (busyReadReg (Config.busyRead s.fresh) s r)) { s with fresh := s.fresh + 1 }
    else respond (.data (readReg s r)) s

/-- A write to ARG0, ARG1 or CMD while BUSY = 1 is dropped and sets STATUS.DROP (40_control R122). -/
def dropWrite (s : State) : State := { s with drop := true }

/-- A write to CTRL (10_state R25, 70_reset R262): bit 0 performs a soft reset, bit 1 is IE. It is never dropped. -/
def writeCtrl (v : Word) (s : State) : Reply :=
  if v.getLsbD 0 then .wasReset (resetNow (v.getLsbD 1) s) else .goOn { s with ie := v.getLsbD 1 }

/-- A write to a register of the window that issues no command (20_memory R51, R54, 40_control R122, R128). -/
def writeReg (v : Word) (s : State) : Reg → Reply
  | .cmd => .goOn (if s.busy then dropWrite s else s)
  | .arg0 => .goOn (if s.busy then dropWrite s else { s with arg0 := v })
  | .arg1 => .goOn (if s.busy then dropWrite s else { s with arg1 := v })
  | .res0 => .goOn s
  | .res1 => .goOn s
  | .status => .goOn s
  | .ctrl => writeCtrl v s
  | .caps => .goOn s

/-- A write to the window that issues no command (20_memory R52, 70_reset R261). -/
def hostWrite (addr size : Nat) (v : Word) (s : State) : Reply :=
  match target s.params addr size with
  | .outside => .goOn (respond .outside s)
  | .busError => if s.rst then .goOn (respond .ack s) else .goOn (respond .busError s)
  | .reg r => if s.rst then .goOn (respond .ack s) else writeReg v (respond .ack s) r

/-- One action of the host other than the issue of a command. Attaching a source while BUSY = 1 breaks the duty of
20_memory R59 (log 16). -/
def hostAction (a : HostAction) (s : State) : Reply :=
  match a with
  | .read addr size => .goOn (hostRead addr size s)
  | .write addr size v => hostWrite addr size v s
  | .attachIn src seekable =>
    if s.busy then .refuse .sourceChangedWhileBusy else .goOn { s with src := src, pos := 0, seekable := seekable }
  | .attachOut => .goOn { s with sink := [] }
  | .assertRst => .wasReset { resetNow false s with rst := true }
  | .releaseRst => if s.rst then .wasReset { resetNow false s with rst := false } else .goOn s

/-- Whether an action of the host is a write to CMD that the block accepts: STATUS.BUSY = 0 and STATUS.ERR = 0
(40_control R121, R122, R128), RST not asserted (70_reset R261). -/
def commandOf (s : State) : HostAction → Option Word
  | .write addr size v =>
    if target s.params addr size = .reg .cmd ∧ s.rst = false ∧ s.busy = false ∧ s.err = false then some v else none
  | .read _ _ => none
  | .attachIn _ _ => none
  | .attachOut => none
  | .assertRst => none
  | .releaseRst => none

/-! ## How a command ends early -/

/-- Why the pseudocode of a command stops before its end. -/
inductive Stop where
  /-- `raise F(code)` (60_exceptions R233). `keep` says that the block's state stays as it is (R235), which an execution
  fault does not promise (R236). -/
  | fault (code : FaultCode) (keep : Bool)
  /-- A port transaction is never answered (20_memory R58). -/
  | hung
  /-- A reset aborted the command (70_reset R263). -/
  | wasReset
  /-- The host broke its duty (20_memory R59). -/
  | refused (r : Refusal)
  /-- The state breaks an invariant of the spec (log 12). -/
  | broken (f : Fault)
deriving DecidableEq, Repr

/-- A stop and the state it leaves. -/
structure Halt where
  why : Stop
  st  : State
deriving DecidableEq, Repr

/-- The result of a primitive of the pseudocode: a value (with the state after it), or a stop. -/
abbrev Ran (α : Type) := Except Halt α

/-- `raise F(code)` of an execution fault (60_exceptions R236). -/
def raise {α : Type} (code : FaultCode) (s : State) : Ran α := .error ⟨.fault code false, s⟩

/-- `raise F(code)` of a fault that changes no state of the block (60_exceptions R235; for LZ.ADD log 8). -/
def raiseKeeping {α : Type} (code : FaultCode) (s : State) : Ran α := .error ⟨.fault code true, s⟩

/-- `require c else F(code)`, a check (00_scope R13, 60_exceptions R235). -/
def require (c : Prop) [Decidable c] (code : FaultCode) (s : State) : Ran Unit :=
  if c then .ok () else raiseKeeping code s

/-- The state breaks an invariant of the spec (log 12). -/
def broken {α : Type} (f : Fault) (s : State) : Ran α := .error ⟨.broken f, s⟩

/-! ## Port transactions (20_memory R55 to R58) -/

/-- The actions of the host that land while a command runs. A reset aborts the command, and what the host does after it
waits in `host`. -/
def whileBusy : List HostAction → State → Ran State
  | [], s => .ok s
  | a :: rest, s =>
    match hostAction a s with
    | .goOn s' => whileBusy rest s'
    | .wasReset s' => .error ⟨.wasReset, { s' with host := rest ++ s'.host }⟩
    | .refuse r => .error ⟨.refused r, s⟩

/-- One port transaction: its draw says what the host does meanwhile and how it is answered. The answer `true` is success,
`false` an I/O error (20_memory R58). -/
def transact (what : Transaction) (s : State) : Ran (Bool × State) := do
  let d := s.draws.headD Draw.prompt
  let s ← whileBusy d.during { s with draws := s.draws.tail, inflight := some ⟨what, d.took⟩ }
  match d.answer with
  | .ok => .ok (true, { s with inflight := none })
  | .ioError => .ok (false, { s with inflight := none })
  | .never => .error ⟨.hung, s⟩

/-- `PullByte()`: a byte, or `none` for EOS (20_memory R55; a failed transaction leaves POS, log 9). -/
def pullByte (s : State) : Ran (Option Byte × State) := do
  let (good, s) ← transact .pull s
  if good then
    match s.src[s.pos]? with
    | some b => .ok (some b, { s with pos := s.pos + 1 })
    | none => .ok (none, s)
  else raise .ioIn s

/-- |SRC| as a 64-bit unsigned value (20_memory R56). A length of 2^64 or more has no stated value (log 11). -/
def lengthWord (n : Nat) : Word := if n < 2 ^ 64 then BitVec.ofNat 64 n else Config.longLength n

/-- `SrcLen()` (20_memory R56). -/
def srcLen (s : State) : Ran (Word × State) := do
  let (good, s) ← transact .length s
  if good && s.seekable then .ok (lengthWord s.src.length, s) else raise .ioIn s

/-- `SrcRewind()` (20_memory R56). -/
def srcRewind (s : State) : Ran State := do
  let (good, s) ← transact .rewind s
  if good && s.seekable then .ok { s with pos := 0 } else raise .ioIn s

/-- `PushByte(b)` (20_memory R57). -/
def pushByte (b : Byte) (s : State) : Ran State := do
  let (good, s) ← transact (.push b) s
  if good then .ok { s with sink := s.sink ++ [b] } else raise .ioOut s

/-! ## Fault entry (60_exceptions R233 to R238) -/

/-- A natural number brought into `[lo, lo + n - 1]`. -/
def intoRange (lo n x : Nat) : Nat := lo + x % n

/-- The pairs of a list whose key is not empty, whose number is a node of a dictionary of `size` nodes, and whose key no
later pair has: a finite map (10_state R35). -/
def asIndex (size : Nat) (l : List (List Byte × Nat)) : List (List Byte × Nat) :=
  l.foldr (fun kv acc => if kv.1 = [] ∨ kv.2 = 0 ∨ size < kv.2 ∨ acc.any (fun x => x.1 == kv.1) then acc else kv :: acc) []

/-- The state an execution fault leaves: "any value consistent with their types and ranges" in RES0, RES1, RPEND, HW,
COUNTS, TW, NODES, STRAT, LZNODES, LZINDEX and PB (60_exceptions R236), and in WPEND after IO_OUT (R237). Every such value
is a free value of Config brought into its range; the rest of the state stays (log 6). -/
def residue (code : FaultCode) (s : State) : State :=
  let n := s.fresh
  let hw := intoRange 0 (s.params.maxHistW + 1) (Config.residueHw n)
  let tw := intoRange 0 (s.params.maxHistW + 1) (Config.residueTw n)
  let leaves := 2 ^ tw
  let lznodes := (Config.residueLzNodes n).take s.params.dictCap
  { s with
    fresh := n + 1
    res0 := Config.residueRes0 n
    res1 := Config.residueRes1 n
    rpend := (Config.residueRpend n).take 7
    wpend := if code = .ioOut then (Config.residueWpend n).take 7 else s.wpend
    hw := hw
    counts := if hw = 0 then [] else (List.range (2 ^ hw)).map (Config.residueCount n)
    tw := tw
    nodes :=
      if tw = 0 then []
      else (List.range (leaves - 1)).map fun i =>
        { left := intoRange 1 (2 * (leaves - 1)) (Config.residueNode n i).left
          right := intoRange 1 (2 * (leaves - 1)) (Config.residueNode n i).right }
    strat := Config.residueStrat n
    lznodes := lznodes
    lzindex := asIndex lznodes.length (Config.residueLzIndex n)
    pb := (Config.residuePb n).take s.params.pbCap }

/-- The fault flush (60_exceptions R237): the pending bits are pushed once, padded with zero bits. If the push fails, the
byte is not delivered, and that failure is never recorded (R238). -/
def faultFlush (s : State) : Ran State :=
  if s.wpend.length = 0 then .ok s
  else
    match pushByte (valByte (padByte s.wpend)) s with
    | .ok s' => .ok { s' with wpend := [] }
    | .error ⟨.fault _ _, s'⟩ => .ok { s' with wpend := [] }
    | .error ⟨.hung, s'⟩ => .error ⟨.hung, s'⟩
    | .error ⟨.wasReset, s'⟩ => .error ⟨.wasReset, s'⟩
    | .error ⟨.refused r, s'⟩ => .error ⟨.refused r, s'⟩
    | .error ⟨.broken f, s'⟩ => .error ⟨.broken f, s'⟩

/-- BUSY <- 0 and DONE <- 1: the end of a command, completed (40_control R123) or faulted (60_exceptions R234). -/
def endCommand (s : State) : State := { s with busy := false, done := true }

/-- The fault record of 60_exceptions R234. -/
def recordFault (op : Byte) (code : FaultCode) (s : State) : State :=
  { s with err := true, errcode := code, errop := op }

/-- `Fault(code)` of the command with opcode `op` (60_exceptions R234). -/
def takeFault (op : Byte) (code : FaultCode) (keep : Bool) (s : State) : Ran State := do
  let s := recordFault op code s
  let s := if keep then s else residue code s
  let s ← if code = .ioOut then .ok s else faultFlush s
  .ok (endCommand s)

/-! ## The lifecycle of a command (40_control R120 to R123) -/

/-- Acceptance (40_control R121). -/
def accept (s : State) : State := clearFlags { s with busy := true, done := false }

/-- The first list of `overlaps` is what the host does while this command runs, before its first port transaction
(log 4). -/
def overlap (s : State) : Ran State := whileBusy (s.overlaps.headD []) { s with overlaps := s.overlaps.tail }

/-- What a step answers for a command that stopped without a fault of the block. A command that waits for ever leaves
BUSY = 1; a reset has happened already. -/
def stopOutcome (h : Halt) : Host.Outcome State Fault Refusal :=
  match h.why with
  | .fault _ _ => .next h.st
  | .hung => .next h.st
  | .wasReset => .next h.st
  | .refused r => .refused r
  | .broken f => .fault f

/-- The outcome of a fault entry, which the host or a port may cut short. -/
def faultOutcome (r : Ran State) : Host.Outcome State Fault Refusal :=
  match r with
  | .ok s => .next s
  | .error h => stopOutcome h

/-- Completion (40_control R123), fault entry (60_exceptions R234), or another stop. -/
def finish (op : Byte) (r : Ran State) : Host.Outcome State Fault Refusal :=
  match r with
  | .ok s => .next (endCommand s)
  | .error ⟨.fault code keep, s⟩ => faultOutcome (takeFault op code keep s)
  | .error ⟨.hung, s⟩ => stopOutcome ⟨.hung, s⟩
  | .error ⟨.wasReset, s⟩ => stopOutcome ⟨.wasReset, s⟩
  | .error ⟨.refused r, s⟩ => stopOutcome ⟨.refused r, s⟩
  | .error ⟨.broken f, s⟩ => stopOutcome ⟨.broken f, s⟩

/-- One run of the command with opcode `op` and this rule, from its acceptance to its end (40_control R120). -/
def runCommand (op : Byte) (rule : State → Ran State) (s : State) : Host.Outcome State Fault Refusal :=
  finish op (overlap (accept s) >>= rule)

/-- A command word that is no command: accepted, then the fault ILLEGAL_CMD with ERROP = CMD[7:0] (30_encoding R83,
60_exceptions R234, R235). -/
def illegalCommand (c : Word) (s : State) : Host.Outcome State Fault Refusal :=
  runCommand (c.setWidth 8) (raiseKeeping .illegalCmd) s

/-! ## What the machine does next -/

/-- The next thing a step does. -/
inductive Fetched where
  /-- The host issues this command word, and the block accepts it. -/
  | command (c : Word) (s : State)
  /-- Anything else: the outcome of the step. -/
  | other (o : Host.Outcome State Fault Refusal)

/-- The outcome of an action of the host that issues no command. -/
def replyOutcome (r : Reply) : Host.Outcome State Fault Refusal :=
  match r with
  | .goOn s => .next s
  | .wasReset s => .next s
  | .refuse q => .refused q

/-- The first action of `host`. With none left the block is idle (70_reset R271; log 14). -/
def fetch (s : State) : Fetched :=
  match s.host with
  | [] => .other (.next s)
  | a :: rest =>
    match commandOf s a with
    | some c => .command c (respond .ack { s with host := rest })
    | none => .other (replyOutcome (hostAction a { s with host := rest }))

/-- The command word `c` stored where the next step finds it: the host writes it to CMD next, and the block accepts it
(BUSY = 0, ERR = 0, RST released). -/
def placeCommand (c : Word) (s : State) : State :=
  { s with
    host := .write s.params.base 8 c :: s.host
    rst := false, busy := false, inflight := none, err := false, errcode := .none, errop := 0 }

end Sys2Proof.Machine
end

