-- ==== Sys2Proof/Machine/Bitstream.lean ====
section
/-! DEFINITION. The bit writer and the bit reader, and their commands (41_bitstream). -/

namespace Sys2Proof.Machine

/-! ## Writer -/

/-- One bit into the writer: a byte is pushed as soon as its eighth bit is written (41_bitstream R130, R131). -/
def putBit (b : Bool) (s : State) : Ran State :=
  let w := s.wpend ++ [b]
  if w.length = 8 then do
    let s ← pushByte (valByte w) s
    .ok { s with wpend := [] }
  else .ok { s with wpend := w }

/-- A bit string into the writer, first bit first (41_bitstream R131). -/
def putString : Bits → State → Ran State
  | [], s => .ok s
  | b :: bs, s => do
    let s ← putBit b s
    putString bs s

/-- `PutBits(v, n)` (41_bitstream R131). -/
def putBits (v n : Nat) (s : State) : Ran State := putString (bin n v) s

/-- `Flush()` (41_bitstream R133). -/
def flush (s : State) : Ran State :=
  if s.wpend.length = 0 then .ok s
  else do
    let s' ← pushByte (valByte (padByte s.wpend)) s
    .ok { s' with wpend := [] }

/-! ## Reader -/

/-- The pulling loop of GetBits: one byte at a time, while RPEND holds fewer than `n` bits (41_bitstream R135). The first
argument bounds the turns: each adds 8 bits, so `n` turns are enough. -/
def fill : Nat → Nat → State → Ran State
  | 0, _, s => .ok s
  | fuel + 1, n, s =>
    if s.rpend.length < n then do
      let (r, s) ← pullByte s
      match r with
      | none => raise .endOfStream s
      | some b => fill fuel n { s with rpend := s.rpend ++ binByte b }
    else .ok s

/-- The first `n` bits of RPEND leave it. -/
def takeBits (n : Nat) (s : State) : Nat × State :=
  (val (s.rpend.take n), { s with rpend := s.rpend.drop n })

/-- `GetBits(n)` (41_bitstream R135). -/
def getBits (n : Nat) (s : State) : Ran (Nat × State) := do
  let s ← fill n n s
  .ok (takeBits n s)

/-- The pulling loop of NextWord: it also ends, with `false`, at the end of IN (41_bitstream R137). The first argument
bounds the turns as in `fill`. -/
def fillOrEnd : Nat → Nat → State → Ran (Bool × State)
  | 0, _, s => .ok (true, s)
  | fuel + 1, w, s =>
    if s.rpend.length < w then do
      let (r, s) ← pullByte s
      match r with
      | none => .ok (false, s)
      | some b => fillOrEnd fuel w { s with rpend := s.rpend ++ binByte b }
    else .ok (true, s)

/-- `NextWord(w)`: a value and its count of bits, 0 at the end (41_bitstream R137). -/
def nextWord (w : Nat) (s : State) : Ran ((Nat × Nat) × State) := do
  let (full, s) ← fillOrEnd w w s
  if full then
    let (v, s) := takeBits w s
    .ok ((v, w), s)
  else .ok ((val s.rpend, s.rpend.length), { s with rpend := [] })

/-- The bits the reader can still deliver: an upper bound of the turns of every loop that reads (40_control R124). -/
def inputBits (s : State) : Nat := s.rpend.length + 8 * (s.src.length - s.pos)

/-- RES0 <- v. -/
def setRes0 (v : Word) (s : State) : State := { s with res0 := v }

/-- RES1 <- v. -/
def setRes1 (v : Word) (s : State) : State := { s with res1 := v }

/-! ## Commands -/

/-- BW.WRITE (41_bitstream R132). -/
def bwWriteRule (n : Nat) (s : State) : Ran State := do
  require (n ≤ 64) .invalidParam s
  putBits (arg0Nat s) n s

/-- BW.WRITE (41_bitstream R132). -/
def execBwWrite (n : Nat) (s : State) : Host.Outcome State Fault Refusal := runCommand 0x10 (bwWriteRule n) s

/-- BW.FLUSH (41_bitstream R134). -/
def execBwFlush (s : State) : Host.Outcome State Fault Refusal := runCommand 0x11 flush s

/-- BR.READ (41_bitstream R136). -/
def brReadRule (n : Nat) (s : State) : Ran State := do
  require (n ≤ 64) .invalidParam s
  let (v, s) ← getBits n s
  .ok (setRes0 (BitVec.ofNat 64 v) s)

/-- BR.READ (41_bitstream R136). -/
def execBrRead (n : Nat) (s : State) : Host.Outcome State Fault Refusal := runCommand 0x12 (brReadRule n) s

/-- BR.WORD (41_bitstream R138). -/
def brWordRule (w : Nat) (s : State) : Ran State := do
  require (1 ≤ w ∧ w ≤ 64) .invalidParam s
  let ((v, k), s) ← nextWord w s
  .ok (setEnd (k == 0) (setRes1 (BitVec.ofNat 64 k) (setRes0 (BitVec.ofNat 64 v) s)))

/-- BR.WORD (41_bitstream R138). -/
def execBrWord (w : Nat) (s : State) : Host.Outcome State Fault Refusal := runCommand 0x13 (brWordRule w) s

/-- IN.REWIND (41_bitstream R139). -/
def inRewindRule (s : State) : Ran State := do
  let s ← srcRewind s
  .ok { s with rpend := [] }

/-- IN.REWIND (41_bitstream R139). -/
def execInRewind (s : State) : Host.Outcome State Fault Refusal := runCommand 0x14 inRewindRule s

/-- IN.LENGTH (41_bitstream R140). -/
def inLengthRule (s : State) : Ran State := do
  let (n, s) ← srcLen s
  .ok (setRes0 n s)

/-- IN.LENGTH (41_bitstream R140). -/
def execInLength (s : State) : Host.Outcome State Fault Refusal := runCommand 0x15 inLengthRule s

end Sys2Proof.Machine
end

