-- ==== Sys2Proof/Machine/Control.lean ====
section
/-! DEFINITION. NOP (40_control R127). -/

namespace Sys2Proof.Machine

/-- NOP: nothing beyond acceptance and completion (40_control R127). -/
def nopRule (s : State) : Ran State := .ok s

/-- NOP (40_control R127). -/
def execNop (s : State) : Host.Outcome State Fault Refusal := runCommand 0x01 nopRule s

end Sys2Proof.Machine
end

