-- ==== Sys2Proof/Machine/Dictionary.lean ====
section
/-! DEFINITION. The LZ78 dictionary, its pruning arbiter and the phrase buffer (46_lz78_dictionary). -/

namespace Sys2Proof.Machine

/-- SIZE (10_state R35). -/
def dictSize (s : State) : Nat := s.lznodes.length

/-- The value of a key of LZINDEX, if it is one (10_state R35). -/
def indexLookup : List (List Byte × Nat) → List Byte → Option Nat
  | [], _ => none
  | (key, k) :: rest, ph => if key = ph then some k else indexLookup rest ph

/-- `LZNODES <- empty; SIZE <- 0; LZINDEX <- empty` (46_lz78_dictionary R201, R202). -/
def clearDictionary (s : State) : State := { s with lznodes := [], lzindex := [] }

/-- `LzInit(v)` (46_lz78_dictionary R201). -/
def dictInit (v : Word) (s : State) : State := clearDictionary { s with strat := v }

/-- What LzAdd returns (46_lz78_dictionary R202). -/
inductive AddResult where
  /-- EXISTS. -/
  | known (s : State)
  /-- The pair (p, b): an insertion, or the literal of a frozen dictionary. -/
  | pair (p : Nat) (b : Byte) (s : State)
  /-- SIZE = DICT_CAP: F(CAPACITY), nothing changed. -/
  | full

/-- Step 1 of LzAdd, reset-on-limit (46_lz78_dictionary R202). -/
def dropIfFull (s : State) : State :=
  match strategyKind s.strat with
  | .dropAt n => if n ≤ dictSize s then clearDictionary s else s
  | .never => s
  | .freezeAt _ => s

/-- The test of step 2 of LzAdd, freeze-on-limit (46_lz78_dictionary R202). -/
def frozen (s : State) : Bool :=
  match strategyKind s.strat with
  | .freezeAt n => decide (n ≤ dictSize s)
  | .never => false
  | .dropAt _ => false

/-- The parent step 4 of LzAdd gives a new node: the node of the phrase less its last byte, 0 where that prefix is empty or
absent (46_lz78_dictionary R202). -/
def prefixNode (ph : List Byte) (s : State) : Nat :=
  if ph.dropLast = [] then 0 else (indexLookup s.lzindex ph.dropLast).getD 0

/-- `LzAdd(ph)` for a phrase that is not empty (46_lz78_dictionary R202). -/
def dictAdd (ph : List Byte) (s : State) : AddResult :=
  let b := ph.getLastD 0
  let s := dropIfFull s
  if frozen s then .pair 0 b s
  else
    match indexLookup s.lzindex ph with
    | some _ => .known s
    | none =>
      let p := prefixNode ph s
      if s.params.dictCap ≤ dictSize s then .full
      else
        .pair p b
          { s with
            lznodes := s.lznodes ++ [⟨p, b⟩]
            lzindex := s.lzindex ++ [(ph, dictSize s + 1)] }

/-- The loop of LzGet from node `i`, before `out`: `none` where the parent chain does not end at 0 within the turns the
first argument allows (46_lz78_dictionary R203; log 20). -/
def chain (nodes : List LzNode) : Nat → Nat → List Byte → Option (List Byte)
  | 0, i, out => if i = 0 then some out else none
  | fuel + 1, i, out =>
    if i = 0 then some out
    else
      match nodes[i - 1]? with
      | none => none
      | some nd => chain nodes fuel nd.parent (nd.byte :: out)

/-- `LzGet(i)`, `none` for NOTFOUND (46_lz78_dictionary R203). -/
def dictGet (i : Nat) (s : State) : Option (List Byte) :=
  if dictSize s < i then none else chain s.lznodes i i []

/-- `LzFind(ph)`, `none` for NOTFOUND (46_lz78_dictionary R204). -/
def dictFind (ph : List Byte) (s : State) : Option Nat := if ph = [] then some 0 else indexLookup s.lzindex ph

/-! ## Dictionary commands -/

/-- LZ.INIT (46_lz78_dictionary R205). -/
def lzInitRule (s : State) : Ran State := .ok (dictInit s.arg0 s)

/-- LZ.INIT (46_lz78_dictionary R205). -/
def execLzInit (s : State) : Host.Outcome State Fault Refusal := runCommand 0x60 lzInitRule s

/-- LZ.ADD (46_lz78_dictionary R206). Its CAPACITY fault changes no state (R202, 60_exceptions R232; log 8). -/
def lzAddRule (s : State) : Ran State := do
  require (1 ≤ s.pb.length) .invalidParam s
  match dictAdd s.pb s with
  | .known s => .ok (setRes1 0 (setRes0 0 (setExists s)))
  | .pair p b s => .ok (setRes1 (b.setWidth 64) (setRes0 (BitVec.ofNat 64 p) s))
  | .full => raiseKeeping .capacity s

/-- LZ.ADD (46_lz78_dictionary R206). -/
def execLzAdd (s : State) : Host.Outcome State Fault Refusal := runCommand 0x61 lzAddRule s

/-- LZ.GET (46_lz78_dictionary R207). -/
def lzGetRule (s : State) : Ran State :=
  match dictGet (arg0Nat s) s with
  | none => .ok (setRes0 0 (setNotFound s))
  | some ph => .ok (setRes0 (BitVec.ofNat 64 ph.length) { s with pb := ph })

/-- LZ.GET (46_lz78_dictionary R207). -/
def execLzGet (s : State) : Host.Outcome State Fault Refusal := runCommand 0x62 lzGetRule s

/-- LZ.FIND (46_lz78_dictionary R208). -/
def lzFindRule (s : State) : Ran State :=
  match dictFind s.pb s with
  | none => .ok (setRes0 0 (setNotFound s))
  | some k => .ok (setRes0 (BitVec.ofNat 64 k) s)

/-- LZ.FIND (46_lz78_dictionary R208). -/
def execLzFind (s : State) : Host.Outcome State Fault Refusal := runCommand 0x63 lzFindRule s

/-- LZ.SIZE (46_lz78_dictionary R209). -/
def lzSizeRule (s : State) : Ran State := .ok (setRes1 s.strat (setRes0 (BitVec.ofNat 64 (dictSize s)) s))

/-- LZ.SIZE (46_lz78_dictionary R209). -/
def execLzSize (s : State) : Host.Outcome State Fault Refusal := runCommand 0x64 lzSizeRule s

/-- LZNODES[k], nodes numbered from 1 (10_state R35). -/
def dictNode (k : Nat) (s : State) : Option LzNode := if k = 0 then none else s.lznodes[k - 1]?

/-- LZ.NODE (46_lz78_dictionary R210). -/
def lzNodeRule (s : State) : Ran State :=
  match dictNode (arg0Nat s) s with
  | some nd => .ok (setRes1 (nd.byte.setWidth 64) (setRes0 (BitVec.ofNat 64 nd.parent) s))
  | none => .ok (setRes1 0 (setRes0 0 (setNotFound s)))

/-- LZ.NODE (46_lz78_dictionary R210). -/
def execLzNode (s : State) : Host.Outcome State Fault Refusal := runCommand 0x65 lzNodeRule s

/-! ## Phrase buffer commands -/

/-- PB.CLEAR (46_lz78_dictionary R211). -/
def pbClearRule (s : State) : Ran State := .ok { s with pb := [] }

/-- PB.CLEAR (46_lz78_dictionary R211). -/
def execPbClear (s : State) : Host.Outcome State Fault Refusal := runCommand 0x68 pbClearRule s

/-- PB.PUSH (46_lz78_dictionary R212). -/
def pbPushRule (s : State) : Ran State := do
  require (s.pb.length < s.params.pbCap) .capacity s
  .ok { s with pb := s.pb ++ [arg0Byte s] }

/-- PB.PUSH (46_lz78_dictionary R212). -/
def execPbPush (s : State) : Host.Outcome State Fault Refusal := runCommand 0x69 pbPushRule s

/-- PB.GET (46_lz78_dictionary R213). -/
def pbGetRule (s : State) : Ran State :=
  let s' := setRes1 (BitVec.ofNat 64 s.pb.length) s
  match s.pb[arg0Nat s]? with
  | some b => .ok (setRes0 (b.setWidth 64) s')
  | none => .ok (setRes0 0 (setNotFound s'))

/-- PB.GET (46_lz78_dictionary R213). -/
def execPbGet (s : State) : Host.Outcome State Fault Refusal := runCommand 0x6A pbGetRule s

end Sys2Proof.Machine
end

