-- ==== Sys2Proof/Machine/Histogram.lean ====
section
/-! DEFINITION. The symbol histogram (43_histogram). -/

namespace Sys2Proof.Machine

/-- `HW <- W` and `COUNTS[x] <- 0` for every x in [0, 2^W - 1] (43_histogram R160, R162). -/
def clearHistogram (w : Nat) (s : State) : State := { s with hw := w, counts := List.replicate (2 ^ w) 0 }

/-- `COUNTS[v] <- COUNTS[v] + 1`, CAPACITY when the count would pass 2^64 - 1 (43_histogram R160). -/
def countWord (v : Nat) (s : State) : Ran State :=
  match s.counts[v]? with
  | none => broken .brokenHistogram s
  | some c => if c.toNat = 2 ^ 64 - 1 then raise .capacity s else .ok { s with counts := s.counts.set v (c + 1) }

/-- The loop of HistBuild (43_histogram R160); `total` is the number of words so far. The first argument bounds the turns:
each reads a bit or ends. -/
def histLoop (w : Nat) : Nat → Nat → State → Ran (Nat × State)
  | 0, total, s => .ok (total, s)
  | fuel + 1, total, s => do
    let ((v, k), s) ← nextWord w s
    if k = 0 then .ok (total, s)
    else
      let s ← countWord v s
      histLoop w fuel (total + 1) s

/-- `HistBuild(W)` (43_histogram R160). -/
def histBuild (w : Nat) (s : State) : Ran (Nat × State) :=
  let s := clearHistogram w s
  histLoop w (inputBits s + 1) 0 s

/-- HIST.BUILD (43_histogram R161). -/
def histBuildRule (w : Nat) (s : State) : Ran State := do
  require (1 ≤ w ∧ w ≤ s.params.maxHistW) .invalidParam s
  let (total, s) ← histBuild w s
  .ok (setRes0 (BitVec.ofNat 64 total) s)

/-- HIST.BUILD (43_histogram R161). -/
def execHistBuild (w : Nat) (s : State) : Host.Outcome State Fault Refusal := runCommand 0x30 (histBuildRule w) s

/-- HIST.CLEAR (43_histogram R162). -/
def histClearRule (w : Nat) (s : State) : Ran State := do
  require (1 ≤ w ∧ w ≤ s.params.maxHistW) .invalidParam s
  .ok (clearHistogram w s)

/-- HIST.CLEAR (43_histogram R162). -/
def execHistClear (w : Nat) (s : State) : Host.Outcome State Fault Refusal := runCommand 0x31 (histClearRule w) s

/-- HIST.SET (43_histogram R163). -/
def histSetRule (s : State) : Ran State := do
  require (s.hw ≠ 0) .state s
  require (arg0Nat s < 2 ^ s.hw) .invalidParam s
  if arg0Nat s < s.counts.length then .ok { s with counts := s.counts.set (arg0Nat s) s.arg1 }
  else broken .brokenHistogram s

/-- HIST.SET (43_histogram R163). -/
def execHistSet (s : State) : Host.Outcome State Fault Refusal := runCommand 0x32 histSetRule s

/-- HIST.GET (43_histogram R164). -/
def histGetRule (s : State) : Ran State := do
  require (s.hw ≠ 0) .state s
  require (arg0Nat s < 2 ^ s.hw) .invalidParam s
  match s.counts[arg0Nat s]? with
  | some c => .ok (setRes0 c s)
  | none => broken .brokenHistogram s

/-- HIST.GET (43_histogram R164). -/
def execHistGet (s : State) : Host.Outcome State Fault Refusal := runCommand 0x33 histGetRule s

end Sys2Proof.Machine
end

