-- ==== Sys2Proof/Machine/Tree.lean ====
section
/-! DEFINITION. The Huffman tree engine (44_huffman_tree). With TW = w there are 2^w symbols and N = 2^w - 1 internal
nodes. An index below N is an internal node; the index N + x is the leaf of symbol x. -/

namespace Sys2Proof.Machine

/-- N, the number of internal nodes of a tree of width `w` (00_scope glossary). -/
def internals (w : Nat) : Nat := 2 ^ w - 1

/-! ## Codes (44_huffman_tree R171) -/

/-- The node that has `i` as a child, and the branch to it, `false` for left; the nodes given begin at index `j`. -/
def parentFrom : List Node → Nat → Nat → Option (Nat × Bool)
  | [], _, _ => none
  | nd :: rest, j, i =>
    if nd.left = i then some (j, false)
    else if nd.right = i then some (j, true)
    else parentFrom rest (j + 1) i

/-- The branches from node 0 to index `i`, before `acc`: the unique path of R171, walked from its end. The first argument
bounds its length; a valid tree has paths of at most N steps. -/
def pathTo (nodes : List Node) : Nat → Nat → Bits → Option Bits
  | 0, i, acc => if i = 0 then some acc else none
  | fuel + 1, i, acc =>
    if i = 0 then some acc
    else
      match parentFrom nodes 0 i with
      | none => none
      | some (j, b) => pathTo nodes fuel j (b :: acc)

/-- `Code(x)` in a tree of width `w` (44_huffman_tree R171). `none` only where the tree is not valid. -/
def code (w : Nat) (nodes : List Node) (x : Nat) : Option Bits :=
  pathTo nodes (internals w) (internals w + x) []

/-! ## Validity (10_state R33) -/

/-- All left and right fields of NODES. -/
def children (nodes : List Node) : List Nat := nodes.flatMap fun nd => [nd.left, nd.right]

/-- 10_state R33: there are N entries; every index in [1, 2N] occurs exactly once among the fields, and no other index
occurs (so index 0 does not); and every index is reached from node 0. -/
def validTree (w : Nat) (nodes : List Node) : Bool :=
  nodes.length == internals w
    && (children nodes).all (fun i => decide (1 ≤ i) && decide (i ≤ 2 * internals w))
    && (List.range (2 * internals w)).all (fun i => (children nodes).count (i + 1) == 1)
    && (List.range (2 * internals w)).all (fun i => (pathTo nodes (internals w) (i + 1) []).isSome)

/-! ## Building (44_huffman_tree R172) -/

/-- An entry of the queue of TreeBuild. -/
structure QEntry where
  freq  : Nat
  id    : Nat
  index : Nat
deriving DecidableEq, Repr

/-- Entries are compared as the pairs (freq, id). -/
def QEntry.before (a b : QEntry) : Bool := decide (a.freq < b.freq) || (a.freq == b.freq && decide (a.id < b.id))

/-- The queue is a list, least entry first: an entry goes before the first entry that is not before it. -/
def enqueue (e : QEntry) : List QEntry → List QEntry
  | [] => [e]
  | f :: rest => if f.before e then f :: enqueue e rest else e :: f :: rest

/-- The first queue: one entry per symbol, zero counts included (44_huffman_tree R172). -/
def firstQueue (w : Nat) (counts : List Word) : List QEntry :=
  (List.range (2 ^ w)).foldr (fun x q => enqueue ⟨(counts.getD x 0).toNat, x, internals w + x⟩ q) []

/-- The loop of TreeBuild (44_huffman_tree R172). The first argument is the number of turns left, which is N - k; `acc` is
T[N - k], ..., T[N - 1]. -/
def mergeLoop (w : Nat) : Nat → List QEntry → List Node → List Node
  | left + 1, a :: b :: q, acc =>
    let k := internals w - (left + 1)
    mergeLoop w left (enqueue ⟨a.freq + b.freq, 2 ^ w + k, left⟩ q) (⟨a.index, b.index⟩ :: acc)
  | 0, _, acc => acc
  | _ + 1, [_], acc => acc
  | _ + 1, [], acc => acc

/-- NODES of the tree of a histogram of width `w` (44_huffman_tree R172, 92_eei_decisions D18, D19, D20). -/
def builtNodes (w : Nat) (counts : List Word) : List Node :=
  mergeLoop w (internals w) (firstQueue w counts) []

/-- `TreeBuild()` (44_huffman_tree R172). -/
def treeBuild (s : State) : State := { s with tw := s.hw, nodes := builtNodes s.hw s.counts }

/-! ## Serialization (44_huffman_tree R173, R174) -/

/-- The traversal of TreeWrite: the bits it writes, in order, for a stack of indices, top first (44_huffman_tree R173).
The first argument bounds the turns. `none` only where the tree is not valid. -/
def treeItems (w : Nat) (nodes : List Node) : Nat → List Nat → Option Bits
  | _, [] => some []
  | 0, _ :: _ => none
  | fuel + 1, i :: stack =>
    if internals w ≤ i then
      (treeItems w nodes fuel stack).map fun rest => true :: bin w (i - internals w) ++ rest
    else
      match nodes[i]? with
      | none => none
      | some nd => (treeItems w nodes fuel (nd.left :: nd.right :: stack)).map fun rest => false :: rest

/-- The bits TreeWrite writes: the 4-bit width field and the items of every node but the root (44_huffman_tree R173,
30_encoding R92). -/
def treeBits (w : Nat) (nodes : List Node) : Option Bits :=
  match nodes with
  | [] => none
  | root :: _ =>
    (treeItems w nodes (2 * internals w) [root.left, root.right]).map fun items => bin 4 (w - 2) ++ items

/-- `TreeWrite()` (44_huffman_tree R173). -/
def treeWrite (s : State) : Ran State :=
  match treeBits s.tw s.nodes with
  | none => broken .brokenTree s
  | some bits => putString bits s

/-- A node of TreeRead, its slots filled left first. -/
structure Slots where
  left  : Option Nat
  right : Option Nat
deriving DecidableEq, Repr

/-- The working variables of TreeRead (44_huffman_tree R174). -/
structure Rebuild where
  slots : List Slots
  next  : Nat
  seen  : List Nat
  stack : List Nat
deriving DecidableEq, Repr

/-- The first values of TreeRead's variables (44_huffman_tree R174). -/
def Rebuild.start (w : Nat) : Rebuild where
  slots := List.replicate (internals w) ⟨none, none⟩
  next  := 1
  seen  := []
  stack := [0]

/-- `T[t].left <- c`, or, where it is filled, `T[t].right <- c` and `t` leaves the stack; then `opened` is pushed
(44_huffman_tree R174). `t` is the top of the stack. -/
def Rebuild.place (r : Rebuild) (t : Nat) (rest : List Nat) (c : Nat) (opened : List Nat) : Rebuild :=
  match r.slots[t]? with
  | some ⟨none, right⟩ => { r with slots := r.slots.set t ⟨some c, right⟩, stack := opened ++ t :: rest }
  | some ⟨some l, _⟩ => { r with slots := r.slots.set t ⟨some l, some c⟩, stack := opened ++ rest }
  | none => { r with stack := opened ++ rest }

/-- The loop of TreeRead (44_huffman_tree R174). The first argument bounds the turns: each fills one of the 2N slots. -/
def rebuildLoop (w : Nat) : Nat → Rebuild → State → Ran (Rebuild × State)
  | _, ⟨slots, next, seen, []⟩, s => .ok (⟨slots, next, seen, []⟩, s)
  | 0, ⟨_, _, _, _ :: _⟩, s => raise .malformed s
  | fuel + 1, ⟨slots, next, seen, t :: rest⟩, s => do
    let (f, s) ← getBits 1 s
    if f = 1 then
      let (x, s) ← getBits w s
      if x ∈ seen then raise .malformed s
      else rebuildLoop w fuel (Rebuild.place ⟨slots, next, x :: seen, t :: rest⟩ t rest (internals w + x) []) s
    else if next = internals w then raise .malformed s
    else rebuildLoop w fuel (Rebuild.place ⟨slots, next + 1, seen, t :: rest⟩ t rest next [next]) s

/-- The finished nodes. When TreeRead completes every slot is filled. -/
def Rebuild.nodes (r : Rebuild) : List Node := r.slots.map fun t => ⟨t.left.getD 0, t.right.getD 0⟩

/-- `TreeRead()` (44_huffman_tree R174). -/
def treeRead (s : State) : Ran (Nat × State) := do
  let (f, s) ← getBits 4 s
  let w := f + 2
  let (r, s) ← rebuildLoop w (2 * internals w) (Rebuild.start w) s
  if r.next < internals w then raise .malformed s
  else .ok (w, { s with tw := w, nodes := r.nodes })

/-! ## Decoding a symbol (44_huffman_tree R176) -/

/-- The walk of TreeDecode from index `i`. The first argument bounds the turns; a valid tree has paths of at most N
steps. -/
def walk (w : Nat) (nodes : List Node) : Nat → Nat → State → Ran (Nat × State)
  | 0, i, s => if internals w ≤ i then .ok (i - internals w, s) else broken .brokenTree s
  | fuel + 1, i, s =>
    if internals w ≤ i then .ok (i - internals w, s)
    else do
      let (b, s) ← getBits 1 s
      match nodes[i]? with
      | none => broken .brokenTree s
      | some nd => walk w nodes fuel (if b = 0 then nd.left else nd.right) s

/-- `TreeDecode()` (44_huffman_tree R176). -/
def treeDecode (s : State) : Ran (Nat × State) := walk s.tw s.nodes (internals s.tw) 0 s

/-! ## Commands -/

/-- HT.BUILD (44_huffman_tree R172). -/
def htBuildRule (s : State) : Ran State := do
  require (s.hw ≠ 0) .state s
  .ok (treeBuild s)

/-- HT.BUILD (44_huffman_tree R172). -/
def execHtBuild (s : State) : Host.Outcome State Fault Refusal := runCommand 0x40 htBuildRule s

/-- HT.WRITE (44_huffman_tree R173). -/
def htWriteRule (s : State) : Ran State := do
  require (s.tw ≠ 0) .state s
  require (2 ≤ s.tw ∧ s.tw ≤ 17) .invalidParam s
  treeWrite s

/-- HT.WRITE (44_huffman_tree R173). -/
def execHtWrite (s : State) : Host.Outcome State Fault Refusal := runCommand 0x41 htWriteRule s

/-- HT.READ (44_huffman_tree R174). -/
def htReadRule (s : State) : Ran State := do
  let (w, s) ← treeRead s
  .ok (setRes0 (BitVec.ofNat 64 w) s)

/-- HT.READ (44_huffman_tree R174). -/
def execHtRead (s : State) : Host.Outcome State Fault Refusal := runCommand 0x42 htReadRule s

/-- The checks HT.ENC and HT.CODE share, and the code of symbol ARG0 (44_huffman_tree R175, R177). -/
def codeOperand (s : State) : Ran Bits := do
  require (s.tw ≠ 0) .state s
  require (arg0Nat s < 2 ^ s.tw) .noEntry s
  match code s.tw s.nodes (arg0Nat s) with
  | none => broken .brokenTree s
  | some c =>
    require (c.length ≤ s.params.maxCodeLen) .capacity s
    .ok c

/-- HT.ENC (44_huffman_tree R175). -/
def htEncRule (s : State) : Ran State := do
  let c ← codeOperand s
  putBits (val c) c.length s

/-- HT.ENC (44_huffman_tree R175). -/
def execHtEnc (s : State) : Host.Outcome State Fault Refusal := runCommand 0x43 htEncRule s

/-- HT.DEC (44_huffman_tree R176). -/
def htDecRule (s : State) : Ran State := do
  require (s.tw ≠ 0) .state s
  let (x, s) ← treeDecode s
  .ok (setRes0 (BitVec.ofNat 64 x) s)

/-- HT.DEC (44_huffman_tree R176). -/
def execHtDec (s : State) : Host.Outcome State Fault Refusal := runCommand 0x44 htDecRule s

/-- HT.CODE (44_huffman_tree R177). -/
def htCodeRule (s : State) : Ran State := do
  let c ← codeOperand s
  .ok (setRes1 (BitVec.ofNat 64 c.length) (setRes0 (BitVec.ofNat 64 (val c)) s))

/-- HT.CODE (44_huffman_tree R177). -/
def execHtCode (s : State) : Host.Outcome State Fault Refusal := runCommand 0x45 htCodeRule s

/-- HT.NODE (44_huffman_tree R178). -/
def htNodeRule (s : State) : Ran State := do
  require (s.tw ≠ 0) .state s
  require (arg0Nat s < 2 ^ s.tw - 1) .invalidParam s
  match s.nodes[arg0Nat s]? with
  | none => broken .brokenTree s
  | some nd => .ok (setRes1 (BitVec.ofNat 64 nd.right) (setRes0 (BitVec.ofNat 64 nd.left) s))

/-- HT.NODE (44_huffman_tree R178). -/
def execHtNode (s : State) : Host.Outcome State Fault Refusal := runCommand 0x46 htNodeRule s

end Sys2Proof.Machine
end

