-- ==== Sys2Proof/Machine/HuffmanCodec.lean ====
section
/-! DEFINITION. The Huffman container codec (45_huffman_codec). -/

namespace Sys2Proof.Machine

/-- The container commands start from a byte-aligned writer and reader (45_huffman_codec R190, 92_eei_decisions D24). -/
def requireAligned (s : State) : Ran Unit := require (s.wpend.length = 0 ∧ s.rpend.length = 0) .state s

/-- The code of one symbol, written bit by bit, whatever its length (45_huffman_codec R191). -/
def putCode (x : Nat) (s : State) : Ran State :=
  match code s.tw s.nodes x with
  | none => broken .brokenTree s
  | some c => putString c s

/-- The second pass of HUF.COMP (45_huffman_codec R191). The first argument bounds the turns: each reads a bit or ends. -/
def codeLoop (w : Nat) : Nat → State → Ran State
  | 0, s => .ok s
  | fuel + 1, s => do
    let ((v, k), s) ← nextWord w s
    if k = 0 then .ok s
    else
      let s ← putCode v s
      codeLoop w fuel s

/-- HUF.COMP (45_huffman_codec R191). -/
def hufCompRule (w : Nat) (s : State) : Ran State := do
  require (2 ≤ w ∧ w ≤ 17) .invalidParam s
  requireAligned s
  let (l, s) ← srcLen s
  let s ← srcRewind s
  let (_, s) ← histBuild w s
  let s := treeBuild s
  let s ← srcRewind s
  let s := { s with rpend := [] }
  let s ← putBits l.toNat 64 s
  let s ← treeWrite s
  let s ← codeLoop w (inputBits s + 1) s
  let s ← flush s
  .ok (setRes0 l s)

/-- HUF.COMP (45_huffman_codec R191). -/
def execHufComp (w : Nat) (s : State) : Host.Outcome State Fault Refusal := runCommand 0x50 (hufCompRule w) s

/-- The loop of HUF.DECOMP (45_huffman_codec R192): `rem` bits are still to be written. The first argument bounds the turns:
each writes at least one bit. -/
def decodeLoop (w : Nat) : Nat → Nat → State → Ran State
  | 0, _, s => .ok s
  | fuel + 1, rem, s =>
    if rem = 0 then .ok s
    else do
      let (x, s) ← treeDecode s
      let n := min w rem
      let s ← putBits x n s
      decodeLoop w fuel (rem - n) s

/-- HUF.DECOMP (45_huffman_codec R192). -/
def hufDecompRule (s : State) : Ran State := do
  requireAligned s
  let (l, s) ← getBits 64 s
  let (w, s) ← treeRead s
  let s ← decodeLoop w (8 * l) (8 * l) s
  let s := { s with rpend := [] }
  .ok (setRes1 (BitVec.ofNat 64 w) (setRes0 (BitVec.ofNat 64 l) s))

/-- HUF.DECOMP (45_huffman_codec R192). -/
def execHufDecomp (s : State) : Host.Outcome State Fault Refusal := runCommand 0x51 hufDecompRule s

end Sys2Proof.Machine
end

