-- ==== Sys2Proof/Machine/Universal.lean ====
section
/-! DEFINITION. Elias gamma and zigzag (42_universal). -/

namespace Sys2Proof.Machine

/-- `GammaPut(v)` (42_universal R151). -/
def gammaPut (v : Nat) (s : State) : Ran State := do
  let x := v + 1
  let l := bitLength x - 1
  let s ← putBits 0 l s
  putBits x (l + 1) s

/-- The counting loop of GammaGet: the zero bits before the first one bit, MALFORMED at the 64th (42_universal R153). The
first argument is how many more zero bits are allowed, the second how many were read. -/
def gammaZeros : Nat → Nat → State → Ran (Nat × State)
  | 0, _, s => raise .malformed s
  | left + 1, l, s => do
    let (b, s) ← getBits 1 s
    if b = 1 then .ok (l, s) else gammaZeros left (l + 1) s

/-- `GammaGet()` (42_universal R153). -/
def gammaGet (s : State) : Ran (Nat × State) := do
  let (l, s) ← gammaZeros 64 0 s
  if l = 0 then .ok (0, s)
  else
    let (r, s) ← getBits l s
    .ok (2 ^ l + r - 1, s)

/-- `zz(s)` (42_universal R155). -/
def zz (s : Int) : Nat := if 0 ≤ s then (2 * s).toNat else (-2 * s - 1).toNat

/-- `unzz(u)` (42_universal R157). -/
def unzz (u : Nat) : Int := if u % 2 = 0 then Int.ofNat (u / 2) else -Int.ofNat (u / 2) - 1

/-- GAMMA.ENC (42_universal R152). -/
def gammaEncRule (s : State) : Ran State := do
  require (arg0Nat s ≤ 2 ^ 64 - 2) .invalidParam s
  gammaPut (arg0Nat s) s

/-- GAMMA.ENC (42_universal R152). -/
def execGammaEnc (s : State) : Host.Outcome State Fault Refusal := runCommand 0x20 gammaEncRule s

/-- GAMMA.DEC (42_universal R154). -/
def gammaDecRule (s : State) : Ran State := do
  let (v, s) ← gammaGet s
  .ok (setRes0 (BitVec.ofNat 64 v) s)

/-- GAMMA.DEC (42_universal R154). -/
def execGammaDec (s : State) : Host.Outcome State Fault Refusal := runCommand 0x21 gammaDecRule s

/-- ZZ.ENC (42_universal R156). -/
def zzEncRule (s : State) : Ran State := .ok (setRes0 (BitVec.ofNat 64 (zz (arg0Int s))) s)

/-- ZZ.ENC (42_universal R156). -/
def execZzEnc (s : State) : Host.Outcome State Fault Refusal := runCommand 0x22 zzEncRule s

/-- ZZ.DEC (42_universal R158). -/
def zzDecRule (s : State) : Ran State := .ok (setRes0 (bits64 (unzz (arg0Nat s))) s)

/-- ZZ.DEC (42_universal R158). -/
def execZzDec (s : State) : Host.Outcome State Fault Refusal := runCommand 0x23 zzDecRule s

end Sys2Proof.Machine
end

