-- ==== Sys2Proof/Machine/Lz78Codec.lean ====
section
/-! DEFINITION. The LZ78 phrase encoder and decoder (47_lz78_codec). -/

namespace Sys2Proof.Machine

/-- The bytes of a phrase into the writer, 8 bits each (47_lz78_codec R222). -/
def putBytes : List Byte → State → Ran State
  | [], s => .ok s
  | b :: bs, s => do
    let s ← putBits b.toNat 8 s
    putBytes bs s

/-- The loop of LZ.ENC (47_lz78_codec R221). The first argument bounds the turns: each pulls a byte or ends. -/
def lzEncLoop : Nat → State → Ran State
  | 0, s => .ok s
  | fuel + 1, s => do
    let (r, s) ← pullByte s
    match r with
    | none => .ok s
    | some b =>
      let s := { s with pb := s.pb ++ [b] }
      match dictAdd s.pb s with
      | .known s => lzEncLoop fuel s
      | .full => raise .capacity s
      | .pair p lit s =>
        let s ← gammaPut p s
        let s ← putBits lit.toNat 8 s
        lzEncLoop fuel { s with pb := [] }

/-- The end marker of LZ.ENC (47_lz78_codec R221). -/
def lzEncEnd (s : State) : Ran State :=
  if s.pb.length = 0 then gammaPut (dictSize s + 1) s
  else
    match dictFind s.pb s with
    | none => raise .state s
    | some j => do
      let s ← gammaPut (dictSize s + 2) s
      gammaPut j s

/-- LZ.ENC (47_lz78_codec R221). -/
def lzEncRule (s : State) : Ran State := do
  let v := s.arg0
  require (v ≠ 0x8000000000000000#64) .invalidParam s
  requireAligned s
  let s ← gammaPut (zz v.toInt) s
  let s := { dictInit v s with pb := [] }
  let s ← lzEncLoop (s.src.length - s.pos + 1) s
  let s ← lzEncEnd s
  let s ← flush s
  .ok (setRes0 (BitVec.ofNat 64 (dictSize s)) s)

/-- LZ.ENC (47_lz78_codec R221). -/
def execLzEnc (s : State) : Host.Outcome State Fault Refusal := runCommand 0x70 lzEncRule s

/-- `LzAdd(PB)` in LZ.DEC, whose result is not used (47_lz78_codec R222). -/
def lzDecAdd (s : State) : Ran State :=
  match dictAdd s.pb s with
  | .known s => .ok s
  | .pair _ _ s => .ok s
  | .full => raise .capacity s

/-- The phrase of a pair of LZ.DEC: the phrase of its index and the literal (47_lz78_codec R222). -/
def pairPhrase (i : Nat) (lit : Byte) (s : State) : Option (List Byte) :=
  if i = 0 then some [lit] else (dictGet i s).map fun ph => ph ++ [lit]

/-- The loop of LZ.DEC (47_lz78_codec R222). The first argument bounds the turns: each reads at least one bit. -/
def lzDecLoop : Nat → State → Ran State
  | 0, s => .ok s
  | fuel + 1, s => do
    let (i, s) ← gammaGet s
    if i = dictSize s + 1 then .ok s
    else if i = dictSize s + 2 then
      let (j, s) ← gammaGet s
      match dictGet j s with
      | none => raise .malformed s
      | some ph => putBytes ph { s with pb := ph }
    else
      let (lit, s) ← getBits 8 s
      match pairPhrase i (BitVec.ofNat 8 lit) s with
      | none => raise .malformed s
      | some ph =>
        let s ← putBytes ph { s with pb := ph }
        let s ← lzDecAdd s
        lzDecLoop fuel s

/-- LZ.DEC (47_lz78_codec R222). -/
def lzDecRule (s : State) : Ran State := do
  requireAligned s
  let (u, s) ← gammaGet s
  let v := bits64 (unzz u)
  let s := { dictInit v s with pb := [] }
  let s ← lzDecLoop (inputBits s + 1) s
  let s := { s with rpend := [] }
  .ok (setRes1 v (setRes0 (BitVec.ofNat 64 (dictSize s)) s))

/-- LZ.DEC (47_lz78_codec R222). -/
def execLzDec (s : State) : Host.Outcome State Fault Refusal := runCommand 0x71 lzDecRule s

end Sys2Proof.Machine
end

