-- ==== Sys2Proof/Machine/Dispatch.lean ====
section
/-! DEFINITION. One arm per command: its meaning. -/

namespace Sys2Proof.Machine

/-- The run of one command from its acceptance to its end (40_control R120), as the command word it was decoded from
(30_encoding R84) says. -/
def exec (i : Instr) (s : State) : Host.Outcome State Fault Refusal :=
  match i with
  | .nop => Sys2Proof.Machine.execNop s
  | .bwWrite n => Sys2Proof.Machine.execBwWrite n s
  | .bwFlush => Sys2Proof.Machine.execBwFlush s
  | .brRead n => Sys2Proof.Machine.execBrRead n s
  | .brWord w => Sys2Proof.Machine.execBrWord w s
  | .inRewind => Sys2Proof.Machine.execInRewind s
  | .inLength => Sys2Proof.Machine.execInLength s
  | .gammaEnc => Sys2Proof.Machine.execGammaEnc s
  | .gammaDec => Sys2Proof.Machine.execGammaDec s
  | .zzEnc => Sys2Proof.Machine.execZzEnc s
  | .zzDec => Sys2Proof.Machine.execZzDec s
  | .histBuild w => Sys2Proof.Machine.execHistBuild w s
  | .histClear w => Sys2Proof.Machine.execHistClear w s
  | .histSet => Sys2Proof.Machine.execHistSet s
  | .histGet => Sys2Proof.Machine.execHistGet s
  | .htBuild => Sys2Proof.Machine.execHtBuild s
  | .htWrite => Sys2Proof.Machine.execHtWrite s
  | .htRead => Sys2Proof.Machine.execHtRead s
  | .htEnc => Sys2Proof.Machine.execHtEnc s
  | .htDec => Sys2Proof.Machine.execHtDec s
  | .htCode => Sys2Proof.Machine.execHtCode s
  | .htNode => Sys2Proof.Machine.execHtNode s
  | .hufComp w => Sys2Proof.Machine.execHufComp w s
  | .hufDecomp => Sys2Proof.Machine.execHufDecomp s
  | .lzInit => Sys2Proof.Machine.execLzInit s
  | .lzAdd => Sys2Proof.Machine.execLzAdd s
  | .lzGet => Sys2Proof.Machine.execLzGet s
  | .lzFind => Sys2Proof.Machine.execLzFind s
  | .lzSize => Sys2Proof.Machine.execLzSize s
  | .lzNode => Sys2Proof.Machine.execLzNode s
  | .pbClear => Sys2Proof.Machine.execPbClear s
  | .pbPush => Sys2Proof.Machine.execPbPush s
  | .pbGet => Sys2Proof.Machine.execPbGet s
  | .lzEnc => Sys2Proof.Machine.execLzEnc s
  | .lzDec => Sys2Proof.Machine.execLzDec s

end Sys2Proof.Machine
end

