-- ==== Sys2Proof/Machine/Step.lean ====
section
/-! DEFINITION. One step: the next thing the host does. A write to CMD that the block accepts is decoded and its command
runs from acceptance to end in this one step (40_control R120, 30_encoding R83; log 4). -/

namespace Sys2Proof.Machine

/-- One step of the machine. -/
def step (s : State) : Host.Outcome State Fault Refusal :=
  match fetch s with
  | .command c s' =>
    match decode c with
    | .ok i => exec i s'
    | .error _ => illegalCommand c s'
  | .other o => o

/-- The state with a command word as the next thing the host writes to CMD, and the block ready to accept it (log 5). Bits
of the word above `nbits` are 0. -/
def State.withFetchWord (s : State) (nbits w : Nat) : State := placeCommand (BitVec.ofNat 64 (w % 2 ^ nbits)) s

end Sys2Proof.Machine
end

