-- ==== Sys2Proof/Safety.lean ====
section
/-! DEFINITION. The terms the statements use: the streams as bit strings, the effect of the primitives on ports that answer,
the states a fault leaves, which faults a command can raise, and the invariant. -/

namespace Sys2Proof.Machine

/-! ## Streams as bit strings -/

/-- The bits of a byte list in stream order (20_memory R60). -/
def bytesBits (l : List Byte) : Bits := l.flatMap binByte

/-- The input bit stream still to come (10_state R30). -/
def incoming (s : State) : Bits := s.rpend ++ bytesBits (s.src.drop s.pos)

/-- The complete bytes of a bit string. -/
def wholeBytes (bs : Bits) : List Byte :=
  (List.range (bs.length / 8)).map fun i => valByte ((bs.drop (8 * i)).take 8)

/-- What is left of a bit string after its complete bytes. -/
def tailBits (bs : Bits) : Bits := bs.drop (8 * (bs.length / 8))

/-- A bit string padded with zero bits to a byte boundary (41_bitstream R133). -/
def padBits (bs : Bits) : Bits := bs ++ bin ((8 - bs.length % 8) % 8) 0

/-- The groups of `w` bits of a bit string, the last one short where they do not come out even. The first argument bounds
their number. -/
def segments (w : Nat) : Nat → Bits → List Bits
  | 0, _ => []
  | n + 1, bs => if bs = [] then [] else bs.take w :: segments w n (bs.drop w)

/-- The words of a bit string: its full `w`-bit groups, then one short word (41_bitstream R137). -/
def wordsOf (w : Nat) (bs : Bits) : List Nat := (segments w bs.length bs).map val

/-- The Elias-gamma code of `v` (30_encoding R89). -/
def gammaCode (v : Nat) : Bits :=
  bin (bitLength (v + 1) - 1) 0 ++ bin (bitLength (v + 1)) (v + 1)

/-! ## Command words -/

/-- The unassigned opcodes, as 30_encoding R85 lists them. -/
abbrev unassigned (op : Nat) : Prop :=
  op = 0x00 ∨ (0x02 ≤ op ∧ op ≤ 0x0F) ∨ (0x16 ≤ op ∧ op ≤ 0x1F) ∨ (0x24 ≤ op ∧ op ≤ 0x2F)
    ∨ (0x34 ≤ op ∧ op ≤ 0x3F) ∨ (0x47 ≤ op ∧ op ≤ 0x4F) ∨ (0x52 ≤ op ∧ op ≤ 0x5F) ∨ op = 0x66 ∨ op = 0x67
    ∨ (0x6B ≤ op ∧ op ≤ 0x6F) ∨ 0x72 ≤ op

/-- The illegal command words of 30_encoding R85: an unassigned OP, CMD[63:16] not zero, or IMM8 not zero on a command
that does not use it (the six that do are BW.WRITE, BR.READ, BR.WORD, HIST.BUILD, HIST.CLEAR, HUF.COMP, R81). -/
abbrev illegalWord (c : Word) : Prop :=
  unassigned (c.toNat % 2 ^ 8) ∨ 2 ^ 16 ≤ c.toNat
    ∨ (c.toNat / 2 ^ 8 % 2 ^ 8 ≠ 0 ∧ c.toNat % 2 ^ 8 ∉ [0x10, 0x12, 0x13, 0x30, 0x31, 0x50])

/-! ## Ports that answer -/

/-- Every port transaction to come succeeds, and the host does nothing while a command runs. -/
abbrev State.Quiet (s : State) : Prop :=
  s.inflight = none ∧ (∀ o ∈ s.overlaps, o = []) ∧ ∀ d ∈ s.draws, d.during = [] ∧ d.answer = .ok

/-- A command that runs on such ports goes from acceptance to completion (40_control R121, R123): the flags are clear, BUSY
is 0 and DONE is 1. -/
def ran (s : State) : State :=
  { s with
    busy := false, done := true, endFlag := false, existsFlag := false, nfFlag := false, overlaps := s.overlaps.tail }

/-- The state after a bit string went through the writer (41_bitstream R130, R131). -/
def emit (bs : Bits) (s : State) : State :=
  { s with
    sink := s.sink ++ wholeBytes (s.wpend ++ bs)
    wpend := tailBits (s.wpend ++ bs)
    draws := s.draws.drop ((s.wpend ++ bs).length / 8) }

/-- The state after a flush of the writer (41_bitstream R133). -/
def flushed (s : State) : State :=
  if s.wpend = [] then s
  else { s with sink := s.sink ++ [valByte (padByte s.wpend)], wpend := [], draws := s.draws.tail }

/-- How many bytes GetBits(n) pulls (41_bitstream R135). -/
def pulls (n : Nat) (s : State) : Nat := (n - s.rpend.length + 7) / 8

/-- The state after the reader took the next `n` bits (41_bitstream R135). -/
def consume (n : Nat) (s : State) : State :=
  { s with
    rpend := (s.rpend ++ bytesBits ((s.src.drop s.pos).take (pulls n s))).drop n
    pos := s.pos + pulls n s
    draws := s.draws.drop (pulls n s) }

/-- The bits of a Huffman container before its padding (30_encoding R94): the length of `d` in 64 bits, the tree `tb` and
the code of every word of `d`. -/
def containerBits (w : Nat) (nodes : List Node) (tb : Bits) (d : List Byte) : Bits :=
  bin 64 d.length ++ tb ++ (wordsOf w (bytesBits d)).flatMap fun x => (code w nodes x).getD []

/-- One pair of an LZ78 container on the dictionary alone: the phrase it stands for and the dictionary after it
(47_lz78_codec R222). `none` where the index is out of range or the dictionary is full. -/
def playPair (p : Nat × Byte) (s : State) : Option (List Byte × State) :=
  match pairPhrase p.1 p.2 s with
  | none => none
  | some ph =>
    match dictAdd ph s with
    | .known s' => some (ph, s')
    | .pair _ _ s' => some (ph, s')
    | .full => none

/-- The pairs of an LZ78 container, first to last (30_encoding R95). -/
def playPairs : List (Nat × Byte) → State → Option (List (List Byte) × State)
  | [], s => some ([], s)
  | p :: ps, s =>
    match playPair p s with
    | none => none
    | some (ph, s') => (playPairs ps s').map fun r => (ph :: r.1, r.2)

/-- The strategy and the pairs of an LZ78 container (30_encoding R95). -/
def lzPairBits (v : Word) (ps : List (Nat × Byte)) : Bits :=
  gammaCode (zz v.toInt) ++ ps.flatMap fun p => gammaCode p.1 ++ binByte p.2

/-- The bits of an LZ78 container before its padding (30_encoding R95): the strategy, the pairs, and the end marker for a
dictionary of `size` nodes, at a phrase boundary or inside the phrase of node `j`. -/
def lzContainerBits (v : Word) (ps : List (Nat × Byte)) (size : Nat) (j : Option Nat) : Bits :=
  lzPairBits v ps
    ++ match j with
      | none => gammaCode (size + 1)
      | some i => gammaCode (size + 2) ++ gammaCode i

/-- Where the encoder stops extending a phrase (47_lz78_codec R221): every shorter part of `ph` is known to the dictionary of
`d`, and LzAdd of `ph` itself gives the pair `p`. -/
def endsPhrase (ph : List Byte) (p : Nat × Byte) (d : State) : Prop :=
  (∀ n, 1 ≤ n → n < ph.length → dictAdd (ph.take n) d = .known d) ∧ ∃ d', dictAdd ph d = .pair p.1 p.2 d'

/-! ## The merges of TreeBuild -/

/-- The order of the queue: pairs (freq, id) (44_huffman_tree R172). -/
def QEntry.less (a b : QEntry) : Prop := a.freq < b.freq ∨ (a.freq = b.freq ∧ a.id < b.id)

/-- 44_huffman_tree R172 as a relation, the queue a collection without order: it begins with one entry per symbol; turn `k`
takes the least entry and the next, makes them the left and the right child of node N - 1 - k, and puts back that node with
the sum of their frequencies and the id 2^w + k. -/
def mergesLeast (w : Nat) (counts : List Word) (nodes : List Node) : Prop :=
  ∃ q : Nat → List QEntry,
    (q 0).Perm ((List.range (2 ^ w)).map fun x => ⟨(counts.getD x 0).toNat, x, internals w + x⟩)
      ∧ ∀ k, k < internals w →
        ∃ a b rest, (q k).Perm (a :: b :: rest) ∧ a.less b ∧ (∀ e ∈ rest, b.less e)
          ∧ nodes[internals w - 1 - k]? = some ⟨a.index, b.index⟩
          ∧ (q (k + 1)).Perm (⟨a.freq + b.freq, 2 ^ w + k, internals w - 1 - k⟩ :: rest)

/-! ## Ports that fail -/

/-- Ports that answer `k` transactions with success and the next one as `d` says; `ds` are the draws after it. -/
def portsThen (k : Nat) (d : Draw) (ds : List Draw) (s : State) : State :=
  { s with draws := List.replicate k Draw.prompt ++ d :: ds }

/-- The commands that read IN, in the states where their first port transaction is one of IN (41_bitstream to
47_lz78_codec). For LZ.ENC the header must not fill a byte. -/
def firstIn (s : State) : Instr → Prop
  | .brRead n => s.rpend.length < n ∧ n ≤ 64
  | .brWord w => s.rpend.length < w ∧ w ≤ 64
  | .inRewind => True
  | .inLength => True
  | .gammaDec => s.rpend = []
  | .histBuild w => s.rpend.length < w ∧ w ≤ s.params.maxHistW
  | .htRead => s.rpend.length < 4
  | .htDec => s.tw ≠ 0 ∧ s.rpend = []
  | .hufComp w => 2 ≤ w ∧ w ≤ 17 ∧ s.wpend = [] ∧ s.rpend = []
  | .hufDecomp => s.wpend = [] ∧ s.rpend = []
  | .lzEnc =>
    s.arg0 ≠ 0x8000000000000000 ∧ s.wpend = [] ∧ s.rpend = [] ∧ (gammaCode (zz s.arg0.toInt)).length < 8
  | .lzDec => s.wpend = [] ∧ s.rpend = []
  | .nop | .bwWrite _ | .bwFlush | .gammaEnc | .zzEnc | .zzDec | .histClear _ | .histSet | .histGet | .htBuild
  | .htWrite | .htEnc | .htCode | .htNode | .lzInit | .lzAdd | .lzGet | .lzFind | .lzSize | .lzNode | .pbClear
  | .pbPush | .pbGet => False

/-- The bits begin with no serialization of a valid tree of width 2 to 17 (30_encoding R92, 44_huffman_tree R174), and they
are not too few: after the width TreeRead reads at most 2N flag bits, each with a symbol of W bits at most. -/
def noTree (bs : Bits) : Prop :=
  4 + 2 * internals (val (bs.take 4) + 2) * (1 + (val (bs.take 4) + 2)) ≤ bs.length
    ∧ ∀ w nodes bits, 2 ≤ w → w ≤ 17 → validTree w nodes = true → treeBits w nodes = some bits → ¬ bits <+: bs

/-! ## Faults -/

/-- The state a check fault leaves on ports that answer: the fault record, BUSY, DONE, the cleared flags and the flushed
writer (60_exceptions R234, R235, R237). -/
def checkFaulted (op : Byte) (code : FaultCode) (s : State) : State :=
  { ran (flushed s) with err := true, errcode := code, errop := op }

/-- The faults each command can raise (60_exceptions R232), beside ILLEGAL_CMD at decode. -/
def possibleFaults : Instr → List FaultCode
  | .nop => []
  | .bwWrite _ => [.invalidParam, .ioOut]
  | .bwFlush => [.ioOut]
  | .brRead _ => [.invalidParam, .ioIn, .endOfStream]
  | .brWord _ => [.invalidParam, .ioIn]
  | .inRewind => [.ioIn]
  | .inLength => [.ioIn]
  | .gammaEnc => [.invalidParam, .ioOut]
  | .gammaDec => [.ioIn, .endOfStream, .malformed]
  | .zzEnc => []
  | .zzDec => []
  | .histBuild _ => [.invalidParam, .ioIn, .capacity]
  | .histClear _ => [.invalidParam]
  | .histSet => [.state, .invalidParam]
  | .histGet => [.state, .invalidParam]
  | .htBuild => [.state]
  | .htWrite => [.state, .invalidParam, .ioOut]
  | .htRead => [.ioIn, .endOfStream, .malformed]
  | .htEnc => [.state, .noEntry, .capacity, .ioOut]
  | .htDec => [.state, .ioIn, .endOfStream]
  | .htCode => [.state, .noEntry, .capacity]
  | .htNode => [.state, .invalidParam]
  | .hufComp _ => [.invalidParam, .state, .ioIn, .capacity, .ioOut]
  | .hufDecomp => [.state, .ioIn, .endOfStream, .malformed, .ioOut]
  | .lzInit => []
  | .lzAdd => [.invalidParam, .capacity]
  | .lzGet => []
  | .lzFind => []
  | .lzSize => []
  | .lzNode => []
  | .pbClear => []
  | .pbPush => [.capacity]
  | .pbGet => []
  | .lzEnc => [.invalidParam, .state, .ioIn, .capacity, .ioOut]
  | .lzDec => [.state, .ioIn, .endOfStream, .malformed, .capacity, .ioOut]

/-! ## The invariant -/

/-- STATUS: BUSY holds exactly while a transaction waits for its answer; DONE and BUSY are never both 1; no fault record
without ERR (10_state R23); while RST is asserted the block has its reset values (70_reset R261). -/
abbrev State.StatusOk (s : State) : Prop :=
  s.params.wf = true
    ∧ s.busy = s.inflight.isSome
    ∧ (s.busy = true → s.done = false)
    ∧ (s.err = false → s.errcode = .none ∧ s.errop = 0)
    ∧ (s.rst = true → s = resetBlock false s)

/-- The writer holds 0 to 7 bits (10_state R29), the reader 0 to 7 bits between commands (R30), and POS is in SRC
(R39). -/
abbrev State.StreamsOk (s : State) : Prop :=
  s.wpend.length ≤ 7 ∧ (s.busy = false → s.rpend.length ≤ 7) ∧ s.pos ≤ s.src.length

/-- HW is 0 or a width, and COUNTS has 2^HW slots (10_state R31). -/
abbrev State.HistogramOk (s : State) : Prop :=
  s.hw ≤ s.params.maxHistW ∧ s.counts.length = if s.hw = 0 then 0 else 2 ^ s.hw

/-- TW is 0 or a width, NODES has 2^TW - 1 entries (10_state R32), and the tree is valid (R33), which an execution fault
does not promise (60_exceptions R236). -/
abbrev State.TreeOk (s : State) : Prop :=
  s.tw ≤ s.params.maxHistW ∧ s.nodes.length = internals s.tw
    ∧ (s.err = false → s.tw ≠ 0 → validTree s.tw s.nodes = true)

/-- SIZE is at most DICT_CAP (10_state R35); every parent is smaller than its node (R37), and LZINDEX maps one phrase, not
empty, to each node (R35, 46_lz78_dictionary R202), which an execution fault does not promise (60_exceptions R236). -/
abbrev State.DictionaryOk (s : State) : Prop :=
  s.lznodes.length ≤ s.params.dictCap
    ∧ (s.err = false →
        (∀ k, k < s.lznodes.length → ((s.lznodes[k]?).map LzNode.parent).getD 0 ≤ k)
          ∧ s.lzindex.map Prod.snd = List.range' 1 s.lznodes.length
          ∧ (s.lzindex.map Prod.fst).Nodup
          ∧ ∀ kv ∈ s.lzindex, kv.1 ≠ [])

/-- PB holds at most PB_CAP bytes (10_state R38). -/
abbrev State.PhraseOk (s : State) : Prop := s.pb.length ≤ s.params.pbCap

/-- The invariant of the machine. -/
abbrev State.Inv (s : State) : Prop :=
  s.StatusOk ∧ s.StreamsOk ∧ s.HistogramOk ∧ s.TreeOk ∧ s.DictionaryOk ∧ s.PhraseOk

end Sys2Proof.Machine
end

