-- ==== Sys2Proof/Certificates/Slice0/Obligations.lean ====
section
/-! DEFINITION. The statements for the provers. A statement "on ports that answer" has the hypothesis `Quiet`: every port
transaction to come succeeds, and the host does nothing while a command runs. What other ports and hosts do has statements
of its own. -/

open Sys2Proof Sys2Proof.Machine

/-! ## Command words (30_encoding) -/

/-- 30_encoding R80, R83, R86: the decoder reads back every command that has a word, with its IMM8. -/
def Obligations.EncodeThenDecode : Prop :=
  ∀ i : Instr, i.wf = true → decode (encode i) = .ok i

/-- 30_encoding R80, R83, R86: a word the decoder accepts is the word of the command it reads. -/
def Obligations.DecodeThenEncode : Prop :=
  ∀ (c : Word) (i : Instr), decode c = .ok i → i.wf = true ∧ encode i = c

/-- 30_encoding R85: the words the decoder refuses are exactly the illegal ones. -/
def Obligations.IllegalWordsAreRefused : Prop :=
  ∀ c : Word, (∃ e, decode c = .error e) ↔ illegalWord c

/-- 30_encoding R86 and the words 95_test_vectors P1, P2, P3, P7 give. -/
def Obligations.SampleWordsDecode : Prop :=
  decode 0x0D10 = .ok (.bwWrite 13) ∧ decode 0x0A50 = .ok (.hufComp 10) ∧ decode 0x70 = .ok .lzEnc
    ∧ decode 0x0A13 = .ok (.brWord 10) ∧ decode 0x20 = .ok .gammaEnc ∧ decode 0x0230 = .ok (.histBuild 2)
    ∧ decode 0x40 = .ok .htBuild ∧ decode 0x69 = .ok .pbPush ∧ decode 0x01 = .ok .nop
    ∧ decode 0x4112 = .ok (.brRead 65)

/-! ## One step (40_control, 20_memory) -/

/-- 40_control R121, 30_encoding R83: the host's next action is a write of `c` to CMD, and BUSY = 0, ERR = 0, RST released:
one step decodes `c` and runs its command, or faults. The queue of host actions is the model's own (DESIGN CHOICE, log 5). -/
def Obligations.StepRunsAcceptedCommand : Prop :=
  ∀ (s : State) (c : Word) (rest : List HostAction),
    s.host = .write s.params.base 8 c :: rest → s.rst = false → s.busy = false → s.err = false →
    (∀ i, decode c = .ok i → step s = exec i (respond .ack { s with host := rest }))
      ∧ (∀ e, decode c = .error e → step s = illegalCommand c (respond .ack { s with host := rest }))

/-- 30_encoding R83, R85, 60_exceptions R234, R235, R237: an illegal word faults ILLEGAL_CMD on ports that answer, with
ERROP = CMD[7:0]; nothing else changes but BUSY, DONE, the flags acceptance clears and the flushed writer. -/
def Obligations.IllegalWordFaults : Prop :=
  ∀ (s : State) (c : Word), s.Quiet → illegalWord c →
    illegalCommand c s = .next (checkFaulted (BitVec.ofNat 8 (c.toNat % 2 ^ 8)) .illegalCmd s)

/-- 40_control R122, 10_state R25: while BUSY = 1 a write to CMD, ARG0 or ARG1 changes nothing except DROP <- 1, and a
write to CTRL acts. -/
def Obligations.BusyBlockDropsWrites : Prop :=
  ∀ (s : State) (off : Nat) (v : Word) (rest : List HostAction),
    s.host = .write (s.params.base + off) 8 v :: rest → s.rst = false → s.busy = true →
    (off = 0x00 ∨ off = 0x08 ∨ off = 0x10 →
        step s = .next { s with host := rest, log := s.log ++ [.ack], drop := true })
      ∧ (off = 0x30 → v.getLsbD 0 = false →
        step s = .next { s with host := rest, log := s.log ++ [.ack], ie := v.getLsbD 1 })

/-- 10_state R20, R21, R23, R25, R26, 20_memory R51, 40_control R128, 60_exceptions R242: what a write to each register does
while BUSY = 0, also while ERR = 1; while ERR = 1 a write to CMD changes nothing. -/
def Obligations.IdleBlockTakesWrites : Prop :=
  ∀ (s : State) (off : Nat) (v : Word) (rest : List HostAction),
    s.host = .write (s.params.base + off) 8 v :: rest → s.rst = false → s.busy = false →
    (off = 0x00 → s.err = true → step s = .next { s with host := rest, log := s.log ++ [.ack] })
      ∧ (off = 0x08 → step s = .next { s with host := rest, log := s.log ++ [.ack], arg0 := v })
      ∧ (off = 0x10 → step s = .next { s with host := rest, log := s.log ++ [.ack], arg1 := v })
      ∧ (off = 0x18 ∨ off = 0x20 ∨ off = 0x28 ∨ off = 0x38 →
        step s = .next { s with host := rest, log := s.log ++ [.ack] })
      ∧ (off = 0x30 → v.getLsbD 0 = false →
        step s = .next { s with host := rest, log := s.log ++ [.ack], ie := v.getLsbD 1 })

/-- 20_memory R52: an access of the wrong size, at an offset that is no multiple of 8 or is unassigned, gets a bus error and
has no effect, whatever the block does. -/
def Obligations.BusErrorHasNoEffect : Prop :=
  ∀ (s : State) (off size : Nat) (v : Word) (rest : List HostAction) (a : HostAction),
    off < 0x100 → size ≠ 8 ∨ off % 8 ≠ 0 ∨ 0x40 ≤ off → s.rst = false →
    a = .read (s.params.base + off) size ∨ a = .write (s.params.base + off) size v → s.host = a :: rest →
    step s = .next { s with host := rest, log := s.log ++ [.busError] }

/-- 10_state R42, 70_reset R262: a write to CTRL with bit 0 set gives every piece of block state its reset value, CTRL.IE
the written bit, also while BUSY = 1 or ERR = 1. The host's SRC and SEEKABLE do not change, and without a transaction in
flight neither do POS and SINK. -/
def Obligations.SoftResetSetsEveryPiece : Prop :=
  ∀ (s : State) (v : Word) (rest : List HostAction),
    s.host = .write (s.params.base + 0x30) 8 v :: rest → s.rst = false → v.getLsbD 0 = true →
    ∃ t, step s = .next t
      ∧ t = { State.reset with
              params := s.params, ie := v.getLsbD 1, src := s.src, seekable := s.seekable, pos := t.pos, sink := t.sink,
              host := rest, log := s.log ++ [.ack], overlaps := s.overlaps, draws := s.draws, fresh := s.fresh }
      ∧ (s.inflight = none → t.pos = s.pos ∧ t.sink = s.sink)

/-- 70_reset R261, 10_state R42: asserting RST from any state gives every piece of block state its reset value; while it is
asserted a read of the window returns 0 and a write is lost; released, the block is at its reset values. That an access of a
bad size also reads 0 or is lost is DEDUCED (log 15). -/
def Obligations.HardwareResetSetsEveryPiece : Prop :=
  ∀ (s : State) (rest : List HostAction),
    (s.host = .assertRst :: rest →
        ∃ t, step s = .next t
          ∧ t = { State.reset with
                  params := s.params, src := s.src, seekable := s.seekable, pos := t.pos, sink := t.sink, rst := true,
                  host := rest, log := s.log, overlaps := s.overlaps, draws := s.draws, fresh := s.fresh }
          ∧ (s.inflight = none → t.pos = s.pos ∧ t.sink = s.sink))
      ∧ (∀ off size, off < 0x100 → s.rst = true → s.host = .read (s.params.base + off) size :: rest →
        step s = .next { s with host := rest, log := s.log ++ [.data 0] })
      ∧ (∀ off size v, off < 0x100 → s.rst = true → s.host = .write (s.params.base + off) size v :: rest →
        step s = .next { s with host := rest, log := s.log ++ [.ack] })
      ∧ (s.rst = true → s.inflight = none → s.host = .releaseRst :: rest →
        step s = .next
          { State.reset with
            params := s.params, src := s.src, seekable := s.seekable, pos := s.pos, sink := s.sink, host := rest,
            log := s.log, overlaps := s.overlaps, draws := s.draws, fresh := s.fresh })

/-- 20_memory R51, R54, 10_state R20 to R26: what a read of each register returns while BUSY = 0, without side effect, field
by field for STATUS, CTRL and CAPS. -/
def Obligations.IdleReadsShowRegisters : Prop :=
  ∀ (s : State) (off : Nat) (rest : List HostAction),
    s.Inv → s.host = .read (s.params.base + off) 8 :: rest → off % 8 = 0 → off < 0x40 → s.rst = false →
    s.busy = false →
    ∃ v : Word, step s = .next { s with host := rest, log := s.log ++ [.data v] }
      ∧ (off = 0x00 → v = 0) ∧ (off = 0x08 → v = s.arg0) ∧ (off = 0x10 → v = s.arg1)
      ∧ (off = 0x18 → v = s.res0) ∧ (off = 0x20 → v = s.res1)
      ∧ (off = 0x28 →
          v.toNat % 2 = 0 ∧ v.toNat / 2 % 2 = s.done.toNat ∧ v.toNat / 2 ^ 2 % 2 = s.err.toNat
            ∧ v.toNat / 2 ^ 3 % 2 = s.drop.toNat ∧ v.toNat / 2 ^ 4 % 2 ^ 4 = s.errcode.bits.toNat
            ∧ v.toNat / 2 ^ 8 % 2 ^ 8 = s.errop.toNat ∧ v.toNat / 2 ^ 16 % 2 = s.endFlag.toNat
            ∧ v.toNat / 2 ^ 17 % 2 = s.existsFlag.toNat ∧ v.toNat / 2 ^ 18 % 2 = s.nfFlag.toNat
            ∧ v.toNat / 2 ^ 19 % 2 = 0 ∧ v.toNat / 2 ^ 20 % 2 ^ 3 = s.rpend.length ∧ v.toNat / 2 ^ 23 % 2 = 0
            ∧ v.toNat / 2 ^ 24 % 2 ^ 3 = s.wpend.length ∧ v.toNat / 2 ^ 27 % 2 ^ 5 = 0
            ∧ v.toNat / 2 ^ 32 % 2 ^ 5 = s.hw ∧ v.toNat / 2 ^ 37 % 2 ^ 3 = 0 ∧ v.toNat / 2 ^ 40 % 2 ^ 5 = s.tw
            ∧ v.toNat / 2 ^ 45 = 0)
      ∧ (off = 0x30 → v.toNat = 2 * s.ie.toNat)
      ∧ (off = 0x38 →
          v.toNat = s.params.maxHistW + 2 ^ 8 * s.params.maxCodeLen + 2 ^ 16 * s.params.dictCap
            + 2 ^ 40 * s.params.pbCap)

/-- 40_control R125: a read while BUSY = 1 changes nothing of the block. STATUS shows BUSY and DROP; ARG0, ARG1, CTRL and
CAPS read as they are; the rest is a free value. -/
def Obligations.BusyReadsShowBusyAndDrop : Prop :=
  ∀ (s : State) (off : Nat) (rest : List HostAction),
    s.host = .read (s.params.base + off) 8 :: rest → off % 8 = 0 → off < 0x40 → s.rst = false → s.busy = true →
    ∃ v : Word, step s = .next { s with host := rest, log := s.log ++ [.data v], fresh := s.fresh + 1 }
      ∧ (off = 0x08 → v = s.arg0) ∧ (off = 0x10 → v = s.arg1)
      ∧ (off = 0x28 → v.getLsbD 0 = true ∧ v.getLsbD 3 = s.drop)
      ∧ (off = 0x30 → v = ctrlWord s) ∧ (off = 0x38 → v = capsWord s.params)

/-- 10_state R27, 60_exceptions R245, 40_control R121, R123: IRQ is CTRL.IE AND STATUS.DONE. On ports that answer an
accepted command, whichever it is, ends with IRQ = IE; setting IE while DONE = 1 raises it, clearing IE lowers it, and a
reset lowers it. -/
def Obligations.IrqFollowsIeAndDone : Prop :=
  (∀ s : State, irq s = (s.ie && s.done))
    ∧ (∀ (i : Instr) (s t : State), s.Quiet → exec i s = .next t → irq t = s.ie)
    ∧ (∀ (s : State) (v : Word), v.getLsbD 0 = false → ∀ t, writeCtrl v s = .goOn t → irq t = (v.getLsbD 1 && s.done))
    ∧ (∀ (s : State) (ie : Bool), irq (resetNow ie s) = false)

/-- 10_state R42, 70_reset R261: the block after reset. -/
def Obligations.ResetStateHasTheResetValues : Prop :=
  State.reset.arg0 = 0 ∧ State.reset.arg1 = 0 ∧ State.reset.res0 = 0 ∧ State.reset.res1 = 0
    ∧ statusWord State.reset = 0 ∧ State.reset.busy = false ∧ State.reset.done = false ∧ State.reset.err = false
    ∧ State.reset.ie = false ∧ irq State.reset = false ∧ State.reset.wpend = [] ∧ State.reset.rpend = []
    ∧ State.reset.hw = 0 ∧ State.reset.tw = 0 ∧ State.reset.strat = 0 ∧ State.reset.lznodes = []
    ∧ State.reset.lzindex = [] ∧ State.reset.pb = []

/-! ## Invariants every step keeps (10_state) -/

/-- The invariant holds at reset. The parameters and the host's ports there are DESIGN CHOICE (log 1, log 2). -/
def Obligations.InvariantHoldsAtReset : Prop := State.reset.Inv

/-- 10_state R23, 40_control R121, R123, 60_exceptions R234, 70_reset R261. -/
def Obligations.StepKeepsStatusOk : Prop :=
  ∀ s s' : State, s.Inv → step s = .next s' → s'.StatusOk

/-- 10_state R29, R30, R39. -/
def Obligations.StepKeepsStreamsOk : Prop :=
  ∀ s s' : State, s.Inv → step s = .next s' → s'.StreamsOk

/-- 10_state R31. -/
def Obligations.StepKeepsHistogramOk : Prop :=
  ∀ s s' : State, s.Inv → step s = .next s' → s'.HistogramOk

/-- 10_state R32, R33: HT.BUILD, HT.READ, HUF.COMP and HUF.DECOMP only ever leave a valid tree. -/
def Obligations.StepKeepsTreeValid : Prop :=
  ∀ s s' : State, s.Inv → step s = .next s' → s'.TreeOk

/-- 10_state R35, R37: the dictionary stays within DICT_CAP, its parent chains stay without cycles, and LZINDEX maps
exactly one phrase to each node. -/
def Obligations.StepKeepsDictionaryOk : Prop :=
  ∀ s s' : State, s.Inv → step s = .next s' → s'.DictionaryOk

/-- 10_state R38, 47_lz78_codec R221: the phrase buffer never passes PB_CAP, though LZ.ENC and LZ.DEC do not check it. -/
def Obligations.StepKeepsPhraseOk : Prop :=
  ∀ s s' : State, s.Inv → step s = .next s' → s'.PhraseOk

/-! ## Whole-machine rules -/

/-- 40_control R122, 60_exceptions R234, R240: DROP and the fault record stay until a reset. -/
def Obligations.OnlyResetClearsDropAndFault : Prop :=
  ∀ s t : State, step s = .next t →
    (s.drop = true → t.drop = true ∨ t = resetBlock t.ie t)
      ∧ (s.err = true →
        (t.err = true ∧ t.errcode = s.errcode ∧ t.errop = s.errop) ∨ t = resetBlock t.ie t)

/-- 40_control R126, 10_state R40: a command never writes ARG0, ARG1, CTRL or the parameters, nor SRC and SEEKABLE (R39);
what is in SINK stays at its front (20_memory R65). That an execution fault keeps DROP is DEDUCED (log 6). -/
def Obligations.CommandsKeepArgumentsAndSource : Prop :=
  ∀ (i : Instr) (s t : State), s.Quiet → exec i s = .next t →
    t.arg0 = s.arg0 ∧ t.arg1 = s.arg1 ∧ t.ie = s.ie ∧ t.params = s.params ∧ t.src = s.src ∧ t.seekable = s.seekable
      ∧ t.drop = s.drop ∧ t.host = s.host ∧ t.log = s.log ∧ s.sink <+: t.sink

/-- 40_control R123, R124, 60_exceptions R234: on ports that answer every command ends, completed or faulted, and the model
never stops. -/
def Obligations.EveryCommandEnds : Prop :=
  ∀ (i : Instr) (s : State), s.Inv → s.Quiet → s.err = false →
    ∃ t, exec i s = .next t ∧ t.busy = false ∧ t.done = true

/-- 60_exceptions R232: a command raises no fault but those of the table, whatever the ports and the host do. -/
def Obligations.FaultsAreThoseOfTheTable : Prop :=
  ∀ (i : Instr) (s t : State), s.err = false → exec i s = .next t → t.err = true →
    t.errcode ∈ possibleFaults i ∧ t.errop = i.op

/-! ## Check faults (60_exceptions R231, R232, R235) -/

/-- 60_exceptions R231 (INVALID_PARAM), R235, 30_encoding R81: an operand out of range, on ports that answer. Nothing
changes but the fault record, BUSY, DONE, the flags acceptance clears and the flushed writer. -/
def Obligations.InvalidParamChecks : Prop :=
  ∀ s : State, s.Quiet →
    (∀ n, 64 < n → exec (.bwWrite n) s = .next (checkFaulted 0x10 .invalidParam s)
        ∧ exec (.brRead n) s = .next (checkFaulted 0x12 .invalidParam s))
      ∧ (∀ w, w = 0 ∨ 64 < w → exec (.brWord w) s = .next (checkFaulted 0x13 .invalidParam s))
      ∧ (∀ w, w = 0 ∨ s.params.maxHistW < w →
        exec (.histBuild w) s = .next (checkFaulted 0x30 .invalidParam s)
          ∧ exec (.histClear w) s = .next (checkFaulted 0x31 .invalidParam s))
      ∧ (∀ w, w < 2 ∨ 17 < w → exec (.hufComp w) s = .next (checkFaulted 0x50 .invalidParam s))
      ∧ (s.arg0 = 0xFFFFFFFFFFFFFFFF → exec .gammaEnc s = .next (checkFaulted 0x20 .invalidParam s))
      ∧ (s.hw ≠ 0 → 2 ^ s.hw ≤ s.arg0.toNat →
        exec .histSet s = .next (checkFaulted 0x32 .invalidParam s)
          ∧ exec .histGet s = .next (checkFaulted 0x33 .invalidParam s))
      ∧ (s.tw = 1 ∨ 17 < s.tw → exec .htWrite s = .next (checkFaulted 0x41 .invalidParam s))
      ∧ (s.tw ≠ 0 → 2 ^ s.tw - 1 ≤ s.arg0.toNat → exec .htNode s = .next (checkFaulted 0x46 .invalidParam s))
      ∧ (s.pb = [] → exec .lzAdd s = .next (checkFaulted 0x61 .invalidParam s))
      ∧ (s.arg0 = 0x8000000000000000 → exec .lzEnc s = .next (checkFaulted 0x70 .invalidParam s))

/-- 60_exceptions R231 (STATE, CAPACITY, NO_ENTRY), R235, 44_huffman_tree R175, R177, 46_lz78_dictionary R202, R205, R206, R212:
a command whose state is absent or wrong, a symbol without a code, a full phrase buffer, a full dictionary under each
strategy that neither clears nor freezes it, on ports that answer. That LZ.ADD's CAPACITY keeps the state is DEDUCED (log 8). -/
def Obligations.StateNoEntryAndCapacityChecks : Prop :=
  ∀ s : State, s.Quiet →
    (s.hw = 0 →
        exec .histSet s = .next (checkFaulted 0x32 .state s) ∧ exec .histGet s = .next (checkFaulted 0x33 .state s)
          ∧ exec .htBuild s = .next (checkFaulted 0x40 .state s))
      ∧ (s.tw = 0 →
        exec .htWrite s = .next (checkFaulted 0x41 .state s) ∧ exec .htEnc s = .next (checkFaulted 0x43 .state s)
          ∧ exec .htDec s = .next (checkFaulted 0x44 .state s) ∧ exec .htCode s = .next (checkFaulted 0x45 .state s)
          ∧ exec .htNode s = .next (checkFaulted 0x46 .state s))
      ∧ (s.wpend ≠ [] ∨ s.rpend ≠ [] →
        (∀ w, 2 ≤ w → w ≤ 17 → exec (.hufComp w) s = .next (checkFaulted 0x50 .state s))
          ∧ exec .hufDecomp s = .next (checkFaulted 0x51 .state s)
          ∧ (s.arg0 ≠ 0x8000000000000000 → exec .lzEnc s = .next (checkFaulted 0x70 .state s))
          ∧ exec .lzDec s = .next (checkFaulted 0x71 .state s))
      ∧ (s.tw ≠ 0 → 2 ^ s.tw ≤ s.arg0.toNat →
        exec .htEnc s = .next (checkFaulted 0x43 .noEntry s) ∧ exec .htCode s = .next (checkFaulted 0x45 .noEntry s))
      ∧ (s.params.pbCap ≤ s.pb.length → exec .pbPush s = .next (checkFaulted 0x69 .capacity s))
      ∧ (¬(0 < s.strat.toInt ∧ s.strat.toInt ≤ s.lznodes.length) →
        ¬(s.strat.toInt < 0 ∧ -s.strat.toInt ≤ s.lznodes.length) →
        s.params.dictCap ≤ s.lznodes.length → s.pb ≠ [] → (∀ kv ∈ s.lzindex, kv.1 ≠ s.pb) →
        exec .lzAdd s = .next (checkFaulted 0x61 .capacity s))

/-! ## Ports that fail, end or never answer (20_memory R55 to R58) -/

/-- 20_memory R57, R58, R64, 60_exceptions R234, R237: a push that fails raises IO_OUT; nothing is appended to SINK, and no
flush is tried. First for BW.FLUSH, then for every byte that any command which completes on ports that answer pushes: there
is a transaction at which exactly that byte is in flight, with the bytes before it in SINK, and if it fails the command
faults IO_OUT there. -/
def Obligations.FailedPushFaultsIoOut : Prop :=
  (∀ (s : State) (took : Bool) (ds : List Draw),
    s.inflight = none → (∀ o ∈ s.overlaps, o = []) → s.draws = ⟨[], .ioError, took⟩ :: ds → s.wpend ≠ [] →
    ∃ t, exec .bwFlush s = .next t ∧ t.err = true ∧ t.errcode = .ioOut ∧ t.errop = 0x11 ∧ t.busy = false
      ∧ t.done = true ∧ t.sink = s.sink ∧ t.draws = ds)
    ∧ ∀ (i : Instr) (s t : State) (out : List Byte) (j : Nat) (b : Byte),
      s.Quiet → exec i s = .next t → t.err = false → t.sink = s.sink ++ out → out[j]? = some b →
      ∃ k, ∀ (took : Bool) (ds : List Draw),
        (∃ h, exec i (portsThen k ⟨[], .never, took⟩ ds s) = .next h ∧ h.busy = true ∧ h.done = false
          ∧ h.inflight = some ⟨.push b, took⟩ ∧ h.sink = s.sink ++ out.take j ∧ h.draws = ds)
        ∧ ∃ u, exec i (portsThen k ⟨[], .ioError, took⟩ ds s) = .next u ∧ u.err = true ∧ u.errcode = .ioOut
          ∧ u.errop = i.op ∧ u.busy = false ∧ u.done = true ∧ u.sink = s.sink ++ out.take j ∧ u.draws = ds

/-- 20_memory R55, R56, R58, R64, 60_exceptions R231, R234, R237: an IN transaction that fails, or a length query or rewind
of a source that is not seekable, raises IO_IN. First BR.READ, IN.LENGTH and IN.REWIND; then every command that reads IN, at
its first transaction; then HUF.COMP of a source that is not seekable; last any transaction of IN in any command: where the
command would wait for ever, it faults if the transaction fails. That POS stays is DEDUCED (log 9). -/
def Obligations.FailedInFaultsIoIn : Prop :=
  (∀ (s : State) (took : Bool) (ds : List Draw),
    s.inflight = none → (∀ o ∈ s.overlaps, o = []) → s.wpend = [] →
    (s.draws = ⟨[], .ioError, took⟩ :: ds →
        (∀ n, s.rpend.length < n → n ≤ 64 →
          ∃ t, exec (.brRead n) s = .next t ∧ t.err = true ∧ t.errcode = .ioIn ∧ t.errop = 0x12 ∧ t.done = true
            ∧ t.sink = s.sink)
          ∧ ∃ t, exec .inLength s = .next t ∧ t.err = true ∧ t.errcode = .ioIn ∧ t.errop = 0x15 ∧ t.done = true)
      ∧ (s.draws = [] → s.seekable = false →
        (∃ t, exec .inLength s = .next t ∧ t.err = true ∧ t.errcode = .ioIn ∧ t.errop = 0x15 ∧ t.pos = s.pos)
          ∧ ∃ t, exec .inRewind s = .next t ∧ t.err = true ∧ t.errcode = .ioIn ∧ t.errop = 0x14 ∧ t.pos = s.pos))
    ∧ (∀ (i : Instr) (s : State) (took : Bool) (ds : List Draw),
      s.inflight = none → (∀ o ∈ s.overlaps, o = []) → (∀ d ∈ ds, d.during = [] ∧ d.answer = .ok) →
      s.draws = ⟨[], .ioError, took⟩ :: ds → firstIn s i →
      ∃ t, exec i s = .next t ∧ t.err = true ∧ t.errcode = .ioIn ∧ t.errop = i.op ∧ t.busy = false ∧ t.done = true
        ∧ t.pos = s.pos ∧ (i ≠ .lzEnc → t.sink = (flushed s).sink))
    ∧ (∀ (s : State) (w : Nat),
      s.Quiet → s.seekable = false → s.wpend = [] → s.rpend = [] → 2 ≤ w → w ≤ 17 →
      ∃ t, exec (.hufComp w) s = .next t ∧ t.err = true ∧ t.errcode = .ioIn ∧ t.errop = 0x50 ∧ t.busy = false
        ∧ t.done = true ∧ t.pos = s.pos ∧ t.sink = s.sink)
    ∧ ∀ (i : Instr) (s h : State) (k : Nat) (took : Bool) (ds : List Draw) (what : Transaction),
      s.inflight = none → (∀ o ∈ s.overlaps, o = []) → (∀ d ∈ ds, d.during = [] ∧ d.answer = .ok) →
      exec i (portsThen k ⟨[], .never, took⟩ ds s) = .next h → h.busy = true → h.err = false →
      h.inflight = some ⟨what, took⟩ → (∀ b, what ≠ .push b) →
      ∃ u, exec i (portsThen k ⟨[], .ioError, took⟩ ds s) = .next u ∧ u.err = true ∧ u.errcode = .ioIn
        ∧ u.errop = i.op ∧ u.busy = false ∧ u.done = true ∧ u.pos = h.pos ∧ u.sink = (flushed h).sink

/-- 41_bitstream R135, R136, 60_exceptions R234, R236, R237: fewer bits than asked for are left: END_OF_STREAM, with what is
left of SRC consumed, the pending writer bits flushed, and ARG0, ARG1 and SINK's earlier bytes as they were (ARG0 and ARG1:
DEDUCED, log 6). -/
def Obligations.ShortInputFaultsEndOfStream : Prop :=
  ∀ (s : State) (n : Nat), s.Quiet → s.StreamsOk → n ≤ 64 → (incoming s).length < n →
    ∃ t, exec (.brRead n) s = .next t ∧ t.err = true ∧ t.errcode = .endOfStream ∧ t.errop = 0x12 ∧ t.busy = false
      ∧ t.done = true ∧ t.pos = s.src.length ∧ t.sink = (flushed s).sink ∧ t.wpend = [] ∧ t.arg0 = s.arg0
      ∧ t.arg1 = s.arg1

/-- 20_memory R58, 70_reset R263: a push of BW.FLUSH that is never answered leaves BUSY = 1 and DONE = 0, and a reset
discards the pending bits; the byte is then in SINK or not, as the free draw says. Whatever left BUSY = 1, every step keeps
it, with DONE and the transaction that waits, but one that resets the block. -/
def Obligations.UnansweredPushStaysBusyUntilReset : Prop :=
  (∀ (s : State) (took : Bool) (ds : List Draw),
    s.inflight = none → (∀ o ∈ s.overlaps, o = []) → s.draws = ⟨[], .never, took⟩ :: ds → s.wpend ≠ [] →
    ∃ t, exec .bwFlush s = .next t ∧ t.busy = true ∧ t.done = false ∧ t.sink = s.sink
      ∧ ∀ ie, (resetNow ie t).busy = false ∧ (resetNow ie t).done = false ∧ (resetNow ie t).wpend = []
        ∧ (resetNow ie t).sink = if took then s.sink ++ [valByte (padByte s.wpend)] else s.sink)
    ∧ ∀ s t : State, s.busy = true → step s = .next t →
      (t.busy = true ∧ t.done = s.done ∧ t.inflight = s.inflight ∧ t.wpend = s.wpend ∧ t.pos = s.pos)
        ∨ t = resetBlock t.ie t

/-! ## Results: control and bit stream -/

/-- 40_control R127: NOP. -/
def Obligations.NopOnlyEnds : Prop :=
  ∀ s : State, s.Quiet → exec .nop s = .next (ran s)

/-- 41_bitstream R131, R132: BW.WRITE n puts the low n bits of ARG0 into the writer, most significant first, and changes
nothing else. -/
def Obligations.BwWriteEmitsLowBits : Prop :=
  ∀ (s : State) (n : Nat), s.Quiet → s.wpend.length ≤ 7 → n ≤ 64 →
    exec (.bwWrite n) s = .next (ran (emit (bin n s.arg0.toNat) s))

/-- 41_bitstream R133, R134: BW.FLUSH pads the pending bits with zero bits and pushes them, and a second one pushes
nothing. -/
def Obligations.BwFlushPadsOnce : Prop :=
  ∀ s : State, s.Quiet →
    exec .bwFlush s = .next (ran (flushed s))
      ∧ exec .bwFlush (ran (flushed s)) = .next (ran (ran (flushed s)))

/-- 41_bitstream R135, R136: BR.READ n gives the next n bits of the input as RES0, leaves 0 to 7 bits in the reader, and
changes nothing else. -/
def Obligations.BrReadTakesBits : Prop :=
  ∀ (s : State) (n : Nat), s.Quiet → n ≤ 64 → n ≤ (incoming s).length →
    exec (.brRead n) s = .next (ran { consume n s with res0 := BitVec.ofNat 64 (val ((incoming s).take n)) })

/-- 41_bitstream R137, R138: BR.WORD w gives the next word: w bits, or the short word that is left, or END. -/
def Obligations.BrWordGivesNextWord : Prop :=
  ∀ (s : State) (w : Nat), s.Quiet → 1 ≤ w → w ≤ 64 → s.pos ≤ s.src.length →
    (w ≤ (incoming s).length →
        exec (.brWord w) s =
          .next (ran { consume w s with res0 := BitVec.ofNat 64 (val ((incoming s).take w)), res1 := BitVec.ofNat 64 w }))
      ∧ ((incoming s).length < w →
        exec (.brWord w) s =
          .next
            { ran
                { s with
                  res0 := BitVec.ofNat 64 (val (incoming s)), res1 := BitVec.ofNat 64 (incoming s).length
                  rpend := [], pos := s.src.length, draws := s.draws.drop (s.src.length - s.pos + 1) } with
              endFlag := decide (incoming s = []) })

/-- 41_bitstream R139, R140, 20_memory R56: IN.REWIND and IN.LENGTH on a seekable source. -/
def Obligations.RewindAndLength : Prop :=
  ∀ s : State, s.Quiet → s.seekable = true →
    exec .inRewind s = .next (ran { s with pos := 0, rpend := [], draws := s.draws.tail })
      ∧ (s.src.length < 2 ^ 64 →
        exec .inLength s = .next (ran { s with res0 := BitVec.ofNat 64 s.src.length, draws := s.draws.tail }))

/-- 41_bitstream R141: a field written and flushed is read back, for every width and value. -/
def Obligations.FieldRoundTrip : Prop :=
  ∀ (s u : State) (n : Nat), s.Quiet → s.wpend = [] → u.Quiet → u.rpend = [] → u.pos = 0 → n ≤ 64 →
    ∃ t t', exec (.bwWrite n) s = .next t ∧ exec .bwFlush t = .next t'
      ∧ (u.src = t'.sink.drop s.sink.length →
        ∃ v, exec (.brRead n) u = .next v ∧ v.res0.toNat = s.arg0.toNat % 2 ^ n)

/-! ## Results: universal codes -/

/-- 42_universal R151, R152, 30_encoding R89: GAMMA.ENC puts the gamma code of ARG0 into the writer and changes nothing
else; the code has 2 floor(log2(v+1)) + 1 bits. -/
def Obligations.GammaEncEmitsCode : Prop :=
  ∀ s : State, s.Quiet → s.wpend.length ≤ 7 → s.arg0.toNat ≤ 2 ^ 64 - 2 →
    exec .gammaEnc s = .next (ran (emit (gammaCode s.arg0.toNat) s))
      ∧ (gammaCode s.arg0.toNat).length = 2 * Nat.log2 (s.arg0.toNat + 1) + 1

/-- 42_universal R153, R154, R159: GAMMA.DEC reads back the gamma code of every v up to 2^64 - 2, reads exactly its bits,
and changes nothing else; 64 zero bits are MALFORMED. -/
def Obligations.GammaDecReadsCode : Prop :=
  ∀ s : State, s.Quiet →
    (∀ v, v ≤ 2 ^ 64 - 2 → gammaCode v <+: incoming s →
        exec .gammaDec s = .next (ran { consume (gammaCode v).length s with res0 := BitVec.ofNat 64 v }))
      ∧ (List.replicate 64 false <+: incoming s →
        ∃ t, exec .gammaDec s = .next t ∧ t.err = true ∧ t.errcode = .malformed ∧ t.errop = 0x21)

/-- 42_universal R155 to R158: ZZ.ENC and ZZ.DEC change RES0 only; R159: zigzag and its inverse, for every 64-bit value, the
extremes included. -/
def Obligations.ZigzagCommands : Prop :=
  (∀ s : State, s.Quiet →
    (0 ≤ s.arg0.toInt → exec .zzEnc s = .next (ran { s with res0 := BitVec.ofInt 64 (2 * s.arg0.toInt) }))
      ∧ (s.arg0.toInt < 0 → exec .zzEnc s = .next (ran { s with res0 := BitVec.ofInt 64 (-2 * s.arg0.toInt - 1) }))
      ∧ (∀ k : Nat, s.arg0.toNat = 2 * k → exec .zzDec s = .next (ran { s with res0 := BitVec.ofNat 64 k }))
      ∧ (∀ k : Nat, s.arg0.toNat = 2 * k + 1 →
        exec .zzDec s = .next (ran { s with res0 := BitVec.ofInt 64 (-(k : Int) - 1) })))
    ∧ (∀ v : Word, zz v.toInt < 2 ^ 64 ∧ unzz (zz v.toInt) = v.toInt)
    ∧ ∀ u : Word, (bits64 (unzz u.toNat)).toInt = unzz u.toNat ∧ zz (unzz u.toNat) = u.toNat

/-! ## Results: histogram -/

/-- 43_histogram R160, R161: HIST.BUILD counts every word of the rest of the input, the short word included, and changes
nothing else (the tree, the dictionary, RES1). -/
def Obligations.HistBuildCountsWords : Prop :=
  ∀ (s : State) (w : Nat), s.Quiet → 1 ≤ w → w ≤ s.params.maxHistW → s.pos ≤ s.src.length →
    (incoming s).length < 2 ^ 64 →
    ∃ k, exec (.histBuild w) s =
      .next
        (ran
          { s with
            hw := w
            counts := (List.range (2 ^ w)).map fun x => BitVec.ofNat 64 ((wordsOf w (incoming s)).count x)
            res0 := BitVec.ofNat 64 (wordsOf w (incoming s)).length
            rpend := [], pos := s.src.length, draws := s.draws.drop k })

/-- 43_histogram R162, R163, R164: HIST.CLEAR, HIST.SET and HIST.GET, and what they leave. -/
def Obligations.HistogramAccess : Prop :=
  ∀ s : State, s.Quiet →
    (∀ w, 1 ≤ w → w ≤ s.params.maxHistW →
        exec (.histClear w) s = .next (ran { s with hw := w, counts := List.replicate (2 ^ w) 0 }))
      ∧ (s.HistogramOk → s.hw ≠ 0 → s.arg0.toNat < 2 ^ s.hw →
        exec .histSet s = .next (ran { s with counts := s.counts.set s.arg0.toNat s.arg1 })
          ∧ ∃ c, s.counts[s.arg0.toNat]? = some c ∧ exec .histGet s = .next (ran { s with res0 := c }))

/-! ## Results: Huffman tree -/

/-- 44_huffman_tree R172, R179, 10_state R33: HT.BUILD replaces the tree by the one TreeBuild gives and changes nothing else.
Each turn merges the two least entries of the queue, and the tree is valid. The tie-break and the numbering of the nodes are
the model's choice of the spec's default (DESIGN CHOICE, log 24). -/
def Obligations.HtBuildGivesValidTree : Prop :=
  ∀ s : State, s.Quiet → s.hw ≠ 0 →
    exec .htBuild s = .next (ran { s with tw := s.hw, nodes := builtNodes s.hw s.counts })
      ∧ validTree s.hw (builtNodes s.hw s.counts) = true
      ∧ mergesLeast s.hw s.counts (builtNodes s.hw s.counts)

/-- 44_huffman_tree R173, 30_encoding R92: HT.WRITE puts the serialized tree into the writer, 4 + (2^(W+1) - 2) + W 2^W
bits, and changes nothing else. -/
def Obligations.HtWriteEmitsTree : Prop :=
  ∀ s : State, s.Quiet → s.wpend.length ≤ 7 → 2 ≤ s.tw → s.tw ≤ 17 → validTree s.tw s.nodes = true →
    ∃ bits, treeBits s.tw s.nodes = some bits ∧ bits.length = 4 + (2 ^ (s.tw + 1) - 2) + s.tw * 2 ^ s.tw
      ∧ exec .htWrite s = .next (ran (emit bits s))

/-- 44_huffman_tree R174, R179, 45_huffman_codec R192, 60_exceptions R231: HT.READ of a written tree gives a valid tree with
the same code for every symbol, reads exactly its bits, and changes nothing else. Bits that serialize no valid tree are
MALFORMED, for HT.READ and for the tree of a container of HUF.DECOMP, which then has pushed nothing. -/
def Obligations.HtReadRebuildsTree : Prop :=
  (∀ (s : State) (w : Nat) (nodes : List Node) (bits : Bits),
    s.Quiet → 2 ≤ w → w ≤ 17 → validTree w nodes = true → treeBits w nodes = some bits → bits <+: incoming s →
    ∃ nodes', validTree w nodes' = true ∧ (∀ x, x < 2 ^ w → code w nodes' x = code w nodes x)
      ∧ exec .htRead s =
        .next (ran { consume bits.length s with tw := w, nodes := nodes', res0 := BitVec.ofNat 64 w }))
    ∧ (∀ s : State, s.Quiet → noTree (incoming s) →
      ∃ t, exec .htRead s = .next t ∧ t.err = true ∧ t.errcode = .malformed ∧ t.errop = 0x42 ∧ t.busy = false
        ∧ t.done = true ∧ t.sink = (flushed s).sink)
    ∧ ∀ s : State, s.Quiet → s.wpend = [] → s.rpend = [] → noTree ((incoming s).drop 64) →
      ∃ t, exec .hufDecomp s = .next t ∧ t.err = true ∧ t.errcode = .malformed ∧ t.errop = 0x51 ∧ t.busy = false
        ∧ t.done = true ∧ t.sink = s.sink

/-- 44_huffman_tree R171, R175, R177: HT.ENC writes the code of symbol ARG0 and HT.CODE shows it, where it has at most
MAX_CODE_LEN bits; where it has more, both fault CAPACITY. -/
def Obligations.HtEncAndHtCode : Prop :=
  ∀ s : State, s.Quiet → s.wpend.length ≤ 7 → s.tw ≠ 0 → validTree s.tw s.nodes = true → s.arg0.toNat < 2 ^ s.tw →
    ∃ c, code s.tw s.nodes s.arg0.toNat = some c ∧ 1 ≤ c.length ∧ c.length ≤ 2 ^ s.tw - 1
      ∧ (c.length ≤ s.params.maxCodeLen →
        exec .htEnc s = .next (ran (emit c s))
          ∧ exec .htCode s =
            .next (ran { s with res0 := BitVec.ofNat 64 (val c), res1 := BitVec.ofNat 64 c.length }))
      ∧ (s.params.maxCodeLen < c.length →
        exec .htEnc s = .next (checkFaulted 0x43 .capacity s)
          ∧ exec .htCode s = .next (checkFaulted 0x45 .capacity s))

/-- 44_huffman_tree R176, 30_encoding R93: HT.DEC reads exactly the code of a symbol and gives the symbol. -/
def Obligations.HtDecReadsCode : Prop :=
  ∀ (s : State) (x : Nat) (c : Bits),
    s.Quiet → s.tw ≠ 0 → validTree s.tw s.nodes = true → x < 2 ^ s.tw → code s.tw s.nodes x = some c →
    c <+: incoming s →
    exec .htDec s = .next (ran { consume c.length s with res0 := BitVec.ofNat 64 x })

/-- 44_huffman_tree R178: HT.NODE shows one entry of NODES and changes nothing else. -/
def Obligations.HtNodeShowsEntry : Prop :=
  ∀ s : State, s.Quiet → s.TreeOk → s.tw ≠ 0 → s.arg0.toNat < 2 ^ s.tw - 1 →
    ∃ nd, s.nodes[s.arg0.toNat]? = some nd
      ∧ exec .htNode s =
        .next (ran { s with res0 := BitVec.ofNat 64 nd.left, res1 := BitVec.ofNat 64 nd.right })

/-- 30_encoding R93, 44_huffman_tree R179: in a valid tree no code is a prefix of another symbol's code. -/
def Obligations.CodesArePrefixFree : Prop :=
  ∀ (w : Nat) (nodes : List Node) (x y : Nat) (c d : Bits),
    w ≠ 0 → validTree w nodes = true → x < 2 ^ w → y < 2 ^ w → code w nodes x = some c → code w nodes y = some d →
    c <+: d → x = y

/-! ## Results: Huffman container -/

/-- 45_huffman_codec R191, 30_encoding R94: HUF.COMP writes the container of the whole source, padded, leaves the histogram
and the tree it used, and changes nothing else. The tie-break and the numbering of the nodes of that tree, and so the bits of
the container, are the model's choice of the spec's default (DESIGN CHOICE, log 24). -/
def Obligations.HufCompWritesContainer : Prop :=
  ∀ (s : State) (w : Nat),
    s.Quiet → s.params.wf = true → s.seekable = true → s.wpend = [] → s.rpend = [] → 2 ≤ w → w ≤ 17 →
    8 * s.src.length < 2 ^ 64 →
    ∃ k counts nodes tb,
      counts = ((List.range (2 ^ w)).map fun x => BitVec.ofNat 64 ((wordsOf w (bytesBits s.src)).count x))
        ∧ nodes = builtNodes w counts ∧ validTree w nodes = true ∧ treeBits w nodes = some tb
        ∧ exec (.hufComp w) s =
          .next
            (ran
              { s with
                sink := s.sink ++ wholeBytes (padBits (containerBits w nodes tb s.src))
                hw := w, counts := counts, tw := w, nodes := nodes, pos := s.src.length
                res0 := BitVec.ofNat 64 s.src.length, draws := s.draws.drop k })

/-- 45_huffman_codec R192, 30_encoding R94, R96: HUF.DECOMP of a container pushes the original bytes, leaves the tree with
the same codes, leaves the input at the next byte boundary, and changes nothing else. -/
def Obligations.HufDecompExpandsContainer : Prop :=
  ∀ (s : State) (w : Nat) (nodes : List Node) (tb : Bits) (d : List Byte),
    s.Quiet → s.wpend = [] → s.rpend = [] → 2 ≤ w → w ≤ 17 → validTree w nodes = true → treeBits w nodes = some tb →
    d.length < 2 ^ 64 → containerBits w nodes tb d <+: incoming s →
    ∃ k nodes', validTree w nodes' = true ∧ (∀ x, x < 2 ^ w → code w nodes' x = code w nodes x)
      ∧ exec .hufDecomp s =
        .next
          (ran
            { s with
              sink := s.sink ++ d, pos := s.pos + ((containerBits w nodes tb d).length + 7) / 8
              tw := w, nodes := nodes', res0 := BitVec.ofNat 64 d.length, res1 := BitVec.ofNat 64 w
              draws := s.draws.drop k })

/-- 45_huffman_codec R193: HUF.DECOMP on what HUF.COMP pushed gives the source back, for every source and every width 2 to
17. -/
def Obligations.HuffmanRoundTrip : Prop :=
  ∀ (s u : State) (w : Nat),
    s.Quiet → s.params.wf = true → s.seekable = true → s.wpend = [] → s.rpend = [] → 2 ≤ w → w ≤ 17 →
    8 * s.src.length < 2 ^ 64 → u.Quiet → u.wpend = [] → u.rpend = [] → u.pos = 0 →
    ∃ t, exec (.hufComp w) s = .next t
      ∧ (u.src = t.sink.drop s.sink.length →
        ∃ v, exec .hufDecomp u = .next v ∧ v.err = u.err ∧ v.sink = u.sink ++ s.src
          ∧ v.res0 = BitVec.ofNat 64 s.src.length ∧ v.res1 = BitVec.ofNat 64 w)

/-! ## Results: LZ78 dictionary and phrase buffer -/

/-- 46_lz78_dictionary R201, R205, R209, R211, R212, R213: LZ.INIT, LZ.SIZE, PB.CLEAR, PB.PUSH and PB.GET, and what they
leave. -/
def Obligations.DictionarySetupAndPhraseBuffer : Prop :=
  ∀ s : State, s.Quiet →
    exec .lzInit s = .next (ran { s with strat := s.arg0, lznodes := [], lzindex := [] })
      ∧ exec .lzSize s = .next (ran { s with res0 := BitVec.ofNat 64 s.lznodes.length, res1 := s.strat })
      ∧ exec .pbClear s = .next (ran { s with pb := [] })
      ∧ (s.pb.length < s.params.pbCap →
        exec .pbPush s = .next (ran { s with pb := s.pb ++ [BitVec.ofNat 8 (s.arg0.toNat % 256)] }))
      ∧ (∀ b, s.pb[s.arg0.toNat]? = some b →
        exec .pbGet s =
          .next (ran { s with res0 := BitVec.ofNat 64 b.toNat, res1 := BitVec.ofNat 64 s.pb.length }))
      ∧ (s.pb.length ≤ s.arg0.toNat →
        exec .pbGet s =
          .next { ran { s with res0 := 0, res1 := BitVec.ofNat 64 s.pb.length } with nfFlag := true })

/-- 46_lz78_dictionary R203, R204, R207, R208, R210: LZ.GET, LZ.FIND and LZ.NODE, hits and misses, and what they leave. The
phrase of node k is the phrase of its parent followed by its byte. -/
def Obligations.DictionaryLookups : Prop :=
  ∀ s : State, s.Quiet → s.DictionaryOk → s.err = false →
    (s.arg0 = 0 → exec .lzGet s = .next (ran { s with pb := [], res0 := 0 }))
      ∧ (∀ nd, s.arg0 ≠ 0 → s.lznodes[s.arg0.toNat - 1]? = some nd →
        ∃ ph, dictGet nd.parent s = some ph
          ∧ exec .lzGet s =
            .next (ran { s with pb := ph ++ [nd.byte], res0 := BitVec.ofNat 64 (ph.length + 1) })
          ∧ exec .lzNode s =
            .next (ran { s with res0 := BitVec.ofNat 64 nd.parent, res1 := BitVec.ofNat 64 nd.byte.toNat }))
      ∧ (s.lznodes.length < s.arg0.toNat →
        exec .lzGet s = .next { ran { s with res0 := 0 } with nfFlag := true })
      ∧ (s.arg0 = 0 ∨ s.lznodes.length < s.arg0.toNat →
        exec .lzNode s = .next { ran { s with res0 := 0, res1 := 0 } with nfFlag := true })
      ∧ (s.pb = [] → exec .lzFind s = .next (ran { s with res0 := 0 }))
      ∧ (∀ k, (s.pb, k) ∈ s.lzindex → exec .lzFind s = .next (ran { s with res0 := BitVec.ofNat 64 k }))
      ∧ (s.pb ≠ [] → (∀ kv ∈ s.lzindex, kv.1 ≠ s.pb) →
        exec .lzFind s = .next { ran { s with res0 := 0 } with nfFlag := true })

/-- 46_lz78_dictionary R202, R206, 10_state R36: LZ.ADD of the phrase `q ++ [b]`. Freeze at its limit gives (0, b) and inserts
nothing. Otherwise, with the dictionary cleared first under Drop at its limit, a known phrase sets EXISTS, and a new one is
inserted below the node of `q`, or below 0 where `q` is empty or absent. -/
def Obligations.LzAddInserts : Prop :=
  ∀ (s s1 : State) (q : List Byte) (b : Byte),
    s.Quiet → s.DictionaryOk → s.err = false → s.pb = q ++ [b] →
    s1 = (if 0 < s.strat.toInt ∧ s.strat.toInt ≤ s.lznodes.length then { s with lznodes := [], lzindex := [] } else s) →
    (s.strat.toInt < 0 → -s.strat.toInt ≤ s.lznodes.length →
        exec .lzAdd s = .next (ran { s with res0 := 0, res1 := BitVec.ofNat 64 b.toNat }))
      ∧ (¬(s.strat.toInt < 0 ∧ -s.strat.toInt ≤ s.lznodes.length) →
        (∀ k, (q ++ [b], k) ∈ s1.lzindex →
          exec .lzAdd s = .next { ran { s1 with res0 := 0, res1 := 0 } with existsFlag := true })
          ∧ ∀ p, (∀ kv ∈ s1.lzindex, kv.1 ≠ q ++ [b]) → s1.lznodes.length < s.params.dictCap →
            ((q, p) ∈ s1.lzindex ∨ (p = 0 ∧ ∀ kv ∈ s1.lzindex, kv.1 ≠ q)) →
            exec .lzAdd s =
              .next
                (ran
                  { s1 with
                    lznodes := s1.lznodes ++ [⟨p, b⟩], lzindex := s1.lzindex ++ [(q ++ [b], s1.lznodes.length + 1)]
                    res0 := BitVec.ofNat 64 p, res1 := BitVec.ofNat 64 b.toNat }))

/-! ## Results: LZ78 container -/

/-- 47_lz78_codec R221, R223, 30_encoding R95: LZ.ENC reads the source from POS to its end and writes its container, padded,
where the dictionary has room for a node a byte or the strategy's limit is within DICT_CAP. The pairs are the greedy parse of
the bytes read: each phrase ends at the first byte whose LzAdd gives a pair, and the end marker names what is left, which is
known. It leaves its strategy, its dictionary and its last phrase, and changes nothing else. -/
def Obligations.LzEncWritesContainer : Prop :=
  ∀ s : State,
    s.Quiet → s.params.wf = true → s.wpend = [] → s.rpend = [] → s.pos ≤ s.src.length →
    s.arg0 ≠ 0x8000000000000000 →
    s.src.length - s.pos ≤ s.params.dictCap ∨ (s.arg0 ≠ 0 ∧ s.arg0.toInt.natAbs ≤ s.params.dictCap) →
    ∃ k ps phs d j last,
      playPairs ps (dictInit s.arg0 s) = some (phs, d)
        ∧ (∀ m p ph before phs', ps[m]? = some p → phs[m]? = some ph →
            playPairs (ps.take m) (dictInit s.arg0 s) = some (phs', before) → endsPhrase ph p before)
        ∧ (∀ n, 1 ≤ n → n ≤ last.length → dictAdd (last.take n) d = .known d)
        ∧ (j = none ∧ last = [] ∨ ∃ i, j = some i ∧ i ≠ 0 ∧ dictGet i d = some last)
        ∧ phs.flatten ++ last = s.src.drop s.pos
        ∧ exec .lzEnc s =
          .next
            (ran
              { s with
                sink := s.sink ++ wholeBytes (padBits (lzContainerBits s.arg0 ps d.lznodes.length j))
                strat := s.arg0, lznodes := d.lznodes, lzindex := d.lzindex, pb := last, pos := s.src.length
                res0 := BitVec.ofNat 64 d.lznodes.length, draws := s.draws.drop k })

/-- 47_lz78_codec R222, 30_encoding R95, R96, 60_exceptions R231: LZ.DEC of a container, whatever wrote it, pushes the phrases
of its pairs and the phrase its end marker names, leaves the strategy, the dictionary and the last phrase, leaves the input
at the next byte boundary, and changes nothing else. After such pairs a pair whose index is above SIZE + 2 and a final index
above SIZE are MALFORMED, and a pair that needs a node in a full dictionary faults CAPACITY; what was pushed stays. -/
def Obligations.LzDecExpandsContainer : Prop :=
  ∀ (s d : State) (v : Word) (ps : List (Nat × Byte)) (phs : List (List Byte)),
    s.Quiet → s.params.wf = true → s.wpend = [] → s.rpend = [] → v ≠ 0x8000000000000000 →
    playPairs ps (dictInit v s) = some (phs, d) →
    (∀ (j : Option Nat) (last : List Byte),
      (j = none ∧ last = [] ∨ ∃ i, j = some i ∧ dictGet i d = some last) →
      lzContainerBits v ps d.lznodes.length j <+: incoming s →
      ∃ k, exec .lzDec s =
        .next
          (ran
            { s with
              sink := s.sink ++ phs.flatten ++ last
              pos := s.pos + ((lzContainerBits v ps d.lznodes.length j).length + 7) / 8
              strat := v, lznodes := d.lznodes, lzindex := d.lzindex, pb := if j = none then phs.getLastD [] else last
              res0 := BitVec.ofNat 64 d.lznodes.length, res1 := v, draws := s.draws.drop k }))
      ∧ (∀ (i : Nat) (lit : Byte), d.lznodes.length + 2 < i → i ≤ 2 ^ 64 - 2 →
        lzPairBits v ps ++ gammaCode i ++ binByte lit <+: incoming s →
        ∃ t, exec .lzDec s = .next t ∧ t.err = true ∧ t.errcode = .malformed ∧ t.errop = 0x71 ∧ t.busy = false
          ∧ t.done = true ∧ t.sink = s.sink ++ phs.flatten)
      ∧ (∀ i : Nat, d.lznodes.length < i → i ≤ 2 ^ 64 - 2 →
        lzContainerBits v ps d.lznodes.length (some i) <+: incoming s →
        ∃ t, exec .lzDec s = .next t ∧ t.err = true ∧ t.errcode = .malformed ∧ t.errop = 0x71 ∧ t.busy = false
          ∧ t.done = true ∧ t.sink = s.sink ++ phs.flatten)
      ∧ ∀ (i : Nat) (lit : Byte) (ph : List Byte), pairPhrase i lit d = some ph → dictAdd ph d = .full →
        lzPairBits v ps ++ gammaCode i ++ binByte lit <+: incoming s →
        ∃ t, exec .lzDec s = .next t ∧ t.err = true ∧ t.errcode = .capacity ∧ t.errop = 0x71 ∧ t.busy = false
          ∧ t.done = true ∧ t.sink = s.sink ++ phs.flatten ++ ph

/-- 47_lz78_codec R222, R223: LZ.DEC on what LZ.ENC wrote completes, pushes exactly the bytes LZ.ENC read, and ends with the
same dictionary, strategy and SIZE, for every source and every strategy but -2^63 for which LZ.ENC does not fault. -/
def Obligations.LzRoundTrip : Prop :=
  ∀ s t u : State,
    s.Quiet → s.params.wf = true → s.wpend = [] → s.rpend = [] → s.pos ≤ s.src.length → s.err = false →
    exec .lzEnc s = .next t → t.err = false →
    u.Quiet → u.params = s.params → u.wpend = [] → u.rpend = [] → u.pos = 0 → u.err = false →
    u.src = t.sink.drop s.sink.length →
    ∃ v, exec .lzDec u = .next v ∧ v.err = false ∧ v.sink = u.sink ++ s.src.drop s.pos ∧ v.lznodes = t.lznodes
      ∧ v.lzindex = t.lzindex ∧ v.strat = t.strat ∧ v.res0 = t.res0 ∧ v.res1 = s.arg0
end

