-- ==== Sys2Proof/Laws/Bits.lean ====
section
/-! SUPPORT. Bit strings and integers, bytes and bit strings: the lemmas the streams rest on. -/

namespace Sys2Proof.Machine

/-! ## `bin` and `val` -/

@[simp] theorem bin_zero (v : Nat) : bin 0 v = [] := rfl
theorem bin_succ (n v : Nat) : bin (n + 1) v = v.testBit n :: bin n v := rfl
@[simp] theorem length_bin (n v : Nat) : (bin n v).length = n := by
  induction n with
  | zero => rfl
  | succ n ih => simp [bin_succ, ih]
@[simp] theorem length_binByte (b : Byte) : (binByte b).length = 8 := length_bin 8 _

@[simp] theorem val_nil : val [] = 0 := rfl

theorem foldl_val (s : Bits) (a : Nat) : s.foldl (fun a b => 2 * a + b.toNat) a = a * 2 ^ s.length + val s := by
  induction s generalizing a with
  | nil => simp
  | cons b s ih =>
    have h0 := ih (2 * 0 + b.toNat)
    have h1 := ih (2 * a + b.toNat)
    simp only [val, List.foldl_cons, List.length_cons, Nat.pow_succ] at *
    rw [h1, h0, Nat.add_mul, Nat.add_mul]
    have : 2 * a * 2 ^ s.length = a * (2 ^ s.length * 2) := by
      rw [Nat.mul_comm 2 a, Nat.mul_assoc, Nat.mul_comm 2]
    omega

theorem val_cons (b : Bool) (s : Bits) : val (b :: s) = b.toNat * 2 ^ s.length + val s := by
  have := foldl_val s (2 * 0 + b.toNat)
  simpa [val] using this

theorem val_append (s t : Bits) : val (s ++ t) = val s * 2 ^ t.length + val t := by
  have := foldl_val t (val s)
  simpa [val, List.foldl_append] using this

theorem val_lt (s : Bits) : val s < 2 ^ s.length := by
  induction s with
  | nil => simp
  | cons b s ih =>
    rw [val_cons, List.length_cons, Nat.pow_succ]
    cases b
    all_goals
      simp
      omega

theorem val_bin (n v : Nat) : val (bin n v) = v % 2 ^ n := by
  induction n with
  | zero => simp [Nat.mod_one]
  | succ n ih =>
    rw [bin_succ, val_cons, ih, length_bin, Nat.mod_pow_succ, Nat.testBit_eq_decide_div_mod_eq]
    rcases Nat.mod_two_eq_zero_or_one (v / 2 ^ n) with h | h <;> simp [h, Nat.add_comm]

theorem bin_mod (n m v : Nat) (h : n ≤ m) : bin n (v % 2 ^ m) = bin n v := by
  induction n with
  | zero => rfl
  | succ n ih => rw [bin_succ, bin_succ, ih (by omega), Nat.testBit_mod_two_pow]; simp; omega

theorem bin_append (m n v : Nat) : bin (m + n) v = bin m (v / 2 ^ n) ++ bin n v := by
  induction m with
  | zero => simp
  | succ m ih =>
    rw [Nat.succ_add, bin_succ, bin_succ, ih, Nat.testBit_div_two_pow, Nat.add_comm m n]; simp

/-- A bit string is `bin` of its value. -/
theorem bin_val (s : Bits) : bin s.length (val s) = s := by
  induction s with
  | nil => rfl
  | cons b s ih =>
    have hlt := val_lt s
    rw [List.length_cons, bin_succ, val_cons]
    have h1 : (b.toNat * 2 ^ s.length + val s).testBit s.length = b := by
      rw [Nat.testBit_eq_decide_div_mod_eq, Nat.add_comm, Nat.add_mul_div_right _ _ (Nat.two_pow_pos _),
        Nat.div_eq_of_lt hlt]
      cases b <;> simp
    have h2 : bin s.length (b.toNat * 2 ^ s.length + val s) = bin s.length (val s) := by
      rw [← bin_mod s.length s.length (b.toNat * 2 ^ s.length + val s) (Nat.le_refl _), Nat.add_comm,
        Nat.add_mul_mod_self_right, Nat.mod_eq_of_lt hlt]
    rw [h1, h2, ih]

theorem bin_zero_value (n : Nat) : bin n 0 = List.replicate n false := by
  induction n with
  | zero => rfl
  | succ n ih => simp [bin_succ, ih, List.replicate_succ]

/-! ## Bytes -/

theorem valByte_binByte (b : Byte) : valByte (binByte b) = b := by
  have h : b.toNat < 2 ^ 8 := b.isLt
  apply BitVec.eq_of_toNat_eq
  rw [valByte, binByte, val_bin, BitVec.toNat_ofNat]
  omega

theorem binByte_valByte (s : Bits) (h : s.length = 8) : binByte (valByte s) = s := by
  have hv := val_lt s
  rw [h] at hv
  rw [binByte, valByte, BitVec.toNat_ofNat, Nat.mod_eq_of_lt hv, ← h, bin_val]

@[simp] theorem bytesBits_nil : bytesBits [] = [] := rfl
@[simp] theorem bytesBits_cons (b : Byte) (l : List Byte) : bytesBits (b :: l) = binByte b ++ bytesBits l := by
  simp [bytesBits]
@[simp] theorem bytesBits_append (k l : List Byte) : bytesBits (k ++ l) = bytesBits k ++ bytesBits l := by
  simp [bytesBits]
@[simp] theorem length_bytesBits (l : List Byte) : (bytesBits l).length = 8 * l.length := by
  induction l with
  | nil => rfl
  | cons b l ih => simp [ih]; omega

/-! ## The whole bytes and the tail of a bit string -/

theorem wholeBytes_short (bs : Bits) (h : bs.length < 8) : wholeBytes bs = [] := by
  simp [wholeBytes, Nat.div_eq_of_lt h]
theorem tailBits_short (bs : Bits) (h : bs.length < 8) : tailBits bs = bs := by
  simp [tailBits, Nat.div_eq_of_lt h]

theorem drop_add_append (s t : Bits) (n : Nat) : (s ++ t).drop (s.length + n) = t.drop n := by simp [List.drop_append]

theorem wholeBytes_eight (s t : Bits) (h : s.length = 8) : wholeBytes (s ++ t) = valByte s :: wholeBytes t := by
  have hd : (s ++ t).length / 8 = t.length / 8 + 1 := by simp only [List.length_append, h]; omega
  rw [wholeBytes, hd, List.range_succ_eq_map, List.map_cons, List.map_map, wholeBytes]
  congr 1
  · simp [h]
  · apply List.map_congr_left
    intro i _
    have e : 8 * (i + 1) = s.length + 8 * i := by omega
    simp only [Function.comp_apply, e, drop_add_append]
theorem tailBits_eight (s t : Bits) (h : s.length = 8) : tailBits (s ++ t) = tailBits t := by
  have e : 8 * ((s ++ t).length / 8) = s.length + 8 * (t.length / 8) := by
    simp only [List.length_append, h]; omega
  rw [tailBits, e, drop_add_append, tailBits]

theorem length_tailBits (bs : Bits) : (tailBits bs).length = bs.length % 8 := by
  simp [tailBits]; omega
theorem length_tailBits_lt (bs : Bits) : (tailBits bs).length < 8 := by
  rw [length_tailBits]; omega
@[simp] theorem length_wholeBytes (bs : Bits) : (wholeBytes bs).length = bs.length / 8 := by simp [wholeBytes]

theorem wholeBytes_bytesBits_append (l : List Byte) (t : Bits) :
    wholeBytes (bytesBits l ++ t) = l ++ wholeBytes t := by
  induction l with
  | nil => rfl
  | cons b l ih => rw [bytesBits_cons, List.append_assoc, wholeBytes_eight _ _ (length_binByte b), ih, valByte_binByte]; rfl
theorem tailBits_bytesBits_append (l : List Byte) (t : Bits) : tailBits (bytesBits l ++ t) = tailBits t := by
  induction l with
  | nil => rfl
  | cons b l ih => rw [bytesBits_cons, List.append_assoc, tailBits_eight _ _ (length_binByte b), ih]

/-- A bit string is its whole bytes followed by its tail. -/
theorem bytesBits_wholeBytes (bs : Bits) : bytesBits (wholeBytes bs) ++ tailBits bs = bs := by
  have key : ∀ n, ∀ bs : Bits, bs.length < 8 * (n + 1) → bytesBits (wholeBytes bs) ++ tailBits bs = bs := by
    intro n
    induction n with
    | zero => intro bs h; rw [wholeBytes_short bs (by omega), tailBits_short bs (by omega)]; rfl
    | succ n ih =>
      intro bs h
      by_cases h8 : bs.length < 8
      · rw [wholeBytes_short bs h8, tailBits_short bs h8]; rfl
      · have e : bs = bs.take 8 ++ bs.drop 8 := (List.take_append_drop 8 bs).symm
        have l8 : (bs.take 8).length = 8 := by simp; omega
        have r := ih (bs.drop 8) (by simp; omega)
        rw [e, wholeBytes_eight _ _ l8, tailBits_eight _ _ l8, bytesBits_cons, binByte_valByte _ l8, List.append_assoc, r]
  exact key bs.length bs (by omega)

theorem wholeBytes_tailBits_append (s t : Bits) : wholeBytes (s ++ t) = wholeBytes s ++ wholeBytes (tailBits s ++ t) := by
  conv => lhs; rw [← bytesBits_wholeBytes s, List.append_assoc, wholeBytes_bytesBits_append]
theorem tailBits_tailBits_append (s t : Bits) : tailBits (tailBits s ++ t) = tailBits (s ++ t) := by
  conv => rhs; rw [← bytesBits_wholeBytes s, List.append_assoc, tailBits_bytesBits_append]

/-- A padded bit string comes out in whole bytes, and they hold it and zero bits. -/
theorem bytesBits_padBits (bs : Bits) :
    bytesBits (wholeBytes (padBits bs)) = bs ++ List.replicate ((8 - bs.length % 8) % 8) false := by
  have h := bytesBits_wholeBytes (padBits bs)
  have hl : (tailBits (padBits bs)).length = 0 := by rw [length_tailBits]; simp [padBits]; omega
  rw [List.length_eq_zero_iff.mp hl, List.append_nil] at h
  rw [h, padBits, bin_zero_value]

end Sys2Proof.Machine
end

