-- ==== Sys2Proof/Laws/Ops.lean ====
section
/-! SUPPORT. What the shared operations do on ports that answer, and how a command starts and ends there. -/

namespace Sys2Proof.Machine

/-! ## Ports that answer -/

/-- Quiet ports stay quiet under every update that only drops draws and overlaps. -/
theorem State.Quiet.mono {s t : State} (h : s.Quiet) (hi : t.inflight = s.inflight)
    (ho : ∀ o ∈ t.overlaps, o ∈ s.overlaps) (hd : ∀ d ∈ t.draws, d ∈ s.draws) : t.Quiet :=
  ⟨hi.trans h.1, fun _ m => h.2.1 _ (ho _ m), fun _ m => h.2.2 _ (hd _ m)⟩

/-- Quiet ports stay quiet when only other fields change and draws are used up. -/
theorem State.Quiet.drop {s t : State} (h : s.Quiet) (n : Nat) (hi : t.inflight = s.inflight)
    (ho : t.overlaps = s.overlaps) (hd : t.draws = s.draws.drop n) : t.Quiet :=
  h.mono hi (fun _ m => ho ▸ m) (fun _ m => List.mem_of_mem_drop (hd ▸ m))

/-- Ports that fail later answer the first transaction with success. -/
theorem portsThen_succ (k : Nat) (d : Draw) (ds : List Draw) (s : State) :
    (portsThen (k + 1) d ds s).draws = Draw.prompt :: (portsThen k d ds s).draws := rfl

theorem State.Quiet.headD {s : State} (h : s.Quiet) :
    (s.draws.headD Draw.prompt).during = [] ∧ (s.draws.headD Draw.prompt).answer = .ok := by
  cases hd : s.draws with
  | nil => exact ⟨rfl, rfl⟩
  | cons d ds => exact h.2.2 d (by simp [hd])

/-- A transaction on quiet ports succeeds, uses one draw and changes nothing else. -/
theorem transact_quiet (what : Transaction) {s : State} (h : s.Quiet) :
    transact what s = .ok (true, { s with draws := s.draws.tail }) := by
  obtain ⟨hd, ha⟩ := h.headD
  have hi := h.1
  cases s
  simp only at hi hd ha
  subst hi
  simp only [transact, hd, ha, whileBusy, bind, Except.bind]

/-- All outcomes of a transaction during which the host does nothing: success, failure, or a wait without end
(20_memory R58). -/
theorem transact_alone (what : Transaction) {s : State} {answer : Answer} {took : Bool} {ds : List Draw}
    (h : s.draws = ⟨[], answer, took⟩ :: ds) :
    transact what s =
      match answer with
      | .ok => .ok (true, { s with draws := ds, inflight := none })
      | .ioError => .ok (false, { s with draws := ds, inflight := none })
      | .never => .error ⟨.hung, { s with draws := ds, inflight := some ⟨what, took⟩ }⟩ := by
  simp only [transact, h, List.headD_cons, List.tail_cons, whileBusy, bind, Except.bind]
  cases answer <;> rfl

theorem pullByte_some {s : State} {b : Byte} (h : s.Quiet) (hb : s.src[s.pos]? = some b) :
    pullByte s = .ok (some b, { s with pos := s.pos + 1, draws := s.draws.tail }) := by
  simp [pullByte, transact_quiet _ h, bind, Except.bind, hb]

theorem pullByte_end {s : State} (h : s.Quiet) (hb : s.src.length ≤ s.pos) :
    pullByte s = .ok (none, { s with draws := s.draws.tail }) := by
  simp [pullByte, transact_quiet _ h, bind, Except.bind, hb]

theorem srcLen_quiet {s : State} (h : s.Quiet) (hs : s.seekable = true) :
    srcLen s = .ok (lengthWord s.src.length, { s with draws := s.draws.tail }) := by
  simp [srcLen, transact_quiet _ h, bind, Except.bind, hs]

theorem srcRewind_quiet {s : State} (h : s.Quiet) (hs : s.seekable = true) :
    srcRewind s = .ok { s with pos := 0, draws := s.draws.tail } := by
  simp [srcRewind, transact_quiet _ h, bind, Except.bind, hs]

theorem pushByte_quiet (b : Byte) {s : State} (h : s.Quiet) :
    pushByte b s = .ok { s with sink := s.sink ++ [b], draws := s.draws.tail } := by
  simp [pushByte, transact_quiet _ h, bind, Except.bind]

/-- The fault flush on quiet ports is the flush. -/
theorem faultFlush_quiet {s : State} (h : s.Quiet) : faultFlush s = .ok (flushed s) := by
  unfold faultFlush flushed
  by_cases hw : s.wpend = []
  · simp [hw]
  · have : ¬ s.wpend.length = 0 := by simpa using hw
    simp [hw, this, pushByte_quiet _ h]

/-! ## The start and the end of a command -/

/-- The state a command's rule starts from, on quiet ports. -/
def started (s : State) : State :=
  { s with
    busy := true, done := false, endFlag := false, existsFlag := false, nfFlag := false, overlaps := s.overlaps.tail }

theorem started_quiet {s : State} (h : s.Quiet) : (started s).Quiet :=
  h.mono rfl (fun _ m => List.mem_of_mem_tail m) (fun _ m => m)

theorem overlap_quiet {s : State} (h : s.Quiet) : overlap (accept s) = .ok (started s) := by
  have e : s.overlaps.headD [] = [] := by
    cases ho : s.overlaps with
    | nil => rfl
    | cons o os => exact h.2.1 o (by simp [ho])
  simp only [overlap, accept, clearFlags, e, whileBusy, started]

/-- On quiet ports a command runs its rule from `started s`. -/
theorem runCommand_quiet (op : Byte) (rule : State → Ran State) {s : State} (h : s.Quiet) :
    runCommand op rule s = finish op (rule (started s)) := by
  simp [runCommand, overlap_quiet h, bind, Except.bind]

/-- A rule that completes: the command ends with BUSY = 0 and DONE = 1 (40_control R123). -/
theorem runCommand_ok {op : Byte} {rule : State → Ran State} {s t : State} (h : s.Quiet)
    (hr : rule (started s) = .ok t) : runCommand op rule s = .next { t with busy := false, done := true } := by
  simp [runCommand_quiet op rule h, hr, finish, endCommand]

theorem flushed_quiet {s : State} (h : s.Quiet) : (flushed s).Quiet := by
  unfold flushed
  split
  · exact h
  · exact h.drop 1 rfl rfl (by simp)

/-- A rule that stops at a check: the command ends as a check fault (60_exceptions R234, R235, R237). -/
theorem runCommand_check {op : Byte} {rule : State → Ran State} {s : State} {c : FaultCode} (h : s.Quiet)
    (hc : c ≠ .ioOut) (hr : rule (started s) = .error ⟨.fault c true, started s⟩) :
    runCommand op rule s = .next (checkFaulted op c s) := by
  have hq : (recordFault op c (started s)).Quiet := started_quiet h
  simp only [runCommand_quiet op rule h, hr, finish, takeFault, if_true, hc, if_false, bind, Except.bind,
    faultFlush_quiet hq, faultOutcome, endCommand, checkFaulted, ran, Host.Outcome.next.injEq]
  by_cases hw : s.wpend = [] <;> simp [flushed, recordFault, started, hw]

@[simp] theorem require_true {c : Prop} [Decidable c] (h : c) (code : FaultCode) (s : State) :
    require c code s = .ok () := by simp [require, h]
@[simp] theorem require_false {c : Prop} [Decidable c] (h : ¬c) (code : FaultCode) (s : State) :
    require c code s = .error ⟨.fault code true, s⟩ := by simp [require, h, raiseKeeping]

end Sys2Proof.Machine
end

