-- ==== Sys2Proof/Laws/Bitstream.lean ====
section
/-! SUPPORT. The bit writer and the bit reader on ports that answer. -/

namespace Sys2Proof.Machine

/-! ## Writer -/

theorem emit_quiet (bs : Bits) {s : State} (h : s.Quiet) : (emit bs s).Quiet := h.drop _ rfl rfl rfl
theorem emit_wpend_lt (bs : Bits) (s : State) : (emit bs s).wpend.length ≤ 7 := by
  have := length_tailBits_lt (s.wpend ++ bs)
  simpa [emit] using Nat.le_of_lt_succ this

theorem emit_nil {s : State} (h : s.wpend.length ≤ 7) : emit [] s = s := by
  have h8 : s.wpend.length < 8 := by omega
  simp [emit, wholeBytes_short _ h8, tailBits_short _ h8, Nat.div_eq_of_lt h8]

/-- Two bit strings through the writer are one. -/
theorem emit_append (as bs : Bits) (s : State) : emit bs (emit as s) = emit (as ++ bs) s := by
  have hl : (tailBits (s.wpend ++ as)).length = (s.wpend ++ as).length % 8 := length_tailBits _
  have hw := wholeBytes_tailBits_append (s.wpend ++ as) bs
  have ht := tailBits_tailBits_append (s.wpend ++ as) bs
  have hd : (s.wpend ++ as).length / 8 + (tailBits (s.wpend ++ as) ++ bs).length / 8
      = (s.wpend ++ (as ++ bs)).length / 8 := by
    simp only [List.length_append] at hl ⊢
    omega
  simp only [List.append_assoc] at hw ht
  simp only [emit, List.drop_drop, hd, hw, ht, List.append_assoc]

theorem putBit_quiet (b : Bool) {s : State} (h : s.Quiet) (hw : s.wpend.length ≤ 7) :
    putBit b s = .ok (emit [b] s) := by
  by_cases h7 : s.wpend.length = 7
  · have hl : (s.wpend ++ [b]).length = 8 := by simp [h7]
    have hb : wholeBytes (s.wpend ++ [b]) = [valByte (s.wpend ++ [b])] := by
      have := wholeBytes_eight (s.wpend ++ [b]) [] hl
      rwa [List.append_nil, wholeBytes_short [] (by simp)] at this
    have ht : tailBits (s.wpend ++ [b]) = [] := by
      have := tailBits_eight (s.wpend ++ [b]) [] hl
      rwa [List.append_nil, tailBits_short [] (by simp)] at this
    simp [putBit, emit, hb, ht, hl, pushByte_quiet _ h, bind, Except.bind]
  · have h8 : (s.wpend ++ [b]).length < 8 := by simp; omega
    have hne : ¬ (s.wpend ++ [b]).length = 8 := by omega
    simp only [putBit, hne, if_false, emit, wholeBytes_short _ h8, tailBits_short _ h8, Nat.div_eq_of_lt h8,
      List.append_nil, List.drop_zero]

/-- A bit string goes into the writer (41_bitstream R131). -/
theorem putString_quiet (bs : Bits) {s : State} (h : s.Quiet) (hw : s.wpend.length ≤ 7) :
    putString bs s = .ok (emit bs s) := by
  induction bs generalizing s with
  | nil => rw [putString, emit_nil hw]
  | cons b bs ih =>
    have e := emit_append [b] bs s
    simp only [putString, putBit_quiet b h hw, bind, Except.bind, ih (emit_quiet [b] h) (emit_wpend_lt [b] s), e,
      List.singleton_append]

theorem putBits_quiet (v n : Nat) {s : State} (h : s.Quiet) (hw : s.wpend.length ≤ 7) :
    putBits v n s = .ok (emit (bin n v) s) := putString_quiet _ h hw

/-- The writer is padded and emptied (41_bitstream R133). -/
theorem flush_quiet {s : State} (h : s.Quiet) : flush s = .ok (flushed s) := by
  by_cases hw : s.wpend = []
  · simp [flush, flushed, hw]
  · simp [flush, flushed, hw, pushByte_quiet _ h, bind, Except.bind]

theorem flushed_wpend (s : State) : (flushed s).wpend = [] := by
  by_cases hw : s.wpend = [] <;> simp [flushed, hw]

/-- What a flush after a bit string leaves in SINK: the bit string padded, from an empty writer. -/
theorem flushed_emit (bs : Bits) {s : State} (hw : s.wpend = []) :
    (flushed (emit bs s)).sink = s.sink ++ wholeBytes (padBits bs) := by
  have hl := length_tailBits bs
  have hp := wholeBytes_tailBits_append bs (bin ((8 - bs.length % 8) % 8) 0)
  by_cases ht : tailBits bs = []
  · have h0 : bs.length % 8 = 0 := by rw [← hl, ht]; rfl
    simp [flushed, emit, hw, ht, padBits, h0]
  · have h1 : 0 < bs.length % 8 := by rw [← hl]; exact List.length_pos_iff.mpr ht
    have hm : (8 - bs.length % 8) % 8 = 8 - bs.length % 8 := by omega
    have h8 : (tailBits bs ++ bin (8 - bs.length % 8) 0).length = 8 := by simp [hl]; omega
    have hw8 := wholeBytes_eight _ [] h8
    rw [List.append_nil, wholeBytes_short [] (by simp)] at hw8
    rw [hm, hw8] at hp
    simp [flushed, emit, hw, ht, padBits, padByte, hl, hm, hp]

/-! ## Reader -/

/-- The state after `k` bytes were pulled. -/
def pulled (k : Nat) (s : State) : State :=
  { s with
    rpend := s.rpend ++ bytesBits ((s.src.drop s.pos).take k), pos := s.pos + k, draws := s.draws.drop k }

theorem pulled_quiet (k : Nat) {s : State} (h : s.Quiet) : (pulled k s).Quiet := h.drop k rfl rfl rfl

theorem pulled_zero (s : State) : pulled 0 s = s := by simp [pulled]

/-- One byte and then `k` more. -/
theorem pulled_succ {s : State} {b : Byte} (k : Nat) (hb : s.src[s.pos]? = some b) :
    pulled k { s with pos := s.pos + 1, draws := s.draws.tail, rpend := s.rpend ++ binByte b } = pulled (k + 1) s := by
  obtain ⟨hlt, he⟩ := List.getElem?_eq_some_iff.mp hb
  have hd : s.src.drop s.pos = b :: s.src.drop (s.pos + 1) := by rw [List.drop_eq_getElem_cons hlt, he]
  simp [pulled, hd, Nat.add_comm 1, Nat.add_assoc, List.drop_tail]

theorem fill_quiet (n k : Nat) {s : State} (h : s.Quiet) (hk : k = pulls n s) (hp : s.pos + k ≤ s.src.length) :
    ∀ fuel, k ≤ fuel → fill fuel n s = .ok (pulled k s) := by
  induction k generalizing s with
  | zero =>
    intro fuel _
    have hn : ¬ s.rpend.length < n := by simp [pulls] at hk; omega
    cases fuel <;> simp [fill, hn, pulled_zero]
  | succ k ih =>
    intro fuel hf
    obtain ⟨fuel, rfl⟩ : ∃ f, fuel = f + 1 := ⟨fuel - 1, by omega⟩
    have hn : s.rpend.length < n := by simp only [pulls] at hk; omega
    obtain ⟨b, hb⟩ : ∃ b, s.src[s.pos]? = some b := ⟨_, List.getElem?_eq_getElem (by omega)⟩
    have := @ih { s with pos := s.pos + 1, draws := s.draws.tail, rpend := s.rpend ++ binByte b }
      (h.drop 1 rfl rfl (by simp)) (by simp only [pulls, List.length_append, length_binByte] at hk ⊢; omega)
      (by simp only; omega) fuel (by omega)
    simp only [fill, hn, if_true, pullByte_some h hb, bind, Except.bind, this, pulled_succ k hb]

theorem pulls_le_input {n : Nat} {s : State} (hn : n ≤ (incoming s).length) : s.pos + pulls n s ≤ s.src.length ∨ pulls n s = 0 := by
  simp only [incoming, List.length_append, length_bytesBits, List.length_drop] at hn
  simp only [pulls]
  omega

/-- GetBits gives the next bits of the input (41_bitstream R135). -/
theorem getBits_quiet {n : Nat} {s : State} (h : s.Quiet) (hn : n ≤ (incoming s).length) :
    getBits n s = .ok (val ((incoming s).take n), consume n s) := by
  have hk : fill n n s = .ok (pulled (pulls n s) s) := by
    have hle : pulls n s ≤ n := by simp only [pulls]; omega
    rcases pulls_le_input hn with hp | hp
    · exact fill_quiet n _ h rfl hp n hle
    · rw [hp, pulled_zero]
      have : ¬ s.rpend.length < n := by simp only [pulls] at hp; omega
      cases n <;> simp [fill, this]
  have ht : (s.rpend ++ bytesBits ((s.src.drop s.pos).take (pulls n s))).take n = (incoming s).take n := by
    have hd : incoming s = (s.rpend ++ bytesBits ((s.src.drop s.pos).take (pulls n s)))
        ++ bytesBits ((s.src.drop s.pos).drop (pulls n s)) := by
      rw [List.append_assoc, ← bytesBits_append, List.take_append_drop]; rfl
    have hl : n ≤ (s.rpend ++ bytesBits ((s.src.drop s.pos).take (pulls n s))).length := by
      simp only [incoming, List.length_append, length_bytesBits, List.length_drop, List.length_take, pulls] at hn ⊢
      omega
    rw [hd, List.take_append_of_le_length hl]
  simp only [getBits, hk, bind, Except.bind, takeBits, pulled, consume, ht]

theorem consume_quiet (n : Nat) {s : State} (h : s.Quiet) : (consume n s).Quiet := h.drop _ rfl rfl rfl

theorem consume_zero (s : State) : consume 0 s = s := by simp [consume, pulls]

/-- What is still to come after `n` bits were taken. -/
theorem incoming_consume {n : Nat} {s : State} (hn : n ≤ (incoming s).length) :
    incoming (consume n s) = (incoming s).drop n := by
  have hd : incoming s = (s.rpend ++ bytesBits ((s.src.drop s.pos).take (pulls n s)))
      ++ bytesBits ((s.src.drop s.pos).drop (pulls n s)) := by
    rw [List.append_assoc, ← bytesBits_append, List.take_append_drop]; rfl
  have hl : n ≤ (s.rpend ++ bytesBits ((s.src.drop s.pos).take (pulls n s))).length := by
    simp only [incoming, List.length_append, length_bytesBits, List.length_drop, List.length_take, pulls] at hn ⊢
    omega
  rw [hd, List.drop_append_of_le_length hl]
  simp [incoming, consume, List.drop_drop]

/-- Taking `m` bits and then `n` is taking `m + n`. -/
theorem consume_consume {m n : Nat} {s : State} (h : m + n ≤ (incoming s).length) :
    consume n (consume m s) = consume (m + n) s := by
  have hm : (consume m s).rpend.length = s.rpend.length + 8 * pulls m s - m := by
    simp only [incoming, List.length_append, length_bytesBits, List.length_drop] at h
    simp only [consume, List.length_drop, List.length_append, length_bytesBits, List.length_take, pulls]
    omega
  have hp : pulls (m + n) s = pulls m s + pulls n (consume m s) := by
    simp only [pulls] at hm ⊢
    rw [hm]
    omega
  have hb : (s.src.drop s.pos).take (pulls (m + n) s)
      = (s.src.drop s.pos).take (pulls m s) ++ ((s.src.drop (s.pos + pulls m s)).take (pulls n (consume m s))) := by
    rw [hp, ← List.drop_drop, List.take_add]
  have hl : m ≤ (s.rpend ++ bytesBits ((s.src.drop s.pos).take (pulls m s))).length := by
    simp only [incoming, List.length_append, length_bytesBits, List.length_drop] at h
    simp only [List.length_append, length_bytesBits, List.length_drop, List.length_take, pulls]
    omega
  have hr : (consume n (consume m s)).rpend = (consume (m + n) s).rpend := by
    show ((s.rpend ++ bytesBits ((s.src.drop s.pos).take (pulls m s))).drop m
        ++ bytesBits ((s.src.drop (s.pos + pulls m s)).take (pulls n (consume m s)))).drop n
      = (s.rpend ++ bytesBits ((s.src.drop s.pos).take (pulls (m + n) s))).drop (m + n)
    rw [hb, bytesBits_append, ← List.append_assoc, ← List.drop_append_of_le_length hl, List.drop_drop]
  have hq : (consume n (consume m s)).pos = (consume (m + n) s).pos := by
    show s.pos + pulls m s + pulls n (consume m s) = s.pos + pulls (m + n) s
    omega
  have hw : (consume n (consume m s)).draws = (consume (m + n) s).draws := by
    show (s.draws.drop (pulls m s)).drop (pulls n (consume m s)) = s.draws.drop (pulls (m + n) s)
    rw [List.drop_drop, hp]
  show { consume (m + n) s with
      rpend := (consume n (consume m s)).rpend, pos := (consume n (consume m s)).pos
      draws := (consume n (consume m s)).draws } = consume (m + n) s
  rw [hr, hq, hw]

/-- The state once IN has no byte left: `k` bytes and EOS. -/
theorem fillOrEnd_end (w k : Nat) {s : State} (h : s.Quiet) (hk : s.pos + k = s.src.length)
    (hw : s.rpend.length + 8 * k < w) :
    ∀ fuel, k < fuel →
      fillOrEnd fuel w s = .ok (false, { pulled k s with draws := s.draws.drop (k + 1) }) := by
  induction k generalizing s with
  | zero =>
    intro fuel hf
    obtain ⟨fuel, rfl⟩ : ∃ f, fuel = f + 1 := ⟨fuel - 1, by omega⟩
    have hn : s.rpend.length < w := by omega
    simp [fillOrEnd, hn, pullByte_end h (by omega), bind, Except.bind, pulled]
  | succ k ih =>
    intro fuel hf
    obtain ⟨fuel, rfl⟩ : ∃ f, fuel = f + 1 := ⟨fuel - 1, by omega⟩
    have hn : s.rpend.length < w := by omega
    obtain ⟨b, hb⟩ : ∃ b, s.src[s.pos]? = some b := ⟨_, List.getElem?_eq_getElem (by omega)⟩
    have := @ih { s with pos := s.pos + 1, draws := s.draws.tail, rpend := s.rpend ++ binByte b }
      (h.drop 1 rfl rfl (by simp)) (by simp only; omega)
      (by simp only [List.length_append, length_binByte]; omega) fuel (by omega)
    have e := pulled_succ k hb
    simp only [fillOrEnd, hn, if_true, pullByte_some h hb, bind, Except.bind, this, e]
    simp [List.drop_tail]

theorem fillOrEnd_full (w k : Nat) {s : State} (h : s.Quiet) (hk : k = pulls w s) (hp : s.pos + k ≤ s.src.length) :
    ∀ fuel, k ≤ fuel → fillOrEnd fuel w s = .ok (true, pulled k s) := by
  induction k generalizing s with
  | zero =>
    intro fuel _
    have hn : ¬ s.rpend.length < w := by simp [pulls] at hk; omega
    cases fuel <;> simp [fillOrEnd, hn, pulled_zero]
  | succ k ih =>
    intro fuel hf
    obtain ⟨fuel, rfl⟩ : ∃ f, fuel = f + 1 := ⟨fuel - 1, by omega⟩
    have hn : s.rpend.length < w := by simp only [pulls] at hk; omega
    obtain ⟨b, hb⟩ : ∃ b, s.src[s.pos]? = some b := ⟨_, List.getElem?_eq_getElem (by omega)⟩
    have := @ih { s with pos := s.pos + 1, draws := s.draws.tail, rpend := s.rpend ++ binByte b }
      (h.drop 1 rfl rfl (by simp)) (by simp only [pulls, List.length_append, length_binByte] at hk ⊢; omega)
      (by simp only; omega) fuel (by omega)
    simp only [fillOrEnd, hn, if_true, pullByte_some h hb, bind, Except.bind, this, pulled_succ k hb]

/-- NextWord with a full word left (41_bitstream R137). -/
theorem nextWord_full {w : Nat} {s : State} (h : s.Quiet) (hw : w ≤ (incoming s).length) :
    nextWord w s = .ok ((val ((incoming s).take w), w), consume w s) := by
  have hg := getBits_quiet h hw
  have hk : ∃ k, fill w w s = .ok (pulled k s) ∧ fillOrEnd w w s = .ok (true, pulled k s) := by
    have hle : pulls w s ≤ w := by simp only [pulls]; omega
    rcases pulls_le_input hw with hp | hp
    · exact ⟨_, fill_quiet w _ h rfl hp w hle, fillOrEnd_full w _ h rfl hp w hle⟩
    · have : ¬ s.rpend.length < w := by simp only [pulls] at hp; omega
      exact ⟨0, by cases w <;> simp [fill, this, pulled_zero], by cases w <;> simp [fillOrEnd, this, pulled_zero]⟩
  obtain ⟨k, h1, h2⟩ := hk
  simp only [getBits, h1, bind, Except.bind, Except.ok.injEq] at hg
  simp only [nextWord, h2, bind, Except.bind, if_true, hg]

/-- NextWord at the end of the input: the short word, or none (41_bitstream R137). -/
theorem nextWord_end {w : Nat} {s : State} (h : s.Quiet) (hp : s.pos ≤ s.src.length) (hw : (incoming s).length < w) :
    nextWord w s = .ok ((val (incoming s), (incoming s).length),
      { s with rpend := [], pos := s.src.length, draws := s.draws.drop (s.src.length - s.pos + 1) }) := by
  have hl : s.rpend.length + 8 * (s.src.length - s.pos) < w := by
    simpa [incoming] using hw
  have hk := fillOrEnd_end w (s.src.length - s.pos) h (by omega) hl w (by omega)
  have ht : (s.src.drop s.pos).take (s.src.length - s.pos) = s.src.drop s.pos := by
    apply List.take_of_length_le; simp
  have hq : s.pos + (s.src.length - s.pos) = s.src.length := by omega
  simp only [nextWord, hk, bind, Except.bind, pulled, ht, hq]
  rfl

/-- GetBits past the end of the input raises END_OF_STREAM, with the input used up (41_bitstream R135). -/
theorem getBits_short {n : Nat} {s : State} (h : s.Quiet) (hp : s.pos ≤ s.src.length) (hn : (incoming s).length < n) :
    getBits n s = .error ⟨.fault .endOfStream false,
      { pulled (s.src.length - s.pos) s with draws := s.draws.drop (s.src.length - s.pos + 1) }⟩ := by
  have key : ∀ k, ∀ s : State, s.Quiet → s.pos + k = s.src.length → s.rpend.length + 8 * k < n → ∀ fuel, k < fuel →
      fill fuel n s = .error ⟨.fault .endOfStream false, { pulled k s with draws := s.draws.drop (k + 1) }⟩ := by
    intro k
    induction k with
    | zero =>
      intro s h hk hl fuel hf
      obtain ⟨fuel, rfl⟩ : ∃ f, fuel = f + 1 := ⟨fuel - 1, by omega⟩
      have hn : s.rpend.length < n := by omega
      simp [fill, hn, pullByte_end h (by omega), bind, Except.bind, raise, pulled]
    | succ k ih =>
      intro s h hk hl fuel hf
      obtain ⟨fuel, rfl⟩ : ∃ f, fuel = f + 1 := ⟨fuel - 1, by omega⟩
      have hn : s.rpend.length < n := by omega
      obtain ⟨b, hb⟩ : ∃ b, s.src[s.pos]? = some b := ⟨_, List.getElem?_eq_getElem (by omega)⟩
      have := ih { s with pos := s.pos + 1, draws := s.draws.tail, rpend := s.rpend ++ binByte b }
        (h.drop 1 rfl rfl (by simp)) (by simp only; omega)
        (by simp only [List.length_append, length_binByte]; omega) fuel (by omega)
      have e := pulled_succ k hb
      simp only [fill, hn, if_true, pullByte_some h hb, bind, Except.bind, this, e]
      simp [List.drop_tail]
  have hl : s.rpend.length + 8 * (s.src.length - s.pos) < n := by simpa [incoming] using hn
  simp only [getBits, key (s.src.length - s.pos) s h (by omega) hl n (by omega), bind, Except.bind]

end Sys2Proof.Machine
end

