-- ==== Sys2Proof/Laws/Ports.lean ====
section
/-! SUPPORT. What the shared operations can do on any ports and with any host: inversion lemmas, and how a property of
states goes through them. -/

namespace Sys2Proof.Machine

/-! ## Results of primitives -/

/-- A result whose value meets `Q` or whose stop meets `H`. -/
def Sat {α : Type} (Q : α → Prop) (H : Halt → Prop) : Ran α → Prop
  | .ok a => Q a
  | .error h => H h

@[simp] theorem sat_ok {α : Type} (Q : α → Prop) (H : Halt → Prop) (a : α) : Sat Q H (.ok a) = Q a := rfl
@[simp] theorem sat_error {α : Type} (Q : α → Prop) (H : Halt → Prop) (h : Halt) :
    Sat (α := α) Q H (.error h) = H h := rfl

theorem Sat.mono {α : Type} {Q Q' : α → Prop} {H H' : Halt → Prop} {r : Ran α} (h : Sat Q H r)
    (hq : ∀ a, Q a → Q' a) (hh : ∀ x, H x → H' x) : Sat Q' H' r := by
  cases r with
  | ok a => exact hq a h
  | error x => exact hh x h

/-- The pseudocode goes on from what its first part leaves. -/
theorem Sat.bind {α β : Type} {Q : α → Prop} {Q' : β → Prop} {H : Halt → Prop} {r : Ran α} {f : α → Ran β}
    (h : Sat Q H r) (hf : ∀ a, Q a → Sat Q' H (f a)) : Sat Q' H (r >>= f) := by
  cases r with
  | ok a => exact hf a h
  | error x => exact h

/-! ## The host -/

/-- What an action of the host that neither issues a command nor resets can change. -/
theorem hostAction_goOn {a : HostAction} {s s' : State} (h : hostAction a s = .goOn s') :
    ∃ arg0 arg1 drop ie log fresh src pos seekable sink,
      s' = { s with
              arg0 := arg0, arg1 := arg1, drop := drop, ie := ie, log := log, fresh := fresh, src := src, pos := pos
              seekable := seekable, sink := sink }
        ∧ (s.drop = true → drop = true)
        ∧ (s.busy = true → arg0 = s.arg0 ∧ arg1 = s.arg1 ∧ src = s.src ∧ pos = s.pos ∧ seekable = s.seekable)
        ∧ (pos = s.pos ∧ src = s.src ∨ pos = 0) := by
  cases a with
  | read addr size =>
    simp only [hostAction, hostRead, Reply.goOn.injEq] at h
    subst h
    split
    · exact ⟨_, _, _, _, _, _, _, _, _, _, rfl, by simp, by simp, by simp⟩
    · split <;> exact ⟨_, _, _, _, _, _, _, _, _, _, rfl, by simp, by simp, by simp⟩
    · split
      · exact ⟨_, _, _, _, _, _, _, _, _, _, rfl, by simp, by simp, by simp⟩
      · split <;> exact ⟨_, _, _, _, _, _, _, _, _, _, rfl, by simp, by simp, by simp⟩
  | write addr size v =>
    simp only [hostAction, hostWrite] at h
    split at h
    · cases h; exact ⟨_, _, _, _, _, _, _, _, _, _, rfl, by simp, by simp, by simp⟩
    · split at h <;> (cases h; exact ⟨_, _, _, _, _, _, _, _, _, _, rfl, by simp, by simp, by simp⟩)
    · split at h
      · cases h; exact ⟨_, _, _, _, _, _, _, _, _, _, rfl, by simp, by simp, by simp⟩
      · rename_i r _ _
        cases r
        case ctrl =>
          simp only [writeReg, writeCtrl] at h
          split at h
          · cases h
          · cases h; exact ⟨_, _, _, _, _, _, _, _, _, _, rfl, by simp [respond], by simp [respond], by simp [respond]⟩
        all_goals
          simp only [writeReg, Reply.goOn.injEq] at h
          subst h
          try split
          all_goals exact ⟨_, _, _, _, _, _, _, _, _, _, rfl, by simp_all [respond], by simp_all [respond], by simp [respond]⟩
  | attachIn src seekable =>
    simp only [hostAction] at h
    split at h
    · cases h
    · cases h; exact ⟨_, _, _, _, _, _, _, _, _, _, rfl, by simp, by simp_all, by simp⟩
  | attachOut => cases h; exact ⟨_, _, _, _, _, _, _, _, _, _, rfl, by simp, by simp, by simp⟩
  | assertRst => cases h
  | releaseRst =>
    simp only [hostAction] at h
    split at h
    · cases h
    · cases h; exact ⟨_, _, _, _, _, _, _, _, _, _, rfl, by simp, by simp, by simp⟩

/-- A reset leaves the reset values (10_state R42): what an action of the host that resets the block can leave. -/
theorem hostAction_wasReset {a : HostAction} {s s' : State} (h : hostAction a s = .wasReset s') :
    ∃ ie rst log, s' = { resetNow ie s with rst := rst, log := log } ∧ (rst = true → ie = false) := by
  cases a with
  | read addr size => cases h
  | write addr size v =>
    simp only [hostAction, hostWrite] at h
    split at h
    · cases h
    · split at h <;> cases h
    · split at h
      · cases h
      · rename_i r _ hrst
        cases r <;> simp only [writeReg, writeCtrl] at h
        case ctrl =>
          split at h
          · cases h
            refine ⟨v.getLsbD 1, false, s.log ++ [.ack], ?_, by simp⟩
            have hs : (resetNow (v.getLsbD 1) (respond .ack s)).rst = false := by
              simp only [resetNow, resetBlock, settleInFlight, respond]
              split <;> simpa using hrst
            have he : resetNow (v.getLsbD 1) (respond .ack s)
                = { resetNow (v.getLsbD 1) s with rst := (resetNow (v.getLsbD 1) (respond .ack s)).rst, log := s.log ++ [.ack] } := by
              simp only [resetNow, resetBlock, settleInFlight, respond]
              split <;> rfl
            rw [hs] at he
            exact he
          · cases h
        all_goals cases h
  | attachIn src seekable =>
    simp only [hostAction] at h
    split at h <;> cases h
  | attachOut => cases h
  | assertRst =>
    cases h
    refine ⟨false, true, s.log, ?_, by simp⟩
    simp only [resetNow, resetBlock, settleInFlight]
    split <;> rfl
  | releaseRst =>
    simp only [hostAction] at h
    split at h
    · cases h
      refine ⟨false, false, s.log, ?_, by simp⟩
      simp only [resetNow, resetBlock, settleInFlight]
      split <;> rfl
    · cases h

/-! ## A property through the host and the ports -/

/-- A property of states that neither the host nor a draw can break. -/
structure Closed (P : State → Prop) : Prop where
  goOn     : ∀ a s s', P s → hostAction a s = .goOn s' → P s'
  wasReset : ∀ a s s', P s → hostAction a s = .wasReset s' → P s'
  queue    : ∀ s l, P s → P { s with host := l }
  draw     : ∀ s ds f, P s → P { s with draws := ds, inflight := f }
  overlap  : ∀ s os, P s → P { s with overlaps := os }

variable {P : State → Prop}

theorem whileBusy_sat (hc : Closed P) (l : List HostAction) {s : State} (h : P s) :
    Sat P (fun x => P x.st) (whileBusy l s) := by
  induction l generalizing s with
  | nil => exact h
  | cons a l ih =>
    simp only [whileBusy]
    split
    · exact ih (hc.goOn _ _ _ h ‹_›)
    · exact hc.queue _ _ (hc.wasReset _ _ _ h ‹_›)
    · exact h

theorem overlap_sat (hc : Closed P) {s : State} (h : P s) : Sat P (fun x => P x.st) (overlap s) :=
  whileBusy_sat hc _ (hc.overlap _ _ h)

theorem transact_sat (hc : Closed P) (what : Transaction) {s : State} (h : P s) :
    Sat (fun r => P r.2) (fun x => P x.st) (transact what s) := by
  refine (whileBusy_sat hc _ (hc.draw s _ _ h)).bind fun u hu => ?_
  split
  · exact hc.draw u u.draws none hu
  · exact hc.draw u u.draws none hu
  · exact hu

/-- All that PullByte can do (20_memory R55, R58): a byte and POS advanced, EOS, or a stop. -/
theorem pullByte_sat (hc : Closed P) {s : State} (h : P s) :
    Sat (fun r => P r.2 ∧ r.1 = none ∨ ∃ u b, P u ∧ u.src[u.pos]? = some b ∧ r = (some b, { u with pos := u.pos + 1 }))
      (fun x => P x.st) (pullByte s) := by
  refine (transact_sat hc .pull h).bind fun r hr => ?_
  obtain ⟨good, u⟩ := r
  cases good
  · exact hr
  · simp only [if_true]
    split
    · exact .inr ⟨u, _, hr, ‹_›, rfl⟩
    · exact .inl ⟨hr, rfl⟩

/-- All that PushByte can do (20_memory R57, R58): the byte appended, or a stop. -/
theorem pushByte_sat (hc : Closed P) (b : Byte) {s : State} (h : P s) :
    Sat (fun t => ∃ u, P u ∧ t = { u with sink := u.sink ++ [b] }) (fun x => P x.st) (pushByte b s) := by
  refine (transact_sat hc (.push b) h).bind fun r hr => ?_
  obtain ⟨good, u⟩ := r
  cases good
  · exact hr
  · exact ⟨u, hr, rfl⟩

/-- All that SrcLen can do (20_memory R56, R58): the length, or a stop. -/
theorem srcLen_sat (hc : Closed P) {s : State} (h : P s) :
    Sat (fun r => P r.2 ∧ r.1 = lengthWord r.2.src.length) (fun x => P x.st) (srcLen s) := by
  refine (transact_sat hc .length h).bind fun r hr => ?_
  obtain ⟨good, u⟩ := r
  simp only
  split
  · exact ⟨hr, rfl⟩
  · exact hr

/-- All that SrcRewind can do (20_memory R56, R58): POS set to 0, or a stop. -/
theorem srcRewind_sat (hc : Closed P) {s : State} (h : P s) :
    Sat (fun t => ∃ u, P u ∧ t = { u with pos := 0 }) (fun x => P x.st) (srcRewind s) := by
  refine (transact_sat hc .rewind h).bind fun r hr => ?_
  obtain ⟨good, u⟩ := r
  simp only
  split
  · exact ⟨u, hr, rfl⟩
  · exact hr

/-! ## Fault entry -/

/-- What an execution fault leaves is in range (60_exceptions R236, R237), and the rest of the state is as it was. -/
theorem residue_spec (c : FaultCode) (s : State) :
    (residue c s).rpend.length ≤ 7 ∧ (s.wpend.length ≤ 7 → (residue c s).wpend.length ≤ 7)
      ∧ (residue c s).hw ≤ s.params.maxHistW
      ∧ (residue c s).counts.length = (if (residue c s).hw = 0 then 0 else 2 ^ (residue c s).hw)
      ∧ (residue c s).tw ≤ s.params.maxHistW ∧ (residue c s).nodes.length = internals (residue c s).tw
      ∧ (residue c s).lznodes.length ≤ s.params.dictCap ∧ (residue c s).pb.length ≤ s.params.pbCap
      ∧ residue c s =
        { s with
          res0 := (residue c s).res0, res1 := (residue c s).res1, rpend := (residue c s).rpend
          wpend := (residue c s).wpend, hw := (residue c s).hw, counts := (residue c s).counts
          tw := (residue c s).tw, nodes := (residue c s).nodes, strat := (residue c s).strat
          lznodes := (residue c s).lznodes, lzindex := (residue c s).lzindex, pb := (residue c s).pb
          fresh := s.fresh + 1 } := by
  have hr : ∀ x, intoRange 0 (s.params.maxHistW + 1) x ≤ s.params.maxHistW := by
    intro x
    have := Nat.mod_lt x (show 0 < s.params.maxHistW + 1 by omega)
    simp only [intoRange]
    omega
  refine ⟨?_, ?_, hr _, ?_, hr _, ?_, ?_, ?_, rfl⟩
  · simp only [residue, List.length_take]; exact Nat.min_le_left _ _
  · intro h; simp only [residue]; split
    · rw [List.length_take]; exact Nat.min_le_left _ _
    · exact h
  · simp only [residue]; split <;> simp [*]
  · simp only [residue, internals]; split <;> simp [*]
  · simp only [residue, List.length_take]; exact Nat.min_le_left _ _
  · simp only [residue, List.length_take]; exact Nat.min_le_left _ _

/-- All that the fault flush can do (60_exceptions R237): the padded byte appended or not, and nothing pending, or a wait
without end, a reset or a refusal. -/
theorem faultFlush_sat (hc : Closed P) {s : State} (h : P s) (hw : ∀ u, P u → P { u with wpend := [] })
    (hp : ∀ u b, P u → P { u with sink := u.sink ++ [b] }) :
    Sat (fun t => P t ∧ t.wpend = []) (fun x => P x.st ∧ ∀ c k, x.why ≠ .fault c k) (faultFlush s) := by
  simp only [faultFlush]
  split
  · exact ⟨h, List.length_eq_zero_iff.mp ‹_›⟩
  · have hb := pushByte_sat hc (valByte (padByte s.wpend)) h
    split <;> rename_i e <;> rw [e] at hb
    · obtain ⟨u, hu, rfl⟩ := hb
      exact ⟨hw _ (hp _ _ hu), rfl⟩
    · exact ⟨hw _ hb, rfl⟩
    all_goals exact ⟨hb, by simp⟩

/-! ## The end of a command, and the step -/

/-- All that the end of a command can answer: completion, a fault of the block, a state that waits for ever or was reset,
a refusal, or a fault of the model. -/
theorem finish_cases {op : Byte} {r : Ran State} {t : State} (h : finish op r = .next t) :
    (∃ u, r = .ok u ∧ t = endCommand u)
      ∨ (∃ c k u, r = .error ⟨.fault c k, u⟩ ∧ faultOutcome (takeFault op c k u) = .next t)
      ∨ (r = .error ⟨.hung, t⟩) ∨ (r = .error ⟨.wasReset, t⟩) := by
  cases r with
  | ok u => exact .inl ⟨u, rfl, by simpa [finish] using h.symm⟩
  | error x =>
    obtain ⟨why, u⟩ := x
    cases why with
    | fault c k => exact .inr (.inl ⟨c, k, u, rfl, h⟩)
    | hung => simp only [finish, stopOutcome, Host.Outcome.next.injEq] at h; subst h; exact .inr (.inr (.inl rfl))
    | wasReset => simp only [finish, stopOutcome, Host.Outcome.next.injEq] at h; subst h; exact .inr (.inr (.inr rfl))
    | refused q => simp [finish, stopOutcome] at h
    | broken f => simp [finish, stopOutcome] at h

/-- All that a step can do. -/
theorem step_cases {s t : State} (h : step s = .next t) :
    (s.host = [] ∧ t = s)
      ∨ ∃ a rest, s.host = a :: rest
        ∧ ((∃ c, commandOf s a = some c
              ∧ ((∃ i, decode c = .ok i ∧ exec i (respond .ack { s with host := rest }) = .next t)
                ∨ (∃ e, decode c = .error e ∧ illegalCommand c (respond .ack { s with host := rest }) = .next t)))
          ∨ (commandOf s a = none
              ∧ (hostAction a { s with host := rest } = .goOn t ∨ hostAction a { s with host := rest } = .wasReset t))) := by
  simp only [step, fetch] at h
  cases hh : s.host with
  | nil => simp only [hh, Host.Outcome.next.injEq] at h; exact .inl ⟨rfl, h.symm⟩
  | cons a rest =>
    refine .inr ⟨a, rest, rfl, ?_⟩
    simp only [hh] at h
    cases hc : commandOf s a with
    | some c =>
      simp only [hc] at h
      refine .inl ⟨c, rfl, ?_⟩
      cases hd : decode c with
      | ok i => simp only [hd] at h; exact .inl ⟨i, rfl, h⟩
      | error e => simp only [hd] at h; exact .inr ⟨e, rfl, h⟩
    | none =>
      simp only [hc] at h
      refine .inr ⟨rfl, ?_⟩
      cases ha : hostAction a { s with host := rest } with
      | goOn u => simp only [ha, replyOutcome, Host.Outcome.next.injEq] at h; subst h; exact .inl rfl
      | wasReset u => simp only [ha, replyOutcome, Host.Outcome.next.injEq] at h; subst h; exact .inr rfl
      | refuse q => simp [ha, replyOutcome] at h

/-- A command is accepted only with BUSY = 0, ERR = 0 and RST released (40_control R121, R128, 70_reset R261). -/
theorem commandOf_some {s : State} {a : HostAction} {c : Word} (h : commandOf s a = some c) :
    s.busy = false ∧ s.err = false ∧ s.rst = false := by
  cases a <;> simp only [commandOf] at h
  case write =>
    split at h
    · rename_i hc; exact ⟨hc.2.2.1, hc.2.2.2, hc.2.1⟩
    · cases h
  all_goals cases h

end Sys2Proof.Machine
end

