-- ==== Sys2Proof/Laws/Dictionary.lean ====
section
/-! SUPPORT. The dictionary: its form (log 13), what LzAdd can do, and the phrases of its nodes. -/

namespace Sys2Proof.Machine

/-- The form of LZNODES and LZINDEX (10_state R35, R37): parents are smaller than their nodes, LZINDEX maps one phrase, not
empty, to each node, in the order of the nodes. -/
def DictForm (nodes : List LzNode) (index : List (List Byte × Nat)) : Prop :=
  (∀ k, k < nodes.length → ((nodes[k]?).map LzNode.parent).getD 0 ≤ k)
    ∧ index.map Prod.snd = List.range' 1 nodes.length
    ∧ (index.map Prod.fst).Nodup
    ∧ ∀ kv ∈ index, kv.1 ≠ []

theorem dictForm_nil : DictForm [] [] := ⟨by simp, by simp, by simp, by simp⟩

/-- A value of the index is the number of a node. -/
theorem DictForm.range {nodes : List LzNode} {index : List (List Byte × Nat)} (h : DictForm nodes index) {ph : List Byte}
    {k : Nat} (hm : (ph, k) ∈ index) : 1 ≤ k ∧ k ≤ nodes.length := by
  have : k ∈ index.map Prod.snd := List.mem_map.mpr ⟨_, hm, rfl⟩
  rw [h.2.1, List.mem_range'] at this
  obtain ⟨i, hi, rfl⟩ := this
  omega

theorem indexLookup_mem {index : List (List Byte × Nat)} {ph : List Byte} {k : Nat} (h : indexLookup index ph = some k) :
    (ph, k) ∈ index := by
  induction index with
  | nil => cases h
  | cons kv rest ih =>
    simp only [indexLookup] at h
    split at h
    · rename_i he
      cases h
      exact List.mem_cons.mpr (.inl (by rw [← he]))
    · exact List.mem_cons.mpr (.inr (ih h))

theorem indexLookup_none {index : List (List Byte × Nat)} {ph : List Byte} :
    indexLookup index ph = none ↔ ∀ kv ∈ index, kv.1 ≠ ph := by
  induction index with
  | nil => simp [indexLookup]
  | cons kv rest ih =>
    simp only [indexLookup]
    split
    · rename_i he; simp [he]
    · rename_i he; simp [he, ih]

/-- Where no phrase stands twice, LZINDEX is a finite map. -/
theorem indexLookup_of_mem {index : List (List Byte × Nat)} {ph : List Byte} {k : Nat} (hn : (index.map Prod.fst).Nodup)
    (hm : (ph, k) ∈ index) : indexLookup index ph = some k := by
  induction index with
  | nil => cases hm
  | cons kv rest ih =>
    simp only [List.map_cons, List.nodup_cons] at hn
    simp only [indexLookup]
    rcases List.mem_cons.mp hm with rfl | hm
    · simp
    · have hne : ¬ kv.1 = ph := fun he => hn.1 (he ▸ List.mem_map.mpr ⟨_, hm, rfl⟩)
      simp [hne, ih hn.2 hm]

/-- Step 1 of LzAdd clears the dictionary or leaves it. -/
theorem dropIfFull_cases (s : State) : dropIfFull s = s ∨ dropIfFull s = clearDictionary s := by
  simp only [dropIfFull]
  split
  · split
    · exact .inr rfl
    · exact .inl rfl
  · exact .inl rfl
  · exact .inl rfl

/-- All that LzAdd can do (46_lz78_dictionary R202), `u` being the state after step 1. -/
theorem dictAdd_cases (ph : List Byte) (s : State) :
    ∃ u, (u = s ∨ u = clearDictionary s)
      ∧ ((frozen u = true ∧ dictAdd ph s = .pair 0 (ph.getLastD 0) u)
        ∨ (frozen u = false ∧ (∃ k, indexLookup u.lzindex ph = some k) ∧ dictAdd ph s = .known u)
        ∨ (frozen u = false ∧ indexLookup u.lzindex ph = none ∧ u.params.dictCap ≤ u.lznodes.length
            ∧ dictAdd ph s = .full)
        ∨ (frozen u = false ∧ indexLookup u.lzindex ph = none ∧ u.lznodes.length < u.params.dictCap
            ∧ dictAdd ph s = .pair (prefixNode ph u) (ph.getLastD 0)
                { u with
                  lznodes := u.lznodes ++ [⟨prefixNode ph u, ph.getLastD 0⟩]
                  lzindex := u.lzindex ++ [(ph, u.lznodes.length + 1)] })) := by
  refine ⟨dropIfFull s, dropIfFull_cases s, ?_⟩
  simp only [dictAdd, dictSize]
  cases hf : frozen (dropIfFull s)
  · cases hl : indexLookup (dropIfFull s).lzindex ph with
    | some k => simp
    | none =>
      by_cases hc : (dropIfFull s).params.dictCap ≤ (dropIfFull s).lznodes.length
      · simp [hc]
      · simp [hc]; omega
  · simp

/-- A known phrase leaves the dictionary as it is: a cleared dictionary knows none. -/
theorem dictAdd_known {ph : List Byte} {s t : State} (h : dictAdd ph s = .known t) :
    t = s ∧ ∃ k, indexLookup s.lzindex ph = some k := by
  obtain ⟨u, hu, ⟨-, e⟩ | ⟨-, ⟨k, hk⟩, e⟩ | ⟨-, -, -, e⟩ | ⟨-, -, -, e⟩⟩ := dictAdd_cases ph s <;> rw [e] at h <;> cases h
  rcases hu with rfl | rfl
  · exact ⟨rfl, k, hk⟩
  · simp [clearDictionary, indexLookup] at hk

theorem prefixNode_le {ph : List Byte} {s : State} (h : DictForm s.lznodes s.lzindex) :
    prefixNode ph s ≤ s.lznodes.length := by
  simp only [prefixNode]
  split
  · omega
  · cases hl : indexLookup s.lzindex ph.dropLast with
    | none => simp
    | some k => exact (h.range (indexLookup_mem hl)).2

/-- Registering a new phrase keeps the form. -/
theorem DictForm.insert {nodes : List LzNode} {index : List (List Byte × Nat)} (h : DictForm nodes index)
    {ph : List Byte} (hne : ph ≠ []) (hnew : ∀ kv ∈ index, kv.1 ≠ ph) {p : Nat} (hp : p ≤ nodes.length) (b : Byte) :
    DictForm (nodes ++ [⟨p, b⟩]) (index ++ [(ph, nodes.length + 1)]) := by
  obtain ⟨h1, h2, h3, h4⟩ := h
  refine ⟨?_, ?_, ?_, ?_⟩
  · intro k hk
    by_cases hlt : k < nodes.length
    · rw [List.getElem?_append_left hlt]; exact h1 k hlt
    · have : k = nodes.length := by simp at hk; omega
      subst this
      simpa using hp
  · simp [h2, List.range'_concat]; omega
  · rw [List.map_append, List.nodup_append]
    refine ⟨h3, by simp, ?_⟩
    intro a ha b hb
    simp only [List.map_cons, List.map_nil, List.mem_singleton] at hb
    obtain ⟨kv, hkv, rfl⟩ := List.mem_map.mp ha
    exact hb ▸ hnew kv hkv
  · intro kv hkv
    rcases List.mem_append.mp hkv with hkv | hkv
    · exact h4 kv hkv
    · simp only [List.mem_singleton] at hkv; subst hkv; exact hne

/-- The dictionary of a result of LzAdd, if it has one. -/
def AddResult.state? : AddResult → Option State
  | .known s => some s
  | .pair _ _ s => some s
  | .full => none

/-- LzAdd keeps the form and DICT_CAP, and changes nothing but the dictionary. -/
theorem dictAdd_keeps {ph : List Byte} {s t : State} (h : DictForm s.lznodes s.lzindex)
    (hcap : s.lznodes.length ≤ s.params.dictCap) (hne : ph ≠ []) (ht : (dictAdd ph s).state? = some t) :
    DictForm t.lznodes t.lzindex ∧ t.lznodes.length ≤ t.params.dictCap
      ∧ t = { s with lznodes := t.lznodes, lzindex := t.lzindex } := by
  obtain ⟨u, hu, hr⟩ := dictAdd_cases ph s
  have hu' : DictForm u.lznodes u.lzindex ∧ u.lznodes.length ≤ u.params.dictCap
      ∧ u = { s with lznodes := u.lznodes, lzindex := u.lzindex } := by
    rcases hu with rfl | rfl
    · exact ⟨h, hcap, rfl⟩
    · exact ⟨dictForm_nil, Nat.zero_le _, rfl⟩
  rcases hr with ⟨-, e⟩ | ⟨-, -, e⟩ | ⟨-, -, -, e⟩ | ⟨-, hl, hc, e⟩ <;> rw [e] at ht <;> cases ht
  · exact hu'
  · exact hu'
  · refine ⟨hu'.1.insert hne (indexLookup_none.mp hl) (prefixNode_le hu'.1) _, by simp; omega, ?_⟩
    rw [hu'.2.2]

/-- The phrase of a node has at most as many bytes as its number. -/
theorem chain_length {nodes : List LzNode} {fuel i : Nat} {out ph : List Byte} (h : chain nodes fuel i out = some ph) :
    ph.length ≤ out.length + fuel := by
  induction fuel generalizing i out with
  | zero =>
    simp only [chain] at h
    split at h
    · cases h; omega
    · cases h
  | succ fuel ih =>
    simp only [chain] at h
    split at h
    · cases h; omega
    · split at h
      · cases h
      · have := ih h
        simp at this
        omega

theorem dictGet_length {i : Nat} {s : State} {ph : List Byte} (h : dictGet i s = some ph) :
    i ≤ s.lznodes.length ∧ ph.length ≤ i := by
  unfold dictGet dictSize at h
  by_cases hi : s.lznodes.length < i
  · rw [if_pos hi] at h; cases h
  · rw [if_neg hi] at h; exact ⟨by omega, by simpa using chain_length h⟩

/-- In a chain the bytes found so far stay behind. -/
theorem chain_out (nodes : List LzNode) (fuel i : Nat) (out : List Byte) :
    chain nodes fuel i out = (chain nodes fuel i []).map (· ++ out) := by
  induction fuel generalizing i out with
  | zero => simp only [chain]; split <;> simp
  | succ fuel ih =>
    simp only [chain]
    split
    · simp
    · split
      · rfl
      · rename_i nd _
        rw [ih nd.parent (nd.byte :: out), ih nd.parent [nd.byte], Option.map_map]
        congr 1
        funext l
        simp

/-- Enough turns are as good as any. -/
theorem chain_fuel {nodes : List LzNode} (hp : ∀ k, k < nodes.length → ((nodes[k]?).map LzNode.parent).getD 0 ≤ k)
    (i fuel : Nat) (hi : i ≤ nodes.length) (hf : i ≤ fuel) :
    ∃ ph, chain nodes fuel i [] = some ph ∧ chain nodes i i [] = some ph := by
  induction i using Nat.strongRecOn generalizing fuel with
  | ind i ih =>
    by_cases h0 : i = 0
    · subst h0; exact ⟨[], by cases fuel <;> simp [chain], by simp [chain]⟩
    · obtain ⟨f, rfl⟩ : ∃ f, fuel = f + 1 := ⟨fuel - 1, by omega⟩
      obtain ⟨g, rfl⟩ : ∃ g, i = g + 1 := ⟨i - 1, by omega⟩
      have hlt : g < nodes.length := by omega
      have hg := hp g hlt
      have hnd : nodes[g]? = some nodes[g] := List.getElem?_eq_getElem hlt
      simp only [hnd, Option.map_some, Option.getD_some] at hg
      obtain ⟨ph, h1, h2⟩ := ih nodes[g].parent (by omega) f (by omega) (by omega)
      obtain ⟨ph', h3, h4⟩ := ih nodes[g].parent (by omega) g (by omega) (by omega)
      have e : ph = ph' := Option.some.inj (h2.symm.trans h4)
      subst e
      refine ⟨ph ++ [nodes[g].byte], ?_, ?_⟩
      · simp [chain, hnd, chain_out nodes f _ [nodes[g].byte], h1]
      · simp [chain, hnd, chain_out nodes g _ [nodes[g].byte], h3]

/-- The phrase of node k is the phrase of its parent followed by its byte (46_lz78_dictionary R200, R203). -/
theorem dictGet_node {s : State} (h : DictForm s.lznodes s.lzindex) {k : Nat} {nd : LzNode} (hk : k ≠ 0)
    (hn : s.lznodes[k - 1]? = some nd) :
    ∃ ph, dictGet nd.parent s = some ph ∧ dictGet k s = some (ph ++ [nd.byte]) := by
  obtain ⟨g, rfl⟩ : ∃ g, k = g + 1 := ⟨k - 1, by omega⟩
  simp only [Nat.add_sub_cancel] at hn
  obtain ⟨hlt, he⟩ := List.getElem?_eq_some_iff.mp hn
  have hg := h.1 g hlt
  simp only [hn, Option.map_some, Option.getD_some] at hg
  obtain ⟨ph, h1, h2⟩ := chain_fuel h.1 nd.parent g (by omega) hg
  have hle : ¬ s.lznodes.length < nd.parent := by omega
  have hle' : ¬ s.lznodes.length < g + 1 := by omega
  refine ⟨ph, by simp [dictGet, dictSize, hle, h2], ?_⟩
  simp [dictGet, dictSize, hle', chain, hn, chain_out s.lznodes g _ [nd.byte], h1]

theorem dictGet_zero (s : State) : dictGet 0 s = some [] := by simp [dictGet, chain]

end Sys2Proof.Machine
end

