-- ==== Sys2Proof/Laws/Histogram.lean ====
section
/-! SUPPORT. The histogram's form (log 13) and the words of a bit string. -/

namespace Sys2Proof.Machine

theorem clearHistogram_length (w : Nat) (s : State) : (clearHistogram w s).counts.length = 2 ^ w := by
  simp [clearHistogram]

/-- All that one count can do: a missing slot, CAPACITY, or the slot counted (43_histogram R160). -/
theorem countWord_cases (v : Nat) (s : State) :
    (s.counts.length ≤ v ∧ countWord v s = .error ⟨.broken .brokenHistogram, s⟩)
      ∨ ∃ c, s.counts[v]? = some c
        ∧ ((c.toNat = 2 ^ 64 - 1 ∧ countWord v s = .error ⟨.fault .capacity false, s⟩)
          ∨ (c.toNat < 2 ^ 64 - 1 ∧ countWord v s = .ok { s with counts := s.counts.set v (c + 1) })) := by
  cases hc : s.counts[v]? with
  | none => exact .inl ⟨by simpa using hc, by simp [countWord, hc, broken]⟩
  | some c =>
    have hlt : c.toNat < 2 ^ 64 := c.isLt
    refine .inr ⟨c, rfl, ?_⟩
    by_cases h : c.toNat = 2 ^ 64 - 1
    · exact .inl ⟨h, by simp only [countWord, hc, h, if_true, raise]⟩
    · exact .inr ⟨by omega, by simp only [countWord, hc, h, if_false]⟩

/-- A count keeps the number of slots. -/
theorem countWord_length {v : Nat} {s t : State} (h : countWord v s = .ok t) : t.counts.length = s.counts.length := by
  rcases countWord_cases v s with ⟨-, e⟩ | ⟨c, -, ⟨-, e⟩ | ⟨-, e⟩⟩ <;> rw [e] at h <;> cases h
  simp

/-! ## Words -/

theorem segments_nil (w n : Nat) : segments w n [] = [] := by cases n <;> simp [segments]

/-- More turns than bits change nothing. -/
theorem segments_enough {w : Nat} (hw : 1 ≤ w) (m n : Nat) (bs : Bits) (hm : bs.length ≤ m) (hn : bs.length ≤ n) :
    segments w m bs = segments w n bs := by
  induction m generalizing n bs with
  | zero =>
    have : bs = [] := List.length_eq_zero_iff.mp (by omega)
    subst this
    rw [segments_nil, segments_nil]
  | succ m ih =>
    cases n with
    | zero =>
      have : bs = [] := List.length_eq_zero_iff.mp (by omega)
      subst this
      rw [segments_nil, segments_nil]
    | succ n =>
      simp only [segments]
      split
      · rfl
      · rename_i hne
        have : 0 < bs.length := List.length_pos_iff.mpr hne
        rw [ih n (bs.drop w) (by simp; omega) (by simp; omega)]

theorem wordsOf_nil (w : Nat) : wordsOf w [] = [] := by simp [wordsOf, segments]

/-- The first word of a bit string, and the words of the rest (41_bitstream R137). -/
theorem wordsOf_cons {w : Nat} (hw : 1 ≤ w) {bs : Bits} (hne : bs ≠ []) :
    wordsOf w bs = val (bs.take w) :: wordsOf w (bs.drop w) := by
  have hpos : 0 < bs.length := List.length_pos_iff.mpr hne
  obtain ⟨n, hn⟩ : ∃ n, bs.length = n + 1 := ⟨bs.length - 1, by omega⟩
  simp only [wordsOf, hn, segments, hne, if_false, List.map_cons]
  rw [segments_enough hw n (bs.drop w).length (bs.drop w) (by simp; omega) (by omega)]

/-- Every word of width `w` is below 2^w. -/
theorem wordsOf_lt {w : Nat} (bs : Bits) {x : Nat} (hx : x ∈ wordsOf w bs) : x < 2 ^ w := by
  have key : ∀ n bs, ∀ seg ∈ segments w n bs, seg.length ≤ w := by
    intro n
    induction n with
    | zero => intro bs seg h; cases h
    | succ n ih =>
      intro bs seg h
      simp only [segments] at h
      split at h
      · cases h
      · rcases List.mem_cons.mp h with rfl | h
        · rw [List.length_take]; exact Nat.min_le_left _ _
        · exact ih _ seg h
  obtain ⟨seg, hs, rfl⟩ := List.mem_map.mp hx
  exact Nat.lt_of_lt_of_le (val_lt seg) (Nat.pow_le_pow_right (by omega) (key _ _ seg hs))

/-- One word of the reader is the first word of the input, and what is left is the rest (41_bitstream R137). -/
theorem nextWord_quiet {w : Nat} {s : State} (h : s.Quiet) (hp : s.pos ≤ s.src.length) :
    ∃ t, nextWord w s = .ok ((val ((incoming s).take w), min w (incoming s).length), t) ∧ t.Quiet
      ∧ incoming t = (incoming s).drop w ∧ t.pos ≤ t.src.length
      ∧ ∃ k, t = { s with rpend := t.rpend, pos := t.pos, draws := s.draws.drop k } := by
  by_cases hl : w ≤ (incoming s).length
  · refine ⟨consume w s, ?_, consume_quiet w h, incoming_consume hl, ?_, pulls w s, rfl⟩
    · rw [nextWord_full h hl, Nat.min_eq_left hl]
    · rcases pulls_le_input hl with hq | hq
      · exact hq
      · simpa [consume, hq] using hp
  · have hlt : (incoming s).length < w := by omega
    refine ⟨{ s with rpend := [], pos := s.src.length, draws := s.draws.drop (s.src.length - s.pos + 1) }, ?_,
      h.drop (s.src.length - s.pos + 1) rfl rfl rfl, ?_, Nat.le_refl _, s.src.length - s.pos + 1, rfl⟩
    · rw [nextWord_end h hp hlt, Nat.min_eq_right (by omega), List.take_of_length_le (by omega)]
    · simp [incoming, List.drop_of_length_le (Nat.le_of_lt hlt : (s.rpend ++ bytesBits (s.src.drop s.pos)).length ≤ w)]

end Sys2Proof.Machine
end

