-- ==== Sys2Proof/Laws/PerInstr.lean ====
section
/-! SUPPORT. The command word of each command, as 30_encoding R80 and R86 give it. -/

namespace Sys2Proof.Laws

/-- The word of any command with an 8-bit IMM8, as a number. -/
theorem encode_toNat (i : Instr) (h : i.wf = true) : (encode i).toNat = i.imm * 2 ^ 8 + i.op.toNat := by
  have himm : i.imm < 2 ^ 8 := of_decide_eq_true h
  have hop : i.op.toNat < 2 ^ 8 := i.op.isLt
  have hor : i.imm * 2 ^ 8 + i.op.toNat = i.imm <<< 8 ||| i.op.toNat := by
    rw [← Nat.shiftLeft_add_eq_or_of_lt hop, Nat.shiftLeft_eq]
  have himm' : i.imm % 2 ^ 64 = i.imm := Nat.mod_eq_of_lt (by omega)
  have hsh : i.imm <<< 8 % 2 ^ 64 = i.imm <<< 8 := Nat.mod_eq_of_lt (by rw [Nat.shiftLeft_eq]; omega)
  have hop' : i.op.toNat % 2 ^ 64 = i.op.toNat := Nat.mod_eq_of_lt (by omega)
  simp only [encode, BitVec.toNat_or, BitVec.toNat_shiftLeft, BitVec.toNat_ofNat, BitVec.toNat_setWidth, himm', hsh,
    hop', hor]

end Sys2Proof.Laws

namespace Sys2Proof.Laws.EncodedFields

/-- The word of `i` is `(IMM8 << 8) | OP`: OP in bits 7:0, IMM8 in bits 15:8, bits 63:16 zero. -/
def Statement (i : Instr) : Prop := i.wf = true → (encode i).toNat = i.imm * 2 ^ 8 + i.op.toNat

theorem nop : Statement .nop := encode_toNat _
theorem bwWrite (n : Nat) : Statement (.bwWrite n) := encode_toNat _
theorem bwFlush : Statement .bwFlush := encode_toNat _
theorem brRead (n : Nat) : Statement (.brRead n) := encode_toNat _
theorem brWord (w : Nat) : Statement (.brWord w) := encode_toNat _
theorem inRewind : Statement .inRewind := encode_toNat _
theorem inLength : Statement .inLength := encode_toNat _
theorem gammaEnc : Statement .gammaEnc := encode_toNat _
theorem gammaDec : Statement .gammaDec := encode_toNat _
theorem zzEnc : Statement .zzEnc := encode_toNat _
theorem zzDec : Statement .zzDec := encode_toNat _
theorem histBuild (w : Nat) : Statement (.histBuild w) := encode_toNat _
theorem histClear (w : Nat) : Statement (.histClear w) := encode_toNat _
theorem histSet : Statement .histSet := encode_toNat _
theorem histGet : Statement .histGet := encode_toNat _
theorem htBuild : Statement .htBuild := encode_toNat _
theorem htWrite : Statement .htWrite := encode_toNat _
theorem htRead : Statement .htRead := encode_toNat _
theorem htEnc : Statement .htEnc := encode_toNat _
theorem htDec : Statement .htDec := encode_toNat _
theorem htCode : Statement .htCode := encode_toNat _
theorem htNode : Statement .htNode := encode_toNat _
theorem hufComp (w : Nat) : Statement (.hufComp w) := encode_toNat _
theorem hufDecomp : Statement .hufDecomp := encode_toNat _
theorem lzInit : Statement .lzInit := encode_toNat _
theorem lzAdd : Statement .lzAdd := encode_toNat _
theorem lzGet : Statement .lzGet := encode_toNat _
theorem lzFind : Statement .lzFind := encode_toNat _
theorem lzSize : Statement .lzSize := encode_toNat _
theorem lzNode : Statement .lzNode := encode_toNat _
theorem pbClear : Statement .pbClear := encode_toNat _
theorem pbPush : Statement .pbPush := encode_toNat _
theorem pbGet : Statement .pbGet := encode_toNat _
theorem lzEnc : Statement .lzEnc := encode_toNat _
theorem lzDec : Statement .lzDec := encode_toNat _

end Sys2Proof.Laws.EncodedFields
end

