-- ==== Sys2Proof/Laws/State.lean ====
section
/-! SUPPORT. What each named update of the state leaves in each field. -/

namespace Sys2Proof.Machine

@[simp] theorem respond_params (r : Response) (s : State) : (respond r s).params = s.params := rfl
@[simp] theorem respond_arg0 (r : Response) (s : State) : (respond r s).arg0 = s.arg0 := rfl
@[simp] theorem respond_arg1 (r : Response) (s : State) : (respond r s).arg1 = s.arg1 := rfl
@[simp] theorem respond_res0 (r : Response) (s : State) : (respond r s).res0 = s.res0 := rfl
@[simp] theorem respond_res1 (r : Response) (s : State) : (respond r s).res1 = s.res1 := rfl
@[simp] theorem respond_busy (r : Response) (s : State) : (respond r s).busy = s.busy := rfl
@[simp] theorem respond_done (r : Response) (s : State) : (respond r s).done = s.done := rfl
@[simp] theorem respond_err (r : Response) (s : State) : (respond r s).err = s.err := rfl
@[simp] theorem respond_drop (r : Response) (s : State) : (respond r s).drop = s.drop := rfl
@[simp] theorem respond_errcode (r : Response) (s : State) : (respond r s).errcode = s.errcode := rfl
@[simp] theorem respond_errop (r : Response) (s : State) : (respond r s).errop = s.errop := rfl
@[simp] theorem respond_endFlag (r : Response) (s : State) : (respond r s).endFlag = s.endFlag := rfl
@[simp] theorem respond_existsFlag (r : Response) (s : State) : (respond r s).existsFlag = s.existsFlag := rfl
@[simp] theorem respond_nfFlag (r : Response) (s : State) : (respond r s).nfFlag = s.nfFlag := rfl
@[simp] theorem respond_ie (r : Response) (s : State) : (respond r s).ie = s.ie := rfl
@[simp] theorem respond_wpend (r : Response) (s : State) : (respond r s).wpend = s.wpend := rfl
@[simp] theorem respond_rpend (r : Response) (s : State) : (respond r s).rpend = s.rpend := rfl
@[simp] theorem respond_hw (r : Response) (s : State) : (respond r s).hw = s.hw := rfl
@[simp] theorem respond_counts (r : Response) (s : State) : (respond r s).counts = s.counts := rfl
@[simp] theorem respond_tw (r : Response) (s : State) : (respond r s).tw = s.tw := rfl
@[simp] theorem respond_nodes (r : Response) (s : State) : (respond r s).nodes = s.nodes := rfl
@[simp] theorem respond_strat (r : Response) (s : State) : (respond r s).strat = s.strat := rfl
@[simp] theorem respond_lznodes (r : Response) (s : State) : (respond r s).lznodes = s.lznodes := rfl
@[simp] theorem respond_lzindex (r : Response) (s : State) : (respond r s).lzindex = s.lzindex := rfl
@[simp] theorem respond_pb (r : Response) (s : State) : (respond r s).pb = s.pb := rfl
@[simp] theorem respond_rst (r : Response) (s : State) : (respond r s).rst = s.rst := rfl
@[simp] theorem respond_inflight (r : Response) (s : State) : (respond r s).inflight = s.inflight := rfl
@[simp] theorem respond_src (r : Response) (s : State) : (respond r s).src = s.src := rfl
@[simp] theorem respond_pos (r : Response) (s : State) : (respond r s).pos = s.pos := rfl
@[simp] theorem respond_seekable (r : Response) (s : State) : (respond r s).seekable = s.seekable := rfl
@[simp] theorem respond_sink (r : Response) (s : State) : (respond r s).sink = s.sink := rfl
@[simp] theorem respond_host (r : Response) (s : State) : (respond r s).host = s.host := rfl
@[simp] theorem respond_log (r : Response) (s : State) : (respond r s).log = s.log ++ [r] := rfl
@[simp] theorem respond_overlaps (r : Response) (s : State) : (respond r s).overlaps = s.overlaps := rfl
@[simp] theorem respond_draws (r : Response) (s : State) : (respond r s).draws = s.draws := rfl
@[simp] theorem respond_fresh (r : Response) (s : State) : (respond r s).fresh = s.fresh := rfl

@[simp] theorem dropWrite_params (s : State) : (dropWrite s).params = s.params := rfl
@[simp] theorem dropWrite_arg0 (s : State) : (dropWrite s).arg0 = s.arg0 := rfl
@[simp] theorem dropWrite_arg1 (s : State) : (dropWrite s).arg1 = s.arg1 := rfl
@[simp] theorem dropWrite_res0 (s : State) : (dropWrite s).res0 = s.res0 := rfl
@[simp] theorem dropWrite_res1 (s : State) : (dropWrite s).res1 = s.res1 := rfl
@[simp] theorem dropWrite_busy (s : State) : (dropWrite s).busy = s.busy := rfl
@[simp] theorem dropWrite_done (s : State) : (dropWrite s).done = s.done := rfl
@[simp] theorem dropWrite_err (s : State) : (dropWrite s).err = s.err := rfl
@[simp] theorem dropWrite_drop (s : State) : (dropWrite s).drop = true := rfl
@[simp] theorem dropWrite_errcode (s : State) : (dropWrite s).errcode = s.errcode := rfl
@[simp] theorem dropWrite_errop (s : State) : (dropWrite s).errop = s.errop := rfl
@[simp] theorem dropWrite_endFlag (s : State) : (dropWrite s).endFlag = s.endFlag := rfl
@[simp] theorem dropWrite_existsFlag (s : State) : (dropWrite s).existsFlag = s.existsFlag := rfl
@[simp] theorem dropWrite_nfFlag (s : State) : (dropWrite s).nfFlag = s.nfFlag := rfl
@[simp] theorem dropWrite_ie (s : State) : (dropWrite s).ie = s.ie := rfl
@[simp] theorem dropWrite_wpend (s : State) : (dropWrite s).wpend = s.wpend := rfl
@[simp] theorem dropWrite_rpend (s : State) : (dropWrite s).rpend = s.rpend := rfl
@[simp] theorem dropWrite_hw (s : State) : (dropWrite s).hw = s.hw := rfl
@[simp] theorem dropWrite_counts (s : State) : (dropWrite s).counts = s.counts := rfl
@[simp] theorem dropWrite_tw (s : State) : (dropWrite s).tw = s.tw := rfl
@[simp] theorem dropWrite_nodes (s : State) : (dropWrite s).nodes = s.nodes := rfl
@[simp] theorem dropWrite_strat (s : State) : (dropWrite s).strat = s.strat := rfl
@[simp] theorem dropWrite_lznodes (s : State) : (dropWrite s).lznodes = s.lznodes := rfl
@[simp] theorem dropWrite_lzindex (s : State) : (dropWrite s).lzindex = s.lzindex := rfl
@[simp] theorem dropWrite_pb (s : State) : (dropWrite s).pb = s.pb := rfl
@[simp] theorem dropWrite_rst (s : State) : (dropWrite s).rst = s.rst := rfl
@[simp] theorem dropWrite_inflight (s : State) : (dropWrite s).inflight = s.inflight := rfl
@[simp] theorem dropWrite_src (s : State) : (dropWrite s).src = s.src := rfl
@[simp] theorem dropWrite_pos (s : State) : (dropWrite s).pos = s.pos := rfl
@[simp] theorem dropWrite_seekable (s : State) : (dropWrite s).seekable = s.seekable := rfl
@[simp] theorem dropWrite_sink (s : State) : (dropWrite s).sink = s.sink := rfl
@[simp] theorem dropWrite_host (s : State) : (dropWrite s).host = s.host := rfl
@[simp] theorem dropWrite_log (s : State) : (dropWrite s).log = s.log := rfl
@[simp] theorem dropWrite_overlaps (s : State) : (dropWrite s).overlaps = s.overlaps := rfl
@[simp] theorem dropWrite_draws (s : State) : (dropWrite s).draws = s.draws := rfl
@[simp] theorem dropWrite_fresh (s : State) : (dropWrite s).fresh = s.fresh := rfl

@[simp] theorem endCommand_params (s : State) : (endCommand s).params = s.params := rfl
@[simp] theorem endCommand_arg0 (s : State) : (endCommand s).arg0 = s.arg0 := rfl
@[simp] theorem endCommand_arg1 (s : State) : (endCommand s).arg1 = s.arg1 := rfl
@[simp] theorem endCommand_res0 (s : State) : (endCommand s).res0 = s.res0 := rfl
@[simp] theorem endCommand_res1 (s : State) : (endCommand s).res1 = s.res1 := rfl
@[simp] theorem endCommand_busy (s : State) : (endCommand s).busy = false := rfl
@[simp] theorem endCommand_done (s : State) : (endCommand s).done = true := rfl
@[simp] theorem endCommand_err (s : State) : (endCommand s).err = s.err := rfl
@[simp] theorem endCommand_drop (s : State) : (endCommand s).drop = s.drop := rfl
@[simp] theorem endCommand_errcode (s : State) : (endCommand s).errcode = s.errcode := rfl
@[simp] theorem endCommand_errop (s : State) : (endCommand s).errop = s.errop := rfl
@[simp] theorem endCommand_endFlag (s : State) : (endCommand s).endFlag = s.endFlag := rfl
@[simp] theorem endCommand_existsFlag (s : State) : (endCommand s).existsFlag = s.existsFlag := rfl
@[simp] theorem endCommand_nfFlag (s : State) : (endCommand s).nfFlag = s.nfFlag := rfl
@[simp] theorem endCommand_ie (s : State) : (endCommand s).ie = s.ie := rfl
@[simp] theorem endCommand_wpend (s : State) : (endCommand s).wpend = s.wpend := rfl
@[simp] theorem endCommand_rpend (s : State) : (endCommand s).rpend = s.rpend := rfl
@[simp] theorem endCommand_hw (s : State) : (endCommand s).hw = s.hw := rfl
@[simp] theorem endCommand_counts (s : State) : (endCommand s).counts = s.counts := rfl
@[simp] theorem endCommand_tw (s : State) : (endCommand s).tw = s.tw := rfl
@[simp] theorem endCommand_nodes (s : State) : (endCommand s).nodes = s.nodes := rfl
@[simp] theorem endCommand_strat (s : State) : (endCommand s).strat = s.strat := rfl
@[simp] theorem endCommand_lznodes (s : State) : (endCommand s).lznodes = s.lznodes := rfl
@[simp] theorem endCommand_lzindex (s : State) : (endCommand s).lzindex = s.lzindex := rfl
@[simp] theorem endCommand_pb (s : State) : (endCommand s).pb = s.pb := rfl
@[simp] theorem endCommand_rst (s : State) : (endCommand s).rst = s.rst := rfl
@[simp] theorem endCommand_inflight (s : State) : (endCommand s).inflight = s.inflight := rfl
@[simp] theorem endCommand_src (s : State) : (endCommand s).src = s.src := rfl
@[simp] theorem endCommand_pos (s : State) : (endCommand s).pos = s.pos := rfl
@[simp] theorem endCommand_seekable (s : State) : (endCommand s).seekable = s.seekable := rfl
@[simp] theorem endCommand_sink (s : State) : (endCommand s).sink = s.sink := rfl
@[simp] theorem endCommand_host (s : State) : (endCommand s).host = s.host := rfl
@[simp] theorem endCommand_log (s : State) : (endCommand s).log = s.log := rfl
@[simp] theorem endCommand_overlaps (s : State) : (endCommand s).overlaps = s.overlaps := rfl
@[simp] theorem endCommand_draws (s : State) : (endCommand s).draws = s.draws := rfl
@[simp] theorem endCommand_fresh (s : State) : (endCommand s).fresh = s.fresh := rfl

@[simp] theorem recordFault_params (op : Byte) (c : FaultCode) (s : State) : (recordFault op c s).params = s.params := rfl
@[simp] theorem recordFault_arg0 (op : Byte) (c : FaultCode) (s : State) : (recordFault op c s).arg0 = s.arg0 := rfl
@[simp] theorem recordFault_arg1 (op : Byte) (c : FaultCode) (s : State) : (recordFault op c s).arg1 = s.arg1 := rfl
@[simp] theorem recordFault_res0 (op : Byte) (c : FaultCode) (s : State) : (recordFault op c s).res0 = s.res0 := rfl
@[simp] theorem recordFault_res1 (op : Byte) (c : FaultCode) (s : State) : (recordFault op c s).res1 = s.res1 := rfl
@[simp] theorem recordFault_busy (op : Byte) (c : FaultCode) (s : State) : (recordFault op c s).busy = s.busy := rfl
@[simp] theorem recordFault_done (op : Byte) (c : FaultCode) (s : State) : (recordFault op c s).done = s.done := rfl
@[simp] theorem recordFault_err (op : Byte) (c : FaultCode) (s : State) : (recordFault op c s).err = true := rfl
@[simp] theorem recordFault_drop (op : Byte) (c : FaultCode) (s : State) : (recordFault op c s).drop = s.drop := rfl
@[simp] theorem recordFault_errcode (op : Byte) (c : FaultCode) (s : State) : (recordFault op c s).errcode = c := rfl
@[simp] theorem recordFault_errop (op : Byte) (c : FaultCode) (s : State) : (recordFault op c s).errop = op := rfl
@[simp] theorem recordFault_endFlag (op : Byte) (c : FaultCode) (s : State) : (recordFault op c s).endFlag = s.endFlag := rfl
@[simp] theorem recordFault_existsFlag (op : Byte) (c : FaultCode) (s : State) : (recordFault op c s).existsFlag = s.existsFlag := rfl
@[simp] theorem recordFault_nfFlag (op : Byte) (c : FaultCode) (s : State) : (recordFault op c s).nfFlag = s.nfFlag := rfl
@[simp] theorem recordFault_ie (op : Byte) (c : FaultCode) (s : State) : (recordFault op c s).ie = s.ie := rfl
@[simp] theorem recordFault_wpend (op : Byte) (c : FaultCode) (s : State) : (recordFault op c s).wpend = s.wpend := rfl
@[simp] theorem recordFault_rpend (op : Byte) (c : FaultCode) (s : State) : (recordFault op c s).rpend = s.rpend := rfl
@[simp] theorem recordFault_hw (op : Byte) (c : FaultCode) (s : State) : (recordFault op c s).hw = s.hw := rfl
@[simp] theorem recordFault_counts (op : Byte) (c : FaultCode) (s : State) : (recordFault op c s).counts = s.counts := rfl
@[simp] theorem recordFault_tw (op : Byte) (c : FaultCode) (s : State) : (recordFault op c s).tw = s.tw := rfl
@[simp] theorem recordFault_nodes (op : Byte) (c : FaultCode) (s : State) : (recordFault op c s).nodes = s.nodes := rfl
@[simp] theorem recordFault_strat (op : Byte) (c : FaultCode) (s : State) : (recordFault op c s).strat = s.strat := rfl
@[simp] theorem recordFault_lznodes (op : Byte) (c : FaultCode) (s : State) : (recordFault op c s).lznodes = s.lznodes := rfl
@[simp] theorem recordFault_lzindex (op : Byte) (c : FaultCode) (s : State) : (recordFault op c s).lzindex = s.lzindex := rfl
@[simp] theorem recordFault_pb (op : Byte) (c : FaultCode) (s : State) : (recordFault op c s).pb = s.pb := rfl
@[simp] theorem recordFault_rst (op : Byte) (c : FaultCode) (s : State) : (recordFault op c s).rst = s.rst := rfl
@[simp] theorem recordFault_inflight (op : Byte) (c : FaultCode) (s : State) : (recordFault op c s).inflight = s.inflight := rfl
@[simp] theorem recordFault_src (op : Byte) (c : FaultCode) (s : State) : (recordFault op c s).src = s.src := rfl
@[simp] theorem recordFault_pos (op : Byte) (c : FaultCode) (s : State) : (recordFault op c s).pos = s.pos := rfl
@[simp] theorem recordFault_seekable (op : Byte) (c : FaultCode) (s : State) : (recordFault op c s).seekable = s.seekable := rfl
@[simp] theorem recordFault_sink (op : Byte) (c : FaultCode) (s : State) : (recordFault op c s).sink = s.sink := rfl
@[simp] theorem recordFault_host (op : Byte) (c : FaultCode) (s : State) : (recordFault op c s).host = s.host := rfl
@[simp] theorem recordFault_log (op : Byte) (c : FaultCode) (s : State) : (recordFault op c s).log = s.log := rfl
@[simp] theorem recordFault_overlaps (op : Byte) (c : FaultCode) (s : State) : (recordFault op c s).overlaps = s.overlaps := rfl
@[simp] theorem recordFault_draws (op : Byte) (c : FaultCode) (s : State) : (recordFault op c s).draws = s.draws := rfl
@[simp] theorem recordFault_fresh (op : Byte) (c : FaultCode) (s : State) : (recordFault op c s).fresh = s.fresh := rfl

@[simp] theorem accept_params (s : State) : (accept s).params = s.params := rfl
@[simp] theorem accept_arg0 (s : State) : (accept s).arg0 = s.arg0 := rfl
@[simp] theorem accept_arg1 (s : State) : (accept s).arg1 = s.arg1 := rfl
@[simp] theorem accept_res0 (s : State) : (accept s).res0 = s.res0 := rfl
@[simp] theorem accept_res1 (s : State) : (accept s).res1 = s.res1 := rfl
@[simp] theorem accept_busy (s : State) : (accept s).busy = true := rfl
@[simp] theorem accept_done (s : State) : (accept s).done = false := rfl
@[simp] theorem accept_err (s : State) : (accept s).err = s.err := rfl
@[simp] theorem accept_drop (s : State) : (accept s).drop = s.drop := rfl
@[simp] theorem accept_errcode (s : State) : (accept s).errcode = s.errcode := rfl
@[simp] theorem accept_errop (s : State) : (accept s).errop = s.errop := rfl
@[simp] theorem accept_endFlag (s : State) : (accept s).endFlag = false := rfl
@[simp] theorem accept_existsFlag (s : State) : (accept s).existsFlag = false := rfl
@[simp] theorem accept_nfFlag (s : State) : (accept s).nfFlag = false := rfl
@[simp] theorem accept_ie (s : State) : (accept s).ie = s.ie := rfl
@[simp] theorem accept_wpend (s : State) : (accept s).wpend = s.wpend := rfl
@[simp] theorem accept_rpend (s : State) : (accept s).rpend = s.rpend := rfl
@[simp] theorem accept_hw (s : State) : (accept s).hw = s.hw := rfl
@[simp] theorem accept_counts (s : State) : (accept s).counts = s.counts := rfl
@[simp] theorem accept_tw (s : State) : (accept s).tw = s.tw := rfl
@[simp] theorem accept_nodes (s : State) : (accept s).nodes = s.nodes := rfl
@[simp] theorem accept_strat (s : State) : (accept s).strat = s.strat := rfl
@[simp] theorem accept_lznodes (s : State) : (accept s).lznodes = s.lznodes := rfl
@[simp] theorem accept_lzindex (s : State) : (accept s).lzindex = s.lzindex := rfl
@[simp] theorem accept_pb (s : State) : (accept s).pb = s.pb := rfl
@[simp] theorem accept_rst (s : State) : (accept s).rst = s.rst := rfl
@[simp] theorem accept_inflight (s : State) : (accept s).inflight = s.inflight := rfl
@[simp] theorem accept_src (s : State) : (accept s).src = s.src := rfl
@[simp] theorem accept_pos (s : State) : (accept s).pos = s.pos := rfl
@[simp] theorem accept_seekable (s : State) : (accept s).seekable = s.seekable := rfl
@[simp] theorem accept_sink (s : State) : (accept s).sink = s.sink := rfl
@[simp] theorem accept_host (s : State) : (accept s).host = s.host := rfl
@[simp] theorem accept_log (s : State) : (accept s).log = s.log := rfl
@[simp] theorem accept_overlaps (s : State) : (accept s).overlaps = s.overlaps := rfl
@[simp] theorem accept_draws (s : State) : (accept s).draws = s.draws := rfl
@[simp] theorem accept_fresh (s : State) : (accept s).fresh = s.fresh := rfl

@[simp] theorem setEnd_params (b : Bool) (s : State) : (setEnd b s).params = s.params := rfl
@[simp] theorem setEnd_arg0 (b : Bool) (s : State) : (setEnd b s).arg0 = s.arg0 := rfl
@[simp] theorem setEnd_arg1 (b : Bool) (s : State) : (setEnd b s).arg1 = s.arg1 := rfl
@[simp] theorem setEnd_res0 (b : Bool) (s : State) : (setEnd b s).res0 = s.res0 := rfl
@[simp] theorem setEnd_res1 (b : Bool) (s : State) : (setEnd b s).res1 = s.res1 := rfl
@[simp] theorem setEnd_busy (b : Bool) (s : State) : (setEnd b s).busy = s.busy := rfl
@[simp] theorem setEnd_done (b : Bool) (s : State) : (setEnd b s).done = s.done := rfl
@[simp] theorem setEnd_err (b : Bool) (s : State) : (setEnd b s).err = s.err := rfl
@[simp] theorem setEnd_drop (b : Bool) (s : State) : (setEnd b s).drop = s.drop := rfl
@[simp] theorem setEnd_errcode (b : Bool) (s : State) : (setEnd b s).errcode = s.errcode := rfl
@[simp] theorem setEnd_errop (b : Bool) (s : State) : (setEnd b s).errop = s.errop := rfl
@[simp] theorem setEnd_endFlag (b : Bool) (s : State) : (setEnd b s).endFlag = b := rfl
@[simp] theorem setEnd_existsFlag (b : Bool) (s : State) : (setEnd b s).existsFlag = s.existsFlag := rfl
@[simp] theorem setEnd_nfFlag (b : Bool) (s : State) : (setEnd b s).nfFlag = s.nfFlag := rfl
@[simp] theorem setEnd_ie (b : Bool) (s : State) : (setEnd b s).ie = s.ie := rfl
@[simp] theorem setEnd_wpend (b : Bool) (s : State) : (setEnd b s).wpend = s.wpend := rfl
@[simp] theorem setEnd_rpend (b : Bool) (s : State) : (setEnd b s).rpend = s.rpend := rfl
@[simp] theorem setEnd_hw (b : Bool) (s : State) : (setEnd b s).hw = s.hw := rfl
@[simp] theorem setEnd_counts (b : Bool) (s : State) : (setEnd b s).counts = s.counts := rfl
@[simp] theorem setEnd_tw (b : Bool) (s : State) : (setEnd b s).tw = s.tw := rfl
@[simp] theorem setEnd_nodes (b : Bool) (s : State) : (setEnd b s).nodes = s.nodes := rfl
@[simp] theorem setEnd_strat (b : Bool) (s : State) : (setEnd b s).strat = s.strat := rfl
@[simp] theorem setEnd_lznodes (b : Bool) (s : State) : (setEnd b s).lznodes = s.lznodes := rfl
@[simp] theorem setEnd_lzindex (b : Bool) (s : State) : (setEnd b s).lzindex = s.lzindex := rfl
@[simp] theorem setEnd_pb (b : Bool) (s : State) : (setEnd b s).pb = s.pb := rfl
@[simp] theorem setEnd_rst (b : Bool) (s : State) : (setEnd b s).rst = s.rst := rfl
@[simp] theorem setEnd_inflight (b : Bool) (s : State) : (setEnd b s).inflight = s.inflight := rfl
@[simp] theorem setEnd_src (b : Bool) (s : State) : (setEnd b s).src = s.src := rfl
@[simp] theorem setEnd_pos (b : Bool) (s : State) : (setEnd b s).pos = s.pos := rfl
@[simp] theorem setEnd_seekable (b : Bool) (s : State) : (setEnd b s).seekable = s.seekable := rfl
@[simp] theorem setEnd_sink (b : Bool) (s : State) : (setEnd b s).sink = s.sink := rfl
@[simp] theorem setEnd_host (b : Bool) (s : State) : (setEnd b s).host = s.host := rfl
@[simp] theorem setEnd_log (b : Bool) (s : State) : (setEnd b s).log = s.log := rfl
@[simp] theorem setEnd_overlaps (b : Bool) (s : State) : (setEnd b s).overlaps = s.overlaps := rfl
@[simp] theorem setEnd_draws (b : Bool) (s : State) : (setEnd b s).draws = s.draws := rfl
@[simp] theorem setEnd_fresh (b : Bool) (s : State) : (setEnd b s).fresh = s.fresh := rfl

@[simp] theorem setExists_params (s : State) : (setExists s).params = s.params := rfl
@[simp] theorem setExists_arg0 (s : State) : (setExists s).arg0 = s.arg0 := rfl
@[simp] theorem setExists_arg1 (s : State) : (setExists s).arg1 = s.arg1 := rfl
@[simp] theorem setExists_res0 (s : State) : (setExists s).res0 = s.res0 := rfl
@[simp] theorem setExists_res1 (s : State) : (setExists s).res1 = s.res1 := rfl
@[simp] theorem setExists_busy (s : State) : (setExists s).busy = s.busy := rfl
@[simp] theorem setExists_done (s : State) : (setExists s).done = s.done := rfl
@[simp] theorem setExists_err (s : State) : (setExists s).err = s.err := rfl
@[simp] theorem setExists_drop (s : State) : (setExists s).drop = s.drop := rfl
@[simp] theorem setExists_errcode (s : State) : (setExists s).errcode = s.errcode := rfl
@[simp] theorem setExists_errop (s : State) : (setExists s).errop = s.errop := rfl
@[simp] theorem setExists_endFlag (s : State) : (setExists s).endFlag = s.endFlag := rfl
@[simp] theorem setExists_existsFlag (s : State) : (setExists s).existsFlag = true := rfl
@[simp] theorem setExists_nfFlag (s : State) : (setExists s).nfFlag = s.nfFlag := rfl
@[simp] theorem setExists_ie (s : State) : (setExists s).ie = s.ie := rfl
@[simp] theorem setExists_wpend (s : State) : (setExists s).wpend = s.wpend := rfl
@[simp] theorem setExists_rpend (s : State) : (setExists s).rpend = s.rpend := rfl
@[simp] theorem setExists_hw (s : State) : (setExists s).hw = s.hw := rfl
@[simp] theorem setExists_counts (s : State) : (setExists s).counts = s.counts := rfl
@[simp] theorem setExists_tw (s : State) : (setExists s).tw = s.tw := rfl
@[simp] theorem setExists_nodes (s : State) : (setExists s).nodes = s.nodes := rfl
@[simp] theorem setExists_strat (s : State) : (setExists s).strat = s.strat := rfl
@[simp] theorem setExists_lznodes (s : State) : (setExists s).lznodes = s.lznodes := rfl
@[simp] theorem setExists_lzindex (s : State) : (setExists s).lzindex = s.lzindex := rfl
@[simp] theorem setExists_pb (s : State) : (setExists s).pb = s.pb := rfl
@[simp] theorem setExists_rst (s : State) : (setExists s).rst = s.rst := rfl
@[simp] theorem setExists_inflight (s : State) : (setExists s).inflight = s.inflight := rfl
@[simp] theorem setExists_src (s : State) : (setExists s).src = s.src := rfl
@[simp] theorem setExists_pos (s : State) : (setExists s).pos = s.pos := rfl
@[simp] theorem setExists_seekable (s : State) : (setExists s).seekable = s.seekable := rfl
@[simp] theorem setExists_sink (s : State) : (setExists s).sink = s.sink := rfl
@[simp] theorem setExists_host (s : State) : (setExists s).host = s.host := rfl
@[simp] theorem setExists_log (s : State) : (setExists s).log = s.log := rfl
@[simp] theorem setExists_overlaps (s : State) : (setExists s).overlaps = s.overlaps := rfl
@[simp] theorem setExists_draws (s : State) : (setExists s).draws = s.draws := rfl
@[simp] theorem setExists_fresh (s : State) : (setExists s).fresh = s.fresh := rfl

@[simp] theorem setNotFound_params (s : State) : (setNotFound s).params = s.params := rfl
@[simp] theorem setNotFound_arg0 (s : State) : (setNotFound s).arg0 = s.arg0 := rfl
@[simp] theorem setNotFound_arg1 (s : State) : (setNotFound s).arg1 = s.arg1 := rfl
@[simp] theorem setNotFound_res0 (s : State) : (setNotFound s).res0 = s.res0 := rfl
@[simp] theorem setNotFound_res1 (s : State) : (setNotFound s).res1 = s.res1 := rfl
@[simp] theorem setNotFound_busy (s : State) : (setNotFound s).busy = s.busy := rfl
@[simp] theorem setNotFound_done (s : State) : (setNotFound s).done = s.done := rfl
@[simp] theorem setNotFound_err (s : State) : (setNotFound s).err = s.err := rfl
@[simp] theorem setNotFound_drop (s : State) : (setNotFound s).drop = s.drop := rfl
@[simp] theorem setNotFound_errcode (s : State) : (setNotFound s).errcode = s.errcode := rfl
@[simp] theorem setNotFound_errop (s : State) : (setNotFound s).errop = s.errop := rfl
@[simp] theorem setNotFound_endFlag (s : State) : (setNotFound s).endFlag = s.endFlag := rfl
@[simp] theorem setNotFound_existsFlag (s : State) : (setNotFound s).existsFlag = s.existsFlag := rfl
@[simp] theorem setNotFound_nfFlag (s : State) : (setNotFound s).nfFlag = true := rfl
@[simp] theorem setNotFound_ie (s : State) : (setNotFound s).ie = s.ie := rfl
@[simp] theorem setNotFound_wpend (s : State) : (setNotFound s).wpend = s.wpend := rfl
@[simp] theorem setNotFound_rpend (s : State) : (setNotFound s).rpend = s.rpend := rfl
@[simp] theorem setNotFound_hw (s : State) : (setNotFound s).hw = s.hw := rfl
@[simp] theorem setNotFound_counts (s : State) : (setNotFound s).counts = s.counts := rfl
@[simp] theorem setNotFound_tw (s : State) : (setNotFound s).tw = s.tw := rfl
@[simp] theorem setNotFound_nodes (s : State) : (setNotFound s).nodes = s.nodes := rfl
@[simp] theorem setNotFound_strat (s : State) : (setNotFound s).strat = s.strat := rfl
@[simp] theorem setNotFound_lznodes (s : State) : (setNotFound s).lznodes = s.lznodes := rfl
@[simp] theorem setNotFound_lzindex (s : State) : (setNotFound s).lzindex = s.lzindex := rfl
@[simp] theorem setNotFound_pb (s : State) : (setNotFound s).pb = s.pb := rfl
@[simp] theorem setNotFound_rst (s : State) : (setNotFound s).rst = s.rst := rfl
@[simp] theorem setNotFound_inflight (s : State) : (setNotFound s).inflight = s.inflight := rfl
@[simp] theorem setNotFound_src (s : State) : (setNotFound s).src = s.src := rfl
@[simp] theorem setNotFound_pos (s : State) : (setNotFound s).pos = s.pos := rfl
@[simp] theorem setNotFound_seekable (s : State) : (setNotFound s).seekable = s.seekable := rfl
@[simp] theorem setNotFound_sink (s : State) : (setNotFound s).sink = s.sink := rfl
@[simp] theorem setNotFound_host (s : State) : (setNotFound s).host = s.host := rfl
@[simp] theorem setNotFound_log (s : State) : (setNotFound s).log = s.log := rfl
@[simp] theorem setNotFound_overlaps (s : State) : (setNotFound s).overlaps = s.overlaps := rfl
@[simp] theorem setNotFound_draws (s : State) : (setNotFound s).draws = s.draws := rfl
@[simp] theorem setNotFound_fresh (s : State) : (setNotFound s).fresh = s.fresh := rfl

@[simp] theorem setRes0_params (v : Word) (s : State) : (setRes0 v s).params = s.params := rfl
@[simp] theorem setRes0_arg0 (v : Word) (s : State) : (setRes0 v s).arg0 = s.arg0 := rfl
@[simp] theorem setRes0_arg1 (v : Word) (s : State) : (setRes0 v s).arg1 = s.arg1 := rfl
@[simp] theorem setRes0_res0 (v : Word) (s : State) : (setRes0 v s).res0 = v := rfl
@[simp] theorem setRes0_res1 (v : Word) (s : State) : (setRes0 v s).res1 = s.res1 := rfl
@[simp] theorem setRes0_busy (v : Word) (s : State) : (setRes0 v s).busy = s.busy := rfl
@[simp] theorem setRes0_done (v : Word) (s : State) : (setRes0 v s).done = s.done := rfl
@[simp] theorem setRes0_err (v : Word) (s : State) : (setRes0 v s).err = s.err := rfl
@[simp] theorem setRes0_drop (v : Word) (s : State) : (setRes0 v s).drop = s.drop := rfl
@[simp] theorem setRes0_errcode (v : Word) (s : State) : (setRes0 v s).errcode = s.errcode := rfl
@[simp] theorem setRes0_errop (v : Word) (s : State) : (setRes0 v s).errop = s.errop := rfl
@[simp] theorem setRes0_endFlag (v : Word) (s : State) : (setRes0 v s).endFlag = s.endFlag := rfl
@[simp] theorem setRes0_existsFlag (v : Word) (s : State) : (setRes0 v s).existsFlag = s.existsFlag := rfl
@[simp] theorem setRes0_nfFlag (v : Word) (s : State) : (setRes0 v s).nfFlag = s.nfFlag := rfl
@[simp] theorem setRes0_ie (v : Word) (s : State) : (setRes0 v s).ie = s.ie := rfl
@[simp] theorem setRes0_wpend (v : Word) (s : State) : (setRes0 v s).wpend = s.wpend := rfl
@[simp] theorem setRes0_rpend (v : Word) (s : State) : (setRes0 v s).rpend = s.rpend := rfl
@[simp] theorem setRes0_hw (v : Word) (s : State) : (setRes0 v s).hw = s.hw := rfl
@[simp] theorem setRes0_counts (v : Word) (s : State) : (setRes0 v s).counts = s.counts := rfl
@[simp] theorem setRes0_tw (v : Word) (s : State) : (setRes0 v s).tw = s.tw := rfl
@[simp] theorem setRes0_nodes (v : Word) (s : State) : (setRes0 v s).nodes = s.nodes := rfl
@[simp] theorem setRes0_strat (v : Word) (s : State) : (setRes0 v s).strat = s.strat := rfl
@[simp] theorem setRes0_lznodes (v : Word) (s : State) : (setRes0 v s).lznodes = s.lznodes := rfl
@[simp] theorem setRes0_lzindex (v : Word) (s : State) : (setRes0 v s).lzindex = s.lzindex := rfl
@[simp] theorem setRes0_pb (v : Word) (s : State) : (setRes0 v s).pb = s.pb := rfl
@[simp] theorem setRes0_rst (v : Word) (s : State) : (setRes0 v s).rst = s.rst := rfl
@[simp] theorem setRes0_inflight (v : Word) (s : State) : (setRes0 v s).inflight = s.inflight := rfl
@[simp] theorem setRes0_src (v : Word) (s : State) : (setRes0 v s).src = s.src := rfl
@[simp] theorem setRes0_pos (v : Word) (s : State) : (setRes0 v s).pos = s.pos := rfl
@[simp] theorem setRes0_seekable (v : Word) (s : State) : (setRes0 v s).seekable = s.seekable := rfl
@[simp] theorem setRes0_sink (v : Word) (s : State) : (setRes0 v s).sink = s.sink := rfl
@[simp] theorem setRes0_host (v : Word) (s : State) : (setRes0 v s).host = s.host := rfl
@[simp] theorem setRes0_log (v : Word) (s : State) : (setRes0 v s).log = s.log := rfl
@[simp] theorem setRes0_overlaps (v : Word) (s : State) : (setRes0 v s).overlaps = s.overlaps := rfl
@[simp] theorem setRes0_draws (v : Word) (s : State) : (setRes0 v s).draws = s.draws := rfl
@[simp] theorem setRes0_fresh (v : Word) (s : State) : (setRes0 v s).fresh = s.fresh := rfl

@[simp] theorem setRes1_params (v : Word) (s : State) : (setRes1 v s).params = s.params := rfl
@[simp] theorem setRes1_arg0 (v : Word) (s : State) : (setRes1 v s).arg0 = s.arg0 := rfl
@[simp] theorem setRes1_arg1 (v : Word) (s : State) : (setRes1 v s).arg1 = s.arg1 := rfl
@[simp] theorem setRes1_res0 (v : Word) (s : State) : (setRes1 v s).res0 = s.res0 := rfl
@[simp] theorem setRes1_res1 (v : Word) (s : State) : (setRes1 v s).res1 = v := rfl
@[simp] theorem setRes1_busy (v : Word) (s : State) : (setRes1 v s).busy = s.busy := rfl
@[simp] theorem setRes1_done (v : Word) (s : State) : (setRes1 v s).done = s.done := rfl
@[simp] theorem setRes1_err (v : Word) (s : State) : (setRes1 v s).err = s.err := rfl
@[simp] theorem setRes1_drop (v : Word) (s : State) : (setRes1 v s).drop = s.drop := rfl
@[simp] theorem setRes1_errcode (v : Word) (s : State) : (setRes1 v s).errcode = s.errcode := rfl
@[simp] theorem setRes1_errop (v : Word) (s : State) : (setRes1 v s).errop = s.errop := rfl
@[simp] theorem setRes1_endFlag (v : Word) (s : State) : (setRes1 v s).endFlag = s.endFlag := rfl
@[simp] theorem setRes1_existsFlag (v : Word) (s : State) : (setRes1 v s).existsFlag = s.existsFlag := rfl
@[simp] theorem setRes1_nfFlag (v : Word) (s : State) : (setRes1 v s).nfFlag = s.nfFlag := rfl
@[simp] theorem setRes1_ie (v : Word) (s : State) : (setRes1 v s).ie = s.ie := rfl
@[simp] theorem setRes1_wpend (v : Word) (s : State) : (setRes1 v s).wpend = s.wpend := rfl
@[simp] theorem setRes1_rpend (v : Word) (s : State) : (setRes1 v s).rpend = s.rpend := rfl
@[simp] theorem setRes1_hw (v : Word) (s : State) : (setRes1 v s).hw = s.hw := rfl
@[simp] theorem setRes1_counts (v : Word) (s : State) : (setRes1 v s).counts = s.counts := rfl
@[simp] theorem setRes1_tw (v : Word) (s : State) : (setRes1 v s).tw = s.tw := rfl
@[simp] theorem setRes1_nodes (v : Word) (s : State) : (setRes1 v s).nodes = s.nodes := rfl
@[simp] theorem setRes1_strat (v : Word) (s : State) : (setRes1 v s).strat = s.strat := rfl
@[simp] theorem setRes1_lznodes (v : Word) (s : State) : (setRes1 v s).lznodes = s.lznodes := rfl
@[simp] theorem setRes1_lzindex (v : Word) (s : State) : (setRes1 v s).lzindex = s.lzindex := rfl
@[simp] theorem setRes1_pb (v : Word) (s : State) : (setRes1 v s).pb = s.pb := rfl
@[simp] theorem setRes1_rst (v : Word) (s : State) : (setRes1 v s).rst = s.rst := rfl
@[simp] theorem setRes1_inflight (v : Word) (s : State) : (setRes1 v s).inflight = s.inflight := rfl
@[simp] theorem setRes1_src (v : Word) (s : State) : (setRes1 v s).src = s.src := rfl
@[simp] theorem setRes1_pos (v : Word) (s : State) : (setRes1 v s).pos = s.pos := rfl
@[simp] theorem setRes1_seekable (v : Word) (s : State) : (setRes1 v s).seekable = s.seekable := rfl
@[simp] theorem setRes1_sink (v : Word) (s : State) : (setRes1 v s).sink = s.sink := rfl
@[simp] theorem setRes1_host (v : Word) (s : State) : (setRes1 v s).host = s.host := rfl
@[simp] theorem setRes1_log (v : Word) (s : State) : (setRes1 v s).log = s.log := rfl
@[simp] theorem setRes1_overlaps (v : Word) (s : State) : (setRes1 v s).overlaps = s.overlaps := rfl
@[simp] theorem setRes1_draws (v : Word) (s : State) : (setRes1 v s).draws = s.draws := rfl
@[simp] theorem setRes1_fresh (v : Word) (s : State) : (setRes1 v s).fresh = s.fresh := rfl

@[simp] theorem clearHistogram_params (w : Nat) (s : State) : (clearHistogram w s).params = s.params := rfl
@[simp] theorem clearHistogram_arg0 (w : Nat) (s : State) : (clearHistogram w s).arg0 = s.arg0 := rfl
@[simp] theorem clearHistogram_arg1 (w : Nat) (s : State) : (clearHistogram w s).arg1 = s.arg1 := rfl
@[simp] theorem clearHistogram_res0 (w : Nat) (s : State) : (clearHistogram w s).res0 = s.res0 := rfl
@[simp] theorem clearHistogram_res1 (w : Nat) (s : State) : (clearHistogram w s).res1 = s.res1 := rfl
@[simp] theorem clearHistogram_busy (w : Nat) (s : State) : (clearHistogram w s).busy = s.busy := rfl
@[simp] theorem clearHistogram_done (w : Nat) (s : State) : (clearHistogram w s).done = s.done := rfl
@[simp] theorem clearHistogram_err (w : Nat) (s : State) : (clearHistogram w s).err = s.err := rfl
@[simp] theorem clearHistogram_drop (w : Nat) (s : State) : (clearHistogram w s).drop = s.drop := rfl
@[simp] theorem clearHistogram_errcode (w : Nat) (s : State) : (clearHistogram w s).errcode = s.errcode := rfl
@[simp] theorem clearHistogram_errop (w : Nat) (s : State) : (clearHistogram w s).errop = s.errop := rfl
@[simp] theorem clearHistogram_endFlag (w : Nat) (s : State) : (clearHistogram w s).endFlag = s.endFlag := rfl
@[simp] theorem clearHistogram_existsFlag (w : Nat) (s : State) : (clearHistogram w s).existsFlag = s.existsFlag := rfl
@[simp] theorem clearHistogram_nfFlag (w : Nat) (s : State) : (clearHistogram w s).nfFlag = s.nfFlag := rfl
@[simp] theorem clearHistogram_ie (w : Nat) (s : State) : (clearHistogram w s).ie = s.ie := rfl
@[simp] theorem clearHistogram_wpend (w : Nat) (s : State) : (clearHistogram w s).wpend = s.wpend := rfl
@[simp] theorem clearHistogram_rpend (w : Nat) (s : State) : (clearHistogram w s).rpend = s.rpend := rfl
@[simp] theorem clearHistogram_hw (w : Nat) (s : State) : (clearHistogram w s).hw = w := rfl
@[simp] theorem clearHistogram_counts (w : Nat) (s : State) : (clearHistogram w s).counts = List.replicate (2 ^ w) 0 := rfl
@[simp] theorem clearHistogram_tw (w : Nat) (s : State) : (clearHistogram w s).tw = s.tw := rfl
@[simp] theorem clearHistogram_nodes (w : Nat) (s : State) : (clearHistogram w s).nodes = s.nodes := rfl
@[simp] theorem clearHistogram_strat (w : Nat) (s : State) : (clearHistogram w s).strat = s.strat := rfl
@[simp] theorem clearHistogram_lznodes (w : Nat) (s : State) : (clearHistogram w s).lznodes = s.lznodes := rfl
@[simp] theorem clearHistogram_lzindex (w : Nat) (s : State) : (clearHistogram w s).lzindex = s.lzindex := rfl
@[simp] theorem clearHistogram_pb (w : Nat) (s : State) : (clearHistogram w s).pb = s.pb := rfl
@[simp] theorem clearHistogram_rst (w : Nat) (s : State) : (clearHistogram w s).rst = s.rst := rfl
@[simp] theorem clearHistogram_inflight (w : Nat) (s : State) : (clearHistogram w s).inflight = s.inflight := rfl
@[simp] theorem clearHistogram_src (w : Nat) (s : State) : (clearHistogram w s).src = s.src := rfl
@[simp] theorem clearHistogram_pos (w : Nat) (s : State) : (clearHistogram w s).pos = s.pos := rfl
@[simp] theorem clearHistogram_seekable (w : Nat) (s : State) : (clearHistogram w s).seekable = s.seekable := rfl
@[simp] theorem clearHistogram_sink (w : Nat) (s : State) : (clearHistogram w s).sink = s.sink := rfl
@[simp] theorem clearHistogram_host (w : Nat) (s : State) : (clearHistogram w s).host = s.host := rfl
@[simp] theorem clearHistogram_log (w : Nat) (s : State) : (clearHistogram w s).log = s.log := rfl
@[simp] theorem clearHistogram_overlaps (w : Nat) (s : State) : (clearHistogram w s).overlaps = s.overlaps := rfl
@[simp] theorem clearHistogram_draws (w : Nat) (s : State) : (clearHistogram w s).draws = s.draws := rfl
@[simp] theorem clearHistogram_fresh (w : Nat) (s : State) : (clearHistogram w s).fresh = s.fresh := rfl

@[simp] theorem treeBuild_params (s : State) : (treeBuild s).params = s.params := rfl
@[simp] theorem treeBuild_arg0 (s : State) : (treeBuild s).arg0 = s.arg0 := rfl
@[simp] theorem treeBuild_arg1 (s : State) : (treeBuild s).arg1 = s.arg1 := rfl
@[simp] theorem treeBuild_res0 (s : State) : (treeBuild s).res0 = s.res0 := rfl
@[simp] theorem treeBuild_res1 (s : State) : (treeBuild s).res1 = s.res1 := rfl
@[simp] theorem treeBuild_busy (s : State) : (treeBuild s).busy = s.busy := rfl
@[simp] theorem treeBuild_done (s : State) : (treeBuild s).done = s.done := rfl
@[simp] theorem treeBuild_err (s : State) : (treeBuild s).err = s.err := rfl
@[simp] theorem treeBuild_drop (s : State) : (treeBuild s).drop = s.drop := rfl
@[simp] theorem treeBuild_errcode (s : State) : (treeBuild s).errcode = s.errcode := rfl
@[simp] theorem treeBuild_errop (s : State) : (treeBuild s).errop = s.errop := rfl
@[simp] theorem treeBuild_endFlag (s : State) : (treeBuild s).endFlag = s.endFlag := rfl
@[simp] theorem treeBuild_existsFlag (s : State) : (treeBuild s).existsFlag = s.existsFlag := rfl
@[simp] theorem treeBuild_nfFlag (s : State) : (treeBuild s).nfFlag = s.nfFlag := rfl
@[simp] theorem treeBuild_ie (s : State) : (treeBuild s).ie = s.ie := rfl
@[simp] theorem treeBuild_wpend (s : State) : (treeBuild s).wpend = s.wpend := rfl
@[simp] theorem treeBuild_rpend (s : State) : (treeBuild s).rpend = s.rpend := rfl
@[simp] theorem treeBuild_hw (s : State) : (treeBuild s).hw = s.hw := rfl
@[simp] theorem treeBuild_counts (s : State) : (treeBuild s).counts = s.counts := rfl
@[simp] theorem treeBuild_tw (s : State) : (treeBuild s).tw = s.hw := rfl
@[simp] theorem treeBuild_nodes (s : State) : (treeBuild s).nodes = builtNodes s.hw s.counts := rfl
@[simp] theorem treeBuild_strat (s : State) : (treeBuild s).strat = s.strat := rfl
@[simp] theorem treeBuild_lznodes (s : State) : (treeBuild s).lznodes = s.lznodes := rfl
@[simp] theorem treeBuild_lzindex (s : State) : (treeBuild s).lzindex = s.lzindex := rfl
@[simp] theorem treeBuild_pb (s : State) : (treeBuild s).pb = s.pb := rfl
@[simp] theorem treeBuild_rst (s : State) : (treeBuild s).rst = s.rst := rfl
@[simp] theorem treeBuild_inflight (s : State) : (treeBuild s).inflight = s.inflight := rfl
@[simp] theorem treeBuild_src (s : State) : (treeBuild s).src = s.src := rfl
@[simp] theorem treeBuild_pos (s : State) : (treeBuild s).pos = s.pos := rfl
@[simp] theorem treeBuild_seekable (s : State) : (treeBuild s).seekable = s.seekable := rfl
@[simp] theorem treeBuild_sink (s : State) : (treeBuild s).sink = s.sink := rfl
@[simp] theorem treeBuild_host (s : State) : (treeBuild s).host = s.host := rfl
@[simp] theorem treeBuild_log (s : State) : (treeBuild s).log = s.log := rfl
@[simp] theorem treeBuild_overlaps (s : State) : (treeBuild s).overlaps = s.overlaps := rfl
@[simp] theorem treeBuild_draws (s : State) : (treeBuild s).draws = s.draws := rfl
@[simp] theorem treeBuild_fresh (s : State) : (treeBuild s).fresh = s.fresh := rfl

@[simp] theorem clearDictionary_params (s : State) : (clearDictionary s).params = s.params := rfl
@[simp] theorem clearDictionary_arg0 (s : State) : (clearDictionary s).arg0 = s.arg0 := rfl
@[simp] theorem clearDictionary_arg1 (s : State) : (clearDictionary s).arg1 = s.arg1 := rfl
@[simp] theorem clearDictionary_res0 (s : State) : (clearDictionary s).res0 = s.res0 := rfl
@[simp] theorem clearDictionary_res1 (s : State) : (clearDictionary s).res1 = s.res1 := rfl
@[simp] theorem clearDictionary_busy (s : State) : (clearDictionary s).busy = s.busy := rfl
@[simp] theorem clearDictionary_done (s : State) : (clearDictionary s).done = s.done := rfl
@[simp] theorem clearDictionary_err (s : State) : (clearDictionary s).err = s.err := rfl
@[simp] theorem clearDictionary_drop (s : State) : (clearDictionary s).drop = s.drop := rfl
@[simp] theorem clearDictionary_errcode (s : State) : (clearDictionary s).errcode = s.errcode := rfl
@[simp] theorem clearDictionary_errop (s : State) : (clearDictionary s).errop = s.errop := rfl
@[simp] theorem clearDictionary_endFlag (s : State) : (clearDictionary s).endFlag = s.endFlag := rfl
@[simp] theorem clearDictionary_existsFlag (s : State) : (clearDictionary s).existsFlag = s.existsFlag := rfl
@[simp] theorem clearDictionary_nfFlag (s : State) : (clearDictionary s).nfFlag = s.nfFlag := rfl
@[simp] theorem clearDictionary_ie (s : State) : (clearDictionary s).ie = s.ie := rfl
@[simp] theorem clearDictionary_wpend (s : State) : (clearDictionary s).wpend = s.wpend := rfl
@[simp] theorem clearDictionary_rpend (s : State) : (clearDictionary s).rpend = s.rpend := rfl
@[simp] theorem clearDictionary_hw (s : State) : (clearDictionary s).hw = s.hw := rfl
@[simp] theorem clearDictionary_counts (s : State) : (clearDictionary s).counts = s.counts := rfl
@[simp] theorem clearDictionary_tw (s : State) : (clearDictionary s).tw = s.tw := rfl
@[simp] theorem clearDictionary_nodes (s : State) : (clearDictionary s).nodes = s.nodes := rfl
@[simp] theorem clearDictionary_strat (s : State) : (clearDictionary s).strat = s.strat := rfl
@[simp] theorem clearDictionary_lznodes (s : State) : (clearDictionary s).lznodes = [] := rfl
@[simp] theorem clearDictionary_lzindex (s : State) : (clearDictionary s).lzindex = [] := rfl
@[simp] theorem clearDictionary_pb (s : State) : (clearDictionary s).pb = s.pb := rfl
@[simp] theorem clearDictionary_rst (s : State) : (clearDictionary s).rst = s.rst := rfl
@[simp] theorem clearDictionary_inflight (s : State) : (clearDictionary s).inflight = s.inflight := rfl
@[simp] theorem clearDictionary_src (s : State) : (clearDictionary s).src = s.src := rfl
@[simp] theorem clearDictionary_pos (s : State) : (clearDictionary s).pos = s.pos := rfl
@[simp] theorem clearDictionary_seekable (s : State) : (clearDictionary s).seekable = s.seekable := rfl
@[simp] theorem clearDictionary_sink (s : State) : (clearDictionary s).sink = s.sink := rfl
@[simp] theorem clearDictionary_host (s : State) : (clearDictionary s).host = s.host := rfl
@[simp] theorem clearDictionary_log (s : State) : (clearDictionary s).log = s.log := rfl
@[simp] theorem clearDictionary_overlaps (s : State) : (clearDictionary s).overlaps = s.overlaps := rfl
@[simp] theorem clearDictionary_draws (s : State) : (clearDictionary s).draws = s.draws := rfl
@[simp] theorem clearDictionary_fresh (s : State) : (clearDictionary s).fresh = s.fresh := rfl

@[simp] theorem dictInit_params (v : Word) (s : State) : (dictInit v s).params = s.params := rfl
@[simp] theorem dictInit_arg0 (v : Word) (s : State) : (dictInit v s).arg0 = s.arg0 := rfl
@[simp] theorem dictInit_arg1 (v : Word) (s : State) : (dictInit v s).arg1 = s.arg1 := rfl
@[simp] theorem dictInit_res0 (v : Word) (s : State) : (dictInit v s).res0 = s.res0 := rfl
@[simp] theorem dictInit_res1 (v : Word) (s : State) : (dictInit v s).res1 = s.res1 := rfl
@[simp] theorem dictInit_busy (v : Word) (s : State) : (dictInit v s).busy = s.busy := rfl
@[simp] theorem dictInit_done (v : Word) (s : State) : (dictInit v s).done = s.done := rfl
@[simp] theorem dictInit_err (v : Word) (s : State) : (dictInit v s).err = s.err := rfl
@[simp] theorem dictInit_drop (v : Word) (s : State) : (dictInit v s).drop = s.drop := rfl
@[simp] theorem dictInit_errcode (v : Word) (s : State) : (dictInit v s).errcode = s.errcode := rfl
@[simp] theorem dictInit_errop (v : Word) (s : State) : (dictInit v s).errop = s.errop := rfl
@[simp] theorem dictInit_endFlag (v : Word) (s : State) : (dictInit v s).endFlag = s.endFlag := rfl
@[simp] theorem dictInit_existsFlag (v : Word) (s : State) : (dictInit v s).existsFlag = s.existsFlag := rfl
@[simp] theorem dictInit_nfFlag (v : Word) (s : State) : (dictInit v s).nfFlag = s.nfFlag := rfl
@[simp] theorem dictInit_ie (v : Word) (s : State) : (dictInit v s).ie = s.ie := rfl
@[simp] theorem dictInit_wpend (v : Word) (s : State) : (dictInit v s).wpend = s.wpend := rfl
@[simp] theorem dictInit_rpend (v : Word) (s : State) : (dictInit v s).rpend = s.rpend := rfl
@[simp] theorem dictInit_hw (v : Word) (s : State) : (dictInit v s).hw = s.hw := rfl
@[simp] theorem dictInit_counts (v : Word) (s : State) : (dictInit v s).counts = s.counts := rfl
@[simp] theorem dictInit_tw (v : Word) (s : State) : (dictInit v s).tw = s.tw := rfl
@[simp] theorem dictInit_nodes (v : Word) (s : State) : (dictInit v s).nodes = s.nodes := rfl
@[simp] theorem dictInit_strat (v : Word) (s : State) : (dictInit v s).strat = v := rfl
@[simp] theorem dictInit_lznodes (v : Word) (s : State) : (dictInit v s).lznodes = [] := rfl
@[simp] theorem dictInit_lzindex (v : Word) (s : State) : (dictInit v s).lzindex = [] := rfl
@[simp] theorem dictInit_pb (v : Word) (s : State) : (dictInit v s).pb = s.pb := rfl
@[simp] theorem dictInit_rst (v : Word) (s : State) : (dictInit v s).rst = s.rst := rfl
@[simp] theorem dictInit_inflight (v : Word) (s : State) : (dictInit v s).inflight = s.inflight := rfl
@[simp] theorem dictInit_src (v : Word) (s : State) : (dictInit v s).src = s.src := rfl
@[simp] theorem dictInit_pos (v : Word) (s : State) : (dictInit v s).pos = s.pos := rfl
@[simp] theorem dictInit_seekable (v : Word) (s : State) : (dictInit v s).seekable = s.seekable := rfl
@[simp] theorem dictInit_sink (v : Word) (s : State) : (dictInit v s).sink = s.sink := rfl
@[simp] theorem dictInit_host (v : Word) (s : State) : (dictInit v s).host = s.host := rfl
@[simp] theorem dictInit_log (v : Word) (s : State) : (dictInit v s).log = s.log := rfl
@[simp] theorem dictInit_overlaps (v : Word) (s : State) : (dictInit v s).overlaps = s.overlaps := rfl
@[simp] theorem dictInit_draws (v : Word) (s : State) : (dictInit v s).draws = s.draws := rfl
@[simp] theorem dictInit_fresh (v : Word) (s : State) : (dictInit v s).fresh = s.fresh := rfl

end Sys2Proof.Machine
end

