-- ==== Sys2Proof/Laws/Tree.lean ====
section
/-! SUPPORT. The queue and the merging loop of TreeBuild, and the paths of a tree. -/

namespace Sys2Proof.Machine

/-! ## The queue -/

theorem enqueue_perm (e : QEntry) (q : List QEntry) : (enqueue e q).Perm (e :: q) := by
  induction q with
  | nil => exact List.Perm.refl _
  | cons f q ih =>
    simp only [enqueue]
    split
    · exact (List.Perm.cons f ih).trans (List.Perm.swap e f q)
    · exact List.Perm.refl _

@[simp] theorem length_enqueue (e : QEntry) (q : List QEntry) : (enqueue e q).length = q.length + 1 :=
  (enqueue_perm e q).length_eq

theorem mem_enqueue {e x : QEntry} {q : List QEntry} : x ∈ enqueue e q ↔ x = e ∨ x ∈ q := by
  rw [(enqueue_perm e q).mem_iff, List.mem_cons]

/-- The order of the queue is the order of the statements. -/
theorem QEntry.before_iff {a b : QEntry} : a.before b = true ↔ a.less b := by
  simp [QEntry.before, QEntry.less]

/-- The entries in queue order: none is before one that stands earlier. -/
def Sorted (q : List QEntry) : Prop := q.Pairwise fun a b => b.before a = false

theorem QEntry.before_asymm {a b : QEntry} (h : a.before b = true) : b.before a = false := by
  simp only [QEntry.before, Bool.or_eq_true, Bool.and_eq_true, decide_eq_true_eq, beq_iff_eq, Bool.or_eq_false_iff,
    Bool.and_eq_false_iff, decide_eq_false_iff_not] at *
  simp only [beq_eq_false_iff_ne, ne_eq] at *
  omega

theorem QEntry.not_before_trans {a b c : QEntry} (h1 : b.before a = false) (h2 : c.before b = false) :
    c.before a = false := by
  simp only [QEntry.before, Bool.or_eq_false_iff, Bool.and_eq_false_iff, decide_eq_false_iff_not,
    beq_eq_false_iff_ne, ne_eq] at *
  omega

/-- An insertion keeps the queue in order, so its head is always a least entry (44_huffman_tree R172). -/
theorem enqueue_sorted (e : QEntry) {q : List QEntry} (h : Sorted q) : Sorted (enqueue e q) := by
  induction q with
  | nil => exact List.pairwise_singleton _ _
  | cons f q ih =>
    obtain ⟨hf, hq⟩ := List.pairwise_cons.mp h
    simp only [enqueue]
    split
    · rename_i hb
      refine List.pairwise_cons.mpr ⟨fun x hx => ?_, ih hq⟩
      rcases mem_enqueue.mp hx with rfl | hx
      · exact QEntry.before_asymm hb
      · exact hf x hx
    · rename_i hb
      have hb : f.before e = false := by simpa using hb
      refine List.pairwise_cons.mpr ⟨fun x hx => ?_, h⟩
      rcases List.mem_cons.mp hx with rfl | hx
      · exact hb
      · exact QEntry.not_before_trans hb (hf x hx)

theorem firstQueue_perm (w : Nat) (counts : List Word) :
    (firstQueue w counts).Perm ((List.range (2 ^ w)).map fun x => ⟨(counts.getD x 0).toNat, x, internals w + x⟩) := by
  have key : ∀ l : List Nat,
      (l.foldr (fun x q => enqueue ⟨(counts.getD x 0).toNat, x, internals w + x⟩ q) []).Perm
        (l.map fun x => ⟨(counts.getD x 0).toNat, x, internals w + x⟩) := by
    intro l
    induction l with
    | nil => exact List.Perm.refl _
    | cons x l ih => exact (enqueue_perm _ _).trans (List.Perm.cons _ ih)
  exact key _

theorem firstQueue_sorted (w : Nat) (counts : List Word) : Sorted (firstQueue w counts) := by
  have key : ∀ l : List Nat,
      Sorted (l.foldr (fun x q => enqueue ⟨(counts.getD x 0).toNat, x, internals w + x⟩ q) []) := by
    intro l
    induction l with
    | nil => exact List.Pairwise.nil
    | cons x l ih => exact enqueue_sorted _ ih
  exact key _

theorem length_firstQueue (w : Nat) (counts : List Word) : (firstQueue w counts).length = 2 ^ w := by
  simp [(firstQueue_perm w counts).length_eq]

/-- One turn of the loop takes the two least entries and makes a node of them (44_huffman_tree R172). -/
theorem mergeLoop_turn (w left : Nat) (a b : QEntry) (q : List QEntry) (acc : List Node) :
    mergeLoop w (left + 1) (a :: b :: q) acc =
      mergeLoop w left (enqueue ⟨a.freq + b.freq, 2 ^ w + (internals w - (left + 1)), left⟩ q)
        (⟨a.index, b.index⟩ :: acc) := rfl

theorem length_mergeLoop (w left : Nat) (q : List QEntry) (acc : List Node) (hq : q.length = left + 1) :
    (mergeLoop w left q acc).length = left + acc.length := by
  induction left generalizing q acc with
  | zero => simp [mergeLoop]
  | succ left ih =>
    obtain ⟨a, b, q, rfl⟩ : ∃ a b q', q = a :: b :: q' := by
      match q, hq with
      | a :: b :: q', _ => exact ⟨a, b, q', rfl⟩
    rw [mergeLoop_turn, ih _ _ (by simp at hq ⊢; omega)]
    simp
    omega

theorem length_builtNodes (w : Nat) (counts : List Word) : (builtNodes w counts).length = internals w := by
  have h1 : 1 ≤ 2 ^ w := Nat.one_le_two_pow
  simpa [builtNodes] using length_mergeLoop w (internals w) (firstQueue w counts) []
    (by rw [length_firstQueue, internals]; omega)

/-! ## Serialization -/

/-- Every traversal ends at a leaf, whose flag bit is 1 (44_huffman_tree R173). -/
theorem true_mem_treeItems {w fuel i : Nat} {nodes : List Node} {stack : List Nat} {bs : Bits}
    (h : treeItems w nodes fuel (i :: stack) = some bs) : true ∈ bs := by
  induction fuel generalizing i stack bs with
  | zero => cases h
  | succ fuel ih =>
    simp only [treeItems] at h
    split at h
    · obtain ⟨rest, -, rfl⟩ := Option.map_eq_some_iff.mp h
      simp
    · split at h
      · cases h
      · obtain ⟨rest, hr, rfl⟩ := Option.map_eq_some_iff.mp h
        exact List.mem_cons_of_mem _ (ih hr)

theorem true_mem_treeBits {w : Nat} {nodes : List Node} {bs : Bits} (h : treeBits w nodes = some bs) : true ∈ bs := by
  cases nodes with
  | nil => cases h
  | cons root nodes =>
    obtain ⟨items, hi, rfl⟩ := Option.map_eq_some_iff.mp h
    exact List.mem_append_right _ (true_mem_treeItems hi)

/-- Bits that are all 0 begin with no serialization of a tree. -/
theorem noTree_zeros {bs : Bits} (h0 : ∀ b ∈ bs, b = false)
    (hl : 4 + 2 * internals (val (bs.take 4) + 2) * (1 + (val (bs.take 4) + 2)) ≤ bs.length) : noTree bs :=
  ⟨hl, fun _ _ _ _ _ _ ht hp => absurd (h0 true (hp.subset (true_mem_treeBits ht))) (by decide)⟩

/-! ## Paths -/

/-- What the search for a parent finds is a parent. -/
theorem parentFrom_some {nodes : List Node} {j i k : Nat} {b : Bool} (h : parentFrom nodes j i = some (k, b)) :
    ∃ nd, j ≤ k ∧ nodes[k - j]? = some nd ∧ (if b then nd.right else nd.left) = i := by
  induction nodes generalizing j with
  | nil => cases h
  | cons nd nodes ih =>
    simp only [parentFrom] at h
    split at h
    · cases h; exact ⟨nd, Nat.le_refl _, by simp, by simpa⟩
    · split at h
      · cases h; exact ⟨nd, Nat.le_refl _, by simp, by simpa⟩
      · obtain ⟨nd', hle, hn, he⟩ := ih h
        refine ⟨nd', by omega, ?_, he⟩
        have : k - j = k - (j + 1) + 1 := by omega
        rw [this]
        simpa using hn

/-- The walk of TreeDecode on a path that leads to a leaf, one bit a step (44_huffman_tree R176). -/
def follow (nodes : List Node) : Bits → Nat → Option Nat
  | [], i => some i
  | b :: bs, i =>
    match nodes[i]? with
    | none => none
    | some nd => follow nodes bs (if b then nd.right else nd.left)

theorem follow_append (nodes : List Node) (as bs : Bits) (i : Nat) :
    follow nodes (as ++ bs) i = (follow nodes as i).bind (follow nodes bs) := by
  induction as generalizing i with
  | nil => rfl
  | cons a as ih =>
    simp only [List.cons_append, follow]
    cases nodes[i]? with
    | none => rfl
    | some nd => exact ih _

/-- The path to an index leads from node 0 to it (44_huffman_tree R171). -/
theorem pathTo_follow {nodes : List Node} {fuel i : Nat} {acc bs : Bits} (h : pathTo nodes fuel i acc = some bs) :
    ∃ p, bs = p ++ acc ∧ follow nodes p 0 = some i ∧ p.length ≤ fuel := by
  induction fuel generalizing i acc with
  | zero =>
    simp only [pathTo] at h
    split at h
    · rename_i h0; cases h; exact ⟨[], rfl, by simp [follow, h0], by simp⟩
    · cases h
  | succ fuel ih =>
    simp only [pathTo] at h
    split at h
    · rename_i h0; cases h; exact ⟨[], rfl, by simp [follow, h0], by simp⟩
    · split at h
      · cases h
      · rename_i j b hp
        obtain ⟨p, rfl, hf, hl⟩ := ih h
        obtain ⟨nd, -, hn, he⟩ := parentFrom_some hp
        refine ⟨p ++ [b], by simp, ?_, by simp; omega⟩
        rw [follow_append, hf]
        simp only [Option.bind_some, follow, Nat.sub_zero] at hn ⊢
        rw [hn]
        simpa using he

/-- The code of a symbol leads from node 0 to its leaf. -/
theorem code_follow {w x : Nat} {nodes : List Node} {c : Bits} (h : code w nodes x = some c) :
    follow nodes c 0 = some (internals w + x) ∧ c.length ≤ internals w := by
  obtain ⟨p, rfl, hf, hl⟩ := pathTo_follow h
  exact ⟨by simpa using hf, by simpa using hl⟩

end Sys2Proof.Machine
end

