-- ==== Sys2Proof/Laws/Universal.lean ====
section
/-! SUPPORT. The gamma code on ports that answer, and zigzag. -/

namespace Sys2Proof.Machine

theorem bitLength_pos {x : Nat} (h : x ≠ 0) : bitLength x = Nat.log2 x + 1 := by simp [bitLength, h]

/-- 2^(bitLength - 1) ≤ x < 2^bitLength. -/
theorem bitLength_bounds {x : Nat} (h : x ≠ 0) : 2 ^ (bitLength x - 1) ≤ x ∧ x < 2 ^ bitLength x := by
  rw [bitLength_pos h]
  exact ⟨Nat.log2_self_le h, Nat.lt_log2_self⟩

theorem length_gammaCode (v : Nat) : (gammaCode v).length = 2 * Nat.log2 (v + 1) + 1 := by
  simp [gammaCode, bitLength_pos (Nat.succ_ne_zero v)]
  omega

/-- GammaPut writes the gamma code (42_universal R151). -/
theorem gammaPut_quiet (v : Nat) {s : State} (h : s.Quiet) (hw : s.wpend.length ≤ 7) :
    gammaPut v s = .ok (emit (gammaCode v) s) := by
  have hb : bitLength (v + 1) - 1 + 1 = bitLength (v + 1) := by simp [bitLength_pos (Nat.succ_ne_zero v)]
  simp only [gammaPut, putBits_quiet 0 _ h hw, bind, Except.bind,
    putBits_quiet _ _ (emit_quiet _ h) (emit_wpend_lt _ s), emit_append, hb, gammaCode]

/-- The gamma code of `v` is L zero bits, a one bit, and the low L bits of `v + 1`. -/
theorem gammaCode_eq (v : Nat) :
    gammaCode v = List.replicate (Nat.log2 (v + 1)) false ++ true :: bin (Nat.log2 (v + 1)) (v + 1) := by
  have hx : v + 1 ≠ 0 := Nat.succ_ne_zero v
  have hlo : 2 ^ Nat.log2 (v + 1) ≤ v + 1 := Nat.log2_self_le hx
  have hhi : v + 1 < 2 ^ (Nat.log2 (v + 1) + 1) := Nat.lt_log2_self
  have htop : (v + 1).testBit (Nat.log2 (v + 1)) = true := by
    rw [Nat.pow_succ] at hhi
    rw [Nat.testBit_eq_decide_div_mod_eq, Nat.div_eq_of_lt_le (k := 1) (by omega) (by omega)]
    rfl
  simp only [gammaCode, bitLength_pos hx, Nat.add_sub_cancel, bin_zero_value, bin_succ, htop]

theorem take_of_prefix {p l : Bits} (h : p <+: l) : l.take p.length = p := by
  obtain ⟨t, rfl⟩ := h
  simp
theorem drop_prefix {p q l : Bits} (h : p ++ q <+: l) : q <+: l.drop p.length := by
  obtain ⟨t, rfl⟩ := h
  simp [List.append_assoc]

/-- GetBits of a known prefix of the input. -/
theorem getBits_prefix {p : Bits} {s : State} (h : s.Quiet) (hp : p <+: incoming s) :
    getBits p.length s = .ok (val p, consume p.length s) := by
  rw [getBits_quiet h hp.length_le, take_of_prefix hp]

/-- After a known prefix was taken, what follows it is at the front. -/
theorem prefix_consume {p q : Bits} {s : State} (hp : p ++ q <+: incoming s) : q <+: incoming (consume p.length s) := by
  have hl : p.length ≤ (incoming s).length := Nat.le_trans (by simp) hp.length_le
  rw [incoming_consume hl]
  exact drop_prefix hp

theorem gammaZeros_quiet (k : Nat) (q : Bits) {s : State} (h : s.Quiet)
    (hp : List.replicate k false ++ true :: q <+: incoming s) (l left : Nat) (hk : k < left) :
    gammaZeros left l s = .ok (l + k, consume (k + 1) s) := by
  induction k generalizing s l left with
  | zero =>
    obtain ⟨left, rfl⟩ : ∃ f, left = f + 1 := ⟨left - 1, by omega⟩
    have h1 : [true] <+: incoming s := (List.prefix_append [true] q).trans hp
    have hg := getBits_prefix h h1
    simp only [List.length_singleton] at hg
    simp [gammaZeros, hg, bind, Except.bind, val]
  | succ k ih =>
    obtain ⟨left, rfl⟩ : ∃ f, left = f + 1 := ⟨left - 1, by omega⟩
    have hp' : [false] ++ (List.replicate k false ++ true :: q) <+: incoming s := by
      simpa [List.replicate_succ] using hp
    have hg := getBits_prefix h ((List.prefix_append [false] _).trans hp')
    have hr := ih (consume_quiet 1 h) (prefix_consume hp') (l + 1) left (by omega)
    have hc : 1 + (k + 1) ≤ (incoming s).length := by
      have := hp'.length_le
      simp at this
      omega
    simp only [List.length_singleton] at hg
    simp only [gammaZeros, hg, bind, Except.bind, val, List.foldl, Bool.toNat_false, Nat.mul_zero, Nat.add_zero,
      Nat.zero_ne_one, if_false, hr, consume_consume hc]
    rw [show l + 1 + k = l + (k + 1) by omega, show 1 + (k + 1) = k + 1 + 1 by omega]

/-- GammaGet reads back the gamma code of `v` and exactly its bits (42_universal R153). -/
theorem gammaGet_quiet {v : Nat} {s : State} (h : s.Quiet) (hv : v ≤ 2 ^ 64 - 2) (hp : gammaCode v <+: incoming s) :
    gammaGet s = .ok (v, consume (gammaCode v).length s) := by
  have hx : v + 1 ≠ 0 := Nat.succ_ne_zero v
  have hlo : 2 ^ Nat.log2 (v + 1) ≤ v + 1 := Nat.log2_self_le hx
  have hhi : v + 1 < 2 ^ (Nat.log2 (v + 1) + 1) := Nat.lt_log2_self
  have hL : Nat.log2 (v + 1) < 64 := (Nat.log2_lt hx).mpr (by omega)
  have hlen := length_gammaCode v
  rw [gammaCode_eq] at hp
  generalize hLL : Nat.log2 (v + 1) = L at *
  have hz := gammaZeros_quiet L _ h hp 0 64 hL
  have hin := hp.length_le
  simp only [List.length_append, List.length_replicate, List.length_cons, length_bin] at hin
  by_cases h0 : L = 0
  · subst h0
    have hv0 : v = 0 := by omega
    simp only [gammaGet, hz, bind, Except.bind, hlen]
    simp [hv0]
  · have hp' : (List.replicate L false ++ [true]) ++ bin L (v + 1) <+: incoming s := by simpa using hp
    have hc := prefix_consume hp'
    have hl : (List.replicate L false ++ [true]).length = L + 1 := by simp
    rw [hl] at hc
    have hg := getBits_prefix (consume_quiet (L + 1) h) hc
    rw [length_bin, val_bin] at hg
    have hm : (v + 1) % 2 ^ L = v + 1 - 2 ^ L := by
      rw [Nat.pow_succ] at hhi
      rw [Nat.mod_eq_sub_mod hlo, Nat.mod_eq_of_lt (by omega)]
    simp only [gammaGet, hz, bind, Except.bind, Nat.zero_add, h0, if_false, hg, hm]
    rw [consume_consume (by omega), hlen, show 2 ^ L + (v + 1 - 2 ^ L) - 1 = v by omega,
      show L + 1 + L = 2 * L + 1 by omega]

/-- 64 zero bits are no code (42_universal R153). -/
theorem gammaGet_malformed {s : State} (h : s.Quiet) (hp : List.replicate 64 false <+: incoming s) :
    gammaGet s = .error ⟨.fault .malformed false, consume 64 s⟩ := by
  have key : ∀ k l, ∀ s : State, s.Quiet → List.replicate k false <+: incoming s →
      gammaZeros k l s = .error ⟨.fault .malformed false, consume k s⟩ := by
    intro k
    induction k with
    | zero => intro l s _ _; simp [gammaZeros, raise, consume_zero]
    | succ k ih =>
      intro l s h hp
      have hp' : [false] ++ List.replicate k false <+: incoming s := by simpa [List.replicate_succ] using hp
      have hg := getBits_prefix h ((List.prefix_append [false] _).trans hp')
      have hc : 1 + k ≤ (incoming s).length := by
        have := hp'.length_le
        simp at this
        omega
      simp only [List.length_singleton] at hg
      simp only [gammaZeros, hg, bind, Except.bind, val, List.foldl, Bool.toNat_false, Nat.mul_zero, Nat.add_zero,
        Nat.zero_ne_one, if_false, ih (l + 1) _ (consume_quiet 1 h) (prefix_consume hp'), consume_consume hc]
      rw [Nat.add_comm]
  simp only [gammaGet, key 64 0 s h hp, bind, Except.bind]

theorem zz_lt {s : Int} (hlo : -2 ^ 63 ≤ s) (hhi : s < 2 ^ 63) : zz s < 2 ^ 64 := by unfold zz; split <;> omega

end Sys2Proof.Machine
end

