-- ==== Sys2Proof/Machine/HostProgram.lean ====
section
/-! DEFINITION. The host's program statements and macros (30_encoding R87, R88) as the bus accesses they make. Labels,
GOTO and IF are control flow on the host's own variables: the block never sees them, and they are not here. -/

namespace Sys2Proof.Machine

/-- The offset of a register in the window (20_memory R51). -/
def regOffset : Reg → Nat
  | .cmd => 0x00
  | .arg0 => 0x08
  | .arg1 => 0x10
  | .res0 => 0x18
  | .res1 => 0x20
  | .status => 0x28
  | .ctrl => 0x30
  | .caps => 0x38

/-- A statement of a host program that makes a bus access (30_encoding R87). -/
inductive Stmt where
  /-- `MNEMONIC` or `MNEMONIC imm`. -/
  | issue (i : Instr)
  /-- `ARG0 = v`. -/
  | setArg0 (v : Word)
  /-- `ARG1 = v`. -/
  | setArg1 (v : Word)
  /-- `CTRL = v`. -/
  | setCtrl (v : Word)
  /-- `WAIT`, one read of STATUS: in this model a command is over when its step is, or it never ends (log 4). -/
  | wait
  /-- `READ R`. -/
  | read (r : Reg)
deriving DecidableEq, Repr

/-- The bus access of a statement (30_encoding R87). -/
def Stmt.action (p : Params) : Stmt → HostAction
  | .issue i => .write (p.base + regOffset .cmd) 8 (encode i)
  | .setArg0 v => .write (p.base + regOffset .arg0) 8 v
  | .setArg1 v => .write (p.base + regOffset .arg1) 8 v
  | .setCtrl v => .write (p.base + regOffset .ctrl) 8 v
  | .wait => .read (p.base + regOffset .status) 8
  | .read r => .read (p.base + regOffset r) 8

/-- `PUT v, n` (30_encoding R88). -/
def macroPut (v : Word) (n : Nat) : List Stmt := [.setArg0 v, .issue (.bwWrite n), .wait]

/-- `GET n` (30_encoding R88). -/
def macroGet (n : Nat) : List Stmt := [.issue (.brRead n), .wait, .read .res0]

/-- `SYNC MNEMONIC [imm]` (30_encoding R88). -/
def macroSync (i : Instr) : List Stmt := [.issue i, .wait]

/-- `PHRASE b1, ..., bk` (30_encoding R88). -/
def macroPhrase (bs : List Byte) : List Stmt :=
  [.issue .pbClear, .wait] ++ bs.flatMap fun b => [.setArg0 (b.setWidth 64), .issue .pbPush, .wait]

/-- `SRST` (30_encoding R88). -/
def macroSrst : List Stmt := [.setCtrl 1]

/-- The host runs these statements next. -/
def placeProgram (l : List Stmt) (s : State) : State := { s with host := l.map (Stmt.action s.params) ++ s.host }

end Sys2Proof.Machine
end

