-- ==== Sys2Proof/Tests/Slice0.lean ====
section
/-! SUPPORT. Tests whose expected results come from the spec (95_test_vectors and the rules' own examples), and witnesses:
states that meet the hypotheses of each statement. -/

namespace Sys2Proof.Tests

open Sys2Proof Sys2Proof.Machine

/-! ## Well-formedness -/

theorem test_illFormed_bwWrite : (Instr.bwWrite 256).wf = false := by decide
theorem test_illFormed_brRead : (Instr.brRead 256).wf = false := by decide
theorem test_illFormed_brWord : (Instr.brWord 256).wf = false := by decide
theorem test_illFormed_histBuild : (Instr.histBuild 256).wf = false := by decide
theorem test_illFormed_histClear : (Instr.histClear 300).wf = false := by decide
theorem test_illFormed_hufComp : (Instr.hufComp 256).wf = false := by decide

/-! ## Decoding: one word of every command, written out from 30_encoding R80, R84 -/

theorem test_decode_nop : decodeTableWord 64 0x0000000000000001 = some .nop := by decide
theorem test_decode_bwWrite : decodeTableWord 64 0x0000000000000D10 = some (.bwWrite 13) := by decide
theorem test_decode_bwFlush : decodeTableWord 64 0x0000000000000011 = some .bwFlush := by decide
theorem test_decode_brRead : decodeTableWord 64 0x0000000000004112 = some (.brRead 65) := by decide
theorem test_decode_brWord : decodeTableWord 64 0x0000000000000A13 = some (.brWord 10) := by decide
theorem test_decode_inRewind : decodeTableWord 64 0x0000000000000014 = some .inRewind := by decide
theorem test_decode_inLength : decodeTableWord 64 0x0000000000000015 = some .inLength := by decide
theorem test_decode_gammaEnc : decodeTableWord 64 0x0000000000000020 = some .gammaEnc := by decide
theorem test_decode_gammaDec : decodeTableWord 64 0x0000000000000021 = some .gammaDec := by decide
theorem test_decode_zzEnc : decodeTableWord 64 0x0000000000000022 = some .zzEnc := by decide
theorem test_decode_zzDec : decodeTableWord 64 0x0000000000000023 = some .zzDec := by decide
theorem test_decode_histBuild : decodeTableWord 64 0x0000000000000230 = some (.histBuild 2) := by decide
theorem test_decode_histClear : decodeTableWord 64 0x000000000000FF31 = some (.histClear 255) := by decide
theorem test_decode_histSet : decodeTableWord 64 0x0000000000000032 = some .histSet := by decide
theorem test_decode_histGet : decodeTableWord 64 0x0000000000000033 = some .histGet := by decide
theorem test_decode_htBuild : decodeTableWord 64 0x0000000000000040 = some .htBuild := by decide
theorem test_decode_htWrite : decodeTableWord 64 0x0000000000000041 = some .htWrite := by decide
theorem test_decode_htRead : decodeTableWord 64 0x0000000000000042 = some .htRead := by decide
theorem test_decode_htEnc : decodeTableWord 64 0x0000000000000043 = some .htEnc := by decide
theorem test_decode_htDec : decodeTableWord 64 0x0000000000000044 = some .htDec := by decide
theorem test_decode_htCode : decodeTableWord 64 0x0000000000000045 = some .htCode := by decide
theorem test_decode_htNode : decodeTableWord 64 0x0000000000000046 = some .htNode := by decide
theorem test_decode_hufComp : decodeTableWord 64 0x0000000000000A50 = some (.hufComp 10) := by decide
theorem test_decode_hufDecomp : decodeTableWord 64 0x0000000000000051 = some .hufDecomp := by decide
theorem test_decode_lzInit : decodeTableWord 64 0x0000000000000060 = some .lzInit := by decide
theorem test_decode_lzAdd : decodeTableWord 64 0x0000000000000061 = some .lzAdd := by decide
theorem test_decode_lzGet : decodeTableWord 64 0x0000000000000062 = some .lzGet := by decide
theorem test_decode_lzFind : decodeTableWord 64 0x0000000000000063 = some .lzFind := by decide
theorem test_decode_lzSize : decodeTableWord 64 0x0000000000000064 = some .lzSize := by decide
theorem test_decode_lzNode : decodeTableWord 64 0x0000000000000065 = some .lzNode := by decide
theorem test_decode_pbClear : decodeTableWord 64 0x0000000000000068 = some .pbClear := by decide
theorem test_decode_pbPush : decodeTableWord 64 0x0000000000000069 = some .pbPush := by decide
theorem test_decode_pbGet : decodeTableWord 64 0x000000000000006A = some .pbGet := by decide
theorem test_decode_lzEnc : decodeTableWord 64 0x0000000000000070 = some .lzEnc := by decide
theorem test_decode_lzDec : decodeTableWord 64 0x0000000000000071 = some .lzDec := by decide

/-- 95_test_vectors V9: the illegal words. -/
theorem test_decode_illegal :
    decodeTableWord 64 0x0002 = none ∧ decodeTableWord 64 0x0101 = none ∧ decodeTableWord 64 0x00010001 = none
      ∧ decodeTableWord 64 0x0220 = none ∧ decodeTableWord 64 0 = none := by decide

/-! ## Meanings: one step each -/

/-- The state a step or a command leaves, where it leaves one. -/
def after (o : Host.Outcome State Fault Refusal) : Option State :=
  match o with
  | .next s => some s
  | .fault _ => none
  | .refused _ => none

/-- Reset, with this source. -/
def withSrc (l : List Byte) : State := { State.reset with src := l }

/-- 44_huffman_tree R172, R175, R176: the tree of COUNTS = [4, 0, 0, 0]. -/
def tree4000 : State := { State.reset with tw := 2, nodes := [⟨1, 3⟩, ⟨6, 2⟩, ⟨4, 5⟩] }

/-- 46_lz78_dictionary R206: the dictionary after 'A' and 'AB'. -/
def dictAAB : State :=
  { State.reset with
    lznodes := [⟨0, 0x41⟩, ⟨1, 0x42⟩], lzindex := [([0x41], 1), ([0x41, 0x42], 2)], pb := [0x41, 0x42] }

/-- V9. -/
theorem test_nop : (after (exec .nop State.reset)).map statusWord = some 0x2 := by decide

/-- V1, and the 64-bit write onto 7 pending bits of 90_conflicts C1. -/
theorem test_bwWrite :
    (after (exec (.bwWrite 12) { State.reset with arg0 := 0xABC, wpend := [true, false, true] })).map
        (fun t => (t.sink, t.wpend)) = some ([0xB5], [false, true, true, true, true, false, false]) := by decide
theorem test_bwWrite_64 :
    (after (exec (.bwWrite 64)
        { State.reset with arg0 := 0xFFFFFFFFFFFFFFFF, wpend := [false, true, true, true, true, false, false] })).map
        (fun t => (t.sink, t.wpend.length)) = some ([0x79, 0xFF, 0xFF, 0xFF, 0xFF, 0xFF, 0xFF, 0xFF], 7) := by decide

/-- 41_bitstream R134. -/
theorem test_bwFlush :
    (after (exec .bwFlush { State.reset with wpend := [false, true, true, true, true, false, false] })).map
        (fun t => (t.sink, statusWord t)) = some ([0x78], 0x2) := by decide

/-- V2. -/
theorem test_brRead :
    (after (exec (.brRead 7) { State.reset with src := [0xB5, 0x3C], pos := 1, rpend := [true, false, true, false, true] })).map
        (fun t => (t.res0, statusWord t, t.pos)) = some (84, 0x00600002, 2) := by decide
theorem test_brRead_tooWide :
    (after (exec (.brRead 65) { State.reset with wpend := [true, false, true] })).map
        (fun t => (statusWord t, t.sink)) = some (0x1226, [0xA0]) := by decide

/-- V2: the short word is right-aligned, then END. -/
theorem test_brWord_short :
    (after (exec (.brWord 10)
        { State.reset with src := [0x0A, 0x0A], pos := 2, rpend := [false, false, true, false, true, false] })).map
        (fun t => (t.res0, t.res1, statusWord t)) = some (10, 6, 0x2) := by decide
theorem test_brWord_end :
    (after (exec (.brWord 10) { State.reset with src := [0x0A, 0x0A], pos := 2 })).map
        (fun t => (t.res0, t.res1, statusWord t)) = some (0, 0, 0x00010002) := by decide

/-- V2. -/
theorem test_inRewind :
    (after (exec .inRewind { State.reset with src := [0xB5], pos := 1, rpend := [true, false] })).map
        (fun t => (t.pos, t.rpend)) = some (0, []) := by decide
theorem test_inLength : (after (exec .inLength (withSrc [0x0A, 0x0A]))).map (·.res0) = some 2 := by decide

/-- V3. -/
theorem test_gammaEnc :
    (after (exec .gammaEnc { State.reset with arg0 := 15 })).map (fun t => (t.sink, t.wpend)) = some ([0x08], [false]) := by
  decide
theorem test_gammaEnc_max :
    (after (exec .gammaEnc { State.reset with arg0 := 0xFFFFFFFFFFFFFFFE })).map (fun t => (t.sink, t.wpend.length)) =
      some ([0, 0, 0, 0, 0, 0, 0, 1, 0xFF, 0xFF, 0xFF, 0xFF, 0xFF, 0xFF, 0xFF], 7) := by decide
theorem test_gammaDec :
    (after (exec .gammaDec (withSrc [0, 0, 0, 0, 0, 0, 0, 1, 0xFF, 0xFF, 0xFF, 0xFF, 0xFF, 0xFF, 0xFF, 0xFE]))).map
        (fun t => (t.res0, statusWord t)) = some (0xFFFFFFFFFFFFFFFE, 0x00100002) := by decide
theorem test_gammaDec_malformed :
    (after (exec .gammaDec (withSrc [0, 0, 0, 0, 0, 0, 0, 0, 0x80]))).map (fun t => (t.errcode, t.errop)) =
      some (.malformed, 0x21) := by decide
theorem test_zzEnc :
    (after (exec .zzEnc { State.reset with arg0 := 0x8000000000000000 })).map (·.res0) = some 0xFFFFFFFFFFFFFFFF := by
  decide
theorem test_zzDec :
    (after (exec .zzDec { State.reset with arg0 := 127 })).map (·.res0) = some 0xFFFFFFFFFFFFFFC0 := by decide

/-- V4. -/
theorem test_histBuild :
    (after (exec (.histBuild 3) (withSrc [0x41, 0x42, 0x41]))).map (fun t => (t.counts, t.res0, statusWord t)) =
      some ([2, 3, 2, 0, 1, 0, 0, 0], 8, 0x0000000300000002) := by decide
theorem test_histBuild_short :
    (after (exec (.histBuild 3) (withSrc [0xFF]))).map (·.counts) = some [0, 0, 0, 1, 0, 0, 0, 2] := by decide
theorem test_histClear :
    (after (exec (.histClear 4) State.reset)).map statusWord = some 0x0000000400000002 := by decide
theorem test_histSet :
    (after (exec .histSet { State.reset with hw := 2, counts := [0, 0, 0, 0], arg0 := 0, arg1 := 4 })).map (·.counts) =
      some [4, 0, 0, 0] := by decide
theorem test_histGet :
    (after (exec .histGet { State.reset with hw := 3, counts := [2, 3, 2, 0, 1, 0, 0, 0], arg0 := 1 })).map (·.res0) =
      some 3 := by decide

/-- V5. -/
theorem test_htBuild :
    (after (exec .htBuild { State.reset with hw := 3, counts := [2, 3, 2, 0, 1, 0, 0, 0] })).map (·.nodes) =
      some [⟨2, 1⟩, ⟨9, 8⟩, ⟨3, 7⟩, ⟨4, 11⟩, ⟨6, 5⟩, ⟨13, 14⟩, ⟨10, 12⟩] := by decide
theorem test_htWrite :
    (after (exec .htWrite { State.reset with tw := 2, nodes := [⟨2, 1⟩, ⟨5, 6⟩, ⟨3, 4⟩] })).map
        (fun t => (t.sink, t.wpend)) = some ([0x04, 0xAD], [true, true]) := by decide
theorem test_htRead :
    (after (exec .htRead (withSrc [0x04, 0xAD, 0xC0]))).map (fun t => (t.nodes, t.res0, t.rpend.length)) =
      some ([⟨1, 2⟩, ⟨3, 4⟩, ⟨5, 6⟩], 2, 6) := by decide
theorem test_htRead_malformed :
    (after (exec .htRead (withSrc [0x09, 0x40]))).map (·.errcode) = some .malformed := by decide
theorem test_htEnc :
    (after (exec .htEnc { tree4000 with arg0 := 1 })).map (·.wpend) = some [false, true, false] := by decide
theorem test_htEnc_noEntry :
    (after (exec .htEnc { tree4000 with arg0 := 4 })).map statusWord = some 0x0000020000004396 := by decide
theorem test_htDec : (after (exec .htDec { tree4000 with src := [0x60] })).map (·.res0) = some 2 := by decide
theorem test_htCode :
    (after (exec .htCode { tree4000 with arg0 := 3 })).map (fun t => (t.res0, t.res1)) = some (0, 2) := by decide
theorem test_htNode :
    (after (exec .htNode { tree4000 with arg0 := 0 })).map (fun t => (t.res0, t.res1)) = some (1, 3) := by decide

/-- V6. -/
theorem test_hufComp :
    (after (exec (.hufComp 2) (withSrc [0x1B]))).map (fun t => (t.sink, t.res0)) =
      some ([0, 0, 0, 0, 0, 0, 0, 1, 0x04, 0xAD, 0xC6, 0xC0], 1) := by decide +kernel
theorem test_hufComp_short :
    (after (exec (.hufComp 3) (withSrc [0x41, 0x42, 0x41]))).map (·.sink) =
      some [0, 0, 0, 0, 0, 0, 0, 3, 0x10, 0xBD, 0x77, 0xE4, 0x2A, 0x66, 0x3E, 0xE0] := by decide +kernel
theorem test_hufDecomp :
    (after (exec .hufDecomp (withSrc [0, 0, 0, 0, 0, 0, 0, 1, 0x04, 0xAD, 0xC6, 0xC0]))).map
        (fun t => (t.sink, t.res0, t.res1, t.pos)) = some ([0x1B], 1, 2, 12) := by decide +kernel
theorem test_hufDecomp_endOfStream :
    (after (exec .hufDecomp (withSrc [0, 0, 0, 0, 0, 0, 0, 5, 0x04, 0xAD, 0xC0]))).map
        (fun t => (t.errcode, t.errop, t.sink)) = some (.endOfStream, 0x51, [0]) := by decide +kernel

/-- V7. -/
theorem test_lzInit :
    (after (exec .lzInit { dictAAB with arg0 := 0xFFFFFFFFFFFFFFFE })).map
        (fun t => (strategyKind t.strat, t.lznodes)) = some (.freezeAt 2, []) := by decide
theorem test_lzAdd :
    (after (exec .lzAdd
        { State.reset with lznodes := [⟨0, 0x41⟩], lzindex := [([0x41], 1)], pb := [0x41, 0x42] })).map
        (fun t => (t.res0, t.res1, t.lznodes)) = some (1, 0x42, [⟨0, 0x41⟩, ⟨1, 0x42⟩]) := by decide
theorem test_lzAdd_drop :
    (after (exec .lzAdd
        { State.reset with strat := 1, lznodes := [⟨0, 0x41⟩], lzindex := [([0x41], 1)], pb := [0x42] })).map
        (fun t => (t.res0, t.res1, t.lzindex)) = some (0, 0x42, [([0x42], 1)]) := by decide
theorem test_lzGet : (after (exec .lzGet { dictAAB with arg0 := 2 })).map (fun t => (t.pb, t.res0)) =
    some ([0x41, 0x42], 2) := by decide
theorem test_lzGet_notFound :
    (after (exec .lzGet { dictAAB with arg0 := 3 })).map (fun t => (t.res0, statusWord t, t.pb)) =
      some (0, 0x00040002, [0x41, 0x42]) := by decide
theorem test_lzFind : (after (exec .lzFind dictAAB)).map (·.res0) = some 2 := by decide
theorem test_lzFind_notFound :
    (after (exec .lzFind { dictAAB with pb := [0x42] })).map (fun t => (t.res0, t.nfFlag)) = some (0, true) := by decide
theorem test_lzSize :
    (after (exec .lzSize { dictAAB with strat := 0x8000000000000000 })).map (fun t => (t.res0, t.res1)) =
      some (2, 0x8000000000000000) := by decide
theorem test_lzNode :
    (after (exec .lzNode { dictAAB with arg0 := 2 })).map (fun t => (t.res0, t.res1)) = some (1, 0x42) := by decide
theorem test_lzNode_zero :
    (after (exec .lzNode { dictAAB with arg0 := 0 })).map (·.nfFlag) = some true := by decide
theorem test_pbClear : (after (exec .pbClear dictAAB)).map (·.pb) = some [] := by decide
theorem test_pbPush : (after (exec .pbPush { State.reset with arg0 := 0x1C3 })).map (·.pb) = some [0xC3] := by decide
theorem test_pbGet :
    (after (exec .pbGet { dictAAB with arg0 := 1 })).map (fun t => (t.res0, t.res1)) = some (0x42, 2) := by decide
theorem test_pbGet_notFound :
    (after (exec .pbGet { dictAAB with arg0 := 2 })).map (fun t => (t.res0, t.res1, t.nfFlag)) = some (0, 2, true) := by
  decide

/-- V8: "ABABABA" under Never and under Drop(2). -/
theorem test_lzEnc :
    (after (exec .lzEnc (withSrc [0x41, 0x42, 0x41, 0x42, 0x41, 0x42, 0x41]))).map (fun t => (t.sink, t.res0)) =
      some ([0xD0, 0x68, 0x49, 0x08, 0x88, 0x26], 4) := by decide +kernel
theorem test_lzEnc_drop :
    (after (exec .lzEnc { withSrc [0x41, 0x42, 0x41, 0x42, 0x41, 0x42, 0x41] with arg0 := 2 })).map
        (fun t => (t.sink, t.res0)) = some ([0x2D, 0x06, 0x85, 0x41, 0xA1, 0x50, 0x68, 0x54, 0x16], 1) := by
  decide +kernel
theorem test_lzDec :
    (after (exec .lzDec (withSrc [0xD0, 0x68, 0x49, 0x08, 0x88, 0x26]))).map (fun t => (t.sink, t.res0, t.pb)) =
      some ([0x41, 0x42, 0x41, 0x42, 0x41, 0x42, 0x41], 4, [0x41, 0x42, 0x41]) := by decide +kernel
theorem test_lzDec_malformed :
    (after (exec .lzDec (withSrc [0xD0, 0x4C, 0x00]))).map (fun t => (t.errcode, t.sink)) =
      some (.malformed, [0x41]) := by decide +kernel

/-! ## Steps: faults, reset, interrupt, a busy block (V9) -/

theorem test_step_illegal :
    (after (step (State.reset.withFetchWord 64 0x0220))).map statusWord = some 0x2016 := by decide
theorem test_step_softReset :
    (after (step { dictAAB with host := [.write 0x30 8 3], done := true })).map
        (fun t => (statusWord t, ctrlWord t, irq t, t.pb)) = some (0, 2, false, []) := by decide
theorem test_step_ie_raises_irq :
    (after (step { State.reset with host := [.write 0x30 8 2], done := true })).map irq = some true := by decide
theorem test_caps : capsWord Params.default = 0x0100010100004011 := by decide
theorem test_busErrorRead :
    (after (step { State.reset with host := [.read 0x28 4] })).map (·.log) = some [.busError] := by decide

/-- The host writes ARG0 while BR.READ 8 waits for its byte: dropped, and STATUS shows DROP after completion. -/
theorem test_busy_write_dropped :
    (after (exec (.brRead 8)
        { State.reset with src := [0x41], draws := [⟨[.write 0x08 8 9], .ok, false⟩] })).map
        (fun t => (t.arg0, t.res0, statusWord t)) = some (0, 0x41, 0xA) := by decide

/-- A soft reset while BR.READ 8 waits: aborted, no DONE, no fault; the byte is taken, as this draw says. -/
theorem test_busy_reset_aborts :
    (after (exec (.brRead 8)
        { State.reset with src := [0x41], draws := [⟨[.write 0x30 8 1], .ok, true⟩] })).map
        (fun t => (statusWord t, t.res0, t.pos)) = some (0, 0, 1) := by decide

/-- P1 as bus accesses (30_encoding R87). -/
theorem test_program_accesses :
    (macroPut 5 3).map (Stmt.action Params.default) = [.write 0x08 8 5, .write 0x00 8 0x0310, .read 0x28 8] := by decide

/-! ## Witnesses: the hypotheses of each statement can be met -/

theorem witness_EncodeThenDecode : (Instr.histClear 255).wf = true := by decide
theorem witness_DecodeThenEncode : decode 0xFF31 = .ok (.histClear 255) := rfl
theorem witness_StepRunsAcceptedCommand :
    (∃ s : State, ∃ rest, s.host = .write s.params.base 8 0xFF31 :: rest ∧ s.rst = false ∧ s.busy = false ∧ s.err = false
        ∧ decode 0xFF31 = .ok (.histClear 255))
      ∧ ∃ s : State, ∃ rest, s.host = .write s.params.base 8 0x02 :: rest ∧ s.rst = false ∧ s.busy = false
        ∧ s.err = false ∧ decode 0x02 = .error (.unassignedOp 0x02) :=
  ⟨⟨{ State.reset with host := [.write 0 8 0xFF31] }, [], rfl, rfl, rfl, rfl, rfl⟩,
    ⟨{ State.reset with host := [.write 0 8 0x02] }, [], rfl, rfl, rfl, rfl, rfl⟩⟩
theorem witness_IllegalWordFaults :
    State.reset.Quiet ∧ illegalWord 0x72 ∧ illegalWord 0x10001 ∧ illegalWord 0x0101 := by
  refine ⟨by decide, .inl (by decide), .inr (.inl (by decide)), .inr (.inr ⟨by decide, by decide⟩)⟩

/-- A BUSY block: BW.FLUSH waits for ever. -/
def hung : State :=
  { State.reset with busy := true, wpend := [true], inflight := some ⟨.push 0x80, true⟩ }

theorem witness_BusyBlockDropsWrites :
    ∀ off ∈ [0x00, 0x08, 0x10, 0x30], ∃ s : State,
      s.host = [.write (s.params.base + off) 8 2] ∧ s.rst = false ∧ s.busy = true ∧ (2 : Word).getLsbD 0 = false := by
  intro off _
  exact ⟨{ hung with host := [.write (0 + off) 8 2] }, rfl, rfl, rfl, rfl⟩
theorem witness_IdleBlockTakesWrites :
    ∀ off ∈ [0x00, 0x08, 0x10, 0x18, 0x20, 0x28, 0x30, 0x38], ∃ s : State,
      s.host = [.write (s.params.base + off) 8 2] ∧ s.rst = false ∧ s.busy = false ∧ s.err = true
        ∧ (2 : Word).getLsbD 0 = false := by
  intro off _
  exact ⟨{ State.reset with host := [.write (0 + off) 8 2], err := true }, rfl, rfl, rfl, rfl, rfl⟩
theorem witness_BusErrorHasNoEffect :
    ∀ os ∈ [(0x28, 4), (0x29, 8), (0x40, 8), (0xF8, 8)], ∃ s : State,
      os.1 < 0x100 ∧ (os.2 ≠ 8 ∨ os.1 % 8 ≠ 0 ∨ 0x40 ≤ os.1) ∧ s.rst = false
        ∧ s.host = [.read (s.params.base + os.1) os.2] := by
  intro os h
  refine ⟨{ State.reset with host := [.read (0 + os.1) os.2] }, ?_, ?_, rfl, rfl⟩ <;> revert os <;> decide
theorem witness_SoftResetSetsEveryPiece :
    ∃ s : State, s.host = [.write (s.params.base + 0x30) 8 3] ∧ s.rst = false ∧ (3 : Word).getLsbD 0 = true
      ∧ s.inflight = none :=
  ⟨{ State.reset with host := [.write 0x30 8 3] }, rfl, rfl, rfl, rfl⟩
theorem witness_HardwareResetSetsEveryPiece :
    (∃ s : State, s.host = [.assertRst] ∧ s.inflight = none)
      ∧ (∃ s : State, s.rst = true ∧ s.host = [.read (s.params.base + 0xFF) 4])
      ∧ (∃ s : State, s.rst = true ∧ s.host = [.write (s.params.base + 0x08) 8 7])
      ∧ ∃ s : State, s.rst = true ∧ s.inflight = none ∧ s.host = [.releaseRst] :=
  ⟨⟨{ State.reset with host := [.assertRst] }, rfl, rfl⟩,
    ⟨{ State.reset with rst := true, host := [.read 0xFF 4] }, rfl, rfl⟩,
    ⟨{ State.reset with rst := true, host := [.write 0x08 8 7] }, rfl, rfl⟩,
    ⟨{ State.reset with rst := true, host := [.releaseRst] }, rfl, rfl, rfl⟩⟩
theorem witness_IdleReadsShowRegisters :
    ∀ off ∈ [0x00, 0x08, 0x10, 0x18, 0x20, 0x28, 0x30, 0x38], ∃ s : State,
      s.Inv ∧ s.host = [.read (s.params.base + off) 8] ∧ off % 8 = 0 ∧ off < 0x40 ∧ s.rst = false ∧ s.busy = false := by
  intro off h
  refine ⟨{ State.reset with host := [.read (0 + off) 8] }, ?_, rfl, ?_, ?_, rfl, rfl⟩ <;> revert off <;> decide
theorem witness_BusyReadsShowBusyAndDrop :
    ∀ off ∈ [0x00, 0x08, 0x10, 0x18, 0x20, 0x28, 0x30, 0x38], ∃ s : State,
      s.host = [.read (s.params.base + off) 8] ∧ off % 8 = 0 ∧ off < 0x40 ∧ s.rst = false ∧ s.busy = true := by
  intro off h
  refine ⟨{ hung with host := [.read (0 + off) 8] }, rfl, ?_, ?_, rfl, rfl⟩ <;> revert off <;> decide
theorem witness_IrqFollowsIeAndDone :
    (∃ t, State.reset.Quiet ∧ exec .nop State.reset = .next t) ∧ ∃ t, writeCtrl 2 State.reset = .goOn t :=
  ⟨⟨_, by decide, rfl⟩, ⟨_, rfl⟩⟩
/-- For each of the six statements StepKeeps…. -/
theorem witness_StepKeepsInvariants : State.reset.Inv ∧ ∃ s', step State.reset = .next s' := ⟨by decide, ⟨_, rfl⟩⟩

/-- A step of a run that has reached a command's end also meets the hypotheses. -/
theorem witness_StepKeepsInvariants_command :
    (tree4000.withFetchWord 64 0x0D10).Inv ∧ ∃ s', step (tree4000.withFetchWord 64 0x0D10) = .next s' :=
  ⟨by decide, ⟨_, rfl⟩⟩
theorem witness_OnlyResetClearsDropAndFault :
    ∃ s t : State, step s = .next t ∧ s.drop = true ∧ s.err = true :=
  ⟨{ State.reset with drop := true, err := true, host := [.write 0 8 1] }, _, rfl, rfl, rfl⟩
theorem witness_CommandsKeepArgumentsAndSource : State.reset.Quiet ∧ ∃ t, exec .lzSize State.reset = .next t :=
  ⟨by decide, ⟨_, rfl⟩⟩
theorem witness_EveryCommandEnds : State.reset.Inv ∧ State.reset.Quiet ∧ State.reset.err = false := by decide
theorem witness_FaultsAreThoseOfTheTable :
    ∃ t, State.reset.err = false ∧ exec (.brRead 65) State.reset = .next t ∧ t.err = true := ⟨_, rfl, rfl, by decide⟩
theorem witness_InvalidParamChecks :
    State.reset.Quiet ∧ 64 < 65 ∧ State.reset.params.maxHistW < 18
      ∧ (∃ s : State, s.Quiet ∧ s.arg0 = 0xFFFFFFFFFFFFFFFF)
      ∧ (∃ s : State, s.Quiet ∧ s.hw ≠ 0 ∧ 2 ^ s.hw ≤ s.arg0.toNat)
      ∧ (∃ s : State, s.Quiet ∧ s.tw = 1) ∧ (∃ s : State, s.Quiet ∧ 17 < s.tw)
      ∧ (∃ s : State, s.Quiet ∧ s.tw ≠ 0 ∧ 2 ^ s.tw - 1 ≤ s.arg0.toNat)
      ∧ State.reset.pb = [] ∧ ∃ s : State, s.Quiet ∧ s.arg0 = 0x8000000000000000 :=
  ⟨by decide, by decide, by decide, ⟨{ State.reset with arg0 := 0xFFFFFFFFFFFFFFFF }, by decide, rfl⟩,
    ⟨{ State.reset with hw := 3, arg0 := 8 }, by decide, by decide, by decide⟩,
    ⟨{ State.reset with tw := 1 }, by decide, rfl⟩, ⟨{ State.reset with tw := 18 }, by decide, by decide⟩,
    ⟨{ tree4000 with arg0 := 3 }, by decide, by decide, by decide⟩, rfl,
    ⟨{ State.reset with arg0 := 0x8000000000000000 }, by decide, rfl⟩⟩
theorem witness_StateNoEntryAndCapacityChecks :
    (State.reset.Quiet ∧ State.reset.hw = 0 ∧ State.reset.tw = 0)
      ∧ (∃ s : State, s.Quiet ∧ s.wpend ≠ [] ∧ s.arg0 ≠ 0x8000000000000000) ∧ (∃ s : State, s.Quiet ∧ s.rpend ≠ [])
      ∧ (∃ s : State, s.Quiet ∧ s.tw ≠ 0 ∧ 2 ^ s.tw ≤ s.arg0.toNat)
      ∧ (∃ s : State, s.Quiet ∧ s.params.pbCap ≤ s.pb.length)
      ∧ ∀ v ∈ [(0 : Word), 3, 0xFFFFFFFFFFFFFFFD], ∃ s : State, s.strat = v ∧ s.Quiet
        ∧ ¬(0 < s.strat.toInt ∧ s.strat.toInt ≤ s.lznodes.length)
        ∧ ¬(s.strat.toInt < 0 ∧ -s.strat.toInt ≤ s.lznodes.length) ∧ s.params.dictCap ≤ s.lznodes.length ∧ s.pb ≠ []
        ∧ ∀ kv ∈ s.lzindex, kv.1 ≠ s.pb :=
  ⟨by decide, ⟨{ State.reset with wpend := [true] }, by decide⟩, ⟨{ State.reset with rpend := [true] }, by decide⟩,
    ⟨{ tree4000 with arg0 := 4 }, by decide, by decide, by decide⟩,
    ⟨{ dictAAB with params := { Params.default with dictCap := 1, pbCap := 2 } }, by decide, by decide⟩,
    fun v hv => ⟨{ dictAAB with params := { Params.default with dictCap := 2 }, pb := [0x42], strat := v }, rfl, by
      simp only [List.mem_cons, List.not_mem_nil, or_false] at hv
      rcases hv with rfl | rfl | rfl <;> decide⟩⟩
theorem witness_FailedPushFaultsIoOut :
    ∃ s : State, s.inflight = none ∧ (∀ o ∈ s.overlaps, o = []) ∧ s.draws = [⟨[], .ioError, false⟩] ∧ s.wpend ≠ [] :=
  ⟨{ State.reset with wpend := [true], draws := [⟨[], .ioError, false⟩] }, by decide⟩
theorem witness_FailedPushFaultsIoOut_everyByte :
    ∃ (s t : State) (out : List Byte), s.Quiet ∧ exec (.bwWrite 16) s = .next t ∧ t.err = false
      ∧ t.sink = s.sink ++ out ∧ out[1]? = some 0xB5 :=
  ⟨{ State.reset with arg0 := 0x3CB5 }, _, [0x3C, 0xB5], by decide, rfl, rfl, rfl, rfl⟩
theorem witness_FailedInFaultsIoIn :
    (∃ s : State, s.inflight = none ∧ (∀ o ∈ s.overlaps, o = []) ∧ s.wpend = [] ∧ s.draws = [⟨[], .ioError, false⟩]
        ∧ s.rpend.length < 64)
      ∧ ∃ s : State, s.inflight = none ∧ (∀ o ∈ s.overlaps, o = []) ∧ s.wpend = [] ∧ s.draws = [] ∧ s.seekable = false :=
  ⟨⟨{ State.reset with draws := [⟨[], .ioError, false⟩] }, by decide⟩, ⟨{ State.reset with seekable := false }, by decide⟩⟩
/-- A tree, nothing pending, and a first transaction that fails. -/
def firstFails : State := { tree4000 with draws := [⟨[], .ioError, false⟩, Draw.prompt] }
theorem witness_FailedInFaultsIoIn_first :
    (firstFails.inflight = none ∧ (∀ o ∈ firstFails.overlaps, o = [])
        ∧ firstFails.draws = ⟨[], .ioError, false⟩ :: [Draw.prompt]
        ∧ ∀ d ∈ [Draw.prompt], d.during = [] ∧ d.answer = .ok)
      ∧ ∀ i ∈ [Instr.brRead 64, .brWord 64, .inRewind, .inLength, .gammaDec, .histBuild 17, .htRead, .htDec, .hufComp 17,
          .hufDecomp, .lzEnc, .lzDec], firstIn firstFails i := by
  refine ⟨by decide, ?_⟩
  simp only [List.forall_mem_cons, List.not_mem_nil, false_imp_iff, implies_true, and_true, firstIn]
  decide
theorem witness_FailedInFaultsIoIn_unseekable :
    ∃ s : State, s.Quiet ∧ s.seekable = false ∧ s.wpend = [] ∧ s.rpend = [] :=
  ⟨{ State.reset with seekable := false }, by decide⟩
theorem witness_FailedInFaultsIoIn_any :
    ∃ h, exec (.brRead 16) (portsThen 1 ⟨[], .never, true⟩ [] (withSrc [1, 2])) = .next h ∧ h.busy = true
      ∧ h.err = false ∧ h.inflight = some ⟨.pull, true⟩ ∧ ∀ b, Transaction.pull ≠ .push b :=
  ⟨_, rfl, rfl, rfl, rfl, fun _ => nofun⟩
theorem witness_ShortInputFaultsEndOfStream :
    (withSrc [0xB5]).Quiet ∧ (withSrc [0xB5]).StreamsOk ∧ (incoming (withSrc [0xB5])).length < 9 := by decide
theorem witness_UnansweredPushStaysBusyUntilReset :
    ∃ s : State, s.inflight = none ∧ (∀ o ∈ s.overlaps, o = []) ∧ s.draws = [⟨[], .never, true⟩] ∧ s.wpend ≠ [] :=
  ⟨{ State.reset with wpend := [true], draws := [⟨[], .never, true⟩] }, by decide⟩
theorem witness_UnansweredPushStaysBusyUntilReset_step :
    ∃ s t : State, s.busy = true ∧ step s = .next t ∧ t.busy = true :=
  ⟨{ hung with host := [.write 0 8 1] }, _, rfl, rfl, rfl⟩
theorem witness_NopOnlyEnds : { State.reset with draws := [Draw.prompt], overlaps := [[]] }.Quiet := by decide
theorem witness_BwWriteEmitsLowBits :
    ∃ s : State, s.Quiet ∧ s.wpend.length = 7 ∧ 64 ≤ 64 :=
  ⟨{ State.reset with wpend := [true, true, true, true, true, true, true] }, by decide⟩
theorem witness_BwFlushPadsOnce : { State.reset with wpend := [true] }.Quiet := by decide
theorem witness_BrReadTakesBits :
    (withSrc [0xB5]).Quiet ∧ 8 ≤ 64 ∧ 8 ≤ (incoming (withSrc [0xB5])).length := by decide
theorem witness_BrWordGivesNextWord :
    (withSrc [0xB5]).Quiet ∧ (withSrc [0xB5]).pos ≤ (withSrc [0xB5]).src.length
      ∧ 8 ≤ (incoming (withSrc [0xB5])).length ∧ (incoming (withSrc [0xB5])).length < 9
      ∧ (incoming (withSrc [])).length < 1 := by decide
theorem witness_RewindAndLength :
    (withSrc [0xB5]).Quiet ∧ (withSrc [0xB5]).seekable = true ∧ (withSrc [0xB5]).src.length < 2 ^ 64 := by decide
theorem witness_FieldRoundTrip :
    ∃ s u t t' : State, s.Quiet ∧ s.wpend = [] ∧ u.Quiet ∧ u.rpend = [] ∧ u.pos = 0 ∧ 8 ≤ 64
      ∧ exec (.bwWrite 8) s = .next t ∧ exec .bwFlush t = .next t' ∧ u.src = t'.sink.drop s.sink.length :=
  ⟨{ State.reset with arg0 := 0x1FF }, withSrc [0xFF], _, _, by decide, rfl, by decide, rfl, rfl, by decide, rfl, rfl,
    by decide⟩
theorem witness_GammaEncEmitsCode :
    ∃ s : State, s.Quiet ∧ s.wpend.length ≤ 7 ∧ s.arg0.toNat = 2 ^ 64 - 2 :=
  ⟨{ State.reset with arg0 := 0xFFFFFFFFFFFFFFFE }, by decide⟩
theorem witness_GammaDecReadsCode :
    ((withSrc [0x08, 0x00]).Quiet ∧ gammaCode 15 <+: incoming (withSrc [0x08, 0x00]))
      ∧ List.replicate 64 false <+: incoming (withSrc [0, 0, 0, 0, 0, 0, 0, 0]) := by decide
theorem witness_ZigzagCommands :
    (∃ s : State, s.Quiet ∧ 0 ≤ s.arg0.toInt ∧ s.arg0.toNat = 2 * 0)
      ∧ ∃ s : State, s.Quiet ∧ s.arg0.toInt < 0 ∧ s.arg0.toNat = 2 * (2 ^ 63 - 1) + 1 :=
  ⟨⟨State.reset, by decide⟩, ⟨{ State.reset with arg0 := 0xFFFFFFFFFFFFFFFF }, by decide⟩⟩
theorem witness_HistBuildCountsWords :
    (withSrc [0xFF]).Quiet ∧ 17 ≤ (withSrc [0xFF]).params.maxHistW ∧ (withSrc [0xFF]).pos ≤ (withSrc [0xFF]).src.length
      ∧ (incoming (withSrc [0xFF])).length < 2 ^ 64 := by decide

/-- The histogram of "ABA" at width 3 (43_histogram R161). -/
def histABA : State := { State.reset with hw := 3, counts := [2, 3, 2, 0, 1, 0, 0, 0], arg0 := 7 }

theorem witness_HistogramAccess :
    histABA.Quiet ∧ histABA.HistogramOk ∧ histABA.hw ≠ 0 ∧ histABA.arg0.toNat < 2 ^ histABA.hw := by decide
theorem witness_HtBuildGivesValidTree : histABA.Quiet ∧ histABA.hw ≠ 0 := by decide
theorem witness_HtWriteEmitsTree :
    tree4000.Quiet ∧ tree4000.wpend.length ≤ 7 ∧ 2 ≤ tree4000.tw ∧ tree4000.tw ≤ 17
      ∧ validTree tree4000.tw tree4000.nodes = true := by decide
theorem witness_HtReadRebuildsTree :
    ∃ s bits, s.Quiet ∧ validTree 2 tree4000.nodes = true ∧ treeBits 2 tree4000.nodes = some bits
      ∧ bits <+: incoming s :=
  ⟨withSrc [0x07, 0x5D, 0x00], _, by decide, by decide, rfl, by decide⟩
theorem witness_HtReadRebuildsTree_malformed :
    (withSrc [0, 0, 0, 0]).Quiet ∧ noTree (incoming (withSrc [0, 0, 0, 0])) :=
  ⟨by decide, noTree_zeros (by decide) (by decide)⟩
theorem witness_HtReadRebuildsTree_container :
    ∃ s : State, s.Quiet ∧ s.wpend = [] ∧ s.rpend = [] ∧ noTree ((incoming s).drop 64) :=
  ⟨withSrc [0, 0, 0, 0, 0, 0, 0, 1, 0, 0, 0], by decide, rfl, rfl, noTree_zeros (by decide) (by decide)⟩
theorem witness_HtEncAndHtCode :
    (∃ s : State, s.Quiet ∧ s.wpend.length ≤ 7 ∧ s.tw ≠ 0 ∧ validTree s.tw s.nodes = true ∧ s.arg0.toNat < 2 ^ s.tw
        ∧ ∃ c, code s.tw s.nodes s.arg0.toNat = some c ∧ c.length ≤ s.params.maxCodeLen)
      ∧ ∃ s : State, s.Quiet ∧ s.wpend.length ≤ 7 ∧ s.tw ≠ 0 ∧ validTree s.tw s.nodes = true ∧ s.arg0.toNat < 2 ^ s.tw
        ∧ ∃ c, code s.tw s.nodes s.arg0.toNat = some c ∧ s.params.maxCodeLen < c.length :=
  ⟨⟨{ tree4000 with arg0 := 1 }, by decide, by decide, by decide, by decide, by decide, _, rfl, by decide⟩,
    ⟨{ tree4000 with arg0 := 1, params := { Params.default with maxCodeLen := 2 } }, by decide, by decide, by decide,
      by decide, by decide, _, rfl, by decide⟩⟩
theorem witness_HtDecReadsCode :
    ∃ s c, s.Quiet ∧ s.tw ≠ 0 ∧ validTree s.tw s.nodes = true ∧ 2 < 2 ^ s.tw ∧ code s.tw s.nodes 2 = some c
      ∧ c <+: incoming s :=
  ⟨{ tree4000 with src := [0x60] }, _, by decide, by decide, by decide, by decide, rfl, by decide⟩
theorem witness_HtNodeShowsEntry :
    { tree4000 with arg0 := 2 }.Quiet ∧ { tree4000 with arg0 := 2 }.TreeOk ∧ tree4000.tw ≠ 0
      ∧ { tree4000 with arg0 := 2 }.arg0.toNat < 2 ^ tree4000.tw - 1 := by decide
theorem witness_CodesArePrefixFree :
    ∃ c, validTree 2 tree4000.nodes = true ∧ 3 < 2 ^ 2 ∧ code 2 tree4000.nodes 3 = some c ∧ c <+: c :=
  ⟨_, by decide, by decide, rfl, by decide⟩
theorem witness_HufCompWritesContainer :
    (withSrc [0x1B]).Quiet ∧ (withSrc [0x1B]).params.wf = true ∧ (withSrc [0x1B]).seekable = true
      ∧ (withSrc [0x1B]).wpend = [] ∧ (withSrc [0x1B]).rpend = [] ∧ 8 * (withSrc [0x1B]).src.length < 2 ^ 64 := by decide
theorem witness_HufDecompExpandsContainer :
    ∃ s tb, s.Quiet ∧ s.wpend = [] ∧ s.rpend = [] ∧ validTree 2 tree4000.nodes = true
      ∧ treeBits 2 tree4000.nodes = some tb ∧ containerBits 2 tree4000.nodes tb [0x00] <+: incoming s :=
  ⟨withSrc [0, 0, 0, 0, 0, 0, 0, 1, 0x07, 0x5D, 0x3C], _, by decide, rfl, rfl, by decide, rfl, by decide⟩
theorem witness_HuffmanRoundTrip :
    ∃ s u t : State, s.Quiet ∧ s.params.wf = true ∧ s.seekable = true ∧ s.wpend = [] ∧ s.rpend = []
      ∧ 8 * s.src.length < 2 ^ 64 ∧ u.Quiet ∧ u.wpend = [] ∧ u.rpend = [] ∧ u.pos = 0
      ∧ exec (.hufComp 2) s = .next t ∧ u.src = t.sink.drop s.sink.length :=
  ⟨withSrc [0x1B], withSrc [0, 0, 0, 0, 0, 0, 0, 1, 0x04, 0xAD, 0xC6, 0xC0], _, by decide, by decide, rfl, rfl, rfl,
    by decide, by decide, rfl, rfl, rfl, rfl, by decide +kernel⟩
theorem witness_DictionarySetupAndPhraseBuffer :
    dictAAB.Quiet ∧ dictAAB.pb.length < dictAAB.params.pbCap ∧ dictAAB.pb[dictAAB.arg0.toNat]? = some 0x41
      ∧ { dictAAB with arg0 := 2 }.pb.length ≤ { dictAAB with arg0 := 2 }.arg0.toNat := by decide
/-- `dictAAB` with the node address 2, and with 3 (no such node). -/
def dictNode2 : State := { dictAAB with arg0 := 2 }
def dictNode3 : State := { dictAAB with arg0 := 3 }
/-- `dictAAB` with an empty phrase, and with the phrase 'B', which it does not hold. -/
def dictEmptyPhrase : State := { dictAAB with pb := [] }
def dictNewPhrase : State := { dictAAB with pb := [0x42] }
theorem witness_DictionaryLookups :
    (dictAAB.Quiet ∧ dictAAB.DictionaryOk ∧ dictAAB.err = false ∧ dictAAB.arg0 = 0)
      ∧ (dictNode2.Quiet ∧ dictNode2.DictionaryOk ∧ dictNode2.err = false ∧ dictNode2.arg0 = 2
        ∧ dictNode2.lznodes[2 - 1]? = some ⟨1, 0x42⟩)
      ∧ dictNode3.lznodes.length < dictNode3.arg0.toNat
      ∧ (dictEmptyPhrase.DictionaryOk ∧ dictEmptyPhrase.pb = [])
      ∧ (dictAAB.pb, 2) ∈ dictAAB.lzindex
      ∧ dictNewPhrase.DictionaryOk ∧ ∀ kv ∈ dictNewPhrase.lzindex, kv.1 ≠ dictNewPhrase.pb := by
  refine ⟨by decide, by decide, by decide, by decide, by decide, by decide, by decide⟩
theorem witness_LzAddInserts_freeze :
    ∃ s : State, s.Quiet ∧ s.DictionaryOk ∧ s.err = false ∧ s.pb = [] ++ [0x41] ∧ s.strat.toInt < 0
      ∧ -s.strat.toInt ≤ s.lznodes.length :=
  ⟨{ dictAAB with strat := 0xFFFFFFFFFFFFFFFE, pb := [0x41] }, by decide⟩
theorem witness_LzAddInserts_known :
    dictAAB.Quiet ∧ dictAAB.DictionaryOk ∧ dictAAB.pb = [0x41] ++ [0x42] ∧ ([0x41] ++ [0x42], 2) ∈ dictAAB.lzindex
      ∧ ¬(0 < dictAAB.strat.toInt ∧ dictAAB.strat.toInt ≤ dictAAB.lznodes.length)
      ∧ ¬(dictAAB.strat.toInt < 0 ∧ -dictAAB.strat.toInt ≤ dictAAB.lznodes.length) := by decide
theorem witness_LzAddInserts_new :
    (∃ s : State, s.Quiet ∧ s.DictionaryOk ∧ s.pb = [0x41] ++ [0x43] ∧ (∀ kv ∈ s.lzindex, kv.1 ≠ [0x41] ++ [0x43])
        ∧ s.lznodes.length < s.params.dictCap ∧ ([0x41], 1) ∈ s.lzindex)
      ∧ ∃ s : State, s.Quiet ∧ s.DictionaryOk ∧ s.pb = [] ++ [0x42] ∧ (0 < s.strat.toInt ∧ s.strat.toInt ≤ s.lznodes.length)
        ∧ 0 < s.params.dictCap :=
  ⟨⟨{ dictAAB with pb := [0x41, 0x43] }, by decide⟩, ⟨{ dictAAB with strat := 2, pb := [0x42] }, by decide⟩⟩
theorem witness_LzEncWritesContainer :
    (withSrc [0x41]).Quiet ∧ (withSrc [0x41]).params.wf = true ∧ (withSrc [0x41]).wpend = []
      ∧ (withSrc [0x41]).rpend = [] ∧ (withSrc [0x41]).pos ≤ (withSrc [0x41]).src.length
      ∧ (withSrc [0x41]).arg0 ≠ 0x8000000000000000
      ∧ (withSrc [0x41]).src.length - (withSrc [0x41]).pos ≤ (withSrc [0x41]).params.dictCap := by decide
theorem witness_LzEncWritesContainer_limit :
    ∀ v ∈ [(1 : Word), 0xFFFFFFFFFFFFFFFF], ∃ s : State, s.arg0 = v ∧ s.Quiet ∧ s.params.wf = true ∧ s.wpend = []
      ∧ s.rpend = [] ∧ s.pos ≤ s.src.length ∧ s.arg0 ≠ 0x8000000000000000
      ∧ ¬ s.src.length - s.pos ≤ s.params.dictCap ∧ s.arg0 ≠ 0 ∧ s.arg0.toInt.natAbs ≤ s.params.dictCap := fun v hv =>
  ⟨{ withSrc [0x41, 0x42, 0x43] with arg0 := v, params := { Params.default with dictCap := 1, pbCap := 2 } }, rfl, by
    simp only [List.mem_cons, List.not_mem_nil, or_false] at hv
    rcases hv with rfl | rfl <;> decide⟩
theorem witness_LzDecExpandsContainer_malformed :
    ∃ (s d : State) (phs : List (List Byte)), s.Quiet ∧ s.params.wf = true ∧ s.wpend = [] ∧ s.rpend = []
      ∧ playPairs [(0, 0x41)] (dictInit 0 s) = some (phs, d) ∧ d.lznodes.length + 2 < 4
      ∧ lzPairBits 0 [(0, 0x41)] ++ gammaCode 4 ++ binByte 0x42 <+: incoming s :=
  ⟨withSrc [0xD0, 0x4A, 0x84], _, _, by decide, by decide, rfl, rfl, rfl, by decide, by decide⟩
theorem witness_LzDecExpandsContainer_finalIndex :
    ∃ (s d : State) (phs : List (List Byte)), s.Quiet ∧ s.params.wf = true ∧ s.wpend = [] ∧ s.rpend = []
      ∧ playPairs [(0, 0x41)] (dictInit 0 s) = some (phs, d) ∧ d.lznodes.length < 2
      ∧ lzContainerBits 0 [(0, 0x41)] d.lznodes.length (some 2) <+: incoming s :=
  ⟨withSrc [0xD0, 0x48, 0xC0], _, _, by decide, by decide, rfl, rfl, rfl, by decide, by decide⟩
theorem witness_LzDecExpandsContainer_full :
    ∃ (s d : State) (phs : List (List Byte)), s.Quiet ∧ s.params.wf = true ∧ s.wpend = [] ∧ s.rpend = []
      ∧ playPairs [(0, 0x41)] (dictInit 0 s) = some (phs, d) ∧ pairPhrase 0 0x42 d = some [0x42]
      ∧ dictAdd [0x42] d = .full ∧ lzPairBits 0 [(0, 0x41)] ++ gammaCode 0 ++ binByte 0x42 <+: incoming s :=
  ⟨{ withSrc [0xD0, 0x68, 0x40] with params := { Params.default with dictCap := 1, pbCap := 2 } }, _, _, by decide,
    by decide, rfl, rfl, rfl, rfl, rfl, by decide⟩
theorem witness_LzDecExpandsContainer_boundary :
    ∃ (s d : State) (phs : List (List Byte)), s.Quiet ∧ s.params.wf = true ∧ s.wpend = [] ∧ s.rpend = []
      ∧ playPairs [(0, 0x41), (0, 0x42), (1, 0x42), (3, 0x41)] (dictInit 0 s) = some (phs, d)
      ∧ lzContainerBits 0 [(0, 0x41), (0, 0x42), (1, 0x42), (3, 0x41)] d.lznodes.length none <+: incoming s :=
  ⟨withSrc [0xD0, 0x68, 0x49, 0x08, 0x88, 0x26], _, _, by decide, by decide, rfl, rfl, rfl, by decide⟩
theorem witness_LzDecExpandsContainer_inside :
    ∃ (s d : State) (phs : List (List Byte)), s.Quiet ∧ s.params.wf = true ∧ s.wpend = [] ∧ s.rpend = []
      ∧ playPairs [(0, 0x41)] (dictInit 0 s) = some (phs, d) ∧ dictGet 1 d = some [0x41]
      ∧ lzContainerBits 0 [(0, 0x41)] d.lznodes.length (some 1) <+: incoming s :=
  ⟨withSrc [0xD0, 0x48, 0x80], _, _, by decide, by decide, rfl, rfl, rfl, rfl, by decide⟩
theorem witness_LzRoundTrip :
    ∃ s t u : State, s.Quiet ∧ s.params.wf = true ∧ s.wpend = [] ∧ s.rpend = [] ∧ s.pos ≤ s.src.length ∧ s.err = false
      ∧ exec .lzEnc s = .next t ∧ t.err = false ∧ u.Quiet ∧ u.params = s.params ∧ u.wpend = [] ∧ u.rpend = []
      ∧ u.pos = 0 ∧ u.err = false ∧ u.src = t.sink.drop s.sink.length :=
  ⟨withSrc [0x41], _, withSrc [0xD0, 0x58], by decide, by decide, rfl, rfl, by decide, rfl, rfl, by decide +kernel,
    by decide, rfl, rfl, rfl, rfl, rfl, by decide +kernel⟩

end Sys2Proof.Tests
end

section
/-! SUPPORT. How a property of states goes through the ports, the writer and the reader, for any ports and any host. -/

namespace Sys2Proof.Machine

/-! ## Results -/

/-- A fact about the value joins what holds of the result. -/
theorem Sat.and_ok {α : Type} {Q R : α → Prop} {H : Halt → Prop} {r : Ran α} (h : Sat Q H r)
    (hr : ∀ a, r = .ok a → R a) : Sat (fun a => Q a ∧ R a) H r := by
  cases r with
  | ok a => exact ⟨h, hr a rfl⟩
  | error x => exact h

/-- All that a check can do (60_exceptions R235): its condition holds, or the command faults and keeps the state. -/
theorem require_sat {H : Halt → Prop} {c : Prop} [Decidable c] {code : FaultCode} {s : State}
    (hf : H ⟨.fault code true, s⟩) : Sat (fun _ => c) H (require c code s) := by
  by_cases hc : c
  · rw [require_true hc]; exact hc
  · rw [require_false hc]; exact hf

/-- The pseudocode goes on where a check passed. -/
theorem require_bind {β : Type} {Q : β → Prop} {H : Halt → Prop} {c : Prop} [Decidable c] {code : FaultCode} {s : State}
    {f : Unit → Ran β} (hf : H ⟨.fault code true, s⟩) (hok : c → Sat Q H (f ())) :
    Sat Q H (require c code s >>= f) :=
  (require_sat hf).bind fun _ hc => hok hc

/-! ## Ports and writer -/

/-- `P` goes through a port transaction with stops in `H`, and it does not depend on SINK, on the place of POS in SRC, or on
the bits of a writer that stays within 7 bits. -/
structure Port (P : State → Prop) (H : Halt → Prop) : Prop where
  transact : ∀ what s, P s → Sat (fun r => P r.2) H (transact what s)
  sink     : ∀ l s, P s → P { s with sink := l }
  move     : ∀ n s, P s → n ≤ s.src.length → P { s with pos := n }
  writer   : ∀ l s, P s → (s.wpend.length ≤ 7 → l.length ≤ 7) → P { s with wpend := l }
  fault    : ∀ c s, P s → H ⟨.fault c false, s⟩

variable {P : State → Prop} {H : Halt → Prop}

theorem Port.pullByte (hp : Port P H) {s : State} (h : P s) : Sat (fun r => P r.2) H (pullByte s) := by
  refine (hp.transact .pull s h).bind fun r hr => ?_
  obtain ⟨good, u⟩ := r
  cases good
  · exact hp.fault _ u hr
  · simp only [if_true]
    split
    · rename_i hb
      obtain ⟨hlt, -⟩ := List.getElem?_eq_some_iff.mp hb
      exact hp.move _ u hr hlt
    · exact hr

theorem Port.srcLen (hp : Port P H) {s : State} (h : P s) : Sat (fun r => P r.2) H (srcLen s) := by
  refine (hp.transact .length s h).bind fun r hr => ?_
  simp only
  split
  · exact hr
  · exact hp.fault _ r.2 hr

theorem Port.srcRewind (hp : Port P H) {s : State} (h : P s) : Sat P H (srcRewind s) := by
  refine (hp.transact .rewind s h).bind fun r hr => ?_
  simp only
  split
  · exact hp.move 0 r.2 hr (Nat.zero_le _)
  · exact hp.fault _ r.2 hr

theorem Port.pushByte (hp : Port P H) (b : Byte) {s : State} (h : P s) : Sat P H (pushByte b s) := by
  refine (hp.transact (.push b) s h).bind fun r hr => ?_
  obtain ⟨good, u⟩ := r
  cases good
  · exact hp.fault _ u hr
  · exact hp.sink _ u hr

theorem Port.putBit (hp : Port P H) (b : Bool) {s : State} (h : P s) : Sat P H (putBit b s) := by
  simp only [Machine.putBit]
  split
  · exact (hp.pushByte _ h).bind fun u hu => hp.writer [] u hu (by simp)
  · rename_i h8
    refine hp.writer _ s h fun h7 => ?_
    simp only [List.length_append, List.length_singleton] at h8 ⊢
    omega

theorem Port.putString (hp : Port P H) (bs : Bits) {s : State} (h : P s) : Sat P H (putString bs s) := by
  induction bs generalizing s with
  | nil => exact h
  | cons b bs ih => exact (hp.putBit b h).bind fun u hu => ih hu

theorem Port.putBits (hp : Port P H) (v n : Nat) {s : State} (h : P s) : Sat P H (putBits v n s) :=
  hp.putString _ h

theorem Port.flush (hp : Port P H) {s : State} (h : P s) : Sat P H (flush s) := by
  simp only [Machine.flush]
  split
  · exact h
  · exact (hp.pushByte _ h).bind fun u hu => hp.writer [] u hu (by simp)

theorem Port.gammaPut (hp : Port P H) (v : Nat) {s : State} (h : P s) : Sat P H (gammaPut v s) :=
  (hp.putBits _ _ h).bind fun _ hu => hp.putBits _ _ hu

theorem Port.putBytes (hp : Port P H) (l : List Byte) {s : State} (h : P s) : Sat P H (putBytes l s) := by
  induction l generalizing s with
  | nil => exact h
  | cons b l ih => exact (hp.putBits _ _ h).bind fun u hu => ih hu

/-- The fault flush: a failed push is not recorded (60_exceptions R238), so it never stops with a fault of the block. -/
theorem Port.faultFlush (hp : Port P H) {s : State} (h : P s)
    (hf : ∀ c k u, H ⟨.fault c k, u⟩ → P u) :
    Sat P (fun x => H x ∧ ∀ c k, x.why ≠ .fault c k) (faultFlush s) := by
  simp only [Machine.faultFlush]
  split
  · exact h
  · have hb := hp.pushByte (valByte (padByte s.wpend)) h
    split <;> rename_i e <;> rw [e] at hb
    · exact hp.writer [] _ hb (by simp)
    · exact hp.writer [] _ (hf _ _ _ hb) (by simp)
    all_goals exact ⟨hb, by simp⟩

/-! ## Reader -/

/-- A port property that does not depend on the bits in the reader. -/
structure Reader (P : State → Prop) (H : Halt → Prop) : Prop extends Port P H where
  reader : ∀ l s, P s → P { s with rpend := l }

theorem Reader.fill (hp : Reader P H) (fuel n : Nat) {s : State} (h : P s) : Sat P H (fill fuel n s) := by
  induction fuel generalizing s with
  | zero => exact h
  | succ fuel ih =>
    simp only [Machine.fill]
    split
    · refine (hp.pullByte h).bind fun r hr => ?_
      obtain ⟨_ | b, u⟩ := r
      · exact hp.fault _ u hr
      · exact ih (hp.reader _ u hr)
    · exact h

theorem Reader.fillOrEnd (hp : Reader P H) (fuel n : Nat) {s : State} (h : P s) :
    Sat (fun r => P r.2) H (fillOrEnd fuel n s) := by
  induction fuel generalizing s with
  | zero => exact h
  | succ fuel ih =>
    simp only [Machine.fillOrEnd]
    split
    · refine (hp.pullByte h).bind fun r hr => ?_
      obtain ⟨_ | b, u⟩ := r
      · exact hr
      · exact ih (hp.reader _ u hr)
    · exact h

theorem Reader.getBits (hp : Reader P H) (n : Nat) {s : State} (h : P s) :
    Sat (fun r => P r.2) H (getBits n s) :=
  (hp.fill n n h).bind fun u hu => hp.reader _ u hu

theorem Reader.nextWord (hp : Reader P H) (w : Nat) {s : State} (h : P s) :
    Sat (fun r => P r.2) H (nextWord w s) := by
  refine (hp.fillOrEnd w w h).bind fun r hr => ?_
  obtain ⟨full, u⟩ := r
  cases full
  · exact hp.reader _ u hr
  · exact hp.reader _ u hr

theorem val_take_lt (n : Nat) (bs : Bits) : val (bs.take n) < 2 ^ n :=
  Nat.lt_of_lt_of_le (val_lt _) (Nat.pow_le_pow_right (by omega) (List.length_take_le n bs))

theorem getBits_lt {n : Nat} {s : State} {r : Nat × State} (h : getBits n s = .ok r) : r.1 < 2 ^ n := by
  simp only [Machine.getBits, bind, Except.bind] at h
  split at h
  · cases h
  · cases h; exact val_take_lt n _

/-! ## Streams -/

/-- `P` goes through the ports, the writer, GetBits and NextWord. -/
structure Streams (P : State → Prop) (H : Halt → Prop) : Prop extends Port P H where
  getBits  : ∀ n s, P s → Sat (fun r => P r.2) H (getBits n s)
  nextWord : ∀ w s, P s → Sat (fun r => P r.2) H (nextWord w s)

/-- A property that does not see the reader goes through the streams. -/
theorem Reader.streams (hp : Reader P H) : Streams P H :=
  { hp.toPort with getBits := fun n _ h => hp.getBits n h, nextWord := fun w _ h => hp.nextWord w h }

theorem Streams.gammaZeros (hp : Streams P H) (left l : Nat) {s : State} (h : P s) :
    Sat (fun r => P r.2) H (gammaZeros left l s) := by
  induction left generalizing l s with
  | zero => exact hp.fault _ s h
  | succ left ih =>
    refine (hp.getBits 1 s h).bind fun r hr => ?_
    simp only
    split
    · exact hr
    · exact ih (l + 1) hr

theorem Streams.gammaGet (hp : Streams P H) {s : State} (h : P s) : Sat (fun r => P r.2) H (gammaGet s) := by
  refine (hp.gammaZeros 64 0 h).bind fun r hr => ?_
  simp only
  split
  · exact hr
  · exact (hp.getBits r.1 r.2 hr).bind fun q hq => hq

/-! ## What the ports leave alone -/

/-- `J` does not depend on what the host, the ports, the writer and the reader change. -/
def Memory (J : State → Prop) : Prop :=
  ∀ s arg0 arg1 drop ie log fresh src pos seekable sink draws inflight wpend, J s →
    J { s with
        arg0 := arg0, arg1 := arg1, drop := drop, ie := ie, log := log, fresh := fresh, src := src, pos := pos
        seekable := seekable, sink := sink, draws := draws, inflight := inflight, wpend := wpend }

variable {J : State → Prop}

theorem Memory.whileBusy (hj : Memory J) (l : List HostAction) {s : State} (h : J s) :
    Sat J (fun _ => True) (whileBusy l s) := by
  induction l generalizing s with
  | nil => exact h
  | cons a l ih =>
    simp only [Machine.whileBusy]
    split
    · rename_i e
      obtain ⟨_, _, _, _, _, _, _, _, _, _, rfl, -, -, -⟩ := hostAction_goOn e
      exact ih (hj s _ _ _ _ _ _ _ _ _ _ s.draws s.inflight s.wpend h)
    · trivial
    · trivial

theorem Memory.port (hj : Memory J) : Port J (fun _ => True) where
  transact what s h := by
    have h0 := hj s s.arg0 s.arg1 s.drop s.ie s.log s.fresh s.src s.pos s.seekable s.sink s.draws.tail
      (some ⟨what, (s.draws.headD Draw.prompt).took⟩) s.wpend h
    refine (hj.whileBusy _ h0).bind fun u hu => ?_
    have h1 := hj u u.arg0 u.arg1 u.drop u.ie u.log u.fresh u.src u.pos u.seekable u.sink u.draws none u.wpend hu
    split
    · exact h1
    · exact h1
    · trivial
  sink l s h := hj s s.arg0 s.arg1 s.drop s.ie s.log s.fresh s.src s.pos s.seekable l s.draws s.inflight s.wpend h
  move n s h _ := hj s s.arg0 s.arg1 s.drop s.ie s.log s.fresh s.src n s.seekable s.sink s.draws s.inflight s.wpend h
  writer l s h _ := hj s s.arg0 s.arg1 s.drop s.ie s.log s.fresh s.src s.pos s.seekable s.sink s.draws s.inflight l h
  fault _ _ _ := trivial

theorem Sat.and {α : Type} {Q R : α → Prop} {H : Halt → Prop} {r : Ran α} (h : Sat Q H r)
    (hr : Sat R (fun _ => True) r) : Sat (fun a => Q a ∧ R a) H r :=
  h.and_ok fun a e => by rw [e] at hr; exact hr

/-- A property of the memories stays beside one that goes through the ports. -/
theorem Port.and (hp : Port P H) (hj : Memory J) : Port (fun s => P s ∧ J s) H where
  transact what s h := (hp.transact what s h.1).and (hj.port.transact what s h.2)
  sink l s h := ⟨hp.sink l s h.1, hj.port.sink l s h.2⟩
  move n s h hn := ⟨hp.move n s h.1 hn, hj.port.move n s h.2 hn⟩
  writer l s h hl := ⟨hp.writer l s h.1 hl, hj.port.writer l s h.2 hl⟩
  fault c s h := hp.fault c s h.1

end Sys2Proof.Machine
end

section
/-! SUPPORT. The trees that TreeBuild and TreeRead leave are valid (10_state R33). -/

namespace Sys2Proof.Machine

/-! ## A criterion -/

@[simp] theorem children_nil : children [] = [] := rfl
@[simp] theorem children_cons (nd : Node) (l : List Node) : children (nd :: l) = nd.left :: nd.right :: children l := rfl
@[simp] theorem length_children (l : List Node) : (children l).length = 2 * l.length := by
  induction l with
  | nil => rfl
  | cons nd l ih => simp [ih]; omega

/-- Every child has a larger index than its node; the nodes given begin at index `j`. -/
def Descends (j : Nat) (nodes : List Node) : Prop :=
  ∀ k nd, nodes[k]? = some nd → j + k < nd.left ∧ j + k < nd.right

theorem Descends.cons {j : Nat} {nd : Node} {nodes : List Node} (hl : j < nd.left) (hr : j < nd.right)
    (h : Descends (j + 1) nodes) : Descends j (nd :: nodes) := by
  intro k nd' hk
  cases k with
  | zero => cases hk; exact ⟨hl, hr⟩
  | succ k =>
    have := h k nd' hk
    omega

/-- Node 0 is no child. -/
theorem Descends.zero_notMem {j : Nat} {nodes : List Node} (h : Descends j nodes) : 0 ∉ children nodes := by
  intro hm
  obtain ⟨nd, hnd, hx⟩ := List.mem_flatMap.mp hm
  obtain ⟨k, hk⟩ := List.getElem?_of_mem hnd
  obtain ⟨hl, hr⟩ := h k nd hk
  simp only [List.mem_cons, List.not_mem_nil, or_false] at hx
  omega

/-- Every index that is a child has a parent that the search finds. -/
theorem parentFrom_isSome {nodes : List Node} {i : Nat} (h : i ∈ children nodes) (j : Nat) :
    ∃ k b, parentFrom nodes j i = some (k, b) := by
  induction nodes generalizing j with
  | nil => cases h
  | cons nd nodes ih =>
    simp only [parentFrom]
    split
    · exact ⟨_, _, rfl⟩
    · split
      · exact ⟨_, _, rfl⟩
      · rename_i hl hr
        simp only [children_cons, List.mem_cons] at h
        exact ih ((h.resolve_left (Ne.symm hl)).resolve_left (Ne.symm hr)) (j + 1)

/-- Where parents are smaller than their children, the parent of `i` has an index below `i` and is one of the nodes. -/
theorem parentFrom_lt {nodes : List Node} {i k : Nat} {b : Bool} (hd : Descends 0 nodes)
    (h : parentFrom nodes 0 i = some (k, b)) : k < i ∧ k < nodes.length := by
  obtain ⟨nd, -, hn, he⟩ := parentFrom_some h
  obtain ⟨hl, hr⟩ := hd k nd hn
  obtain ⟨hlt, -⟩ := List.getElem?_eq_some_iff.mp hn
  cases b <;> simp at he <;> omega

/-- Where parents are smaller than their children, every index up to `m` has a path from node 0 (44_huffman_tree R171). -/
theorem pathTo_isSome {nodes : List Node} {m : Nat} (hd : Descends 0 nodes)
    (hc : ∀ i, 0 < i → i ≤ m → i ∈ children nodes) {fuel i : Nat} (acc : Bits) (hi : i ≤ m)
    (hf : i ≤ fuel ∨ nodes.length ≤ fuel) : (pathTo nodes fuel i acc).isSome = true := by
  induction fuel generalizing i acc with
  | zero =>
    by_cases h0 : i = 0
    · simp [pathTo, h0]
    · obtain ⟨k, b, hp⟩ := parentFrom_isSome (hc i (by omega) hi) 0
      have := parentFrom_lt hd hp
      omega
  | succ fuel ih =>
    simp only [pathTo]
    split
    · rfl
    · obtain ⟨k, b, hp⟩ := parentFrom_isSome (hc i (by omega) hi) 0
      have := parentFrom_lt hd hp
      rw [hp]
      exact ih _ (by omega) (by omega)

/-- A tree is valid where the children are the indices 1 to 2N, each once, and parents are smaller than their children. -/
theorem validTree_of_perm {w : Nat} {nodes : List Node} (hl : nodes.length = internals w)
    (hc : (children nodes).Perm (List.range' 1 (2 * internals w))) (hd : Descends 0 nodes) :
    validTree w nodes = true := by
  have hmem : ∀ i, i ∈ children nodes ↔ 1 ≤ i ∧ i ≤ 2 * internals w := by
    intro i
    rw [hc.mem_iff, List.mem_range'_1]
    omega
  have hnd : (children nodes).Nodup := hc.nodup_iff.mpr List.nodup_range'
  simp only [validTree, Bool.and_eq_true, List.all_eq_true, List.mem_range, beq_iff_eq, decide_eq_true_eq]
  refine ⟨⟨⟨hl, fun i hi => (hmem i).mp hi⟩, fun i hi => ?_⟩, fun i hi => ?_⟩
  · rw [hnd.count, if_pos ((hmem _).mpr ⟨by omega, hi⟩)]
  · exact pathTo_isSome hd (fun j h0 hj => (hmem j).mpr ⟨h0, hj⟩) [] hi (.inr (Nat.le_of_eq hl))

/-! ## TreeBuild (44_huffman_tree R172) -/

/-- TreeBuild with `left` turns to go: the indices from `left` on are each in the queue or a child of a finished node, once,
and finished nodes are smaller than their children. -/
structure Merging (w left : Nat) (q : List QEntry) (acc : List Node) : Prop where
  queue    : q.length = left + 1
  indices  : (q.map QEntry.index ++ children acc).Perm (List.range' left (2 * internals w + 1 - left))
  descends : Descends left acc

theorem Merging.start (w : Nat) (counts : List Word) : Merging w (internals w) (firstQueue w counts) [] where
  queue := by
    have : 0 < 2 ^ w := Nat.two_pow_pos w
    rw [length_firstQueue, internals]
    omega
  indices := by
    have h2 : 0 < 2 ^ w := Nat.two_pow_pos w
    have hn : 2 * internals w + 1 - internals w = 2 ^ w := by rw [internals]; omega
    have hm := (firstQueue_perm w counts).map QEntry.index
    rw [List.map_map] at hm
    rw [children_nil, List.append_nil, hn, List.range'_eq_map_range]
    exact hm
  descends := fun k nd h => by simp at h

/-- One turn takes two entries and puts back their new parent, whose index is smaller than all before. -/
theorem Merging.turn {w left : Nat} {a b e : QEntry} {q : List QEntry} {acc : List Node} (he : e.index = left)
    (hle : left + 1 ≤ internals w) (h : Merging w (left + 1) (a :: b :: q) acc) :
    Merging w left (enqueue e q) (⟨a.index, b.index⟩ :: acc) where
  queue := by
    have := h.queue
    simp only [List.length_cons, length_enqueue] at this ⊢
    omega
  indices := by
    have hr : List.range' left (2 * internals w + 1 - left)
        = left :: List.range' (left + 1) (2 * internals w + 1 - (left + 1)) := by
      rw [show 2 * internals w + 1 - left = (2 * internals w + 1 - (left + 1)) + 1 by omega, List.range'_succ]
    rw [hr]
    have hq : ((enqueue e q).map QEntry.index ++ children (⟨a.index, b.index⟩ :: acc)).Perm
        ((left :: q.map QEntry.index) ++ a.index :: b.index :: children acc) := by
      refine List.Perm.append_right _ ?_
      simpa [he] using (enqueue_perm e q).map QEntry.index
    refine hq.trans (List.Perm.cons left (List.Perm.trans ?_ h.indices))
    exact List.perm_middle.trans (List.Perm.cons _ List.perm_middle)
  descends := by
    have hm : ∀ i, i ∈ a.index :: b.index :: q.map QEntry.index → left < i := by
      intro i hi
      have := h.indices.mem_iff.mp (List.mem_append_left _ hi)
      simp only [List.mem_range'_1] at this
      omega
    exact Descends.cons (hm _ (by simp)) (hm _ (by simp)) h.descends

/-- The end of the merges: a queue of one entry, node 0. -/
theorem Merging.done {w : Nat} {q : List QEntry} {acc : List Node} (h : Merging w 0 q acc)
    (hl : acc.length = internals w) : validTree w acc = true := by
  have hq := h.queue
  obtain ⟨e, rfl⟩ := List.length_eq_one_iff.mp hq
  have hi := h.indices
  have hr : List.range' 0 (2 * internals w + 1 - 0) = 0 :: List.range' 1 (2 * internals w) := by
    rw [Nat.sub_zero, List.range'_succ]
  rw [hr] at hi
  have h0 : 0 ∉ children acc := h.descends.zero_notMem
  have he : e.index = 0 := by
    have : 0 ∈ [e].map QEntry.index ++ children acc := hi.mem_iff.mpr (by simp)
    simpa [h0, eq_comm] using this
  refine validTree_of_perm hl ?_ h.descends
  simpa only [List.map_cons, List.map_nil, he, List.singleton_append, List.perm_cons] using hi

theorem mergeLoop_merging {w left : Nat} {q : List QEntry} {acc : List Node} (hle : left ≤ internals w)
    (h : Merging w left q acc) : ∃ q', Merging w 0 q' (mergeLoop w left q acc) := by
  induction left generalizing q acc with
  | zero => exact ⟨q, by simpa [mergeLoop] using h⟩
  | succ left ih =>
    obtain ⟨a, b, q, rfl⟩ : ∃ a b q', q = a :: b :: q' := by
      match q, h.queue with
      | a :: b :: q', _ => exact ⟨a, b, q', rfl⟩
    rw [mergeLoop_turn]
    exact ih (by omega) (h.turn rfl hle)

/-- TreeBuild makes a valid tree, whatever the counts. -/
theorem validTree_builtNodes (w : Nat) (counts : List Word) : validTree w (builtNodes w counts) = true := by
  obtain ⟨q, hq⟩ := mergeLoop_merging (Nat.le_refl _) (Merging.start w counts)
  exact hq.done (length_builtNodes w counts)

/-! ## TreeRead (44_huffman_tree R174) -/

/-- The children in a node of TreeRead so far. -/
def Slots.given (t : Slots) : List Nat := t.left.toList ++ t.right.toList

/-- `c` put into the first free slot of a node. -/
def Slots.fill (t : Slots) (c : Nat) : Slots :=
  match t.left with
  | none => ⟨some c, t.right⟩
  | some l => ⟨some l, some c⟩

/-- The stack after a slot of its top node `t` was filled: a full node leaves it. -/
def keptStack (sl : Slots) (t : Nat) (rest : List Nat) : List Nat := if sl.left = none then t :: rest else rest

theorem keptStack_sublist (sl : Slots) (t : Nat) (rest : List Nat) : (keptStack sl t rest).Sublist (t :: rest) := by
  simp only [keptStack]
  split
  · exact List.Sublist.refl _
  · exact List.sublist_cons_self t rest

/-- A node under the top of the stack stays on it. -/
theorem mem_keptStack {t k : Nat} {rest : List Nat} (sl : Slots) (h : k ∈ rest) : k ∈ keptStack sl t rest := by
  simp only [keptStack]
  split
  · exact List.mem_cons_of_mem _ h
  · exact h

theorem Rebuild.place_eq {r : Rebuild} {t : Nat} {l : Option Nat} (h : r.slots[t]? = some ⟨l, none⟩) (rest : List Nat)
    (c : Nat) (opened : List Nat) :
    r.place t rest c opened =
      { r with slots := r.slots.set t (Slots.fill ⟨l, none⟩ c), stack := opened ++ keptStack ⟨l, none⟩ t rest } := by
  cases l <;> simp [Rebuild.place, h, Slots.fill, keptStack]

/-- The nodes of TreeRead between two items: those on the stack have a free slot, those below `next` and not on the stack
are full, those from `next` on are empty, and children have larger indices than their nodes. -/
structure SlotsOk (w : Nat) (slots : List Slots) (next : Nat) (stack : List Nat) : Prop where
  length   : slots.length = internals w
  nodup    : stack.Nodup
  below    : ∀ t ∈ stack, t < next
  opened   : ∀ t ∈ stack, ∃ l, slots[t]? = some ⟨l, none⟩
  full     : ∀ t, t < next → t ∉ stack → ∃ l c, slots[t]? = some ⟨some l, some c⟩
  empty    : ∀ t, next ≤ t → t < internals w → slots[t]? = some ⟨none, none⟩
  descends : ∀ (t : Nat) (sl : Slots), slots[t]? = some sl → ∀ c ∈ sl.given, t < c

theorem SlotsOk.start {w : Nat} (hw : 1 ≤ internals w) :
    SlotsOk w (List.replicate (internals w) ⟨none, none⟩) 1 [0] where
  length := by simp
  nodup := by simp
  below := by simp
  opened := by simp [List.getElem?_replicate]; omega
  full := by intro t ht hn; simp at hn; omega
  empty := by intro t _ ht; simp [ht]
  descends := by
    intro t sl h c hc
    rw [List.getElem?_replicate] at h
    split at h <;> cases h
    cases hc

/-- A new node goes on the stack. -/
theorem SlotsOk.push {w : Nat} {slots : List Slots} {next : Nat} {stack : List Nat} (h : SlotsOk w slots next stack)
    (hn : next < internals w) : SlotsOk w slots (next + 1) (next :: stack) where
  length := h.length
  nodup := List.nodup_cons.mpr ⟨fun hm => Nat.lt_irrefl _ (h.below _ hm), h.nodup⟩
  below := by
    intro t ht
    rcases List.mem_cons.mp ht with rfl | ht
    · omega
    · have := h.below t ht; omega
  opened := by
    intro t ht
    rcases List.mem_cons.mp ht with rfl | ht
    · exact ⟨none, h.empty _ (Nat.le_refl _) hn⟩
    · exact h.opened t ht
  full := by
    intro t ht hs
    obtain ⟨hne, hs⟩ := not_or.mp (mt List.mem_cons.mpr hs)
    exact h.full t (by omega) hs
  empty := fun t h1 h2 => h.empty t (by omega) h2
  descends := h.descends

/-- A slot of the node on top of the stack is filled. -/
theorem SlotsOk.fill {w : Nat} {slots : List Slots} {next t c : Nat} {rest : List Nat} {l : Option Nat}
    (h : SlotsOk w slots next (t :: rest)) (hl : slots[t]? = some ⟨l, none⟩) (hc : t < c) :
    SlotsOk w (slots.set t (Slots.fill ⟨l, none⟩ c)) next (keptStack ⟨l, none⟩ t rest) := by
  obtain ⟨htr, hrest⟩ := List.nodup_cons.mp h.nodup
  have hlt : t < slots.length := (List.getElem?_eq_some_iff.mp hl).1
  have hself : (slots.set t (Slots.fill ⟨l, none⟩ c))[t]? = some (Slots.fill ⟨l, none⟩ c) := List.getElem?_set_self hlt
  have hother : ∀ k, k ≠ t → (slots.set t (Slots.fill ⟨l, none⟩ c))[k]? = slots[k]? :=
    fun k hk => List.getElem?_set_ne (Ne.symm hk)
  have hsub := keptStack_sublist ⟨l, none⟩ t rest
  refine ⟨by simp [h.length], hsub.nodup h.nodup, fun k hk => h.below k (hsub.subset hk), ?_, ?_, ?_, ?_⟩
  · intro k hk
    by_cases hkt : k = t
    · subst hkt
      cases l with
      | none => exact ⟨some c, hself⟩
      | some l => exact absurd hk htr
    · rw [hother k hkt]; exact h.opened k (hsub.subset hk)
  · intro k hk hns
    by_cases hkt : k = t
    · subst hkt
      cases l with
      | none => simp [keptStack] at hns
      | some l => exact ⟨l, c, hself⟩
    · rw [hother k hkt]
      refine h.full k hk fun hm => hns ?_
      exact mem_keptStack _ (by simpa [hkt] using hm)
  · intro k h1 h2
    have := h.below t (by simp)
    rw [hother k (by omega)]
    exact h.empty k h1 h2
  · intro k sl hk d hd
    by_cases hkt : k = t
    · subst hkt
      rw [hself] at hk
      cases hk
      have hold := h.descends k _ hl d
      cases l <;> simp [Slots.fill, Slots.given] at hd hold <;> omega
    · rw [hother k hkt] at hk
      exact h.descends k sl hk d hd

/-- Filling a slot gives one child more. -/
theorem given_fill {slots : List Slots} {t : Nat} {l : Option Nat} (hl : slots[t]? = some ⟨l, none⟩) (c : Nat) :
    ((slots.set t (Slots.fill ⟨l, none⟩ c)).flatMap Slots.given).Perm (c :: slots.flatMap Slots.given) := by
  induction slots generalizing t with
  | nil => cases hl
  | cons sl slots ih =>
    cases t with
    | zero =>
      cases hl
      cases l with
      | none => exact List.Perm.refl _
      | some l => exact List.Perm.swap c l _
    | succ t =>
      simp only [List.set_cons_succ, List.flatMap_cons]
      exact (List.Perm.append_left _ (ih hl)).trans List.perm_middle

/-- TreeRead between two items: besides `SlotsOk`, the children given so far are the nodes 1 to next - 1 and the leaves of
the symbols seen, each once. -/
structure Rebuilding (w : Nat) (r : Rebuild) : Prop where
  slots : SlotsOk w r.slots r.next r.stack
  next  : 1 ≤ r.next ∧ r.next ≤ internals w
  seen  : r.seen.Nodup ∧ ∀ x ∈ r.seen, x < 2 ^ w
  given : (r.slots.flatMap Slots.given).Perm (List.range' 1 (r.next - 1) ++ r.seen.map (internals w + ·))

theorem Rebuilding.start {w : Nat} (hw : 1 ≤ w) : Rebuilding w (Rebuild.start w) := by
  have h2 : 2 ^ 1 ≤ 2 ^ w := Nat.pow_le_pow_right (by omega) hw
  have hn : 1 ≤ internals w := by rw [internals]; omega
  refine ⟨SlotsOk.start hn, ⟨Nat.le_refl _, hn⟩, by simp [Rebuild.start], ?_⟩
  have : (List.replicate (internals w) (⟨none, none⟩ : Slots)).flatMap Slots.given = [] := by
    rw [List.flatMap_eq_nil_iff]
    intro sl hs
    rw [List.eq_of_mem_replicate hs]
    rfl
  simp [Rebuild.start, this]

/-- The item of a leaf. -/
theorem Rebuilding.leaf {w t x : Nat} {rest : List Nat} {slots : List Slots} {next : Nat} {seen : List Nat}
    (h : Rebuilding w ⟨slots, next, seen, t :: rest⟩) (hx : x < 2 ^ w) (hs : x ∉ seen) :
    Rebuilding w (Rebuild.place ⟨slots, next, x :: seen, t :: rest⟩ t rest (internals w + x) []) := by
  obtain ⟨l, hl⟩ := h.slots.opened t (by simp)
  have htn : t < next := h.slots.below t (by simp)
  have hnext : next ≤ internals w := h.next.2
  rw [Rebuild.place_eq (by exact hl)]
  refine ⟨h.slots.fill hl (by omega), h.next, ?_, ?_⟩
  · refine ⟨List.nodup_cons.mpr ⟨hs, h.seen.1⟩, ?_⟩
    intro y hy
    rcases List.mem_cons.mp hy with rfl | hy
    · exact hx
    · exact h.seen.2 y hy
  · exact (given_fill hl _).trans ((h.given.cons _).trans List.perm_middle.symm)

/-- The item of an internal node. -/
theorem Rebuilding.node {w t : Nat} {rest : List Nat} {slots : List Slots} {next : Nat} {seen : List Nat}
    (h : Rebuilding w ⟨slots, next, seen, t :: rest⟩) (hn : next ≠ internals w) :
    Rebuilding w (Rebuild.place ⟨slots, next + 1, seen, t :: rest⟩ t rest next [next]) := by
  obtain ⟨l, hl⟩ := h.slots.opened t (by simp)
  have htn : t < next := h.slots.below t (by simp)
  obtain ⟨h1, h2⟩ : 1 ≤ next ∧ next ≤ internals w := h.next
  rw [Rebuild.place_eq (by exact hl)]
  have hlt : next < internals w := Nat.lt_of_le_of_ne h2 hn
  refine ⟨(h.slots.fill hl htn).push hlt, ⟨Nat.le_add_left 1 next, hlt⟩, h.seen, ?_⟩
  refine (given_fill hl next).trans ((h.given.cons _).trans ?_)
  have hr : List.range' 1 (next + 1 - 1) = List.range' 1 (next - 1) ++ [next] := by
    rw [show next + 1 - 1 = next - 1 + 1 by omega, List.range'_concat, Nat.one_mul, show 1 + (next - 1) = next by omega]
  simp only [hr, List.append_assoc, List.singleton_append]
  exact List.perm_middle.symm

/-- Where every node is full, the children of the tree are the children given. -/
theorem children_nodes {slots : List Slots} (h : ∀ sl ∈ slots, ∃ l c, sl = ⟨some l, some c⟩) :
    children (slots.map fun t => ⟨t.left.getD 0, t.right.getD 0⟩) = slots.flatMap Slots.given := by
  induction slots with
  | nil => rfl
  | cons sl slots ih =>
    obtain ⟨l, c, rfl⟩ := h sl (by simp)
    rw [List.map_cons, children_cons, ih fun s hs => h s (List.mem_cons_of_mem _ hs)]
    rfl

/-- All the symbols seen are all symbols. -/
theorem perm_range_of_nodup {l : List Nat} {n : Nat} (hnd : l.Nodup) (hlt : ∀ x ∈ l, x < n) (hlen : l.length = n) :
    l.Perm (List.range n) := by
  refine (List.perm_ext_iff_of_nodup hnd List.nodup_range).mpr fun a => ?_
  rw [List.mem_range]
  refine ⟨hlt a, fun ha => Decidable.byContradiction fun hno => ?_⟩
  have hsub : a :: l ⊆ List.range n := fun x hx => by
    rcases List.mem_cons.mp hx with rfl | hx
    · exact List.mem_range.mpr ha
    · exact List.mem_range.mpr (hlt x hx)
  have hle := (List.nodup_cons.mpr ⟨hno, hnd⟩).length_le_of_subset hsub
  simp only [List.length_cons, List.length_range] at hle
  omega

/-- With an empty stack and all nodes opened every node is full. -/
theorem Rebuilding.full {w : Nat} {r : Rebuild} (h : Rebuilding w r) (hs : r.stack = []) (hn : r.next = internals w) :
    ∀ sl ∈ r.slots, ∃ l c, sl = ⟨some l, some c⟩ := by
  intro sl hsl
  obtain ⟨t, ht⟩ := List.getElem?_of_mem hsl
  have hlt : t < r.next := by
    rw [hn, ← h.slots.length]
    exact (List.getElem?_eq_some_iff.mp ht).1
  obtain ⟨l, c, he⟩ := h.slots.full t hlt (by simp [hs])
  exact ⟨l, c, Option.some.inj (ht.symm.trans he)⟩

/-- Full nodes hold 2N children, so all symbols were seen: their leaves are the indices N to 2N. -/
theorem Rebuilding.leaves {w : Nat} {r : Rebuild} (h : Rebuilding w r) (hn : r.next = internals w)
    (hcount : (r.slots.flatMap Slots.given).length = 2 * internals w) :
    (r.seen.map (internals w + ·)).Perm (List.range' (internals w) (2 ^ w)) := by
  obtain ⟨hnodup, hlt⟩ := h.seen
  have h1 := h.next.1
  have hpos : 0 < 2 ^ w := Nat.two_pow_pos w
  have hN : internals w + 1 = 2 ^ w := by rw [internals]; omega
  have hlen := h.given.length_eq
  simp only [hcount, List.length_append, List.length_range', List.length_map] at hlen
  rw [List.range'_eq_map_range]
  exact (perm_range_of_nodup hnodup hlt (by omega)).map _

/-- The end of TreeRead with all nodes opened: the tree is valid. -/
theorem Rebuilding.done {w : Nat} {r : Rebuild} (h : Rebuilding w r) (hs : r.stack = []) (hn : r.next = internals w) :
    r.nodes.length = internals w ∧ validTree w r.nodes = true := by
  have hfull := h.full hs hn
  have hlen : r.nodes.length = internals w := by simp [Rebuild.nodes, h.slots.length]
  have hch : children r.nodes = r.slots.flatMap Slots.given := children_nodes hfull
  have hleaves := h.leaves hn (by rw [← hch, length_children, hlen])
  have h1 := h.next.1
  have hpos : 0 < 2 ^ w := Nat.two_pow_pos w
  have hN : internals w + 1 = 2 ^ w := by rw [internals]; omega
  refine ⟨hlen, validTree_of_perm hlen ?_ ?_⟩
  · rw [hch]
    refine h.given.trans ((List.Perm.append_left _ hleaves).trans ?_)
    rw [show internals w = 1 + 1 * (r.next - 1) by omega, List.range'_append,
      show r.next - 1 + 2 ^ w = 2 * (1 + 1 * (r.next - 1)) by omega]
  · intro k nd hk
    simp only [Rebuild.nodes, List.getElem?_map, Option.map_eq_some_iff] at hk
    obtain ⟨sl, hsl, rfl⟩ := hk
    have hd := h.slots.descends k sl hsl
    obtain ⟨l, c, rfl⟩ := hfull sl (List.mem_of_getElem? hsl)
    simp only [Slots.given, Option.toList_some, List.mem_append, List.mem_singleton, Option.getD_some] at hd ⊢
    exact ⟨by simpa using hd l (.inl rfl), by simpa using hd c (.inr rfl)⟩

end Sys2Proof.Machine
end

section
/-! SUPPORT. How a property of states goes through the rule of every command, for any ports and any host. -/

namespace Sys2Proof.Machine

/-- The pseudocode of a command, between its acceptance and its end. -/
def ruleOf : Instr → State → Ran State
  | .nop => nopRule
  | .bwWrite n => bwWriteRule n
  | .bwFlush => flush
  | .brRead n => brReadRule n
  | .brWord w => brWordRule w
  | .inRewind => inRewindRule
  | .inLength => inLengthRule
  | .gammaEnc => gammaEncRule
  | .gammaDec => gammaDecRule
  | .zzEnc => zzEncRule
  | .zzDec => zzDecRule
  | .histBuild w => histBuildRule w
  | .histClear w => histClearRule w
  | .histSet => histSetRule
  | .histGet => histGetRule
  | .htBuild => htBuildRule
  | .htWrite => htWriteRule
  | .htRead => htReadRule
  | .htEnc => htEncRule
  | .htDec => htDecRule
  | .htCode => htCodeRule
  | .htNode => htNodeRule
  | .hufComp w => hufCompRule w
  | .hufDecomp => hufDecompRule
  | .lzInit => lzInitRule
  | .lzAdd => lzAddRule
  | .lzGet => lzGetRule
  | .lzFind => lzFindRule
  | .lzSize => lzSizeRule
  | .lzNode => lzNodeRule
  | .pbClear => pbClearRule
  | .pbPush => pbPushRule
  | .pbGet => pbGetRule
  | .lzEnc => lzEncRule
  | .lzDec => lzDecRule

/-- Every command runs its rule from acceptance to its end. -/
theorem exec_eq_runCommand (i : Instr) (s : State) : exec i s = runCommand i.op (ruleOf i) s := by
  cases i <;> rfl

/-- The ranges of the parameters that bound phrases, widths and the fields of CAPS (00_scope R6). -/
theorem Params.wf_ranges {p : Params} (h : p.wf = true) :
    (17 ≤ p.maxHistW ∧ p.maxHistW ≤ 31) ∧ p.maxCodeLen ≤ 64 ∧ (p.dictCap ≤ 2 ^ 24 - 2 ∧ p.dictCap + 1 ≤ p.pbCap)
      ∧ p.pbCap ≤ 2 ^ 24 - 1 := by
  simp only [Params.wf, Bool.and_eq_true, decide_eq_true_eq] at h
  obtain ⟨⟨⟨⟨⟨⟨⟨⟨-, hist17⟩, hist31⟩, -⟩, hcode⟩, -⟩, hdict⟩, hpb⟩, hpb24⟩ := h
  exact ⟨⟨hist17, hist31⟩, hcode, ⟨hdict, hpb⟩, hpb24⟩

theorem Params.dictCap_lt_pbCap {p : Params} (h : p.wf = true) : p.dictCap + 1 ≤ p.pbCap := by
  obtain ⟨-, -, ⟨-, hpb⟩, -⟩ := Params.wf_ranges h
  exact hpb

/-- 17 is a legal width in every implementation. -/
theorem Params.maxHistW_ge {p : Params} (h : p.wf = true) : 17 ≤ p.maxHistW := by
  obtain ⟨⟨h17, -⟩, -⟩ := Params.wf_ranges h
  exact h17

/-- `P` goes through the streams, through each way a rule changes the block's results and memories, and through the checks.
Each change comes with what the rules know about it. -/
structure Rules (P : State → Prop) (H : Halt → Prop) : Prop extends Streams P H where
  results : ∀ res0 res1 e x n s, P s →
    P { s with res0 := res0, res1 := res1, endFlag := e, existsFlag := x, nfFlag := n }
  emptied : ∀ s, P s → P { s with rpend := [] }
  check   : ∀ c s, P s → H ⟨.fault c true, s⟩
  broken  : ∀ f s, P s → H ⟨.broken f, s⟩
  cleared : ∀ w s, P s → 1 ≤ w → (s.params.wf = true → w ≤ s.params.maxHistW) → P (clearHistogram w s)
  counts  : ∀ l s, P s → l.length = s.counts.length → P { s with counts := l }
  built   : ∀ s, P s → P (treeBuild s)
  tree    : ∀ w nodes s, P s → w ≤ 17 → nodes.length = internals w → validTree w nodes = true →
    P { s with tw := w, nodes := nodes }
  init    : ∀ v s, P s → P (dictInit v s)
  add     : ∀ ph s t, P s → ph ≠ [] → (dictAdd ph s).state? = some t → P t
  phrase  : ∀ l s, P s → (s.params.wf = true → s.lznodes.length ≤ s.params.dictCap → l.length ≤ s.params.pbCap) →
    P { s with pb := l }

variable {P : State → Prop} {H : Halt → Prop}

theorem Rules.setRes0 (hp : Rules P H) (v : Word) {s : State} (h : P s) : P (setRes0 v s) :=
  hp.results v s.res1 s.endFlag s.existsFlag s.nfFlag s h
theorem Rules.setRes1 (hp : Rules P H) (v : Word) {s : State} (h : P s) : P (setRes1 v s) :=
  hp.results s.res0 v s.endFlag s.existsFlag s.nfFlag s h
theorem Rules.setEnd (hp : Rules P H) (b : Bool) {s : State} (h : P s) : P (setEnd b s) :=
  hp.results s.res0 s.res1 b s.existsFlag s.nfFlag s h
theorem Rules.setExists (hp : Rules P H) {s : State} (h : P s) : P (setExists s) :=
  hp.results s.res0 s.res1 s.endFlag true s.nfFlag s h
theorem Rules.setNotFound (hp : Rules P H) {s : State} (h : P s) : P (setNotFound s) :=
  hp.results s.res0 s.res1 s.endFlag s.existsFlag true s h

/-- A phrase of the dictionary, with a byte after it or without, fits the phrase buffer. -/
theorem Rules.shortPhrase (hp : Rules P H) {l : List Byte} {s : State} (h : P s) (hl : l.length ≤ s.lznodes.length + 1) :
    P { s with pb := l } :=
  hp.phrase l s h fun hwf hcap => by
    have := Params.dictCap_lt_pbCap hwf
    omega

/-! ## Histogram -/

theorem Rules.countWord (hp : Rules P H) (v : Nat) {s : State} (h : P s) : Sat P H (countWord v s) := by
  rcases countWord_cases v s with ⟨-, e⟩ | ⟨c, -, ⟨-, e⟩ | ⟨-, e⟩⟩ <;> rw [e]
  · exact hp.broken _ s h
  · exact hp.fault _ s h
  · exact hp.counts _ s h (by simp)

theorem Rules.histLoop (hp : Rules P H) (w fuel total : Nat) {s : State} (h : P s) :
    Sat (fun r => P r.2) H (histLoop w fuel total s) := by
  induction fuel generalizing total s with
  | zero => exact h
  | succ fuel ih =>
    refine (hp.nextWord w s h).bind fun r hr => ?_
    simp only
    split
    · exact hr
    · exact (hp.countWord _ hr).bind fun u hu => ih (total + 1) hu

theorem Rules.histBuild (hp : Rules P H) {w : Nat} {s : State} (h : P s) (hw : 1 ≤ w)
    (hmax : s.params.wf = true → w ≤ s.params.maxHistW) : Sat (fun r => P r.2) H (histBuild w s) :=
  hp.histLoop w _ 0 (hp.cleared w s h hw hmax)

/-! ## Tree -/

/-- The loop of TreeRead ends with all nodes opened so far full. -/
theorem Streams.rebuildLoop (hp : Streams P H) {w fuel : Nat} {r : Rebuild} {s : State} (h : P s) (hr : Rebuilding w r) :
    Sat (fun q => P q.2 ∧ Rebuilding w q.1 ∧ q.1.stack = []) H (rebuildLoop w fuel r s) := by
  induction fuel generalizing r s with
  | zero =>
    obtain ⟨slots, next, seen, _ | ⟨t, rest⟩⟩ := r
    · exact ⟨h, hr, rfl⟩
    · exact hp.fault _ s h
  | succ fuel ih =>
    obtain ⟨slots, next, seen, _ | ⟨t, rest⟩⟩ := r
    · exact ⟨h, hr, rfl⟩
    · refine (hp.getBits 1 s h).bind fun b hb => ?_
      simp only
      split
      · refine ((hp.getBits w b.2 hb).and_ok fun _ => getBits_lt).bind fun x hx => ?_
        split
        · exact hp.fault _ x.2 hx.1
        · exact ih hx.1 (hr.leaf hx.2 ‹_›)
      · split
        · exact hp.fault _ b.2 hb
        · exact ih hb (hr.node ‹_›)

theorem Rules.treeRead (hp : Rules P H) {s : State} (h : P s) : Sat (fun r => P r.2) H (treeRead s) := by
  refine ((hp.getBits 4 s h).and_ok fun _ => getBits_lt).bind fun f ⟨hf, hlt⟩ => ?_
  refine (hp.rebuildLoop hf (Rebuilding.start (by omega))).bind fun r ⟨hr, hb, hs⟩ => ?_
  simp only
  split
  · exact hp.fault _ r.2 hr
  · have hn := hb.next.2
    obtain ⟨hl, hv⟩ := hb.done hs (by omega)
    exact hp.tree _ _ r.2 hr (by omega) hl hv

theorem Rules.treeWrite (hp : Rules P H) {s : State} (h : P s) : Sat P H (treeWrite s) := by
  simp only [Machine.treeWrite]
  split
  · exact hp.broken _ s h
  · exact hp.putString _ h

theorem Rules.walk (hp : Rules P H) (w : Nat) (nodes : List Node) (fuel i : Nat) {s : State} (h : P s) :
    Sat (fun r => P r.2) H (walk w nodes fuel i s) := by
  induction fuel generalizing i s with
  | zero =>
    simp only [Machine.walk]
    split
    · exact h
    · exact hp.broken _ s h
  | succ fuel ih =>
    simp only [Machine.walk]
    split
    · exact h
    · refine (hp.getBits 1 s h).bind fun b hb => ?_
      split
      · exact hp.broken _ b.2 hb
      · exact ih _ hb

theorem Rules.treeDecode (hp : Rules P H) {s : State} (h : P s) : Sat (fun r => P r.2) H (treeDecode s) :=
  hp.walk _ _ _ _ h

theorem Rules.codeOperand (hp : Rules P H) {s : State} (h : P s) : Sat (fun _ => True) H (codeOperand s) := by
  refine require_bind (hp.check _ s h) fun _ => require_bind (hp.check _ s h) fun _ => ?_
  split
  · exact hp.broken _ s h
  · exact require_bind (hp.check _ s h) fun _ => trivial

/-! ## Huffman containers -/

theorem Rules.putCode (hp : Rules P H) (x : Nat) {s : State} (h : P s) : Sat P H (putCode x s) := by
  simp only [Machine.putCode]
  split
  · exact hp.broken _ s h
  · exact hp.putString _ h

theorem Rules.codeLoop (hp : Rules P H) (w fuel : Nat) {s : State} (h : P s) : Sat P H (codeLoop w fuel s) := by
  induction fuel generalizing s with
  | zero => exact h
  | succ fuel ih =>
    refine (hp.nextWord w s h).bind fun r hr => ?_
    simp only
    split
    · exact hr
    · exact (hp.putCode _ hr).bind fun u hu => ih hu

theorem Rules.decodeLoop (hp : Rules P H) (w fuel rem : Nat) {s : State} (h : P s) :
    Sat P H (decodeLoop w fuel rem s) := by
  induction fuel generalizing rem s with
  | zero => exact h
  | succ fuel ih =>
    simp only [Machine.decodeLoop]
    split
    · exact h
    · refine (hp.treeDecode h).bind fun r hr => ?_
      exact (hp.putBits _ _ hr).bind fun u hu => ih _ hu

theorem Rules.hufComp (hp : Rules P H) (w : Nat) {s : State} (h : P s) : Sat P H (hufCompRule w s) := by
  refine require_bind (hp.check _ s h) fun ⟨h2, h17⟩ => require_bind (hp.check _ s h) fun _ => ?_
  refine (hp.srcLen h).bind fun l hl => (hp.srcRewind hl).bind fun a ha => ?_
  have hmax : a.params.wf = true → w ≤ a.params.maxHistW := fun hwf => Nat.le_trans h17 (Params.maxHistW_ge hwf)
  refine (hp.histBuild ha (by omega) hmax).bind fun b hb => ?_
  refine (hp.srcRewind (hp.built _ hb)).bind fun c hc => ?_
  refine (hp.putBits _ _ (hp.emptied _ hc)).bind fun d hd => (hp.treeWrite hd).bind fun e he => ?_
  exact (hp.codeLoop w _ he).bind fun f hf => (hp.flush hf).bind fun g hg => hp.setRes0 _ hg

theorem Rules.hufDecomp (hp : Rules P H) {s : State} (h : P s) : Sat P H (hufDecompRule s) := by
  refine require_bind (hp.check _ s h) fun _ => ?_
  refine (hp.getBits 64 s h).bind fun l hl => (hp.treeRead hl).bind fun w hw => ?_
  exact (hp.decodeLoop _ _ _ hw).bind fun u hu => hp.setRes1 _ (hp.setRes0 _ (hp.emptied _ hu))

/-! ## LZ78 containers -/

/-- A known phrase: LzAdd did not find the dictionary at its limit. -/
theorem dictAdd_known_below {ph : List Byte} {s t : State} (h : dictAdd ph s = .known t) {n : Nat}
    (hn : strategyKind s.strat = .dropAt n) : s.lznodes.length < n := by
  refine Nat.lt_of_not_le fun hle => ?_
  have hd : dropIfFull s = clearDictionary s := by
    simp only [dropIfFull, hn, dictSize]
    exact if_pos hle
  have hf : frozen (clearDictionary s) = false := by simp [frozen, hn]
  by_cases hc : s.params.dictCap = 0 <;> simp [dictAdd, hd, hf, indexLookup, dictSize, hc] at h

/-- Below the limit of its strategy LzAdd does not clear the dictionary. -/
theorem dropIfFull_below {s : State} (h : ∀ n, strategyKind s.strat = .dropAt n → s.lznodes.length < n) :
    dropIfFull s = s := by
  simp only [dropIfFull, dictSize]
  split
  · rename_i n hn
    exact if_neg (by have := h n hn; omega)
  · rfl
  · rfl

/-- Every key is at most as long as the number of its node. -/
def KeysShort (index : List (List Byte × Nat)) : Prop := ∀ kv ∈ index, kv.1.length ≤ kv.2

/-- LzAdd keeps the keys short when the phrase has at most one byte more than there are nodes. -/
theorem dictAdd_keysShort {ph : List Byte} {s t : State} (hk : KeysShort s.lzindex)
    (hph : ph.length ≤ (dropIfFull s).lznodes.length + 1) (ht : (dictAdd ph s).state? = some t) :
    KeysShort t.lzindex := by
  have hd : KeysShort (dropIfFull s).lzindex := by
    rcases dropIfFull_cases s with e | e <;> rw [e]
    · exact hk
    · exact fun kv h => by cases h
  simp only [dictAdd, dictSize] at ht
  split at ht
  · cases ht; exact hd
  · split at ht
    · cases ht; exact hd
    · by_cases hc : (dropIfFull s).params.dictCap ≤ (dropIfFull s).lznodes.length
      · simp [hc, AddResult.state?] at ht
      simp only [hc, if_false, AddResult.state?, Option.some.injEq] at ht
      subst ht
      intro kv hkv
      rcases List.mem_append.mp hkv with hkv | hkv
      · exact hd kv hkv
      · rw [List.mem_singleton.mp hkv]; exact hph

/-- What holds of the dictionary all through LZ.ENC (47_lz78_codec R221). -/
def EncDict (s : State) : Prop :=
  DictForm s.lznodes s.lzindex ∧ s.lznodes.length ≤ s.params.dictCap ∧ KeysShort s.lzindex

/-- What holds of PB between two bytes of LZ.ENC: a phrase begun is one of the dictionary, so it is no longer than there are
nodes, and the dictionary is below the limit at which LzAdd clears it. -/
def EncPhrase (s : State) : Prop :=
  s.pb.length ≤ s.lznodes.length ∧ (s.pb ≠ [] → ∀ n, strategyKind s.strat = .dropAt n → s.lznodes.length < n)

theorem encDict_memory : Memory EncDict := fun _ _ _ _ _ _ _ _ _ _ _ _ _ _ h => h
theorem encPhrase_memory : Memory fun s => EncDict s ∧ EncPhrase s := fun _ _ _ _ _ _ _ _ _ _ _ _ _ _ h => h

/-- One byte more in PB is at most one byte more than there are nodes after LzAdd cleared the dictionary or not. -/
theorem EncPhrase.snoc {s : State} (h : EncPhrase s) (b : Byte) :
    (s.pb ++ [b]).length ≤ (dropIfFull { s with pb := s.pb ++ [b] }).lznodes.length + 1 := by
  obtain ⟨hlen, hlim⟩ := h
  by_cases h0 : s.pb = []
  · simp [h0]
  · rw [dropIfFull_below (s := { s with pb := s.pb ++ [b] }) (hlim h0)]
    simpa using hlen

theorem EncDict.add {ph : List Byte} {s t : State} (h : EncDict s) (hne : ph ≠ [])
    (hph : ph.length ≤ (dropIfFull s).lznodes.length + 1) (ht : (dictAdd ph s).state? = some t) : EncDict t := by
  obtain ⟨hform, hcap, hkeys⟩ := h
  obtain ⟨hf, hc, -⟩ := dictAdd_keeps hform hcap hne ht
  exact ⟨hf, hc, dictAdd_keysShort hkeys hph ht⟩

/-- A known phrase can be extended. -/
theorem EncDict.known {s t : State} (h : EncDict s) (hk : dictAdd s.pb s = .known t) : EncPhrase t := by
  obtain ⟨rfl, k, hl⟩ := dictAdd_known hk
  have hm := indexLookup_mem hl
  exact ⟨Nat.le_trans (h.2.2 _ hm) (h.1.range hm).2, fun _ n hn => dictAdd_known_below hk hn⟩

theorem Rules.lzEncLoop (hp : Rules P H) (fuel : Nat) {s : State} (h : P s ∧ EncDict s ∧ EncPhrase s) :
    Sat P H (lzEncLoop fuel s) := by
  induction fuel generalizing s with
  | zero => exact h.1
  | succ fuel ih =>
    refine ((hp.toPort.and encPhrase_memory).pullByte h).bind fun r hr => ?_
    obtain ⟨_ | b, u⟩ := r
    · exact hr.1
    obtain ⟨hu, hd, hph⟩ : P u ∧ EncDict u ∧ EncPhrase u := hr
    have hsnoc := hph.snoc b
    have hv : P { u with pb := u.pb ++ [b] } :=
      hp.shortPhrase hu (by have := hph.1; simp only [List.length_append, List.length_singleton]; omega)
    have hadd : ∀ t, (dictAdd (u.pb ++ [b]) { u with pb := u.pb ++ [b] }).state? = some t → P t ∧ EncDict t := fun t ht =>
      ⟨hp.add _ _ t hv (by simp) ht, EncDict.add (s := { u with pb := u.pb ++ [b] }) hd (by simp) hsnoc ht⟩
    simp only
    split
    · rename_i t e
      obtain ⟨ht, hdt⟩ := hadd t (by rw [e]; rfl)
      exact ih ⟨ht, hdt, EncDict.known (s := { u with pb := u.pb ++ [b] }) hd e⟩
    · exact hp.fault _ _ hv
    · rename_i p lit t e
      have hport := hp.toPort.and encDict_memory
      refine (hport.gammaPut p (hadd t (by rw [e]; rfl))).bind fun x hx => ?_
      refine (hport.putBits _ _ hx).bind fun y hy => ?_
      refine ih ⟨hp.shortPhrase hy.1 (by simp), hy.2, ?_⟩
      exact ⟨Nat.zero_le _, fun hne => absurd rfl hne⟩

theorem Rules.lzEncEnd (hp : Rules P H) {s : State} (h : P s) : Sat P H (lzEncEnd s) := by
  simp only [Machine.lzEncEnd]
  split
  · exact hp.gammaPut _ h
  · split
    · exact hp.fault _ s h
    · exact (hp.gammaPut _ h).bind fun u hu => hp.gammaPut _ hu

theorem Rules.lzEnc (hp : Rules P H) {s : State} (h : P s) : Sat P H (lzEncRule s) := by
  refine require_bind (hp.check _ s h) fun _ => require_bind (hp.check _ s h) fun _ => ?_
  refine (hp.gammaPut _ h).bind fun u hu => ?_
  have hstart : P { dictInit s.arg0 u with pb := [] } := hp.shortPhrase (hp.init _ u hu) (by simp)
  have henc : EncDict { dictInit s.arg0 u with pb := [] } := ⟨dictForm_nil, Nat.zero_le _, fun kv hkv => by cases hkv⟩
  refine (hp.lzEncLoop _ ⟨hstart, henc, Nat.zero_le _, fun hne => absurd rfl hne⟩).bind fun a ha => ?_
  exact (hp.lzEncEnd ha).bind fun b hb => (hp.flush hb).bind fun c hc => hp.setRes0 _ hc

/-- The phrase of a pair is not empty and has at most one byte more than there are nodes. -/
theorem pairPhrase_some {i : Nat} {lit : Byte} {s : State} {ph : List Byte} (h : pairPhrase i lit s = some ph) :
    ph ≠ [] ∧ ph.length ≤ s.lznodes.length + 1 := by
  simp only [pairPhrase] at h
  split at h
  · cases h; simp
  · obtain ⟨q, hq, rfl⟩ := Option.map_eq_some_iff.mp h
    have := dictGet_length hq
    simp only [ne_eq, List.append_eq_nil_iff, List.length_append, List.length_singleton]
    exact ⟨by simp, by omega⟩

theorem Rules.lzDecAdd (hp : Rules P H) {s : State} (h : P s) (hne : s.pb ≠ []) : Sat P H (lzDecAdd s) := by
  have hadd := hp.add s.pb s
  simp only [Machine.lzDecAdd]
  split <;> rename_i e <;> rw [e] at hadd
  · exact hadd _ h hne rfl
  · exact hadd _ h hne rfl
  · exact hp.fault _ s h

theorem Rules.lzDecLoop (hp : Rules P H) (fuel : Nat) {s : State} (h : P s) : Sat P H (lzDecLoop fuel s) := by
  induction fuel generalizing s with
  | zero => exact h
  | succ fuel ih =>
    refine (hp.gammaGet h).bind fun i hi => ?_
    simp only
    split
    · exact hi
    split
    · refine (hp.gammaGet hi).bind fun j hj => ?_
      split
      · exact hp.fault _ j.2 hj
      · rename_i ph hph
        have := dictGet_length hph
        exact hp.putBytes ph (hp.shortPhrase hj (by omega))
    · refine (hp.getBits 8 i.2 hi).bind fun lit hlit => ?_
      split
      · exact hp.fault _ lit.2 hlit
      · rename_i ph hph
        obtain ⟨hne, hlen⟩ := pairPhrase_some hph
        have hmem : Memory fun u => u.pb = ph := fun _ _ _ _ _ _ _ _ _ _ _ _ _ _ h => h
        refine ((hp.toPort.and hmem).putBytes ph ⟨hp.shortPhrase hlit hlen, rfl⟩).bind fun u ⟨hu, hpb⟩ => ?_
        exact (hp.lzDecAdd hu (by rw [hpb]; exact hne)).bind fun v hv => ih hv

theorem Rules.lzDec (hp : Rules P H) {s : State} (h : P s) : Sat P H (lzDecRule s) := by
  refine require_bind (hp.check _ s h) fun _ => (hp.gammaGet h).bind fun u hu => ?_
  refine (hp.lzDecLoop _ (hp.shortPhrase (hp.init _ u.2 hu) (by simp))).bind fun a ha => ?_
  exact hp.setRes1 _ (hp.setRes0 _ (hp.emptied a ha))

/-! ## The dictionary's own commands -/

theorem Rules.lzAdd (hp : Rules P H) {s : State} (h : P s) : Sat P H (lzAddRule s) := by
  refine require_bind (hp.check _ s h) fun hlen => ?_
  have hadd := fun t => hp.add s.pb s t h (List.length_pos_iff.mp hlen)
  split <;> rename_i e <;> rw [e] at hadd
  · exact hp.setRes1 _ (hp.setRes0 _ (hp.setExists (hadd _ rfl)))
  · exact hp.setRes1 _ (hp.setRes0 _ (hadd _ rfl))
  · exact hp.check _ s h

theorem Rules.lzGet (hp : Rules P H) {s : State} (h : P s) : Sat P H (lzGetRule s) := by
  simp only [lzGetRule]
  split
  · exact hp.setRes0 _ (hp.setNotFound h)
  · rename_i ph hph
    have := dictGet_length hph
    exact hp.setRes0 _ (hp.shortPhrase h (by omega))

/-! ## Every command -/

/-- What goes through the streams and the changes of the memories goes through the rule of every command. -/
theorem Rules.ruleOf (hp : Rules P H) (i : Instr) {s : State} (h : P s) : Sat P H (ruleOf i s) := by
  have hcheck := fun c => hp.check c s h
  have hbroken := fun f => hp.broken f s h
  cases i with
  | nop => exact h
  | bwWrite n => exact require_bind (hcheck _) fun _ => hp.putBits _ _ h
  | bwFlush => exact hp.flush h
  | brRead n => exact require_bind (hcheck _) fun _ => (hp.getBits n s h).bind fun r hr => hp.setRes0 _ hr
  | brWord w =>
    exact require_bind (hcheck _) fun _ => (hp.nextWord w s h).bind fun r hr =>
      hp.setEnd _ (hp.setRes1 _ (hp.setRes0 _ hr))
  | inRewind => exact (hp.srcRewind h).bind fun u hu => hp.emptied u hu
  | inLength => exact (hp.srcLen h).bind fun r hr => hp.setRes0 _ hr
  | gammaEnc => exact require_bind (hcheck _) fun _ => hp.gammaPut _ h
  | gammaDec => exact (hp.gammaGet h).bind fun r hr => hp.setRes0 _ hr
  | zzEnc => exact hp.setRes0 _ h
  | zzDec => exact hp.setRes0 _ h
  | histBuild w =>
    exact require_bind (hcheck _) fun ⟨h1, hmax⟩ => (hp.histBuild h h1 fun _ => hmax).bind fun r hr => hp.setRes0 _ hr
  | histClear w => exact require_bind (hcheck _) fun ⟨h1, hmax⟩ => hp.cleared w s h h1 fun _ => hmax
  | histSet =>
    refine require_bind (hcheck _) fun _ => require_bind (hcheck _) fun _ => ?_
    split
    · exact hp.counts _ s h (by simp)
    · exact hbroken _
  | histGet =>
    refine require_bind (hcheck _) fun _ => require_bind (hcheck _) fun _ => ?_
    split
    · exact hp.setRes0 _ h
    · exact hbroken _
  | htBuild => exact require_bind (hcheck _) fun _ => hp.built s h
  | htWrite => exact require_bind (hcheck _) fun _ => require_bind (hcheck _) fun _ => hp.treeWrite h
  | htRead => exact (hp.treeRead h).bind fun r hr => hp.setRes0 _ hr
  | htEnc => exact (hp.codeOperand h).bind fun c _ => hp.putBits _ _ h
  | htDec => exact require_bind (hcheck _) fun _ => (hp.treeDecode h).bind fun r hr => hp.setRes0 _ hr
  | htCode => exact (hp.codeOperand h).bind fun c _ => hp.setRes1 _ (hp.setRes0 _ h)
  | htNode =>
    refine require_bind (hcheck _) fun _ => require_bind (hcheck _) fun _ => ?_
    split
    · exact hbroken _
    · exact hp.setRes1 _ (hp.setRes0 _ h)
  | hufComp w => exact hp.hufComp w h
  | hufDecomp => exact hp.hufDecomp h
  | lzInit => exact hp.init _ s h
  | lzAdd => exact hp.lzAdd h
  | lzGet => exact hp.lzGet h
  | lzFind =>
    simp only [Machine.ruleOf, lzFindRule]
    split
    · exact hp.setRes0 _ (hp.setNotFound h)
    · exact hp.setRes0 _ h
  | lzSize => exact hp.setRes1 _ (hp.setRes0 _ h)
  | lzNode =>
    simp only [Machine.ruleOf, lzNodeRule]
    split
    · exact hp.setRes1 _ (hp.setRes0 _ h)
    · exact hp.setRes1 _ (hp.setRes0 _ (hp.setNotFound h))
  | pbClear => exact hp.shortPhrase h (by simp)
  | pbPush =>
    refine require_bind (hcheck _) fun hlt => hp.phrase _ s h fun _ _ => ?_
    rw [List.length_append, List.length_singleton]
    exact hlt
  | pbGet =>
    simp only [Machine.ruleOf, pbGetRule]
    split
    · exact hp.setRes0 _ (hp.setRes1 _ h)
    · exact hp.setRes0 _ (hp.setNotFound (hp.setRes1 _ h))
  | lzEnc => exact hp.lzEnc h
  | lzDec => exact hp.lzDec h

end Sys2Proof.Machine
end

section
/-! SUPPORT. The invariant of the machine (10_state): it holds at reset, and every step keeps it. -/

namespace Sys2Proof.Machine

/-! ## Reset and the host -/

/-- The level of RST and the lists of the model's own stand beside the block: they may be as they like. -/
theorem resetBlock_inv {s t : State} {ie : Bool} (hwf : s.params.wf = true) (hpos : s.pos ≤ s.src.length)
    (hrst : s.rst = true → ie = false) (ht : t = resetBlock ie s) : t.Inv := by
  subst ht
  refine ⟨⟨hwf, rfl, by simp [resetBlock], fun _ => ⟨rfl, rfl⟩, fun h => ?_⟩,
    ⟨by simp [resetBlock], by simp [resetBlock], hpos⟩, ⟨Nat.zero_le _, rfl⟩,
    ⟨Nat.zero_le _, rfl, fun _ h => absurd rfl h⟩, ⟨Nat.zero_le _, fun _ => dictForm_nil⟩, Nat.zero_le _⟩
  rw [hrst h]
  rfl

/-- A transaction cut off by a reset changes POS and SINK only, and POS stays in SRC (70_reset R263). -/
theorem settleInFlight_eq (s : State) :
    ∃ pos sink, settleInFlight s = { s with pos := pos, sink := sink } ∧ (s.pos ≤ s.src.length → pos ≤ s.src.length)
      ∧ (s.inflight = none → pos = s.pos ∧ sink = s.sink) := by
  simp only [settleInFlight]
  split <;> rename_i e
  · refine ⟨_, s.sink, rfl, fun h => ?_, by simp [e]⟩
    split <;> omega
  · exact ⟨s.pos, _, rfl, id, by simp [e]⟩
  · refine ⟨_, s.sink, rfl, fun h => ?_, by simp [e]⟩
    split <;> omega
  all_goals exact ⟨s.pos, s.sink, rfl, id, fun _ => ⟨rfl, rfl⟩⟩

/-- Any reset leaves a state of the invariant. -/
theorem hostAction_wasReset_inv {a : HostAction} {s t : State} (hwf : s.params.wf = true) (hpos : s.pos ≤ s.src.length)
    (h : hostAction a s = .wasReset t) (l : List HostAction) : ({ t with host := l } : State).Inv := by
  obtain ⟨ie, rst, log, rfl, hrst⟩ := hostAction_wasReset h
  obtain ⟨pos, sink, he, hle, -⟩ := settleInFlight_eq s
  refine resetBlock_inv (s := { s with pos := pos, sink := sink, rst := rst, log := log, host := l }) hwf (hle hpos) hrst ?_
  rw [resetNow, he]
  rfl

/-- While RST is asserted the host changes nothing of the block (70_reset R261). -/
theorem hostAction_goOn_rst {a : HostAction} {s t : State} (hrst : s.rst = true) (h : hostAction a s = .goOn t) :
    t = { s with log := t.log, src := t.src, pos := t.pos, seekable := t.seekable, sink := t.sink } := by
  cases a with
  | read addr size =>
    simp only [hostAction, hostRead, hrst, if_true, Reply.goOn.injEq] at h
    subst h
    split <;> rfl
  | write addr size v =>
    simp only [hostAction, hostWrite, hrst, if_true] at h
    split at h <;> (cases h; rfl)
  | attachIn src seekable =>
    simp only [hostAction] at h
    split at h <;> cases h
    rfl
  | attachOut => cases h; rfl
  | assertRst => cases h
  | releaseRst => simp [hostAction, hrst] at h

/-- An action of the host that neither issues a command nor resets keeps the invariant. -/
theorem hostAction_goOn_inv {a : HostAction} {s t : State} (hs : s.Inv) (h : hostAction a s = .goOn t) : t.Inv := by
  obtain ⟨⟨hwf, hbusy, hdone, herr, hrst⟩, ⟨hw, hr, hpos⟩, hist, tree, dict, phrase⟩ := hs
  have hreset : t.rst = true → t = resetBlock false t := by
    intro ht
    have hs' : s.rst = true := by
      obtain ⟨_, _, _, _, _, _, _, _, _, _, rfl, -⟩ := hostAction_goOn h
      exact ht
    have e := hostAction_goOn_rst hs' h
    have e' := hrst hs'
    rw [e, e']
    rfl
  obtain ⟨_, _, _, _, _, _, src, pos, _, _, rfl, -, -, hp⟩ := hostAction_goOn h
  refine ⟨⟨hwf, hbusy, hdone, herr, hreset⟩, ⟨hw, hr, ?_⟩, hist, tree, dict, phrase⟩
  rcases hp with ⟨rfl, rfl⟩ | rfl
  · exact hpos
  · exact Nat.zero_le _

/-! ## A command that runs -/

/-- The invariant inside a command, between two port transactions, before and after a fault; RPEND may hold more than 7
bits there (10_state R30). -/
def Running (s : State) : Prop :=
  (s.busy = true ∧ s.done = false ∧ s.inflight = none ∧ s.rst = false ∧ s.params.wf = true
      ∧ (s.err = false → s.errcode = .none ∧ s.errop = 0))
    ∧ (s.wpend.length ≤ 7 ∧ s.pos ≤ s.src.length)
    ∧ s.HistogramOk ∧ s.TreeOk ∧ s.DictionaryOk ∧ s.PhraseOk

/-- A command that has not faulted, between two uses of the reader. -/
def Good (s : State) : Prop := Running s ∧ s.err = false ∧ s.rpend.length ≤ 7

/-- What a command that stops leaves: `F` where it is a fault of the block, by whether it keeps the state; a state of the
invariant where it waits without end or was reset. -/
def HaltIn (F : Bool → State → Prop) (x : Halt) : Prop :=
  match x.why with
  | .fault _ keep => F keep x.st
  | .hung => x.st.Inv
  | .wasReset => x.st.Inv
  | .refused _ => True
  | .broken _ => True

/-- A fault stops a command inside its pseudocode, with the reader between two uses where the fault keeps the state
(60_exceptions R235). -/
def Faulting (keep : Bool) (s : State) : Prop := Running s ∧ (keep = true → s.rpend.length ≤ 7)

theorem Running.params_wf {s : State} (h : Running s) : s.params.wf = true := by
  obtain ⟨⟨-, -, -, -, hwf, -⟩, -⟩ := h
  exact hwf
theorem Running.inflight {s : State} (h : Running s) : s.inflight = none := by
  obtain ⟨⟨-, -, hnone, -⟩, -⟩ := h
  exact hnone
theorem Running.pos_le {s : State} (h : Running s) : s.pos ≤ s.src.length := by
  obtain ⟨-, ⟨-, hpos⟩, -⟩ := h
  exact hpos

/-- While the host waits for an answer it sees a state of the invariant. -/
theorem Running.waiting {s : State} (h : Running s) (f : InFlight) : ({ s with inflight := some f } : State).Inv := by
  obtain ⟨⟨hbusy, hdone, -, hrst, hwf, herr⟩, ⟨hw, hpos⟩, memories⟩ := h
  exact ⟨⟨hwf, hbusy, fun _ => hdone, herr, fun hr => absurd (hrst.symm.trans hr) (by decide)⟩,
    ⟨hw, fun hb => absurd (hbusy.symm.trans hb) (by decide), hpos⟩, memories⟩

/-- The end of a command leaves a state of the invariant. -/
theorem Running.ended {s : State} (h : Running s) (hr : s.rpend.length ≤ 7) : (endCommand s).Inv := by
  obtain ⟨⟨-, -, hin, hrst, hwf, herr⟩, ⟨hw, hpos⟩, memories⟩ := h
  refine ⟨⟨hwf, ?_, by simp, herr, fun hr => absurd (hrst.symm.trans hr) (by decide)⟩, ⟨hw, fun _ => hr, hpos⟩, memories⟩
  simp [hin]

/-- Acceptance starts a command (40_control R121). -/
theorem accept_good {s : State} (h : s.Inv) (hbusy : s.busy = false) (herr : s.err = false) (hrst : s.rst = false) :
    Good (accept s) := by
  obtain ⟨⟨hwf, hin, -, hrec, -⟩, ⟨hw, hr, hpos⟩, memories⟩ := h
  have hnone : s.inflight = none := by simpa [hbusy] using hin
  exact ⟨⟨⟨rfl, rfl, hnone, hrst, hwf, hrec⟩, ⟨hw, hpos⟩, memories⟩, herr, hr hbusy⟩

/-- `P` holds only of running commands, and it does not depend on what ports, host and writer change while a command
runs. -/
structure Steady (P : State → Prop) : Prop where
  running : ∀ s, P s → Running s
  frame   : ∀ s drop ie log fresh sink draws overlaps wpend pos, P s → (s.wpend.length ≤ 7 → wpend.length ≤ 7) →
    pos ≤ s.src.length → P { s with
      drop := drop, ie := ie, log := log, fresh := fresh, sink := sink, draws := draws, overlaps := overlaps
      wpend := wpend, pos := pos }

variable {P : State → Prop} {F : Bool → State → Prop}

/-- The host during a command, `f` being the transaction that waits: it goes on, it resets the block, or the run has no
meaning. -/
theorem Steady.whileBusy (hp : Steady P) (f : Option InFlight) (l : List HostAction) {s : State} (h : P s) :
    Sat (fun t => ∃ u, P u ∧ t = { u with inflight := f }) (HaltIn F) (whileBusy l { s with inflight := f }) := by
  induction l generalizing s with
  | nil => exact ⟨s, h, rfl⟩
  | cons a l ih =>
    obtain ⟨⟨hbusy, -, -, -, hwf, -⟩, ⟨-, hpos⟩, -⟩ := hp.running s h
    simp only [Machine.whileBusy]
    split
    · rename_i t e
      obtain ⟨arg0, arg1, drop, ie, log, fresh, src, pos, seekable, sink, rfl, -, hkeep, -⟩ := hostAction_goOn e
      obtain ⟨rfl, rfl, rfl, rfl, rfl⟩ := hkeep hbusy
      exact ih (hp.frame s drop ie log fresh sink s.draws s.overlaps s.wpend s.pos h id hpos)
    · rename_i t e
      exact hostAction_wasReset_inv (s := { s with inflight := f }) hwf hpos e (l ++ t.host)
    · trivial

theorem Steady.port (hp : Steady P) (hf : ∀ s, P s → F false s) : Port P (HaltIn F) where
  transact what s h := by
    have hpos : s.pos ≤ s.src.length := (hp.running s h).pos_le
    have h0 := hp.frame s s.drop s.ie s.log s.fresh s.sink s.draws.tail s.overlaps s.wpend s.pos h id hpos
    refine (hp.whileBusy _ _ h0).bind fun t ⟨u, hu, ht⟩ => ?_
    have hnone : u.inflight = none := (hp.running u hu).inflight
    have hback : ({ t with inflight := none } : State) = u := by rw [ht, ← hnone]
    split
    · rw [hback]; exact hu
    · rw [hback]; exact hu
    · rw [ht]; exact (hp.running u hu).waiting _
  sink l s h := hp.frame s s.drop s.ie s.log s.fresh l s.draws s.overlaps s.wpend s.pos h id (hp.running s h).pos_le
  move n s h hn := hp.frame s s.drop s.ie s.log s.fresh s.sink s.draws s.overlaps s.wpend n h id hn
  writer l s h hl := hp.frame s s.drop s.ie s.log s.fresh s.sink s.draws s.overlaps l s.pos h hl (hp.running s h).pos_le
  fault _ s h := hf s h

/-- The host before the first port transaction. -/
theorem Steady.overlap (hp : Steady P) {s : State} (h : P s) : Sat P (HaltIn F) (overlap s) := by
  have hpos : s.pos ≤ s.src.length := (hp.running s h).pos_le
  have hnone : s.inflight = none := (hp.running s h).inflight
  have h0 := hp.frame s s.drop s.ie s.log s.fresh s.sink s.draws s.overlaps.tail s.wpend s.pos h id hpos
  have hw := hp.whileBusy (F := F) none (s.overlaps.headD []) h0
  have he : ({ s with overlaps := s.overlaps.tail, inflight := none } : State) = { s with overlaps := s.overlaps.tail } := by
    rw [← hnone]
  rw [Machine.overlap, ← he]
  refine hw.mono (fun t ⟨u, hu, ht⟩ => ?_) fun _ hx => hx
  have : u.inflight = none := (hp.running u hu).inflight
  rw [ht, ← this]
  exact hu

theorem Running.frame {s : State} (h : Running s) (drop ie : Bool) (log : List Response) (fresh : Nat) (sink : List Byte)
    (draws : List Draw) (overlaps : List (List HostAction)) {wpend : Bits} {pos : Nat}
    (hw : s.wpend.length ≤ 7 → wpend.length ≤ 7) (hpos : pos ≤ s.src.length) :
    Running { s with
      drop := drop, ie := ie, log := log, fresh := fresh, sink := sink, draws := draws, overlaps := overlaps
      wpend := wpend, pos := pos } :=
  ⟨h.1, ⟨hw h.2.1.1, hpos⟩, h.2.2⟩

theorem good_steady : Steady Good where
  running _ h := h.1
  frame _ drop ie log fresh sink draws overlaps _ _ h hw hpos :=
    ⟨h.1.frame drop ie log fresh sink draws overlaps hw hpos, h.2⟩

/-- Inside the reader a command that has not faulted. -/
theorem reading_steady : Steady fun s => Running s ∧ s.err = false where
  running _ h := h.1
  frame _ drop ie log fresh sink draws overlaps _ _ h hw hpos :=
    ⟨h.1.frame drop ie log fresh sink draws overlaps hw hpos, h.2⟩

/-- After a fault, where the reader is between two commands already. -/
theorem faulting_steady : Steady fun s => Running s ∧ s.rpend.length ≤ 7 where
  running _ h := h.1
  frame _ drop ie log fresh sink draws overlaps _ _ h hw hpos :=
    ⟨h.1.frame drop ie log fresh sink draws overlaps hw hpos, h.2⟩

/-! ## The reader stays within its bits (10_state R30) -/

theorem pullByte_rpend {s : State} {r : Option Byte × State} (h : pullByte s = .ok r) : r.2.rpend = s.rpend := by
  have hj : Memory fun u => u.rpend = s.rpend := fun _ _ _ _ _ _ _ _ _ _ _ _ _ _ h => h
  have := hj.port.pullByte (s := s) rfl
  rwa [h] at this

/-- GetBits pulls a byte only while it lacks bits. -/
theorem fill_length {fuel n : Nat} {s t : State} (h : fill fuel n s = .ok t) :
    t.rpend.length ≤ max s.rpend.length (n + 7) := by
  induction fuel generalizing s with
  | zero => cases h; exact Nat.le_max_left _ _
  | succ fuel ih =>
    simp only [fill, bind, Except.bind] at h
    split at h
    · split at h
      · cases h
      · rename_i r e
        have hr := pullByte_rpend e
        obtain ⟨_ | b, u⟩ := r
        · cases h
        · have := ih h
          simp only [List.length_append, length_binByte] at this
          simp only at hr
          rw [hr] at this
          omega
    · cases h; exact Nat.le_max_left _ _

theorem fillOrEnd_length {fuel n : Nat} {s : State} {r : Bool × State} (h : fillOrEnd fuel n s = .ok r) :
    r.2.rpend.length ≤ max s.rpend.length (n + 7) := by
  induction fuel generalizing s with
  | zero => cases h; exact Nat.le_max_left _ _
  | succ fuel ih =>
    simp only [fillOrEnd, bind, Except.bind] at h
    split at h
    · split at h
      · cases h
      · rename_i q e
        have hq := pullByte_rpend e
        obtain ⟨_ | b, u⟩ := q
        · cases h
          simp only at hq
          rw [hq]
          exact Nat.le_max_left _ _
        · have := ih h
          simp only [List.length_append, length_binByte] at this
          simp only at hq
          rw [hq] at this
          omega
    · cases h; exact Nat.le_max_left _ _

theorem getBits_rpend {n : Nat} {s : State} {r : Nat × State} (hs : s.rpend.length ≤ 7) (h : getBits n s = .ok r) :
    r.2.rpend.length ≤ 7 := by
  simp only [getBits, bind, Except.bind] at h
  split at h
  · cases h
  · rename_i t e
    have := fill_length e
    cases h
    simp only [takeBits, List.length_drop]
    omega

theorem nextWord_rpend {w : Nat} {s : State} {r : (Nat × Nat) × State} (hs : s.rpend.length ≤ 7)
    (h : nextWord w s = .ok r) : r.2.rpend.length ≤ 7 := by
  simp only [nextWord, bind, Except.bind] at h
  split at h
  · cases h
  · rename_i q e
    have := fillOrEnd_length e
    split at h <;> cases h
    · simp only [takeBits, List.length_drop]
      omega
    · exact Nat.zero_le _

theorem reading_reader : Reader (fun s => Running s ∧ s.err = false) (HaltIn Faulting) :=
  { reading_steady.port (fun _ h => ⟨h.1, by simp⟩) with reader := fun _ _ h => h }

theorem good_streams : Streams Good (HaltIn Faulting) :=
  { good_steady.port (fun _ h => ⟨h.1, by simp⟩) with
    getBits := fun n _ ⟨hrun, herr, hr⟩ =>
      ((reading_reader.getBits n ⟨hrun, herr⟩).and_ok fun _ e => getBits_rpend hr e).mono
        (fun _ h => ⟨h.1.1, h.1.2, h.2⟩) fun _ h => h
    nextWord := fun w _ ⟨hrun, herr, hr⟩ =>
      ((reading_reader.nextWord w ⟨hrun, herr⟩).and_ok fun _ e => nextWord_rpend hr e).mono
        (fun _ h => ⟨h.1.1, h.1.2, h.2⟩) fun _ h => h }

/-! ## The memories -/

/-- Every change a rule makes to the results and the memories keeps the invariant. -/
theorem good_rules : Rules Good (HaltIn Faulting) :=
  { good_streams with
    results := fun _ _ _ _ _ _ h => h
    emptied := fun _ h => ⟨h.1, h.2.1, Nat.zero_le _⟩
    check := fun _ _ h => ⟨h.1, fun _ => h.2.2⟩
    broken := fun _ _ _ => trivial
    cleared := fun w s ⟨hrun, hgood⟩ h1 hmax => by
      have hlen : (clearHistogram w s).counts.length = if w = 0 then 0 else 2 ^ w := by
        rw [clearHistogram_length, if_neg (by omega)]
      have hle := hmax hrun.params_wf
      obtain ⟨live, bits, -, rest⟩ := hrun
      exact ⟨⟨live, bits, ⟨hle, hlen⟩, rest⟩, hgood⟩
    counts := fun _ _ ⟨⟨live, bits, ⟨hmax, hlen⟩, rest⟩, hgood⟩ hl =>
      ⟨⟨live, bits, ⟨hmax, hl.trans hlen⟩, rest⟩, hgood⟩
    built := fun _ ⟨⟨live, bits, hist, _, rest⟩, hgood⟩ =>
      ⟨⟨live, bits, hist, ⟨hist.1, length_builtNodes _ _, fun _ _ => validTree_builtNodes _ _⟩, rest⟩, hgood⟩
    tree := fun w nodes s ⟨hrun, hgood⟩ h17 hlen hv => by
      have hle : w ≤ s.params.maxHistW := Nat.le_trans h17 (Params.maxHistW_ge hrun.params_wf)
      obtain ⟨live, bits, hist, -, rest⟩ := hrun
      exact ⟨⟨live, bits, hist, ⟨hle, hlen, fun _ _ => hv⟩, rest⟩, hgood⟩
    init := fun _ _ ⟨⟨live, bits, hist, tree, _, phrase⟩, hgood⟩ =>
      ⟨⟨live, bits, hist, tree, ⟨Nat.zero_le _, fun _ => dictForm_nil⟩, phrase⟩, hgood⟩
    add := fun ph s t ⟨⟨live, bits, hist, tree, ⟨hcap, hform⟩, phrase⟩, herr, hr⟩ hne ht => by
      obtain ⟨hform', hcap', e⟩ := dictAdd_keeps (hform herr) hcap hne ht
      rw [e] at hcap' ⊢
      exact ⟨⟨live, bits, hist, tree, ⟨hcap', fun _ => hform'⟩, phrase⟩, herr, hr⟩
    phrase := fun _ s ⟨hrun, hgood⟩ hl => by
      have hwf := hrun.params_wf
      obtain ⟨live, bits, hist, tree, dict, -⟩ := hrun
      exact ⟨⟨live, bits, hist, tree, dict, hl hwf dict.1⟩, hgood⟩ }

/-! ## The end of a command -/

/-- The values an execution fault leaves are in range (60_exceptions R236). -/
theorem residue_running {c : FaultCode} {s : State} (h : Running s) (herr : s.err = true) :
    Running (residue c s) ∧ (residue c s).rpend.length ≤ 7 := by
  obtain ⟨live, ⟨hw, hpos⟩, -⟩ := h
  obtain ⟨hr, hw', hhw, hcounts, htw, hnodes, hlz, hpb, -⟩ := residue_spec c s
  have hno : ¬ s.err = false := by simp [herr]
  exact ⟨⟨live, ⟨hw' hw, hpos⟩, ⟨hhw, hcounts⟩, ⟨htw, hnodes, fun he => absurd he hno⟩,
    ⟨hlz, fun he => absurd he hno⟩, hpb⟩, hr⟩

/-- The fault record. What the invariant asks only while ERR = 0 is asked no more. -/
theorem recordFault_running {op : Byte} {c : FaultCode} {s : State} (h : Running s) : Running (recordFault op c s) := by
  obtain ⟨⟨hbusy, hdone, hin, hrst, hwf, -⟩, bits, hist, tree, dict, phrase⟩ := h
  have hno : ¬ (recordFault op c s).err = false := by simp
  exact ⟨⟨hbusy, hdone, hin, hrst, hwf, fun he => absurd he hno⟩, bits, hist,
    ⟨tree.1, tree.2.1, fun he => absurd he hno⟩, ⟨dict.1, fun he => absurd he hno⟩, phrase⟩

/-- A stop that is no fault of the block, whatever its faults would have to meet. -/
theorem HaltIn.of_no_fault {F G : Bool → State → Prop} {x : Halt} (h : HaltIn F x) (hno : ∀ c k, x.why ≠ .fault c k) :
    HaltIn G x := by
  obtain ⟨why, u⟩ := x
  cases why with
  | fault c k => exact absurd rfl (hno c k)
  | hung => exact h
  | wasReset => exact h
  | refused q => trivial
  | broken f => trivial

/-- The fault entry ends in a state of the invariant, or a wait without end or a reset cuts its flush short (60_exceptions
R234 to R238). -/
theorem takeFault_sat {op : Byte} {c : FaultCode} {keep : Bool} {s : State} (h : Faulting keep s) :
    Sat State.Inv (HaltIn fun _ _ => False) (takeFault op c keep s) := by
  obtain ⟨hrun, hr⟩ := h
  have hrec : Running (recordFault op c s) := recordFault_running hrun
  have h0 : (fun u => Running u ∧ u.rpend.length ≤ 7)
      (if keep then recordFault op c s else residue c (recordFault op c s)) := by
    cases keep
    · exact residue_running hrec rfl
    · exact ⟨hrec, hr rfl⟩
  have hport : Port (fun u => Running u ∧ u.rpend.length ≤ 7) (HaltIn fun _ u => Running u ∧ u.rpend.length ≤ 7) :=
    faulting_steady.port fun _ h => h
  simp only [takeFault]
  split
  · exact h0.1.ended h0.2
  · refine Sat.bind (Q := fun u => Running u ∧ u.rpend.length ≤ 7) ?_ fun u hu => hu.1.ended hu.2
    exact (hport.faultFlush h0 fun _ _ _ hu => hu).mono (fun _ hu => hu) fun x hx => hx.1.of_no_fault hx.2

theorem faultOutcome_inv {r : Ran State} {t : State} (h : Sat State.Inv (HaltIn fun _ _ => False) r)
    (ht : faultOutcome r = .next t) : t.Inv := by
  cases r with
  | ok u => cases ht; exact h
  | error x =>
    obtain ⟨why, u⟩ := x
    cases why with
    | fault c k => exact absurd h id
    | hung => cases ht; exact h
    | wasReset => cases ht; exact h
    | refused q => cases ht
    | broken f => cases ht

/-- A rule that keeps the invariant of running commands makes a command that keeps the invariant. -/
theorem runCommand_inv {op : Byte} {rule : State → Ran State} {s t : State} (hs : Good (accept s))
    (hrule : ∀ u, Good u → Sat Good (HaltIn Faulting) (rule u)) (h : runCommand op rule s = .next t) : t.Inv := by
  have hr : Sat Good (HaltIn Faulting) (overlap (accept s) >>= rule) := (good_steady.overlap hs).bind hrule
  obtain ⟨u, e, rfl⟩ | ⟨c, k, u, e, hf⟩ | e | e := finish_cases h <;> rw [e] at hr
  · exact hr.1.ended hr.2.2
  · exact faultOutcome_inv (takeFault_sat hr) hf
  · exact hr
  · exact hr

/-! ## The step -/

/-- Every step keeps the invariant. -/
theorem step_inv {s t : State} (hs : s.Inv) (h : step s = .next t) : t.Inv := by
  obtain ⟨-, rfl⟩ | ⟨a, rest, -, ⟨c, hc, hrun⟩ | ⟨-, hreply⟩⟩ := step_cases h
  · exact hs
  · obtain ⟨hbusy, herr, hrst⟩ := commandOf_some hc
    have hgood : Good (accept (respond .ack { s with host := rest })) := by
      obtain ⟨⟨hwf, hin, hdone, hrec, -⟩, others⟩ := hs
      exact accept_good ⟨⟨hwf, hin, hdone, hrec, fun hr => absurd (hrst.symm.trans hr) (by decide)⟩, others⟩ hbusy herr hrst
    obtain ⟨i, -, hexec⟩ | ⟨_, -, hill⟩ := hrun
    · rw [exec_eq_runCommand] at hexec
      exact runCommand_inv hgood (fun u hu => good_rules.ruleOf i hu) hexec
    · refine runCommand_inv hgood (fun u hu => ?_) hill
      exact good_rules.check _ u hu
  · have hq : ({ s with host := rest } : State).Inv := by
      obtain ⟨⟨hwf, hin, hdone, hrec, hrst⟩, others⟩ := hs
      refine ⟨⟨hwf, hin, hdone, hrec, fun hr => ?_⟩, others⟩
      conv => lhs; rw [hrst hr]
      rfl
    obtain hgo | hreset := hreply
    · exact hostAction_goOn_inv hq hgo
    · obtain ⟨⟨hwf, -⟩, ⟨-, -, hpos⟩, -⟩ := hq
      exact hostAction_wasReset_inv hwf hpos hreset t.host

theorem reset_inv : State.reset.Inv := by decide

end Sys2Proof.Machine
end

section
/-! SUPPORT. The statements about the invariant: each is a part of what every step keeps. -/

open Sys2Proof Sys2Proof.Machine

namespace Sys2Proof.Proofs

/-- Settles O16. -/
theorem invariantHoldsAtReset : Obligations.InvariantHoldsAtReset := reset_inv

/-- Settles O17: status is a part of the invariant that every step keeps. -/
theorem stepKeepsStatusOk : Obligations.StepKeepsStatusOk := fun _ _ hs h => by
  obtain ⟨status, -⟩ := step_inv hs h
  exact status

/-- Settles O18. -/
theorem stepKeepsStreamsOk : Obligations.StepKeepsStreamsOk := fun _ _ hs h => by
  obtain ⟨-, streams, -⟩ := step_inv hs h
  exact streams

/-- Settles O19. -/
theorem stepKeepsHistogramOk : Obligations.StepKeepsHistogramOk := fun _ _ hs h => by
  obtain ⟨-, -, hist, -⟩ := step_inv hs h
  exact hist

/-- Settles O20: TreeBuild and TreeRead leave valid trees, and nothing else writes the tree but an execution fault. -/
theorem stepKeepsTreeValid : Obligations.StepKeepsTreeValid := fun _ _ hs h => by
  obtain ⟨-, -, -, tree, -⟩ := step_inv hs h
  exact tree

/-- Settles O21: LzAdd registers a new phrase under the next number, with a smaller parent. -/
theorem stepKeepsDictionaryOk : Obligations.StepKeepsDictionaryOk := fun _ _ hs h => by
  obtain ⟨-, -, -, -, dict, -⟩ := step_inv hs h
  exact dict

/-- Settles O22: PB holds a phrase of the dictionary and at most one byte more. -/
theorem stepKeepsPhraseOk : Obligations.StepKeepsPhraseOk := fun _ _ hs h => by
  obtain ⟨-, -, -, -, -, phrase⟩ := step_inv hs h
  exact phrase

end Sys2Proof.Proofs
end

section
/-! SUPPORT. Accesses of the host to the registers of the window, and IRQ. -/

namespace Sys2Proof.Machine

/-! ## The window (20_memory R51) -/

theorem regAt_lt {off : Nat} {r : Reg} (h : regAt off = some r) : off < 0x40 := by
  unfold regAt at h
  split at h
  case h_9 => cases h
  all_goals decide

/-- Every aligned offset below 0x40 is assigned. -/
theorem regAt_aligned {off : Nat} (h8 : off % 8 = 0) (hlt : off < 0x40) : ∃ r, regAt off = some r := by
  have hall : ∀ k, k < 8 → (regAt (8 * k)).isSome = true := by decide
  obtain ⟨k, rfl⟩ := Nat.dvd_of_mod_eq_zero h8
  exact Option.isSome_iff_exists.mp (hall k (by omega))

/-- An access of 8 bytes at the offset of a register is an access to it. -/
theorem target_reg (p : Params) {off : Nat} {r : Reg} (h : regAt off = some r) : target p (p.base + off) 8 = .reg r := by
  have hlt := regAt_lt h
  have hin : ¬ (p.base + off < p.base ∨ p.base + 0x100 ≤ p.base + off) := by omega
  simp only [target, if_neg hin, ne_eq, not_true_eq_false, if_false, Nat.add_sub_cancel_left, h]

/-- A step in which the host issues no command is its action. -/
theorem step_hostAction {s : State} {a : HostAction} {rest : List HostAction} (hh : s.host = a :: rest)
    (hc : commandOf s a = none) : step s = replyOutcome (hostAction a { s with host := rest }) := by
  simp only [step, fetch, hh, hc]

/-- A write to a register that issues no command. -/
theorem step_write {s : State} {off : Nat} {v : Word} {rest : List HostAction} {r : Reg}
    (hh : s.host = .write (s.params.base + off) 8 v :: rest) (hr : regAt off = some r) (hrst : s.rst = false)
    (hc : r = .cmd → s.busy = true ∨ s.err = true) :
    step s = replyOutcome (writeReg v (respond .ack { s with host := rest }) r) := by
  have ht := target_reg s.params hr
  have hno : commandOf s (.write (s.params.base + off) 8 v) = none := by
    simp only [commandOf, ht, Target.reg.injEq, hrst, true_and, ite_eq_right_iff]
    rintro ⟨rfl, hb, he⟩
    simp [hb, he] at hc
  rw [step_hostAction hh hno]
  simp [hostAction, hostWrite, ht, hrst]

/-- A read of a register while BUSY = 0. -/
theorem step_read {s : State} {off : Nat} {rest : List HostAction} {r : Reg}
    (hh : s.host = .read (s.params.base + off) 8 :: rest) (hr : regAt off = some r) (hrst : s.rst = false)
    (hbusy : s.busy = false) :
    step s = .next { s with host := rest, log := s.log ++ [.data (readReg s r)] } := by
  have ht := target_reg s.params hr
  have hread : readReg { s with host := rest } r = readReg s r := by cases r <;> rfl
  rw [step_hostAction hh rfl]
  simp only [hostAction, hostRead, ht]
  rw [if_neg (by simp [hrst]), if_neg (by simp [hbusy]), hread]
  rfl

theorem writeCtrl_ie {v : Word} (h : v.getLsbD 0 = false) (s : State) :
    writeCtrl v s = .goOn { s with ie := v.getLsbD 1 } := by
  simp only [writeCtrl, h, Bool.false_eq_true, if_false]

theorem writeCtrl_reset {v : Word} (h : v.getLsbD 0 = true) (s : State) :
    writeCtrl v s = .wasReset (resetNow (v.getLsbD 1) s) := by
  simp only [writeCtrl, h, if_true]

/-! ## The fields of STATUS, CTRL and CAPS (10_state R23, R25, R26) -/

/-- Fields side by side are digits. -/
theorem toNat_append {m n : Nat} (x : BitVec m) (y : BitVec n) : (x ++ y).toNat = x.toNat * 2 ^ n + y.toNat := by
  rw [BitVec.toNat_append, ← Nat.shiftLeft_add_eq_or_of_lt y.isLt, Nat.shiftLeft_eq]

/-- STATUS as a number, its fields in their places. -/
theorem statusWord_toNat (s : State) (htw : s.tw < 2 ^ 5) (hhw : s.hw < 2 ^ 5) (hw : s.wpend.length < 2 ^ 3)
    (hr : s.rpend.length < 2 ^ 3) :
    (statusWord s).toNat = s.busy.toNat + 2 * s.done.toNat + 2 ^ 2 * s.err.toNat + 2 ^ 3 * s.drop.toNat
      + 2 ^ 4 * s.errcode.bits.toNat + 2 ^ 8 * s.errop.toNat + 2 ^ 16 * s.endFlag.toNat + 2 ^ 17 * s.existsFlag.toNat
      + 2 ^ 18 * s.nfFlag.toNat + 2 ^ 20 * s.rpend.length + 2 ^ 24 * s.wpend.length + 2 ^ 32 * s.hw + 2 ^ 40 * s.tw := by
  simp only [statusWord, toNat_append, BitVec.toNat_ofNat, BitVec.toNat_ofBool, Nat.mod_eq_of_lt htw,
    Nat.mod_eq_of_lt hhw, Nat.mod_eq_of_lt hw, Nat.mod_eq_of_lt hr]
  omega

theorem ctrlWord_toNat (s : State) : (ctrlWord s).toNat = 2 * s.ie.toNat := by
  simp only [ctrlWord, toNat_append, BitVec.toNat_ofNat, BitVec.toNat_ofBool]
  omega

theorem capsWord_toNat {p : Params} (h : p.wf = true) :
    (capsWord p).toNat = p.maxHistW + 2 ^ 8 * p.maxCodeLen + 2 ^ 16 * p.dictCap + 2 ^ 40 * p.pbCap := by
  obtain ⟨⟨-, hhist⟩, hcode, ⟨hdict, -⟩, hpb⟩ := Params.wf_ranges h
  simp only [capsWord, toNat_append, BitVec.toNat_ofNat]
  omega

/-! ## IE on ports that answer (40_control R126) -/

/-- Ports that answer, and CTRL.IE as it was. -/
def QuietIe (ie : Bool) (s : State) : Prop := s.Quiet ∧ s.ie = ie

/-- On ports that answer a command stops only with a fault of the block, or where its state breaks the spec (log 12). -/
def QuietHalt (ie : Bool) (x : Halt) : Prop :=
  match x.why with
  | .fault _ _ => QuietIe ie x.st
  | .hung => False
  | .wasReset => False
  | .refused _ => False
  | .broken _ => True

/-- LzAdd changes nothing but the dictionary. -/
theorem dictAdd_frame {ph : List Byte} {s t : State} (h : (dictAdd ph s).state? = some t) :
    t = { s with lznodes := t.lznodes, lzindex := t.lzindex } := by
  obtain ⟨u, rfl | rfl, ⟨-, e⟩ | ⟨-, -, e⟩ | ⟨-, -, -, e⟩ | ⟨-, -, -, e⟩⟩ := dictAdd_cases ph s <;> rw [e] at h <;>
    cases h <;> rfl

theorem quietIe_rules (ie : Bool) : Rules (QuietIe ie) (QuietHalt ie) :=
  have reader : Reader (QuietIe ie) (QuietHalt ie) :=
    { transact := fun what s ⟨hq, hie⟩ => by
        rw [transact_quiet what hq]
        exact ⟨hq.drop 1 rfl rfl (by simp), hie⟩
      sink := fun _ _ h => h
      move := fun _ _ h _ => h
      writer := fun _ _ h _ => h
      fault := fun _ _ h => h
      reader := fun _ _ h => h }
  { reader.streams with
    results := fun _ _ _ _ _ _ h => h
    emptied := fun _ h => h
    check := fun _ _ h => h
    broken := fun _ _ _ => trivial
    cleared := fun _ _ h _ _ => h
    counts := fun _ _ h _ => h
    built := fun _ h => h
    tree := fun _ _ _ h _ _ _ => h
    init := fun _ _ h => h
    add := fun _ _ _ h _ ht => by rw [dictAdd_frame ht]; exact h
    phrase := fun _ _ h _ => h }

/-- The end of a fault entry on ports that answer: the flush, where there is one, does not write IE. -/
theorem endFault_quiet {c : FaultCode} {u t : State} (hu : u.Quiet)
    (h : faultOutcome (if c = .ioOut then .ok (endCommand u) else faultFlush u >>= fun v => .ok (endCommand v)) = .next t) :
    t.ie = u.ie ∧ t.done = true := by
  have hflush : (flushed u).ie = u.ie := by
    simp only [flushed]
    split <;> rfl
  rw [faultFlush_quiet hu] at h
  split at h <;> cases h
  · exact ⟨rfl, rfl⟩
  · exact ⟨hflush, rfl⟩

/-- A fault on ports that answer ends the command, with IE as it was. -/
theorem takeFault_quiet {op : Byte} {c : FaultCode} {keep : Bool} {s t : State} (h : s.Quiet)
    (ht : faultOutcome (takeFault op c keep s) = .next t) : t.ie = s.ie ∧ t.done = true := by
  cases keep
  · exact endFault_quiet (u := residue c (recordFault op c s)) h ht
  · exact endFault_quiet (u := recordFault op c s) h ht

/-- On ports that answer every command ends with DONE = 1 and IE as it was. -/
theorem exec_quiet_ie {i : Instr} {s t : State} (h : s.Quiet) (ht : exec i s = .next t) :
    t.ie = s.ie ∧ t.done = true := by
  rw [exec_eq_runCommand, runCommand_quiet _ _ h] at ht
  have hr : Sat (QuietIe s.ie) (QuietHalt s.ie) (ruleOf i (started s)) :=
    (quietIe_rules s.ie).ruleOf i ⟨started_quiet h, rfl⟩
  obtain ⟨u, e, rfl⟩ | ⟨c, k, u, e, hf⟩ | e | e := finish_cases ht <;> rw [e] at hr
  · exact ⟨hr.2, rfl⟩
  · obtain ⟨hie, hdone⟩ := takeFault_quiet hr.1 hf
    exact ⟨hie.trans hr.2, hdone⟩
  · exact absurd hr id
  · exact absurd hr id

end Sys2Proof.Machine

open Sys2Proof Sys2Proof.Machine

namespace Sys2Proof.Proofs

/-- Settles O8: the write of each register, by its arm of `writeReg`. -/
theorem idleBlockTakesWrites : Obligations.IdleBlockTakesWrites := by
  intro s off v rest hh hrst hbusy
  refine ⟨?_, ?_, ?_, ?_, ?_⟩
  · rintro rfl herr
    rw [step_write hh (r := .cmd) rfl hrst fun _ => .inr herr]
    simp [writeReg, hbusy, replyOutcome, respond]
  · rintro rfl
    rw [step_write hh (r := .arg0) rfl hrst nofun]
    simp [writeReg, hbusy, replyOutcome, respond]
  · rintro rfl
    rw [step_write hh (r := .arg1) rfl hrst nofun]
    simp [writeReg, hbusy, replyOutcome, respond]
  · rintro (rfl | rfl | rfl | rfl)
    · rw [step_write hh (r := .res0) rfl hrst nofun]; rfl
    · rw [step_write hh (r := .res1) rfl hrst nofun]; rfl
    · rw [step_write hh (r := .status) rfl hrst nofun]; rfl
    · rw [step_write hh (r := .caps) rfl hrst nofun]; rfl
  · rintro rfl hv
    rw [step_write hh (r := .ctrl) rfl hrst nofun]
    simp only [writeReg, writeCtrl_ie hv]
    rfl

/-- Settles O10: `resetBlock` sets every piece, and the transaction in flight settles POS and SINK alone. -/
theorem softResetSetsEveryPiece : Obligations.SoftResetSetsEveryPiece := by
  intro s v rest hh hrst hv
  obtain ⟨pos, sink, he, -, hnone⟩ := settleInFlight_eq (respond .ack { s with host := rest })
  refine ⟨resetNow (v.getLsbD 1) (respond .ack { s with host := rest }), ?_, ?_, ?_⟩
  · rw [step_write hh (r := .ctrl) rfl hrst nofun]
    simp only [writeReg, writeCtrl_reset hv]
    rfl
  · rw [resetNow, he]
    simp [resetBlock, State.reset, respond, hrst]
  · intro hin
    rw [resetNow, he]
    exact hnone hin

/-- Settles O12: the fields of STATUS are digits of a number, in range by the invariant. -/
theorem idleReadsShowRegisters : Obligations.IdleReadsShowRegisters := by
  intro s off rest hs hh h8 hlt hrst hbusy
  obtain ⟨r, hr⟩ := regAt_aligned h8 hlt
  refine ⟨readReg s r, step_read hh hr hrst hbusy, ?_, ?_, ?_, ?_, ?_, ?_, ?_, ?_⟩ <;> rintro rfl <;>
    cases Option.some.inj hr
  · rfl
  · rfl
  · rfl
  · rfl
  · rfl
  · obtain ⟨⟨hwf, -⟩, ⟨hw, hrd, -⟩, ⟨hhw, -⟩, ⟨htw, -⟩, -⟩ := hs
    obtain ⟨⟨-, h31⟩, -⟩ := Params.wf_ranges hwf
    have hrd := hrd hbusy
    have hcode := s.errcode.bits.isLt
    have hop := s.errop.isLt
    have hdone := Bool.toNat_lt s.done
    have herr := Bool.toNat_lt s.err
    have hdrop := Bool.toNat_lt s.drop
    have hend := Bool.toNat_lt s.endFlag
    have hexists := Bool.toNat_lt s.existsFlag
    have hnf := Bool.toNat_lt s.nfFlag
    have hv := statusWord_toNat s (by omega) (by omega) (by omega) (by omega)
    rw [hbusy, Bool.toNat_false] at hv
    simp only [readReg, hv]
    refine ⟨?_, ?_, ?_, ?_, ?_, ?_, ?_, ?_, ?_, ?_, ?_, ?_, ?_, ?_, ?_, ?_, ?_, ?_⟩ <;> omega
  · exact ctrlWord_toNat s
  · obtain ⟨⟨hwf, -⟩, -⟩ := hs
    exact capsWord_toNat hwf

/-- Settles O14: on ports that answer every command ends with DONE = 1 and never writes IE. -/
theorem irqFollowsIeAndDone : Obligations.IrqFollowsIeAndDone := by
  refine ⟨fun _ => rfl, fun i s t hq ht => ?_, fun s v hv t ht => ?_, fun s ie => ?_⟩
  · obtain ⟨hie, hdone⟩ := exec_quiet_ie hq ht
    simp [irq, hie, hdone]
  · rw [writeCtrl_ie hv] at ht
    cases ht
    rfl
  · simp [irq, resetNow, resetBlock]

/-- Settles O15. -/
theorem resetStateHasTheResetValues : Obligations.ResetStateHasTheResetValues := by
  unfold Obligations.ResetStateHasTheResetValues
  decide

end Sys2Proof.Proofs
end

section
/-! SUPPORT. What a rule does as a function of the draws: which transactions it makes, in which state each of them finds
the block, and how it goes on where they succeed. -/

namespace Sys2Proof.Machine

/-! ## Scripts -/

/-- The fault a failed transaction raises (20_memory R55 to R57). -/
def failCode : Transaction → FaultCode
  | .pull => .ioIn
  | .length => .ioIn
  | .rewind => .ioIn
  | .push _ => .ioOut

/-- What a transaction appends to SINK where it succeeds (20_memory R57). -/
def pushed : Transaction → List Byte
  | .pull => []
  | .length => []
  | .rewind => []
  | .push b => [b]

/-- Inside a command that began as `s`, between two transactions, with `l` in SINK. -/
def Frame (s : State) (l : List Byte) (u : State) : Prop :=
  u.busy = s.busy ∧ u.done = s.done ∧ u.overlaps = s.overlaps ∧ u.inflight = none ∧ u.sink = l

/-- `F` is what a rule does, as a function of the draws. After `k` transactions that succeed it waits in `u` for the
answer to `what`: without end where the answer never comes, and with a fault there if the transaction fails (20_memory
R58). `l` is what is in SINK. -/
def Waits {α : Type} (s : State) (l : List Byte) (F : List Draw → Ran α) (k : Nat) (what : Transaction) (u : State) :
    Prop :=
  Frame s l u ∧ ∀ took ds,
    F (List.replicate k Draw.prompt ++ ⟨[], .never, took⟩ :: ds)
        = .error ⟨.hung, { u with draws := ds, inflight := some ⟨what, took⟩ }⟩
      ∧ F (List.replicate k Draw.prompt ++ ⟨[], .ioError, took⟩ :: ds)
        = .error ⟨.fault (failCode what) false, { u with draws := ds, inflight := none }⟩

/-- A result, as a function of the draws that are left: a state inside the command. -/
def Leaves (s : State) (l : List Byte) (g : List Draw → State) : Prop :=
  ∃ u, Frame s l u ∧ g = fun D => { u with draws := D }

/-- The same with a value, which does not depend on the draws. -/
def LeavesWith {β : Type} (s : State) (l : List Byte) (g : List Draw → β × State) : Prop :=
  ∃ v u, Frame s l u ∧ g = fun D => (v, { u with draws := D })

/-- `F` follows a script: it ends, or it stops with a fault, or it makes a transaction, and where that succeeds it goes
on in the same way whatever the draw. `l` is what is in SINK, and `Q` holds of the result where it ends. -/
inductive Script {α : Type} (s : State) (Q : List Byte → (List Draw → α) → Prop) :
    List Byte → (List Draw → Ran α) → Prop
  | done {l : List Byte} {g : List Draw → α} (hg : Q l g) : Script s Q l fun D => .ok (g D)
  | fault {l : List Byte} {u : State} (c : FaultCode) (k : Bool) (hu : Frame s l u) :
    Script s Q l fun D => .error ⟨.fault c k, { u with draws := D }⟩
  | broken {l : List Byte} {u : State} (f : Fault) (hu : Frame s l u) :
    Script s Q l fun D => .error ⟨.broken f, { u with draws := D }⟩
  | ask {l : List Byte} {u : State} {F K : List Draw → Ran α} {what : Transaction} (waits : Waits s l F 0 what u)
    (goes : ∀ took D, F (⟨[], .ok, took⟩ :: D) = K D) (last : F [] = K [])
    (next : Script s Q (l ++ pushed what) K) : Script s Q l F

variable {α β : Type} {s u : State} {l : List Byte} {Q : List Byte → (List Draw → α) → Prop}

/-- What comes after a first part that waits does not matter. -/
theorem Waits.bind {F : List Draw → Ran β} {G : β → Ran α} {k : Nat} {what : Transaction} (h : Waits s l F k what u) :
    Waits s l (fun D => F D >>= G) k what u :=
  ⟨h.1, fun took ds => ⟨congrArg (· >>= G) (h.2 took ds).1, congrArg (· >>= G) (h.2 took ds).2⟩⟩

/-- The pseudocode goes on from what its first part leaves. -/
theorem Script.bind {Q' : List Byte → (List Draw → β) → Prop} {F : List Draw → Ran β} {G : β → Ran α}
    (h : Script s Q' l F) (hG : ∀ l g, Q' l g → Script s Q l fun D => G (g D)) :
    Script s Q l fun D => F D >>= G := by
  induction h with
  | done hg => exact hG _ _ hg
  | fault c k hu => exact .fault c k hu
  | broken f hu => exact .broken f hu
  | ask waits goes last _ ih => exact .ask waits.bind (fun took D => by rw [goes]) (by rw [last]) ih

/-- The first part leaves a state. -/
theorem Script.state {F : List Draw → Ran State} {G : State → Ran α} (h : Script s (Leaves s) l F)
    (hG : ∀ l u, Frame s l u → Script s Q l fun D => G { u with draws := D }) : Script s Q l fun D => F D >>= G :=
  h.bind fun l _ ⟨u, hu, e⟩ => e ▸ hG l u hu

/-- The first part leaves a state and gives a value. -/
theorem Script.value {F : List Draw → Ran (β × State)} {G : β × State → Ran α} (h : Script s (LeavesWith s) l F)
    (hG : ∀ l v u, Frame s l u → Script s Q l fun D => G (v, { u with draws := D })) :
    Script s Q l fun D => F D >>= G :=
  h.bind fun l _ ⟨v, u, hu, e⟩ => e ▸ hG l v u hu

theorem Script.ret (hu : Frame s l u) : Script s (Leaves s) l fun D => .ok { u with draws := D } := .done ⟨u, hu, rfl⟩
theorem Script.retWith (v : β) (hu : Frame s l u) : Script s (LeavesWith s) l fun D => .ok (v, { u with draws := D }) :=
  .done ⟨v, u, hu, rfl⟩

/-- A check (60_exceptions R235). -/
theorem Script.check {c : Prop} [Decidable c] {code : FaultCode} {G : List Draw → Unit → Ran α} (hu : Frame s l u)
    (hG : c → Script s Q l fun D => G D ()) : Script s Q l fun D => require c code { u with draws := D } >>= G D := by
  by_cases hc : c
  · simp only [require_true hc]
    exact hG hc
  · simp only [require_false hc]
    exact .fault _ _ hu

/-- A test that does not see the draws. -/
theorem Script.ite {c : Prop} {inst : List Draw → Decidable c} {A B : List Draw → Ran α} (hA : c → Script s Q l A)
    (hB : ¬c → Script s Q l B) : Script s Q l fun D => @ite _ c (inst D) (A D) (B D) := by
  by_cases hc : c
  · simp only [if_pos hc]
    exact hA hc
  · simp only [if_neg hc]
    exact hB hc

/-! ## Ports -/

/-- A transaction whose failure is raised. -/
theorem transact_waits (what : Transaction) {G : Bool × State → Ran α} (hu : Frame s l u)
    (hfail : ∀ v, G (false, v) = raise (failCode what) v) :
    Waits s l (fun D => transact what { u with draws := D } >>= G) 0 what u := by
  refine ⟨hu, fun took ds => ⟨?_, ?_⟩⟩
  · show transact what { u with draws := ⟨[], .never, took⟩ :: ds } >>= G = _
    rw [transact_alone what (s := { u with draws := ⟨[], .never, took⟩ :: ds }) rfl]
    rfl
  · show transact what { u with draws := ⟨[], .ioError, took⟩ :: ds } >>= G = _
    rw [transact_alone what (s := { u with draws := ⟨[], .ioError, took⟩ :: ds }) rfl]
    exact hfail _

theorem Script.transact (what : Transaction) {G : Bool × State → Ran α} (hu : Frame s l u)
    (hfail : ∀ v, G (false, v) = raise (failCode what) v)
    (hG : Script s Q (l ++ pushed what) fun D => G (true, { u with draws := D })) :
    Script s Q l fun D => transact what { u with draws := D } >>= G := by
  have hnone : ∀ D, ({ u with draws := D, inflight := none } : State) = { u with draws := D } := fun D => by
    obtain ⟨-, -, -, hi, -⟩ := hu
    rw [← hi]
  refine .ask (transact_waits what hu hfail) (fun took D => ?_) ?_ hG
  · rw [transact_alone what (s := { u with draws := ⟨[], .ok, took⟩ :: D }) rfl, ← hnone D]; rfl
  · rw [← hnone]; rfl

theorem pullByte_waits (hu : Frame s l u) : Waits s l (fun D => pullByte { u with draws := D }) 0 .pull u :=
  transact_waits .pull hu fun _ => rfl
theorem srcLen_waits (hu : Frame s l u) : Waits s l (fun D => srcLen { u with draws := D }) 0 .length u :=
  transact_waits .length hu fun _ => rfl
theorem srcRewind_waits (hu : Frame s l u) : Waits s l (fun D => srcRewind { u with draws := D }) 0 .rewind u :=
  transact_waits .rewind hu fun _ => rfl
theorem pushByte_waits (b : Byte) (hu : Frame s l u) :
    Waits s l (fun D => pushByte b { u with draws := D }) 0 (.push b) u :=
  transact_waits (.push b) hu fun _ => rfl

theorem Script.pullByte (hu : Frame s l u) : Script s (LeavesWith s) l fun D => pullByte { u with draws := D } := by
  refine Script.transact .pull hu (fun _ => rfl) ?_
  simp only [pushed, List.append_nil, if_true]
  split
  · exact .retWith _ (u := { u with pos := u.pos + 1 }) hu
  · exact .retWith _ hu

theorem Script.srcLen (hu : Frame s l u) : Script s (LeavesWith s) l fun D => srcLen { u with draws := D } := by
  refine Script.transact .length hu (fun _ => rfl) ?_
  simp only [pushed, List.append_nil, Bool.true_and]
  split
  · exact .retWith _ hu
  · exact .fault _ _ hu

theorem Script.srcRewind (hu : Frame s l u) : Script s (Leaves s) l fun D => srcRewind { u with draws := D } := by
  refine Script.transact .rewind hu (fun _ => rfl) ?_
  simp only [pushed, List.append_nil, Bool.true_and]
  split
  · exact .ret (u := { u with pos := 0 }) hu
  · exact .fault _ _ hu

theorem Script.pushByte (b : Byte) (hu : Frame s l u) :
    Script s (Leaves s) l fun D => pushByte b { u with draws := D } := by
  refine Script.transact (.push b) hu (fun _ => rfl) ?_
  obtain ⟨hb, hd, ho, hi, hs⟩ := hu
  exact .ret (u := { u with sink := u.sink ++ [b] }) ⟨hb, hd, ho, hi, by rw [hs]; rfl⟩

/-! ## Writer and reader -/

theorem Script.putBit (b : Bool) (hu : Frame s l u) :
    Script s (Leaves s) l fun D => putBit b { u with draws := D } := by
  simp only [Machine.putBit]
  split
  · exact (Script.pushByte _ hu).state fun l v hv => .ret (u := { v with wpend := [] }) hv
  · exact .ret (u := { u with wpend := u.wpend ++ [b] }) hu

theorem Script.putString (bs : Bits) (hu : Frame s l u) :
    Script s (Leaves s) l fun D => putString bs { u with draws := D } := by
  induction bs generalizing l u with
  | nil => exact .ret hu
  | cons b bs ih => exact (Script.putBit b hu).state fun _ _ hv => ih hv

theorem Script.putBits (v n : Nat) (hu : Frame s l u) :
    Script s (Leaves s) l fun D => putBits v n { u with draws := D } := Script.putString _ hu

theorem Script.flush (hu : Frame s l u) : Script s (Leaves s) l fun D => flush { u with draws := D } := by
  simp only [Machine.flush]
  split
  · exact .ret hu
  · exact (Script.pushByte _ hu).state fun l v hv => .ret (u := { v with wpend := [] }) hv

theorem Script.gammaPut (v : Nat) (hu : Frame s l u) :
    Script s (Leaves s) l fun D => gammaPut v { u with draws := D } :=
  (Script.putBits _ _ hu).state fun _ _ hv => Script.putBits _ _ hv

theorem Script.putBytes (bs : List Byte) (hu : Frame s l u) :
    Script s (Leaves s) l fun D => putBytes bs { u with draws := D } := by
  induction bs generalizing l u with
  | nil => exact .ret hu
  | cons b bs ih => exact (Script.putBits _ _ hu).state fun _ _ hv => ih hv

theorem Script.fill (fuel n : Nat) (hu : Frame s l u) :
    Script s (Leaves s) l fun D => fill fuel n { u with draws := D } := by
  induction fuel generalizing l u with
  | zero => exact .ret hu
  | succ fuel ih =>
    simp only [Machine.fill]
    split
    · refine (Script.pullByte hu).value fun l r v hv => ?_
      cases r with
      | none => exact .fault _ _ hv
      | some b => exact ih (u := { v with rpend := v.rpend ++ binByte b }) hv
    · exact .ret hu

theorem Script.fillOrEnd (fuel n : Nat) (hu : Frame s l u) :
    Script s (LeavesWith s) l fun D => fillOrEnd fuel n { u with draws := D } := by
  induction fuel generalizing l u with
  | zero => exact .retWith _ hu
  | succ fuel ih =>
    simp only [Machine.fillOrEnd]
    split
    · refine (Script.pullByte hu).value fun l r v hv => ?_
      cases r with
      | none => exact .retWith _ hv
      | some b => exact ih (u := { v with rpend := v.rpend ++ binByte b }) hv
    · exact .retWith _ hu

theorem Script.getBits (n : Nat) (hu : Frame s l u) :
    Script s (LeavesWith s) l fun D => getBits n { u with draws := D } :=
  (Script.fill n n hu).state fun _ v hv =>
    .retWith (val (v.rpend.take n)) (u := { v with rpend := v.rpend.drop n }) hv

theorem Script.nextWord (w : Nat) (hu : Frame s l u) :
    Script s (LeavesWith s) l fun D => nextWord w { u with draws := D } := by
  refine (Script.fillOrEnd w w hu).value fun l full v hv => ?_
  cases full
  · exact .retWith (val v.rpend, v.rpend.length) (u := { v with rpend := [] }) hv
  · exact .retWith (val (v.rpend.take w), w) (u := { v with rpend := v.rpend.drop w }) hv

theorem Script.gammaZeros (left n : Nat) (hu : Frame s l u) :
    Script s (LeavesWith s) l fun D => gammaZeros left n { u with draws := D } := by
  induction left generalizing n l u with
  | zero => exact .fault _ _ hu
  | succ left ih =>
    refine (Script.getBits 1 hu).value fun l b v hv => ?_
    simp only
    split
    · exact .retWith _ hv
    · exact ih _ hv

theorem Script.gammaGet (hu : Frame s l u) : Script s (LeavesWith s) l fun D => gammaGet { u with draws := D } := by
  refine (Script.gammaZeros 64 0 hu).value fun l n v hv => ?_
  simp only
  split
  · exact .retWith _ hv
  · exact (Script.getBits n hv).value fun l r x hx => .retWith (2 ^ n + r - 1) hx

end Sys2Proof.Machine
end

section
/-! SUPPORT. The rule of every command follows a script. -/

namespace Sys2Proof.Machine

variable {s u : State} {l : List Byte}

/-! ## Histogram and tree -/

theorem Script.countWord (v : Nat) (hu : Frame s l u) :
    Script s (Leaves s) l fun D => countWord v { u with draws := D } := by
  simp only [Machine.countWord]
  split
  · exact .broken _ hu
  · rename_i c _
    split
    · exact .fault _ _ hu
    · exact .ret (u := { u with counts := u.counts.set v (c + 1) }) hu

theorem Script.histLoop (w fuel total : Nat) (hu : Frame s l u) :
    Script s (LeavesWith s) l fun D => histLoop w fuel total { u with draws := D } := by
  induction fuel generalizing total l u with
  | zero => exact .retWith _ hu
  | succ fuel ih =>
    refine (Script.nextWord w hu).value fun l r v hv => ?_
    simp only
    split
    · exact .retWith _ hv
    · exact (Script.countWord r.1 hv).state fun _ _ hx => ih (total + 1) hx

theorem Script.histBuild (w : Nat) (hu : Frame s l u) :
    Script s (LeavesWith s) l fun D => histBuild w { u with draws := D } :=
  Script.histLoop w (inputBits (clearHistogram w u) + 1) 0 (u := clearHistogram w u) hu

theorem Script.rebuildLoop (w fuel : Nat) (r : Rebuild) (hu : Frame s l u) :
    Script s (LeavesWith s) l fun D => rebuildLoop w fuel r { u with draws := D } := by
  induction fuel generalizing r l u with
  | zero =>
    obtain ⟨slots, next, seen, _ | ⟨t, rest⟩⟩ := r
    · exact .retWith _ hu
    · exact .fault _ _ hu
  | succ fuel ih =>
    obtain ⟨slots, next, seen, _ | ⟨t, rest⟩⟩ := r
    · exact .retWith _ hu
    · refine (Script.getBits 1 hu).value fun l f v hv => ?_
      simp only
      split
      · refine (Script.getBits w hv).value fun l x y hy => ?_
        simp only
        split
        · exact .fault _ _ hy
        · exact ih _ hy
      · split
        · exact .fault _ _ hv
        · exact ih _ hv

theorem Script.treeRead (hu : Frame s l u) : Script s (LeavesWith s) l fun D => treeRead { u with draws := D } := by
  refine (Script.getBits 4 hu).value fun l f v hv => ?_
  refine (Script.rebuildLoop (f + 2) (2 * internals (f + 2)) (Rebuild.start (f + 2)) hv).value fun l r x hx => ?_
  simp only
  split
  · exact .fault _ _ hx
  · exact .retWith (f + 2) (u := { x with tw := f + 2, nodes := r.nodes }) hx

theorem Script.treeWrite (hu : Frame s l u) : Script s (Leaves s) l fun D => treeWrite { u with draws := D } := by
  simp only [Machine.treeWrite]
  split
  · exact .broken _ hu
  · exact Script.putString _ hu

theorem Script.walk (w : Nat) (nodes : List Node) (fuel i : Nat) (hu : Frame s l u) :
    Script s (LeavesWith s) l fun D => walk w nodes fuel i { u with draws := D } := by
  induction fuel generalizing i l u with
  | zero =>
    simp only [Machine.walk]
    split
    · exact .retWith _ hu
    · exact .broken _ hu
  | succ fuel ih =>
    simp only [Machine.walk]
    split
    · exact .retWith _ hu
    · refine (Script.getBits 1 hu).value fun l b v hv => ?_
      simp only
      split
      · exact .broken _ hv
      · rename_i nd _
        exact ih (if b = 0 then nd.left else nd.right) hv

theorem Script.treeDecode (hu : Frame s l u) : Script s (LeavesWith s) l fun D => treeDecode { u with draws := D } :=
  Script.walk u.tw u.nodes (internals u.tw) 0 hu

/-- The code of symbol ARG0, which needs no transaction, and what is done with it. -/
theorem Script.codeOperand {G : List Draw → Bits → Ran State} (hu : Frame s l u)
    (hG : ∀ c, Script s (Leaves s) l fun D => G D c) :
    Script s (Leaves s) l fun D => codeOperand { u with draws := D } >>= G D := by
  simp only [Machine.codeOperand, bind_assoc]
  refine Script.check (c := u.tw ≠ 0) hu fun _ => Script.check (c := arg0Nat u < 2 ^ u.tw) hu fun _ => ?_
  cases e : code u.tw u.nodes (arg0Nat u) with
  | none =>
    have hcode : ∀ D, code u.tw u.nodes (arg0Nat { u with draws := D }) = none := fun _ => e
    simp only [hcode]
    exact .broken _ hu
  | some c =>
    have hcode : ∀ D, code u.tw u.nodes (arg0Nat { u with draws := D }) = some c := fun _ => e
    simp only [hcode, bind_assoc]
    exact Script.check (c := c.length ≤ u.params.maxCodeLen) hu fun _ => hG c

/-! ## Huffman containers -/

theorem Script.putCode (x : Nat) (hu : Frame s l u) :
    Script s (Leaves s) l fun D => putCode x { u with draws := D } := by
  simp only [Machine.putCode]
  split
  · exact .broken _ hu
  · exact Script.putString _ hu

theorem Script.codeLoop (w fuel : Nat) (hu : Frame s l u) :
    Script s (Leaves s) l fun D => codeLoop w fuel { u with draws := D } := by
  induction fuel generalizing l u with
  | zero => exact .ret hu
  | succ fuel ih =>
    refine (Script.nextWord w hu).value fun l r v hv => ?_
    simp only
    split
    · exact .ret hv
    · exact (Script.putCode r.1 hv).state fun _ _ hx => ih hx

theorem Script.decodeLoop (w fuel rem : Nat) (hu : Frame s l u) :
    Script s (Leaves s) l fun D => decodeLoop w fuel rem { u with draws := D } := by
  induction fuel generalizing rem l u with
  | zero => exact .ret hu
  | succ fuel ih =>
    simp only [Machine.decodeLoop]
    split
    · exact .ret hu
    · exact (Script.treeDecode hu).value fun l x v hv => (Script.putBits x (min w rem) hv).state fun _ _ hy => ih _ hy

theorem Script.requireAligned {G : List Draw → Unit → Ran State} (hu : Frame s l u)
    (hG : Script s (Leaves s) l fun D => G D ()) :
    Script s (Leaves s) l fun D => requireAligned { u with draws := D } >>= G D :=
  Script.check (c := u.wpend.length = 0 ∧ u.rpend.length = 0) hu fun _ => hG

theorem Script.hufComp (w : Nat) (hu : Frame s l u) :
    Script s (Leaves s) l fun D => hufCompRule w { u with draws := D } := by
  refine Script.check hu fun _ => Script.requireAligned hu ?_
  refine (Script.srcLen hu).value fun l n a ha => (Script.srcRewind ha).state fun l b hb => ?_
  refine (Script.histBuild w hb).value fun l _ c hc => ?_
  refine (Script.srcRewind (u := treeBuild c) hc).state fun l d hd => ?_
  refine (Script.putBits n.toNat 64 (u := { d with rpend := [] }) hd).state fun l e he => ?_
  refine (Script.treeWrite he).state fun l f hf => ?_
  refine (Script.codeLoop w (inputBits f + 1) hf).state fun l g hg => ?_
  exact (Script.flush hg).state fun l x hx => .ret (u := setRes0 n x) hx

theorem Script.hufDecomp (hu : Frame s l u) : Script s (Leaves s) l fun D => hufDecompRule { u with draws := D } := by
  refine Script.requireAligned hu ((Script.getBits 64 hu).value fun l n a ha => ?_)
  refine (Script.treeRead ha).value fun l w b hb => (Script.decodeLoop w (8 * n) (8 * n) hb).state fun l c hc => ?_
  exact .ret (u := setRes1 (BitVec.ofNat 64 w) (setRes0 (BitVec.ofNat 64 n) { c with rpend := [] })) hc

/-! ## Dictionary -/

/-- The answer of LzAdd with other draws to come. -/
def AddResult.withDraws (D : List Draw) : AddResult → AddResult
  | .known s => .known { s with draws := D }
  | .pair p b s => .pair p b { s with draws := D }
  | .full => .full

/-- LzAdd does not see the draws. -/
theorem dictAdd_withDraws (ph : List Byte) (u : State) (D : List Draw) :
    dictAdd ph { u with draws := D } = (dictAdd ph u).withDraws D := by
  have hdrop : dropIfFull { u with draws := D } = { dropIfFull u with draws := D } := by
    simp only [dropIfFull, dictSize]
    split
    · rename_i n _
      by_cases hn : n ≤ u.lznodes.length <;> simp only [hn, if_true, if_false, clearDictionary]
    · rfl
    · rfl
  simp only [dictAdd, hdrop]
  generalize dropIfFull u = v
  rw [show frozen { v with draws := D } = frozen v from rfl]
  split
  · rfl
  · split
    · rfl
    · simp only [dictSize]
      by_cases hc : v.params.dictCap ≤ v.lznodes.length <;> simp only [hc, if_true, if_false] <;> rfl

theorem Frame.dictAdd {ph : List Byte} {t : State} (hu : Frame s l u) (ht : (dictAdd ph u).state? = some t) :
    Frame s l t := by
  rw [dictAdd_frame ht]
  exact hu

theorem Script.lzEncLoop (fuel : Nat) (hu : Frame s l u) :
    Script s (Leaves s) l fun D => lzEncLoop fuel { u with draws := D } := by
  induction fuel generalizing l u with
  | zero => exact .ret hu
  | succ fuel ih =>
    refine (Script.pullByte hu).value fun l r v hv => ?_
    cases r with
    | none => exact .ret hv
    | some b =>
      have hadd := dictAdd_withDraws (v.pb ++ [b]) { v with pb := v.pb ++ [b] }
      have hframe := fun t => Frame.dictAdd (ph := v.pb ++ [b]) (u := { v with pb := v.pb ++ [b] }) (t := t) hv
      cases e : Machine.dictAdd (v.pb ++ [b]) { v with pb := v.pb ++ [b] } <;> simp only [e] at hadd hframe ⊢ <;>
        simp only [hadd]
      case known t => exact ih (hframe t rfl)
      case full => exact .fault _ _ (u := { v with pb := v.pb ++ [b] }) hv
      case pair p lit t =>
        refine (Script.gammaPut p (hframe t rfl)).state fun l x hx => ?_
        exact (Script.putBits lit.toNat 8 hx).state fun l y hy => ih (u := { y with pb := [] }) hy

theorem Script.lzEncEnd (hu : Frame s l u) : Script s (Leaves s) l fun D => lzEncEnd { u with draws := D } := by
  refine Script.ite (c := u.pb.length = 0) (fun _ => Script.gammaPut (dictSize u + 1) hu) fun _ => ?_
  cases e : dictFind u.pb u with
  | none =>
    have hfind : ∀ D, dictFind u.pb { u with draws := D } = none := fun _ => e
    simp only [hfind]
    exact .fault _ _ hu
  | some j =>
    have hfind : ∀ D, dictFind u.pb { u with draws := D } = some j := fun _ => e
    simp only [hfind]
    exact (Script.gammaPut (dictSize u + 2) hu).state fun l v hv => Script.gammaPut j hv

/-- The state in which the loops of LZ.ENC and LZ.DEC begin: nothing in the dictionary or PB (47_lz78_codec R221,
R222). -/
def codecStart (v : Word) (s : State) : State := { dictInit v s with pb := [] }

theorem Script.lzEnc (hu : Frame s l u) : Script s (Leaves s) l fun D => lzEncRule { u with draws := D } := by
  simp only [lzEncRule]
  refine Script.check (c := u.arg0 ≠ 0x8000000000000000#64) hu fun _ => Script.requireAligned hu ?_
  refine (Script.gammaPut (zz u.arg0.toInt) hu).state fun l a ha => ?_
  refine (Script.lzEncLoop (a.src.length - a.pos + 1) (u := codecStart u.arg0 a) ha).state fun l b hb => ?_
  refine (Script.lzEncEnd hb).state fun l c hc => (Script.flush hc).state fun l d hd => ?_
  exact .ret (u := setRes0 (BitVec.ofNat 64 (dictSize d)) d) hd

theorem Script.lzDecAdd (hu : Frame s l u) : Script s (Leaves s) l fun D => lzDecAdd { u with draws := D } := by
  have hadd := dictAdd_withDraws u.pb u
  have hframe := fun t => Frame.dictAdd (ph := u.pb) (t := t) hu
  simp only [Machine.lzDecAdd]
  cases e : Machine.dictAdd u.pb u <;> simp only [e] at hadd hframe <;> simp only [hadd]
  case known t => exact .ret (hframe t rfl)
  case pair p b t => exact .ret (hframe t rfl)
  case full => exact .fault _ _ hu

theorem Script.lzDecLoop (fuel : Nat) (hu : Frame s l u) :
    Script s (Leaves s) l fun D => lzDecLoop fuel { u with draws := D } := by
  induction fuel generalizing l u with
  | zero => exact .ret hu
  | succ fuel ih =>
    refine (Script.gammaGet hu).value fun l i a ha => ?_
    refine Script.ite (c := i = dictSize a + 1) (fun _ => .ret ha) fun _ => ?_
    refine Script.ite (c := i = dictSize a + 2) (fun _ => ?_) fun _ => ?_
    · refine (Script.gammaGet ha).value fun l j b hb => ?_
      cases e : dictGet j b with
      | none =>
        have hget : ∀ D, dictGet j { b with draws := D } = none := fun _ => e
        simp only [hget]
        exact .fault _ _ hb
      | some ph =>
        have hget : ∀ D, dictGet j { b with draws := D } = some ph := fun _ => e
        simp only [hget]
        exact Script.putBytes ph (u := { b with pb := ph }) hb
    · refine (Script.getBits 8 ha).value fun l lit b hb => ?_
      cases e : pairPhrase i (BitVec.ofNat 8 lit) b with
      | none =>
        have hpair : ∀ D, pairPhrase i (BitVec.ofNat 8 lit) { b with draws := D } = none := fun _ => e
        simp only [hpair]
        exact .fault _ _ hb
      | some ph =>
        have hpair : ∀ D, pairPhrase i (BitVec.ofNat 8 lit) { b with draws := D } = some ph := fun _ => e
        simp only [hpair]
        refine (Script.putBytes ph (u := { b with pb := ph }) hb).state fun l c hc => ?_
        exact (Script.lzDecAdd hc).state fun l d hd => ih hd

theorem Script.lzDec (hu : Frame s l u) : Script s (Leaves s) l fun D => lzDecRule { u with draws := D } := by
  refine Script.requireAligned hu ((Script.gammaGet hu).value fun l v a ha => ?_)
  refine (Script.lzDecLoop (inputBits a + 1) (u := codecStart (bits64 (unzz v)) a) ha).state fun l b hb => ?_
  exact .ret (u := setRes1 (bits64 (unzz v)) (setRes0 (BitVec.ofNat 64 (dictSize b)) { b with rpend := [] })) hb

theorem Script.lzAdd (hu : Frame s l u) : Script s (Leaves s) l fun D => lzAddRule { u with draws := D } := by
  refine Script.check (c := 1 ≤ u.pb.length) hu fun _ => ?_
  have hadd := dictAdd_withDraws u.pb u
  have hframe := fun t => Frame.dictAdd (ph := u.pb) (t := t) hu
  cases e : Machine.dictAdd u.pb u <;> simp only [e] at hadd hframe <;> simp only [hadd]
  case known t => exact .ret (u := setRes1 0 (setRes0 0 (setExists t))) (hframe t rfl)
  case pair p b t => exact .ret (u := setRes1 (b.setWidth 64) (setRes0 (BitVec.ofNat 64 p) t)) (hframe t rfl)
  case full => exact .fault _ _ hu

/-! ## Every command -/

/-- The rule of every command follows a script: what it does depends on the draws only where one of them fails or never
comes. -/
theorem Script.ruleOf (i : Instr) (hu : Frame s l u) :
    Script s (Leaves s) l fun D => ruleOf i { u with draws := D } := by
  cases i with
  | nop => exact .ret hu
  | bwWrite n => exact Script.check hu fun _ => Script.putBits (arg0Nat u) n hu
  | bwFlush => exact Script.flush hu
  | brRead n =>
    exact Script.check hu fun _ => (Script.getBits n hu).value fun l v a ha =>
      .ret (u := setRes0 (BitVec.ofNat 64 v) a) ha
  | brWord w =>
    exact Script.check hu fun _ => (Script.nextWord w hu).value fun l v a ha =>
      .ret (u := setEnd (v.2 == 0) (setRes1 (BitVec.ofNat 64 v.2) (setRes0 (BitVec.ofNat 64 v.1) a))) ha
  | inRewind => exact (Script.srcRewind hu).state fun l a ha => .ret (u := { a with rpend := [] }) ha
  | inLength => exact (Script.srcLen hu).value fun l v a ha => .ret (u := setRes0 v a) ha
  | gammaEnc =>
    exact Script.check (c := arg0Nat u ≤ 2 ^ 64 - 2) hu fun _ => Script.gammaPut (arg0Nat u) hu
  | gammaDec => exact (Script.gammaGet hu).value fun l v a ha => .ret (u := setRes0 (BitVec.ofNat 64 v) a) ha
  | zzEnc => exact .ret (u := setRes0 (BitVec.ofNat 64 (zz (arg0Int u))) u) hu
  | zzDec => exact .ret (u := setRes0 (bits64 (unzz (arg0Nat u))) u) hu
  | histBuild w =>
    exact Script.check (c := 1 ≤ w ∧ w ≤ u.params.maxHistW) hu fun _ => (Script.histBuild w hu).value fun l v a ha =>
      .ret (u := setRes0 (BitVec.ofNat 64 v) a) ha
  | histClear w =>
    exact Script.check (c := 1 ≤ w ∧ w ≤ u.params.maxHistW) hu fun _ => .ret (u := clearHistogram w u) hu
  | histSet =>
    refine Script.check (c := u.hw ≠ 0) hu fun _ => Script.check (c := arg0Nat u < 2 ^ u.hw) hu fun _ => ?_
    refine Script.ite (c := arg0Nat u < u.counts.length) (fun _ => ?_) fun _ => .broken _ hu
    exact .ret (u := { u with counts := u.counts.set (arg0Nat u) u.arg1 }) hu
  | histGet =>
    refine Script.check (c := u.hw ≠ 0) hu fun _ => Script.check (c := arg0Nat u < 2 ^ u.hw) hu fun _ => ?_
    simp only [arg0Nat]
    split
    · rename_i c _
      exact .ret (u := setRes0 c u) hu
    · exact .broken _ hu
  | htBuild => exact Script.check (c := u.hw ≠ 0) hu fun _ => .ret (u := treeBuild u) hu
  | htWrite =>
    exact Script.check (c := u.tw ≠ 0) hu fun _ => Script.check (c := 2 ≤ u.tw ∧ u.tw ≤ 17) hu fun _ =>
      Script.treeWrite hu
  | htRead => exact (Script.treeRead hu).value fun l w a ha => .ret (u := setRes0 (BitVec.ofNat 64 w) a) ha
  | htEnc =>
    exact Script.codeOperand hu fun c => Script.putBits (val c) c.length hu
  | htDec =>
    exact Script.check (c := u.tw ≠ 0) hu fun _ => (Script.treeDecode hu).value fun l x a ha =>
      .ret (u := setRes0 (BitVec.ofNat 64 x) a) ha
  | htCode =>
    exact Script.codeOperand hu fun c =>
      .ret (u := setRes1 (BitVec.ofNat 64 c.length) (setRes0 (BitVec.ofNat 64 (val c)) u)) hu
  | htNode =>
    refine Script.check (c := u.tw ≠ 0) hu fun _ => Script.check (c := arg0Nat u < 2 ^ u.tw - 1) hu fun _ => ?_
    simp only [arg0Nat]
    split
    · exact .broken _ hu
    · rename_i nd _
      exact .ret (u := setRes1 (BitVec.ofNat 64 nd.right) (setRes0 (BitVec.ofNat 64 nd.left) u)) hu
  | hufComp w => exact Script.hufComp w hu
  | hufDecomp => exact Script.hufDecomp hu
  | lzInit => exact .ret (u := dictInit u.arg0 u) hu
  | lzAdd => exact Script.lzAdd hu
  | lzGet =>
    cases e : dictGet (arg0Nat u) u with
    | none =>
      have hget : ∀ D, dictGet (arg0Nat { u with draws := D }) { u with draws := D } = none := fun _ => e
      simp only [Machine.ruleOf, lzGetRule, hget]
      exact .ret (u := setRes0 0 (setNotFound u)) hu
    | some ph =>
      have hget : ∀ D, dictGet (arg0Nat { u with draws := D }) { u with draws := D } = some ph := fun _ => e
      simp only [Machine.ruleOf, lzGetRule, hget]
      exact .ret (u := setRes0 (BitVec.ofNat 64 ph.length) { u with pb := ph }) hu
  | lzFind =>
    cases e : dictFind u.pb u with
    | none =>
      have hfind : ∀ D, dictFind u.pb { u with draws := D } = none := fun _ => e
      simp only [Machine.ruleOf, lzFindRule, hfind]
      exact .ret (u := setRes0 0 (setNotFound u)) hu
    | some k =>
      have hfind : ∀ D, dictFind u.pb { u with draws := D } = some k := fun _ => e
      simp only [Machine.ruleOf, lzFindRule, hfind]
      exact .ret (u := setRes0 (BitVec.ofNat 64 k) u) hu
  | lzSize => exact .ret (u := setRes1 u.strat (setRes0 (BitVec.ofNat 64 (dictSize u)) u)) hu
  | lzNode =>
    cases e : dictNode (arg0Nat u) u with
    | none =>
      have hnode : ∀ D, dictNode (arg0Nat { u with draws := D }) { u with draws := D } = none := fun _ => e
      simp only [Machine.ruleOf, lzNodeRule, hnode]
      exact .ret (u := setRes1 0 (setRes0 0 (setNotFound u))) hu
    | some nd =>
      have hnode : ∀ D, dictNode (arg0Nat { u with draws := D }) { u with draws := D } = some nd := fun _ => e
      simp only [Machine.ruleOf, lzNodeRule, hnode]
      exact .ret (u := setRes1 (nd.byte.setWidth 64) (setRes0 (BitVec.ofNat 64 nd.parent) u)) hu
  | pbClear => exact .ret (u := { u with pb := [] }) hu
  | pbPush =>
    exact Script.check (c := u.pb.length < u.params.pbCap) hu fun _ =>
      .ret (u := { u with pb := u.pb ++ [arg0Byte u] }) hu
  | pbGet =>
    simp only [Machine.ruleOf, pbGetRule, arg0Nat]
    split
    · rename_i b _
      exact .ret (u := setRes0 (b.setWidth 64) (setRes1 (BitVec.ofNat 64 u.pb.length) u)) hu
    · exact .ret (u := setRes0 0 (setNotFound (setRes1 (BitVec.ofNat 64 u.pb.length) u))) hu
  | lzEnc => exact Script.lzEnc hu
  | lzDec => exact Script.lzDec hu

end Sys2Proof.Machine
end

section
/-! SUPPORT. Commands on ports that fail or never answer at one transaction. -/

namespace Sys2Proof.Machine

/-! ## Where a script ends -/

/-- Draws with which every transaction succeeds. -/
def Answering (ds : List Draw) : Prop := ∀ d ∈ ds, d.during = [] ∧ d.answer = .ok

variable {α : Type} {s u : State} {l : List Byte} {Q : List Byte → (List Draw → α) → Prop}

/-- One transaction more before it. -/
theorem Waits.after {F K : List Draw → Ran α} {k : Nat} {what : Transaction} (h : Waits s l K k what u)
    (goes : ∀ took D, F (⟨[], .ok, took⟩ :: D) = K D) : Waits s l F (k + 1) what u := by
  have hgo : ∀ D, F (Draw.prompt :: D) = K D := goes false
  refine ⟨h.1, fun took ds => ?_⟩
  simp only [List.replicate_succ, List.cons_append, hgo]
  exact h.2 took ds

/-- On ports that never answer one transaction a script ends or stops before it, or waits there. -/
theorem Script.never {F : List Draw → Ran α} (h : Script s Q l F) (k : Nat) (took : Bool) (ds : List Draw) :
    (∃ a, F (List.replicate k Draw.prompt ++ ⟨[], .never, took⟩ :: ds) = .ok a)
      ∨ (∃ (c : FaultCode) (keep : Bool) (u : State) (m : Nat),
          F (List.replicate k Draw.prompt ++ ⟨[], .never, took⟩ :: ds)
            = .error ⟨.fault c keep, { u with draws := List.replicate m Draw.prompt ++ ⟨[], .never, took⟩ :: ds }⟩)
      ∨ (∃ (f : Fault) (u : State),
          F (List.replicate k Draw.prompt ++ ⟨[], .never, took⟩ :: ds) = .error ⟨.broken f, u⟩)
      ∨ ∃ l what u, Waits s l F k what u := by
  induction h generalizing k with
  | done _ => exact .inl ⟨_, rfl⟩
  | fault c keep _ => exact .inr (.inl ⟨c, keep, _, k, rfl⟩)
  | broken f _ => exact .inr (.inr (.inl ⟨f, _, rfl⟩))
  | ask waits goes _ _ ih =>
    cases k with
    | zero => exact .inr (.inr (.inr ⟨_, _, _, waits⟩))
    | succ k =>
      simp only [List.replicate_succ, List.cons_append]
      obtain ⟨a, e⟩ | ⟨c, keep, v, m, e⟩ | ⟨f, v, e⟩ | ⟨l, what, v, hw⟩ := ih k
      · exact .inl ⟨a, (goes _ _).trans e⟩
      · exact .inr (.inl ⟨c, keep, v, m, (goes _ _).trans e⟩)
      · exact .inr (.inr (.inl ⟨f, v, (goes _ _).trans e⟩))
      · exact .inr (.inr (.inr ⟨l, what, v, hw.after goes⟩))

/-- On ports that answer a script ends or stops; where it ends, each byte it pushed was in flight once, with the bytes
before it in SINK (20_memory R57). -/
theorem Script.answering {F : List Draw → Ran α} (h : Script s Q l F) {D : List Draw} (hD : Answering D) :
    (∃ out g D', Q (l ++ out) g ∧ F D = .ok (g D')
        ∧ ∀ j b, out[j]? = some b → ∃ k u, Waits s (l ++ out.take j) F k (.push b) u)
      ∨ (∃ (c : FaultCode) (keep : Bool) (l : List Byte) (u : State) (D' : List Draw),
          Frame s l u ∧ Answering D' ∧ F D = .error ⟨.fault c keep, { u with draws := D' }⟩)
      ∨ ∃ (f : Fault) (u : State), F D = .error ⟨.broken f, u⟩ := by
  induction h generalizing D with
  | done hg => exact .inl ⟨[], _, D, by rwa [List.append_nil], rfl, by simp⟩
  | fault c keep hu => exact .inr (.inl ⟨c, keep, _, _, D, hu, hD, rfl⟩)
  | broken f _ => exact .inr (.inr ⟨f, _, rfl⟩)
  | @ask l u F K what waits goes last _ ih =>
    obtain ⟨hF, hD'⟩ : F D = K D.tail ∧ Answering D.tail := by
      cases D with
      | nil => exact ⟨last, hD⟩
      | cons d ds =>
        obtain ⟨during, answer, took⟩ := d
        obtain ⟨rfl, rfl⟩ := hD _ List.mem_cons_self
        exact ⟨goes took ds, fun d hd => hD d (List.mem_cons_of_mem _ hd)⟩
    rw [hF]
    obtain ⟨out, g, D', hg, e, hout⟩ | stop := ih hD'
    · have hrest : ∀ j b, out[j]? = some b → ∃ k u, Waits s (l ++ (pushed what ++ out.take j)) F k (.push b) u := by
        intro j b hj
        obtain ⟨k, v, hw⟩ := hout j b hj
        rw [List.append_assoc] at hw
        exact ⟨k + 1, v, hw.after goes⟩
      refine .inl ⟨pushed what ++ out, g, D', by rwa [← List.append_assoc], e, ?_⟩
      cases what with
      | push c =>
        rintro (_ | j) b hj
        · cases Option.some.inj hj
          refine ⟨0, u, ?_⟩
          rw [List.take_zero, List.append_nil]
          exact waits
        · exact hrest j b hj
      | pull => exact hrest
      | length => exact hrest
      | rewind => exact hrest
    · exact .inr stop

/-! ## The start of a command -/

/-- Where the host does nothing before the first transaction, a command runs its rule from `started s`. -/
theorem exec_idle (i : Instr) {s : State} (h : ∀ o ∈ s.overlaps, o = []) :
    exec i s = finish i.op (ruleOf i (started s)) := by
  have e : s.overlaps.headD [] = [] := by
    cases ho : s.overlaps with
    | nil => rfl
    | cons o os => exact h o (by simp [ho])
  have hover : overlap (accept s) = .ok (started s) := by
    simp only [overlap, accept, clearFlags, e, whileBusy, started]
  rw [exec_eq_runCommand, runCommand, hover]
  rfl

theorem started_frame {s : State} (h : s.inflight = none) : Frame (started s) s.sink (started s) :=
  ⟨rfl, rfl, rfl, h, rfl⟩

/-- The rule of a command from its start, as a function of the draws. -/
def runFrom (i : Instr) (s : State) (D : List Draw) : Ran State := ruleOf i { started s with draws := D }

theorem Script.runFrom (i : Instr) {s : State} (h : s.inflight = none) :
    Script (started s) (Leaves (started s)) s.sink (runFrom i s) := Script.ruleOf i (started_frame h)

theorem exec_portsThen (i : Instr) {s : State} (h : ∀ o ∈ s.overlaps, o = []) (k : Nat) (d : Draw) (ds : List Draw) :
    exec i (portsThen k d ds s) = finish i.op (runFrom i s (List.replicate k Draw.prompt ++ d :: ds)) :=
  exec_idle i h

theorem portsThen_zero {s : State} {d : Draw} {ds : List Draw} (h : s.draws = d :: ds) : portsThen 0 d ds s = s := by
  show { s with draws := d :: ds } = s
  rw [← h]

/-- Inside a command of a host that does nothing meanwhile the ports are quiet where the draws to come answer. -/
theorem Frame.quiet (h : Frame (started s) l u) (ho : ∀ o ∈ s.overlaps, o = []) {ds : List Draw} (hds : Answering ds) :
    ({ u with draws := ds } : State).Quiet := by
  obtain ⟨-, -, hov, hin, -⟩ := h
  have hov' : u.overlaps = s.overlaps.tail := hov
  exact ⟨hin, fun o m => ho o (List.mem_of_mem_tail (hov' ▸ m)), hds⟩

/-! ## The end of a command that faults -/

/-- What a fault leaves before its flush (60_exceptions R234 to R236). -/
def faulted (op : Byte) (c : FaultCode) (keep : Bool) (s : State) : State :=
  if keep then recordFault op c s else residue c (recordFault op c s)

/-- A fault sets the record, and leaves the ports, what runs and what waits as they are. -/
theorem faulted_frame (op : Byte) (c : FaultCode) (keep : Bool) (s : State) :
    ((faulted op c keep s).err = true ∧ (faulted op c keep s).errcode = c ∧ (faulted op c keep s).errop = op)
      ∧ (faulted op c keep s).pos = s.pos ∧ (faulted op c keep s).sink = s.sink ∧ (faulted op c keep s).draws = s.draws
      ∧ (faulted op c keep s).inflight = s.inflight ∧ (faulted op c keep s).overlaps = s.overlaps := by
  cases keep <;> exact ⟨⟨rfl, rfl, rfl⟩, rfl, rfl, rfl, rfl, rfl⟩

/-- A fault other than IO_OUT leaves the pending bits for its flush (60_exceptions R237). -/
theorem faulted_wpend (op : Byte) {c : FaultCode} (keep : Bool) (s : State) (hc : c ≠ .ioOut) :
    (faulted op c keep s).wpend = s.wpend := by
  cases keep
  · exact if_neg hc
  · rfl

theorem takeFault_flush (op : Byte) {c : FaultCode} (keep : Bool) (s : State) (hc : c ≠ .ioOut) :
    takeFault op c keep s = faultFlush (faulted op c keep s) >>= fun u => .ok (endCommand u) := by
  simp only [takeFault, if_neg hc]
  rfl

theorem flushed_eq (s : State) :
    flushed s = { s with sink := (flushed s).sink, wpend := [], draws := (flushed s).draws } := by
  by_cases h : s.wpend = []
  · simp only [flushed, if_pos h]
    rw [← h]
  · simp only [flushed, if_neg h]

/-- What a flush leaves in SINK depends on SINK and the pending bits alone. -/
theorem flushed_sink_congr {s t : State} (hs : s.sink = t.sink) (hw : s.wpend = t.wpend) :
    (flushed s).sink = (flushed t).sink := by
  simp only [flushed, hw]
  split <;> simp only [hs]

/-- The fault flush where nothing is pending or the ports answer. -/
theorem faultFlush_flushed {s : State} (h : s.wpend = [] ∨ s.Quiet) : faultFlush s = .ok (flushed s) := by
  rcases h with h | h
  · simp [faultFlush, flushed, h]
  · exact faultFlush_quiet h

/-- The end of a command with the fault record set (60_exceptions R234). -/
def EndsInFault (op : Byte) (c : FaultCode) (t : State) : Prop :=
  t.err = true ∧ t.errcode = c ∧ t.errop = op ∧ t.busy = false ∧ t.done = true

/-- A fault of the block that is not IO_OUT, where nothing is pending or the ports answer, ends the command with the
writer flushed (60_exceptions R234, R237). -/
theorem finish_fault (op : Byte) {c : FaultCode} (keep : Bool) {v : State} (hc : c ≠ .ioOut)
    (h : v.wpend = [] ∨ v.Quiet) :
    ∃ t, finish op (.error ⟨.fault c keep, v⟩) = .next t ∧ EndsInFault op c t ∧ t.pos = v.pos
      ∧ t.sink = (flushed v).sink := by
  obtain ⟨⟨herr, hcode, hop⟩, hpos, hsink, hdraws, hin, hov⟩ := faulted_frame op c keep v
  have hw := faulted_wpend op keep v hc
  have hflush : faultFlush (faulted op c keep v) = .ok (flushed (faulted op c keep v)) :=
    faultFlush_flushed (h.imp hw.trans fun hq => hq.mono hin (by simp [hov]) (by simp [hdraws]))
  refine ⟨endCommand (flushed (faulted op c keep v)), ?_, ⟨?_, ?_, ?_, rfl, rfl⟩, ?_, ?_⟩
  · simp only [finish, takeFault_flush op keep v hc, hflush]
    rfl
  · rw [flushed_eq]; exact herr
  · rw [flushed_eq]; exact hcode
  · rw [flushed_eq]; exact hop
  · rw [flushed_eq]; exact hpos
  · exact flushed_sink_congr hsink hw

/-- An IO_OUT fault ends the command with no further push (60_exceptions R237). -/
theorem finish_ioOut (op : Byte) (keep : Bool) (v : State) :
    ∃ t, finish op (.error ⟨.fault .ioOut keep, v⟩) = .next t ∧ EndsInFault op .ioOut t ∧ t.sink = v.sink
      ∧ t.draws = v.draws := by
  obtain ⟨⟨herr, hcode, hop⟩, -, hsink, hdraws, -⟩ := faulted_frame op .ioOut keep v
  exact ⟨_, rfl, ⟨herr, hcode, hop, rfl, rfl⟩, hsink, hdraws⟩

/-- A flush that finds a transaction that is never answered ends before it, or waits for its own push. -/
theorem faultFlush_never {v : State} {m : Nat} {took : Bool} {ds : List Draw}
    (h : v.draws = List.replicate m Draw.prompt ++ ⟨[], .never, took⟩ :: ds) :
    (∃ w, faultFlush v = .ok w) ∨ ∃ w b, faultFlush v = .error ⟨.hung, w⟩ ∧ w.inflight = some ⟨.push b, took⟩ := by
  by_cases hw : v.wpend.length = 0
  · exact .inl ⟨v, by simp only [faultFlush, if_pos hw]⟩
  · simp only [faultFlush, if_neg hw]
    cases m with
    | zero =>
      refine .inr ⟨{ v with draws := ds, inflight := some ⟨.push (valByte (padByte v.wpend)), took⟩ }, _, ?_, rfl⟩
      simp only [pushByte, transact_alone _ h]
      rfl
    | succ m =>
      have hok := transact_alone (.push (valByte (padByte v.wpend))) (s := v) (answer := .ok) (took := false) h
      simp only [pushByte, hok]
      exact .inl ⟨_, rfl⟩

/-! ## A transaction that fails or is never answered -/

variable {i : Instr} {k : Nat} {what : Transaction}

/-- A command that waits for ever (20_memory R58). -/
theorem Waits.exec_never (hw : Waits (started s) l (runFrom i s) k what u) (ho : ∀ o ∈ s.overlaps, o = []) (took : Bool)
    (ds : List Draw) :
    exec i (portsThen k ⟨[], .never, took⟩ ds s) = .next { u with draws := ds, inflight := some ⟨what, took⟩ } := by
  rw [exec_portsThen i ho, (hw.2 took ds).1]
  rfl

/-- A push that fails (20_memory R57). -/
theorem Waits.exec_push {b : Byte} (hw : Waits (started s) l (runFrom i s) k (.push b) u)
    (ho : ∀ o ∈ s.overlaps, o = []) (took : Bool) (ds : List Draw) :
    ∃ t, exec i (portsThen k ⟨[], .ioError, took⟩ ds s) = .next t ∧ EndsInFault i.op .ioOut t ∧ t.sink = l
      ∧ t.draws = ds := by
  obtain ⟨⟨-, -, -, -, hsink⟩, hrun⟩ := hw
  rw [exec_portsThen i ho, (hrun took ds).2]
  obtain ⟨t, ht, hend, hs, hd⟩ := finish_ioOut i.op false { u with draws := ds, inflight := none }
  exact ⟨t, ht, hend, hs.trans hsink, hd⟩

theorem failCode_in (h : ∀ b, what ≠ .push b) : failCode what = .ioIn := by
  cases what with
  | push b => exact absurd rfl (h b)
  | pull => rfl
  | length => rfl
  | rewind => rfl

/-- A transaction of IN that fails (20_memory R55, R56). -/
theorem Waits.exec_in (hw : Waits (started s) l (runFrom i s) k what u) (ho : ∀ o ∈ s.overlaps, o = [])
    (hin : ∀ b, what ≠ .push b) (took : Bool) {ds : List Draw} (hds : u.wpend = [] ∨ Answering ds) :
    ∃ t, exec i (portsThen k ⟨[], .ioError, took⟩ ds s) = .next t ∧ EndsInFault i.op .ioIn t ∧ t.pos = u.pos
      ∧ t.sink = (flushed u).sink := by
  obtain ⟨t, ht, hend, hpos, hsink⟩ := finish_fault i.op (c := .ioIn) false
    (v := { u with draws := ds, inflight := none }) nofun (hds.imp id fun h => ⟨rfl, (hw.1.quiet ho h).2⟩)
  rw [exec_portsThen i ho, (hw.2 took ds).2, failCode_in hin]
  exact ⟨t, ht, hend, hpos, hsink.trans (flushed_sink_congr rfl rfl)⟩

/-- A command that waits for ever for an answer waits in its rule, unless it is the fault flush that pushes. -/
theorem waits_of_exec {h : State} {took : Bool} {ds : List Draw} (hi : s.inflight = none)
    (ho : ∀ o ∈ s.overlaps, o = []) (he : exec i (portsThen k ⟨[], .never, took⟩ ds s) = .next h)
    (hbusy : h.busy = true)
    (hwhat : h.inflight = some ⟨what, took⟩) (hin : ∀ b, what ≠ .push b) :
    ∃ l u, Waits (started s) l (runFrom i s) k what u ∧ h = { u with draws := ds, inflight := some ⟨what, took⟩ } := by
  rw [exec_portsThen i ho] at he
  obtain ⟨a, e⟩ | ⟨c, keep, v, m, e⟩ | ⟨f, v, e⟩ | ⟨l, what', u, hw⟩ := (Script.runFrom i hi).never k took ds
  · rw [e] at he
    cases he
    exact absurd hbusy (by simp)
  · rw [e] at he
    simp only [finish] at he
    by_cases hc : c = .ioOut
    · subst hc
      cases he
      exact absurd hbusy (by simp)
    · rw [takeFault_flush _ _ _ hc] at he
      obtain ⟨-, -, -, hdraws, -⟩ := faulted_frame i.op c keep
        { v with draws := List.replicate m Draw.prompt ++ ⟨[], .never, took⟩ :: ds }
      obtain ⟨w, ew⟩ | ⟨w, b, ew, hb⟩ := faultFlush_never hdraws <;> rw [ew] at he <;> cases he
      · exact absurd hbusy (by simp)
      · rw [hb] at hwhat
        cases hwhat
        exact absurd rfl (hin b)
  · rw [e] at he
    cases he
  · rw [(hw.2 took ds).1] at he
    cases he
    cases hwhat
    exact ⟨l, u, hw, rfl⟩

end Sys2Proof.Machine
end

section
/-! SUPPORT. The commands whose first port transaction is one of IN. -/

namespace Sys2Proof.Machine

variable {α : Type} {s u : State} {l : List Byte} {k : Nat} {what : Transaction}

/-- A check that passes comes before the first transaction. -/
theorem Waits.check {c : Prop} [Decidable c] {code : FaultCode} {v : State} {G : List Draw → Unit → Ran α} (hc : c)
    (h : Waits s l (fun D => G D ()) k what u) :
    Waits s l (fun D => require c code { v with draws := D } >>= G D) k what u := by
  simp only [require_true hc]
  exact h

/-- A first part that makes no transaction comes before the first one. -/
theorem Waits.passed {β : Type} {F : List Draw → Ran β} {a : List Draw → β} {G : List Draw → β → Ran α}
    (hF : ∀ D, F D = .ok (a D)) (h : Waits s l (fun D => G D (a D)) k what u) :
    Waits s l (fun D => F D >>= G D) k what u := by
  simp only [hF]
  exact h

theorem fill_waits {fuel n : Nat} (hf : fuel ≠ 0) (hu : Frame s l u) (h : u.rpend.length < n) :
    Waits s l (fun D => fill fuel n { u with draws := D }) 0 .pull u := by
  obtain ⟨m, rfl⟩ := Nat.exists_eq_succ_of_ne_zero hf
  simp only [fill, h, if_true]
  exact (pullByte_waits hu).bind

theorem fillOrEnd_waits {fuel n : Nat} (hf : fuel ≠ 0) (hu : Frame s l u) (h : u.rpend.length < n) :
    Waits s l (fun D => fillOrEnd fuel n { u with draws := D }) 0 .pull u := by
  obtain ⟨m, rfl⟩ := Nat.exists_eq_succ_of_ne_zero hf
  simp only [fillOrEnd, h, if_true]
  exact (pullByte_waits hu).bind

theorem getBits_waits {n : Nat} (hu : Frame s l u) (h : u.rpend.length < n) :
    Waits s l (fun D => getBits n { u with draws := D }) 0 .pull u :=
  (fill_waits (by omega) hu h).bind

theorem nextWord_waits {n : Nat} (hu : Frame s l u) (h : u.rpend.length < n) :
    Waits s l (fun D => nextWord n { u with draws := D }) 0 .pull u :=
  (fillOrEnd_waits (by omega) hu h).bind

theorem gammaGet_waits (hu : Frame s l u) (h : u.rpend = []) :
    Waits s l (fun D => gammaGet { u with draws := D }) 0 .pull u :=
  (getBits_waits (n := 1) hu (by simp [h])).bind.bind

theorem treeDecode_waits (hu : Frame s l u) (htw : u.tw ≠ 0) (h : u.rpend = []) :
    Waits s l (fun D => treeDecode { u with draws := D }) 0 .pull u := by
  have hN : 2 ≤ 2 ^ u.tw := Nat.le_self_pow htw 2
  obtain ⟨m, hm⟩ : ∃ m, internals u.tw = m + 1 := ⟨2 ^ u.tw - 2, by simp only [internals]; omega⟩
  have hroot : ¬ m + 1 ≤ 0 := by omega
  simp only [treeDecode, hm, walk, hroot, if_false]
  exact (getBits_waits (n := 1) hu (by simp [h])).bind

theorem histLoop_waits {w : Nat} (fuel total : Nat) (hu : Frame s l u) (h : u.rpend.length < w) :
    Waits s l (fun D => histLoop w (fuel + 1) total { u with draws := D }) 0 .pull u :=
  (nextWord_waits hu h).bind

theorem histBuild_waits {w : Nat} (hu : Frame s l u) (h : u.rpend.length < w) :
    Waits s l (fun D => histBuild w { u with draws := D }) 0 .pull (clearHistogram w u) :=
  histLoop_waits (inputBits (clearHistogram w u)) 0 (u := clearHistogram w u) hu h

theorem aligned_waits {v : State} {G : List Draw → Unit → Ran α} (hw : v.wpend = []) (hr : v.rpend = [])
    (h : Waits s l (fun D => G D ()) k what u) :
    Waits s l (fun D => requireAligned { v with draws := D } >>= G D) k what u :=
  Waits.check (c := v.wpend.length = 0 ∧ v.rpend.length = 0) (by simp [hw, hr]) h

/-! ## The header of LZ.ENC -/

/-- Bits that do not fill a byte stay in the writer. -/
theorem putString_short (bs : Bits) {v : State} (h : (v.wpend ++ bs).length < 8) :
    putString bs v = .ok { v with wpend := v.wpend ++ bs } := by
  induction bs generalizing v with
  | nil => simp only [putString, List.append_nil]
  | cons b bs ih =>
    simp only [List.length_append, List.length_cons] at h
    have h8 : ¬ (v.wpend ++ [b]).length = 8 := by simp only [List.length_append, List.length_singleton]; omega
    have hput : putBit b v = .ok { v with wpend := v.wpend ++ [b] } := by simp only [putBit, if_neg h8]
    have hrest := ih (v := { v with wpend := v.wpend ++ [b] }) (by
      simp only [List.length_append, List.length_singleton]; omega)
    simp only [putString, hput, bind, Except.bind, hrest, List.append_assoc, List.singleton_append]

theorem gammaPut_short {n : Nat} {v : State} (h : (v.wpend ++ gammaCode n).length < 8) :
    gammaPut n v = .ok { v with wpend := v.wpend ++ gammaCode n } := by
  have hb : bitLength (n + 1) - 1 + 1 = bitLength (n + 1) := by simp [bitLength_pos (Nat.succ_ne_zero n)]
  rw [gammaCode, ← List.append_assoc] at h ⊢
  have hl : (v.wpend ++ bin (bitLength (n + 1) - 1) 0).length < 8 := by
    simp only [List.length_append] at h ⊢
    omega
  have hone := putString_short (bin (bitLength (n + 1) - 1) 0) hl
  have htwo := putString_short (bin (bitLength (n + 1)) (n + 1))
    (v := { v with wpend := v.wpend ++ bin (bitLength (n + 1) - 1) 0 }) h
  simp only [gammaPut, putBits, hone, bind, Except.bind, hb, htwo]

/-- The state in which the loop of LZ.ENC begins where its header fills no byte. -/
def encStart (s : State) : State :=
  codecStart s.arg0 { s with wpend := s.wpend ++ gammaCode (zz s.arg0.toInt) }

theorem lzEnc_waits (hu : Frame s l u) (ha : u.arg0 ≠ 0x8000000000000000#64) (hw : u.wpend = []) (hr : u.rpend = [])
    (hg : (gammaCode (zz u.arg0.toInt)).length < 8) :
    Waits s l (fun D => lzEncRule { u with draws := D }) 0 .pull (encStart u) := by
  have hput : ∀ D, gammaPut (zz u.arg0.toInt) { u with draws := D }
      = .ok { u with draws := D, wpend := u.wpend ++ gammaCode (zz u.arg0.toInt) } := fun D =>
    gammaPut_short (by simpa [hw] using hg)
  have hloop : Waits s l (fun D => lzEncLoop (u.src.length - u.pos + 1) { encStart u with draws := D }) 0 .pull
      (encStart u) := (pullByte_waits (u := encStart u) hu).bind
  exact Waits.check (c := u.arg0 ≠ 0x8000000000000000#64) ha (aligned_waits hw hr (Waits.passed hput hloop.bind))

/-! ## Every command that reads IN first -/

/-- The first transaction of a command that reads IN first, with POS as it was, and the pending bits too, except that
LZ.ENC has put its header there. -/
theorem firstIn_waits {i : Instr} {s : State} (hi : s.inflight = none) (h : firstIn s i) :
    ∃ what u, Waits (started s) s.sink (runFrom i s) 0 what u ∧ (∀ b, what ≠ .push b) ∧ u.pos = s.pos
      ∧ (i ≠ .lzEnc → u.wpend = s.wpend) := by
  have hu : Frame (started s) s.sink (started s) := started_frame hi
  cases i with
  | brRead n =>
    exact ⟨.pull, started s, (getBits_waits hu h.1).bind.check h.2, nofun, rfl, fun _ => rfl⟩
  | brWord w =>
    have h1 : 1 ≤ w ∧ w ≤ 64 := ⟨Nat.lt_of_le_of_lt (Nat.zero_le _) h.1, h.2⟩
    exact ⟨.pull, started s, (nextWord_waits hu h.1).bind.check h1, nofun, rfl, fun _ => rfl⟩
  | inRewind => exact ⟨.rewind, started s, (srcRewind_waits hu).bind, nofun, rfl, fun _ => rfl⟩
  | inLength => exact ⟨.length, started s, (srcLen_waits hu).bind, nofun, rfl, fun _ => rfl⟩
  | gammaDec => exact ⟨.pull, started s, (gammaGet_waits hu h).bind, nofun, rfl, fun _ => rfl⟩
  | histBuild w =>
    have h1 : 1 ≤ w ∧ w ≤ s.params.maxHistW := ⟨Nat.lt_of_le_of_lt (Nat.zero_le _) h.1, h.2⟩
    exact ⟨.pull, clearHistogram w (started s), (histBuild_waits hu h.1).bind.check h1, nofun, rfl, fun _ => rfl⟩
  | htRead => exact ⟨.pull, started s, (getBits_waits hu h).bind.bind, nofun, rfl, fun _ => rfl⟩
  | htDec =>
    exact ⟨.pull, started s, (treeDecode_waits hu h.1 h.2).bind.check h.1, nofun, rfl, fun _ => rfl⟩
  | hufComp w =>
    obtain ⟨h2, h17, hw, hr⟩ := h
    exact ⟨.length, started s, (aligned_waits (v := started s) hw hr (srcLen_waits hu).bind).check ⟨h2, h17⟩,
      nofun, rfl, fun _ => rfl⟩
  | hufDecomp =>
    have hget := getBits_waits (n := 64) hu (by simp [started, h.2])
    exact ⟨.pull, started s, aligned_waits h.1 h.2 hget.bind, nofun, rfl, fun _ => rfl⟩
  | lzEnc =>
    obtain ⟨ha, hw, hr, hg⟩ := h
    exact ⟨.pull, encStart (started s), lzEnc_waits hu ha hw hr hg, nofun, rfl, fun hne => absurd rfl hne⟩
  | lzDec => exact ⟨.pull, started s, aligned_waits h.1 h.2 (gammaGet_waits hu h.2).bind, nofun, rfl, fun _ => rfl⟩
  | nop | bwWrite _ | bwFlush | gammaEnc | zzEnc | zzDec | histClear _ | histSet | histGet | htBuild
  | htWrite | htEnc | htCode | htNode | lzInit | lzAdd | lzGet | lzFind | lzSize | lzNode | pbClear
  | pbPush | pbGet => exact absurd h id

/-- BW.FLUSH with pending bits begins with the push of the padded byte (41_bitstream R133). -/
theorem flush_waits (hu : Frame s l u) (hw : u.wpend ≠ []) :
    Waits s l (fun D => flush { u with draws := D }) 0 (.push (valByte (padByte u.wpend))) u := by
  have h0 : ¬ u.wpend.length = 0 := by simpa using hw
  simp only [flush, h0, if_false]
  exact (pushByte_waits _ hu).bind

end Sys2Proof.Machine
end

section
/-! SUPPORT. The statements about bus errors and about ports that fail or never answer. -/

namespace Sys2Proof.Machine

/-- Every assigned offset is aligned. -/
theorem regAt_mod {off : Nat} {r : Reg} (h : regAt off = some r) : off % 8 = 0 := by
  unfold regAt at h
  split at h
  case h_9 => cases h
  all_goals rfl

/-- An access with the wrong size, misaligned or at an unassigned offset of the window (20_memory R52). -/
theorem target_busError (p : Params) {off size : Nat} (hoff : off < 0x100)
    (h : size ≠ 8 ∨ off % 8 ≠ 0 ∨ 0x40 ≤ off) : target p (p.base + off) size = .busError := by
  have hin : ¬ (p.base + off < p.base ∨ p.base + 0x100 ≤ p.base + off) := by omega
  by_cases h8 : size = 8
  · have hnone : regAt off = none := by
      cases hr : regAt off with
      | none => rfl
      | some r =>
        have hlt := regAt_lt hr
        have hmod := regAt_mod hr
        omega
    simp only [target, if_neg hin, h8, ne_eq, not_true_eq_false, if_false, Nat.add_sub_cancel_left, hnone]
  · simp only [target, if_neg hin, ne_eq, h8, not_false_eq_true, if_true]

/-- On ports that answer a fault of the block ends the command with ERR = 1 (60_exceptions R234). -/
theorem finish_fault_err {op : Byte} {c : FaultCode} {keep : Bool} {v t : State} (hv : v.Quiet)
    (h : finish op (.error ⟨.fault c keep, v⟩) = .next t) : t.err = true := by
  by_cases hc : c = .ioOut
  · subst hc
    obtain ⟨u, hu, hend, -⟩ := finish_ioOut op keep v
    cases hu.symm.trans h
    exact hend.1
  · obtain ⟨u, hu, hend, -⟩ := finish_fault op keep hc (.inr hv)
    cases hu.symm.trans h
    exact hend.1

/-- A command that reads IN first, where that transaction fails. The fault flush needs ports that answer, unless nothing
is pending. -/
theorem exec_firstIn {i : Instr} {s : State} {took : Bool} {ds : List Draw} (hi : s.inflight = none)
    (ho : ∀ o ∈ s.overlaps, o = []) (hds : (i ≠ .lzEnc ∧ s.wpend = []) ∨ Answering ds)
    (hd : s.draws = ⟨[], .ioError, took⟩ :: ds) (hf : firstIn s i) :
    ∃ t, exec i s = .next t ∧ EndsInFault i.op .ioIn t ∧ t.pos = s.pos ∧ (i ≠ .lzEnc → t.sink = (flushed s).sink) := by
  obtain ⟨what, u, hw, hin, hpos, hwpend⟩ := firstIn_waits hi hf
  have hds' : u.wpend = [] ∨ Answering ds := hds.imp_left fun ⟨hne, h0⟩ => (hwpend hne).trans h0
  obtain ⟨t, ht, hend, htpos, hsink⟩ := hw.exec_in ho hin took hds'
  rw [portsThen_zero hd] at ht
  obtain ⟨⟨-, -, -, -, husink⟩, -⟩ := hw
  exact ⟨t, ht, hend, htpos.trans hpos, fun hne => hsink.trans (flushed_sink_congr husink (hwpend hne))⟩

/-- A query of the length of a source that is not seekable, on ports that answer (20_memory R56). -/
theorem srcLen_unseekable {s : State} (h : s.Quiet) (hs : s.seekable = false) :
    srcLen s = .error ⟨.fault .ioIn false, { s with draws := s.draws.tail }⟩ := by
  simp [srcLen, transact_quiet _ h, bind, Except.bind, hs, raise]

theorem srcRewind_unseekable {s : State} (h : s.Quiet) (hs : s.seekable = false) :
    srcRewind s = .error ⟨.fault .ioIn false, { s with draws := s.draws.tail }⟩ := by
  simp [srcRewind, transact_quiet _ h, bind, Except.bind, hs, raise]

/-- A command that begins with a query or a rewind of a source that is not seekable. -/
theorem exec_unseekable {i : Instr} {s : State} (h : s.Quiet) (hw : s.wpend = [])
    (hr : ruleOf i (started s) = .error ⟨.fault .ioIn false, { started s with draws := s.draws.tail }⟩) :
    ∃ t, exec i s = .next t ∧ EndsInFault i.op .ioIn t ∧ t.pos = s.pos ∧ t.sink = s.sink := by
  obtain ⟨t, ht, hend, hpos, hsink⟩ := finish_fault i.op (c := .ioIn) false
    (v := { started s with draws := s.draws.tail }) nofun (.inl hw)
  refine ⟨t, ?_, hend, hpos, hsink.trans ?_⟩
  · rw [exec_idle i h.2.1, hr]
    exact ht
  · rw [flushed, if_pos (c := ({ started s with draws := s.draws.tail } : State).wpend = []) hw]
    rfl

end Sys2Proof.Machine

open Sys2Proof Sys2Proof.Machine

namespace Sys2Proof.Proofs

/-- Settles O9: no register has such an access, so it is no command, and both a read and a write are answered by a bus
error alone. -/
theorem busErrorHasNoEffect : Obligations.BusErrorHasNoEffect := by
  intro s off size v rest a hoff hbad hrst ha hh
  have ht := target_busError s.params hoff hbad
  rcases ha with rfl | rfl
  · rw [step_hostAction hh rfl]
    simp [hostAction, hostRead, ht, hrst, replyOutcome, respond]
  · have hno : commandOf s (.write (s.params.base + off) size v) = none := by simp [commandOf, ht]
    rw [step_hostAction hh hno]
    simp [hostAction, hostWrite, ht, hrst, replyOutcome, respond]

/-- Settles O32: the push of BW.FLUSH waits with nothing in SINK yet, and of a busy block the host changes no more than
`hostAction_goOn` says, unless it resets it. -/
theorem unansweredPushStaysBusyUntilReset : Obligations.UnansweredPushStaysBusyUntilReset := by
  refine ⟨fun s took ds hi ho hd hw => ?_, fun s t hbusy ht => ?_⟩
  · have hwaits := flush_waits (started_frame hi) hw
    have hexec := Waits.exec_never (i := .bwFlush) hwaits ho took ds
    rw [portsThen_zero hd] at hexec
    refine ⟨_, hexec, rfl, rfl, rfl, fun ie => ⟨rfl, rfl, rfl, ?_⟩⟩
    cases took <;> rfl
  · obtain ⟨-, rfl⟩ | ⟨a, rest, -, ⟨c, hc, -⟩ | ⟨-, hgo | hreset⟩⟩ := step_cases ht
    · exact .inl ⟨hbusy, rfl, rfl, rfl, rfl⟩
    · obtain ⟨hidle, -⟩ := commandOf_some hc
      exact absurd (hbusy.symm.trans hidle) (by decide)
    · obtain ⟨_, _, _, _, _, _, _, pos, _, _, rfl, -, hkeep, -⟩ := hostAction_goOn hgo
      obtain ⟨-, -, -, hpos, -⟩ := hkeep hbusy
      exact .inl ⟨hbusy, rfl, rfl, rfl, hpos⟩
    · obtain ⟨ie, rst, log, rfl, -⟩ := hostAction_wasReset hreset
      exact .inr rfl

/-- Settles O29: a command that completes follows a script in which each byte of OUT is one push. Where that push fails,
the command faults there, and an IO_OUT fault has no flush. -/
theorem failedPushFaultsIoOut : Obligations.FailedPushFaultsIoOut := by
  refine ⟨fun s took ds hi ho hd hw => ?_, fun i s t out j b hq ht herr hsink hb => ?_⟩
  · have hwaits := flush_waits (started_frame hi) hw
    obtain ⟨t, ht, ⟨herr, hcode, hop, hbusy, hdone⟩, hsink, hdraws⟩ := Waits.exec_push (i := .bwFlush) hwaits ho took ds
    rw [portsThen_zero hd] at ht
    exact ⟨t, ht, herr, hcode, hop, hbusy, hdone, hsink, hdraws⟩
  · obtain ⟨hi, ho, hds⟩ := hq
    rw [exec_idle i ho] at ht
    have hscript := (Script.runFrom i hi).answering (D := s.draws) hds
    obtain ⟨out', g, D', ⟨u, hu, rfl⟩, e, hout⟩ | ⟨c, keep, l, u, D', hu, hD', e⟩ | ⟨f, u, e⟩ := hscript <;>
      rw [show ruleOf i (started s) = runFrom i s s.draws from rfl, e] at ht
    · cases ht
      obtain ⟨-, -, -, -, husink⟩ := hu
      cases List.append_cancel_left (husink.symm.trans hsink)
      obtain ⟨k, v, hw⟩ := hout j b hb
      refine ⟨k, fun took ds => ⟨⟨_, hw.exec_never ho took ds, ?_⟩, ?_⟩⟩
      · obtain ⟨⟨hbusy, hdone, -, -, hvsink⟩, -⟩ := hw
        exact ⟨hbusy, hdone, rfl, hvsink, rfl⟩
      · obtain ⟨t, ht, ⟨herr, hcode, hop, hbusy, hdone⟩, hsink, hdraws⟩ := hw.exec_push ho took ds
        exact ⟨t, ht, herr, hcode, hop, hbusy, hdone, hsink, hdraws⟩
    · exact absurd (herr.symm.trans (finish_fault_err (hu.quiet ho hD') ht)) (by decide)
    · cases ht

/-- Settles O30: a transaction of IN that fails faults in the state in which it would wait for ever, and the first
transaction of a command that reads IN finds POS and the writer as they were. -/
theorem failedInFaultsIoIn : Obligations.FailedInFaultsIoIn := by
  refine ⟨fun s took ds hi ho hw => ⟨fun hd => ⟨fun n hn h64 => ?_, ?_⟩, fun hd hs => ⟨?_, ?_⟩⟩,
    fun i s took ds hi ho hds hd hf => ?_, fun s w hq hs hw hr h2 h17 => ?_,
    fun i s h k took ds what hi ho hds he hbusy _ hwhat hin => ?_⟩
  · obtain ⟨t, ht, ⟨herr, hcode, hop, -, hdone⟩, -, hsink⟩ :=
      exec_firstIn (i := .brRead n) hi ho (.inl ⟨nofun, hw⟩) hd ⟨hn, h64⟩
    refine ⟨t, ht, herr, hcode, hop, hdone, (hsink nofun).trans ?_⟩
    rw [flushed, if_pos hw]
  · obtain ⟨t, ht, ⟨herr, hcode, hop, -, hdone⟩, -⟩ := exec_firstIn (i := .inLength) hi ho (.inl ⟨nofun, hw⟩) hd trivial
    exact ⟨t, ht, herr, hcode, hop, hdone⟩
  · have hq : s.Quiet := ⟨hi, ho, by simp [hd]⟩
    obtain ⟨t, ht, ⟨herr, hcode, hop, -⟩, hpos, -⟩ := exec_unseekable (i := .inLength) hq hw (by
      simp only [ruleOf, inLengthRule, srcLen_unseekable (started_quiet hq) hs]; rfl)
    exact ⟨t, ht, herr, hcode, hop, hpos⟩
  · have hq : s.Quiet := ⟨hi, ho, by simp [hd]⟩
    obtain ⟨t, ht, ⟨herr, hcode, hop, -⟩, hpos, -⟩ := exec_unseekable (i := .inRewind) hq hw (by
      simp only [ruleOf, inRewindRule, srcRewind_unseekable (started_quiet hq) hs]; rfl)
    exact ⟨t, ht, herr, hcode, hop, hpos⟩
  · obtain ⟨t, ht, ⟨herr, hcode, hop, hbusy, hdone⟩, hpos, hsink⟩ := exec_firstIn hi ho (.inr hds) hd hf
    exact ⟨t, ht, herr, hcode, hop, hbusy, hdone, hpos, hsink⟩
  · have haligned : (started s).wpend.length = 0 ∧ (started s).rpend.length = 0 := by simp [started, hw, hr]
    obtain ⟨t, ht, ⟨herr, hcode, hop, hbusy, hdone⟩, hpos, hsink⟩ := exec_unseekable (i := .hufComp w) hq hw (by
      simp only [ruleOf, hufCompRule, requireAligned, require_true haligned, require_true (And.intro h2 h17),
        srcLen_unseekable (started_quiet hq) hs]
      rfl)
    exact ⟨t, ht, herr, hcode, hop, hbusy, hdone, hpos, hsink⟩
  · obtain ⟨l, u, hw, rfl⟩ := waits_of_exec hi ho he hbusy hwhat hin
    obtain ⟨t, ht, ⟨herr, hcode, hop, hbusy, hdone⟩, hpos, hsink⟩ := hw.exec_in ho hin took (.inr hds)
    exact ⟨t, ht, herr, hcode, hop, hbusy, hdone, hpos, hsink.trans (flushed_sink_congr rfl rfl)⟩

end Sys2Proof.Proofs
end

section
/-! SUPPORT. Decoding as arithmetic on the command word (30_encoding R80 to R86), and the paths below a node of a tree. -/

namespace Sys2Proof

/-! ## The fields of a word (30_encoding R80) -/

theorem opField_toNat (c : Word) : (opField c).toNat = c.toNat % 2 ^ 8 := by
  simp [opField, BitVec.extractLsb'_toNat]

theorem immField_eq (c : Word) : immField c = c.toNat / 2 ^ 8 % 2 ^ 8 := by
  simp [immField, BitVec.extractLsb'_toNat, Nat.shiftRight_eq_div_pow]

theorem reservedField_eq_zero_iff (c : Word) : reservedField c = 0 ↔ c.toNat < 2 ^ 16 := by
  have hlt : c.toNat < 2 ^ 64 := c.isLt
  have hfield : (reservedField c).toNat = c.toNat / 2 ^ 16 := by
    rw [reservedField, BitVec.extractLsb'_toNat, Nat.shiftRight_eq_div_pow, Nat.mod_eq_of_lt (by omega)]
  rw [← BitVec.toNat_inj, hfield]
  simp only [BitVec.ofNat_eq_ofNat, BitVec.toNat_ofNat, Nat.zero_mod]
  omega

/-! ## The opcode map (30_encoding R81, R84, R85) -/

theorem Instr.imm_eq_zero {i : Instr} : i.usesImm = false → i.imm = 0 := by
  cases i <;> simp [usesImm, imm]

/-- The six commands that use IMM8, by their opcodes. -/
theorem Instr.usesImm_iff (i : Instr) : i.usesImm = true ↔ i.op.toNat ∈ [0x10, 0x12, 0x13, 0x30, 0x31, 0x50] := by
  cases i <;> simp [usesImm, op]

/-- The opcode map is the inverse of `Instr.op`, and fills in IMM8 where the command uses it. -/
theorem ofOpcode_eq_some_iff {op n : Nat} {i : Instr} :
    ofOpcode op n = some i ↔ i.op.toNat = op ∧ (i.usesImm = true → i.imm = n) := by
  constructor
  · intro h
    unfold ofOpcode at h
    split at h <;> cases h <;> simp [Instr.op, Instr.usesImm, Instr.imm]
  · rintro ⟨rfl, h⟩
    cases i <;> simp_all [ofOpcode, Instr.op, Instr.usesImm, Instr.imm]

theorem ofOpcode_eq_none_iff {op n : Nat} : ofOpcode op n = none ↔ Machine.unassigned op := by
  unfold ofOpcode Machine.unassigned
  split
  case h_36 =>
    simp only [true_iff, imp_false] at *
    omega
  all_goals simp

/-! ## Decoding (30_encoding R83) -/

/-- The three tests of R83: a word that passes them all is the command of the opcode map. -/
theorem decode_eq_ok_iff {c : Word} {i : Instr} :
    decode c = .ok i ↔
      c.toNat < 2 ^ 16 ∧ ofOpcode (c.toNat % 2 ^ 8) (c.toNat / 2 ^ 8 % 2 ^ 8) = some i
        ∧ (i.usesImm = false → c.toNat / 2 ^ 8 % 2 ^ 8 = 0) := by
  rw [← reservedField_eq_zero_iff, ← opField_toNat, ← immField_eq, decode]
  by_cases hr : reservedField c = 0
  · simp only [hr, ne_eq, not_true_eq_false, if_false, true_and]
    cases ofOpcode (opField c).toNat (immField c) with
    | none => exact ⟨nofun, nofun⟩
    | some j =>
      by_cases hj : j.usesImm = false ∧ ¬ immField c = 0
      · simp only [if_pos hj, reduceCtorEq, Option.some.injEq, false_iff]
        rintro ⟨rfl, himm⟩
        exact hj.2 (himm hj.1)
      · simp only [if_neg hj, Except.ok.injEq, Option.some.injEq]
        refine ⟨?_, fun ⟨h, _⟩ => h⟩
        rintro rfl
        exact ⟨rfl, fun hu => Decidable.not_not.mp fun h0 => hj ⟨hu, h0⟩⟩
  · simp only [hr, ne_eq, not_false_eq_true, if_true, false_and, reduceCtorEq]

/-- The words that decode to a command are the words `(IMM8 << 8) | OP` with an IMM8 of 8 bits. -/
theorem decode_eq_ok_iff_toNat {c : Word} {i : Instr} :
    decode c = .ok i ↔ i.wf = true ∧ c.toNat = i.imm * 2 ^ 8 + i.op.toNat := by
  have hop : i.op.toNat < 2 ^ 8 := i.op.isLt
  rw [decode_eq_ok_iff, ofOpcode_eq_some_iff, Instr.wf, decide_eq_true_iff]
  cases hu : i.usesImm with
  | true =>
    simp only [true_implies, reduceCtorEq, false_implies, and_true]
    omega
  | false =>
    have himm := Instr.imm_eq_zero hu
    simp only [reduceCtorEq, false_implies, true_implies, and_true, himm]
    omega

end Sys2Proof

namespace Sys2Proof.Machine

/-- Below an index that is no internal node there is only the empty path. -/
theorem follow_leaf {nodes : List Node} {bs : Bits} {i j : Nat} (hi : nodes.length ≤ i)
    (h : follow nodes bs i = some j) : i = j := by
  cases bs with
  | nil => simpa [follow] using h
  | cons b bs => simp [follow, List.getElem?_eq_none hi] at h

theorem validTree_length {w : Nat} {nodes : List Node} (h : validTree w nodes = true) :
    nodes.length = internals w := by
  simp only [validTree, Bool.and_eq_true, beq_iff_eq] at h
  obtain ⟨⟨⟨hlength, -⟩, -⟩, -⟩ := h
  exact hlength

/-- An illegal word stops at its check, before any state changes. -/
theorem illegalCommand_quiet (c : Word) {s : State} (h : s.Quiet) :
    illegalCommand c s = .next (checkFaulted (c.setWidth 8) .illegalCmd s) :=
  runCommand_check h nofun rfl

end Sys2Proof.Machine
end

section
/-! SUPPORT. The statements about command words and codes (30_encoding). -/

open Sys2Proof Sys2Proof.Machine

namespace Sys2Proof.Proofs

/-- Settles O1: the word of a command is `(IMM8 << 8) | OP`, which is what the decoder accepts for it. -/
theorem encodeThenDecode : Obligations.EncodeThenDecode := fun i h =>
  decode_eq_ok_iff_toNat.mpr ⟨h, Laws.encode_toNat i h⟩

/-- Settles O2: an accepted word and the word of its command are the same number. -/
theorem decodeThenEncode : Obligations.DecodeThenEncode := fun c i h => by
  obtain ⟨hwf, hc⟩ := decode_eq_ok_iff_toNat.mp h
  exact ⟨hwf, BitVec.eq_of_toNat_eq ((Laws.encode_toNat i hwf).trans hc.symm)⟩

/-- Settles O3: no command is accepted exactly where one of the three tests of R83 fails. -/
theorem illegalWordsAreRefused : Obligations.IllegalWordsAreRefused := fun c => by
  have hrefused : (∃ e, decode c = .error e) ↔ ∀ i, decode c ≠ .ok i := by cases decode c <;> simp
  rw [hrefused, illegalWord, ← ofOpcode_eq_none_iff (n := c.toNat / 2 ^ 8 % 2 ^ 8)]
  simp only [ne_eq, decode_eq_ok_iff]
  cases hi : ofOpcode (c.toNat % 2 ^ 8) (c.toNat / 2 ^ 8 % 2 ^ 8) with
  | none => simp
  | some i =>
    rw [← (ofOpcode_eq_some_iff.mp hi).1, ← Instr.usesImm_iff]
    simp only [Option.some.injEq, reduceCtorEq, false_or]
    grind

/-- Settles O6: the decoder's refusal is a check fault, with OP as ERROP. -/
theorem illegalWordFaults : Obligations.IllegalWordFaults := fun s c hs _ => by
  have hop : c.setWidth 8 = BitVec.ofNat 8 (c.toNat % 2 ^ 8) := BitVec.eq_of_toNat_eq (by simp)
  rw [illegalCommand_quiet c hs, hop]

/-- Settles O51: the longer code goes on from the leaf the shorter one leads to, and a leaf has no branches. -/
theorem codesArePrefixFree : Obligations.CodesArePrefixFree := by
  rintro w nodes x y c _ - hv - - hc hd ⟨e, rfl⟩
  have hx := (code_follow hc).1
  have hy := (code_follow hd).1
  rw [follow_append, hx, Option.bind_some] at hy
  have := follow_leaf (by rw [validTree_length hv]; exact Nat.le_add_right _ _) hy
  omega

/-- Settles O4: each word is the encoding of its command. -/
theorem sampleWordsDecode : Obligations.SampleWordsDecode :=
  ⟨encodeThenDecode (.bwWrite 13) rfl, encodeThenDecode (.hufComp 10) rfl, encodeThenDecode .lzEnc rfl,
    encodeThenDecode (.brWord 10) rfl, encodeThenDecode .gammaEnc rfl, encodeThenDecode (.histBuild 2) rfl,
    encodeThenDecode .htBuild rfl, encodeThenDecode .pbPush rfl, encodeThenDecode .nop rfl,
    encodeThenDecode (.brRead 65) rfl⟩

end Sys2Proof.Proofs
end

section
/-! SUPPORT. What the validity of a tree (10_state R33) gives the commands that walk it: paths have at most N steps, every
symbol has a code, and the traversal of TreeWrite ends. -/

namespace Sys2Proof.Machine

variable {w : Nat} {nodes : List Node}

/-! ## The children of a valid tree -/

theorem validTree_child (h : validTree w nodes = true) {i : Nat} (hi : i ∈ children nodes) :
    1 ≤ i ∧ i ≤ 2 * internals w := by
  simp only [validTree, Bool.and_eq_true, List.all_eq_true, decide_eq_true_eq] at h
  obtain ⟨⟨⟨-, hrange⟩, -⟩, -⟩ := h
  exact hrange i hi

theorem validTree_nodup (h : validTree w nodes = true) : (children nodes).Nodup := by
  refine List.nodup_iff_count.mpr fun i => ?_
  by_cases hi : i ∈ children nodes
  · obtain ⟨h1, h2⟩ := validTree_child h hi
    simp only [validTree, Bool.and_eq_true, List.all_eq_true, List.mem_range, beq_iff_eq] at h
    obtain ⟨⟨-, honce⟩, -⟩ := h
    have := honce (i - 1) (by omega)
    rw [Nat.sub_add_cancel h1] at this
    omega
  · rw [List.count_eq_zero_of_not_mem hi]
    omega

theorem validTree_reached (h : validTree w nodes = true) {i : Nat} (h1 : 1 ≤ i) (h2 : i ≤ 2 * internals w) :
    (pathTo nodes (internals w) i []).isSome = true := by
  simp only [validTree, Bool.and_eq_true, List.all_eq_true, List.mem_range] at h
  obtain ⟨-, hreached⟩ := h
  have := hreached (i - 1) (by omega)
  rwa [Nat.sub_add_cancel h1] at this

theorem validTree_node (h : validTree w nodes = true) {i : Nat} (hi : i < internals w) : ∃ nd, nodes[i]? = some nd :=
  ⟨_, List.getElem?_eq_getElem (by rwa [validTree_length h])⟩

theorem validTree_zero_notMem (h : validTree w nodes = true) : 0 ∉ children nodes := fun h0 => by
  obtain ⟨h1, -⟩ := validTree_child h h0
  omega

/-- The child of a node on the branch `b`. -/
def branch (nd : Node) (b : Bool) : Nat := if b then nd.right else nd.left

theorem child_mem_children {k : Nat} {nd : Node} (h : nodes[k]? = some nd) (b : Bool) : branch nd b ∈ children nodes := by
  refine List.mem_flatMap.mpr ⟨nd, List.mem_of_getElem? h, ?_⟩
  cases b <;> simp [branch]

/-! ## Paths -/

/-- Where every child has one parent, the search finds it. -/
theorem parentFrom_child (hn : (children nodes).Nodup) {k : Nat} {nd : Node} (hk : nodes[k]? = some nd) (b : Bool)
    (j : Nat) : parentFrom nodes j (branch nd b) = some (j + k, b) := by
  induction nodes generalizing j k with
  | nil => cases hk
  | cons root nodes ih =>
    rw [children_cons, List.nodup_cons, List.nodup_cons] at hn
    obtain ⟨hl, hr, hn⟩ := hn
    cases k with
    | zero =>
      have hne : root.left ≠ root.right := fun e => hl (e ▸ List.mem_cons_self)
      cases Option.some.inj hk
      cases b <;> simp [parentFrom, branch, hne]
    | succ k =>
      rw [List.getElem?_cons_succ] at hk
      have hm : branch nd b ∈ children nodes := child_mem_children hk b
      have hnl : root.left ≠ branch nd b := fun e => hl (List.mem_cons_of_mem _ (e ▸ hm))
      have hnr : root.right ≠ branch nd b := fun e => hr (e ▸ hm)
      rw [parentFrom, if_neg hnl, if_neg hnr, ih hn hk, Nat.add_assoc, Nat.add_comm 1 k]

/-- A path is empty or has a last branch. -/
theorem eq_nil_or_snoc (p : Bits) : p = [] ∨ ∃ q b, p = q ++ [b] := by
  obtain h | ⟨q, b, h⟩ := List.eq_nil_or_concat p
  · exact .inl h
  · exact .inr ⟨q, b, h.trans List.concat_eq_append⟩

theorem follow_snoc {p : Bits} {b : Bool} {i j : Nat} (h : follow nodes (p ++ [b]) i = some j) :
    ∃ k nd, follow nodes p i = some k ∧ nodes[k]? = some nd ∧ j = branch nd b := by
  rw [follow_append] at h
  obtain ⟨k, hk, hb⟩ := Option.bind_eq_some_iff.mp h
  cases hn : nodes[k]? with
  | none => simp [follow, hn] at hb
  | some nd => exact ⟨k, nd, hk, hn, by simpa [follow, hn, branch] using hb.symm⟩

theorem follow_child {p : Bits} {i k : Nat} {nd : Node} (h : follow nodes p i = some k) (hk : nodes[k]? = some nd)
    (b : Bool) : follow nodes (p ++ [b]) i = some (branch nd b) := by
  simp [follow_append, h, follow, hk, branch]

/-- The search for a path goes back along every way from node 0, and needs as many turns as that has steps. -/
theorem pathTo_of_follow (hn : (children nodes).Nodup) (h0 : 0 ∉ children nodes) {p : Bits} {fuel i : Nat} {acc : Bits}
    (h : follow nodes p 0 = some i) : pathTo nodes fuel i acc = if p.length ≤ fuel then some (p ++ acc) else none := by
  induction fuel generalizing p i acc with
  | zero =>
    rcases eq_nil_or_snoc p with rfl | ⟨p, b, rfl⟩
    · cases Option.some.inj h
      simp [pathTo]
    · obtain ⟨k, nd, -, hk, rfl⟩ := follow_snoc h
      have hne : branch nd b ≠ 0 := fun e => h0 (e ▸ child_mem_children hk b)
      simp [pathTo, hne]
  | succ fuel ih =>
    rcases eq_nil_or_snoc p with rfl | ⟨p, b, rfl⟩
    · cases Option.some.inj h
      simp [pathTo]
    · obtain ⟨k, nd, hp, hk, rfl⟩ := follow_snoc h
      have hne : branch nd b ≠ 0 := fun e => h0 (e ▸ child_mem_children hk b)
      simp [pathTo, hne, parentFrom_child hn hk, ih hp]

/-- Paths of a valid tree have at most N steps (44_huffman_tree R171). -/
theorem follow_length_le (hv : validTree w nodes = true) {p : Bits} {i : Nat} (h : follow nodes p 0 = some i) :
    p.length ≤ internals w := by
  refine Decidable.byContradiction fun hlong => ?_
  rcases eq_nil_or_snoc p with rfl | ⟨q, b, rfl⟩
  · simp at hlong
  · obtain ⟨k, nd, -, hk, rfl⟩ := follow_snoc h
    obtain ⟨h1, h2⟩ := validTree_child hv (child_mem_children hk b)
    have hsome := validTree_reached hv h1 h2
    rw [pathTo_of_follow (validTree_nodup hv) (validTree_zero_notMem hv) h, if_neg hlong] at hsome
    cases hsome

/-- Every symbol has a code (44_huffman_tree R171). -/
theorem code_isSome (hv : validTree w nodes = true) (hw : w ≠ 0) {x : Nat} (hx : x < 2 ^ w) :
    ∃ c, code w nodes x = some c := by
  have h2 : 2 ≤ 2 ^ w := Nat.le_self_pow hw 2
  exact Option.isSome_iff_exists.mp (validTree_reached hv (by rw [internals]; omega) (by rw [internals]; omega))

/-! ## The traversal of TreeWrite (44_huffman_tree R173) -/

/-- TreeWrite has met the indices `met` and has `stack` before it: all of these are different, and each is a child of node
0 or of an index met. -/
structure Traversing (nodes : List Node) (met stack : List Nat) : Prop where
  nodup  : (met ++ stack).Nodup
  parent : ∀ x ∈ met ++ stack, ∃ k nd b, nodes[k]? = some nd ∧ x = branch nd b ∧ (k = 0 ∨ k ∈ met)

theorem Traversing.start {root : Node} (hv : validTree w (root :: nodes) = true) :
    Traversing (root :: nodes) [] [root.left, root.right] where
  nodup := (validTree_nodup hv).sublist (by simp)
  parent x hx := by
    simp only [List.nil_append, List.mem_cons, List.not_mem_nil, or_false] at hx
    rcases hx with rfl | rfl
    · exact ⟨0, root, false, rfl, rfl, .inl rfl⟩
    · exact ⟨0, root, true, rfl, rfl, .inl rfl⟩

/-- An index leaves the stack. -/
theorem Traversing.meet {met stack : List Nat} {i : Nat} (h : Traversing nodes met (i :: stack)) :
    Traversing nodes (i :: met) stack where
  nodup := List.perm_middle.nodup_iff.mp h.nodup
  parent x hx := by
    obtain ⟨k, nd, b, hk, hx, hm⟩ := h.parent x (List.perm_middle.mem_iff.mpr hx)
    exact ⟨k, nd, b, hk, hx, hm.imp_right (List.mem_cons_of_mem i)⟩

/-- The children of an index on the stack have not been met yet, since they have no other parent. -/
theorem Traversing.child_notMem {met stack : List Nat} {i : Nat} (hv : validTree w nodes = true)
    (h : Traversing nodes met (i :: stack)) {nd : Node} (hi : nodes[i]? = some nd) (b : Bool) :
    branch nd b ∉ (i :: met) ++ stack := fun hm => by
  obtain ⟨k, nd', b', hk, he, hmet⟩ := h.parent _ (List.perm_middle.mem_iff.mpr hm)
  have hpar := parentFrom_child (validTree_nodup hv) hi b 0
  rw [he, parentFrom_child (validTree_nodup hv) hk] at hpar
  obtain ⟨rfl, -⟩ : k = i ∧ b' = b := by simpa using hpar
  have hnd := h.meet.nodup
  rw [List.cons_append, List.nodup_cons] at hnd
  rcases hmet with rfl | hmet
  · obtain ⟨k, nd, b, hk, h0, -⟩ := h.parent 0 (by simp)
    exact validTree_zero_notMem hv (h0 ▸ child_mem_children hk b)
  · exact hnd.1 (List.mem_append_left _ hmet)

/-- An internal node leaves the stack for its two children. -/
theorem Traversing.expand {met stack : List Nat} {i : Nat} (hv : validTree w nodes = true)
    (h : Traversing nodes met (i :: stack)) {nd : Node} (hi : nodes[i]? = some nd) :
    Traversing nodes (i :: met) (nd.left :: nd.right :: stack) where
  nodup := by
    have hl := h.child_notMem hv hi false
    have hr := h.child_notMem hv hi true
    have hne : nd.left ≠ nd.right := fun e => by
      have hpl := parentFrom_child (validTree_nodup hv) hi false 0
      have hpr := parentFrom_child (validTree_nodup hv) hi true 0
      simp only [branch, Bool.false_eq_true, if_false, if_true, e] at hpl hpr
      simp [hpl] at hpr
    refine List.perm_middle.nodup_iff.mpr (List.nodup_cons.mpr ⟨fun hm => ?_, ?_⟩)
    · rcases List.mem_cons.mp (List.perm_middle.mem_iff.mp hm) with e | hm
      · exact hne e
      · exact hl hm
    · exact List.perm_middle.nodup_iff.mpr (List.nodup_cons.mpr ⟨hr, h.meet.nodup⟩)
  parent x hx := by
    rcases List.mem_cons.mp (List.perm_middle.mem_iff.mp hx) with rfl | hx
    · exact ⟨i, nd, false, hi, rfl, .inr List.mem_cons_self⟩
    rcases List.mem_cons.mp (List.perm_middle.mem_iff.mp hx) with rfl | hx
    · exact ⟨i, nd, true, hi, rfl, .inr List.mem_cons_self⟩
    · exact h.meet.parent x hx

/-- There are at most 2N indices to meet. -/
theorem Traversing.length_le {met stack : List Nat} (hv : validTree w nodes = true) (h : Traversing nodes met stack) :
    met.length + stack.length ≤ 2 * internals w := by
  have hsub : met ++ stack ⊆ children nodes := fun x hx => by
    obtain ⟨k, nd, b, hk, rfl, -⟩ := h.parent x hx
    exact child_mem_children hk b
  have := h.nodup.length_le_of_subset hsub
  rwa [List.length_append, length_children, validTree_length hv] at this

/-- The traversal needs no more turns than there are indices left to meet. -/
theorem treeItems_isSome (hv : validTree w nodes = true) {fuel : Nat} {met stack : List Nat}
    (h : Traversing nodes met stack) (hf : 2 * internals w ≤ fuel + met.length) :
    ∃ bits, treeItems w nodes fuel stack = some bits := by
  have hlen := h.length_le hv
  induction fuel generalizing met stack with
  | zero =>
    cases stack with
    | nil => exact ⟨[], by simp [treeItems]⟩
    | cons i stack => simp only [List.length_cons] at hlen; omega
  | succ fuel ih =>
    cases stack with
    | nil => exact ⟨[], by simp [treeItems]⟩
    | cons i stack =>
      have hf' : 2 * internals w ≤ fuel + (i :: met).length := by simp only [List.length_cons]; omega
      by_cases hleaf : internals w ≤ i
      · obtain ⟨bits, hb⟩ := ih h.meet hf' (h.meet.length_le hv)
        exact ⟨true :: bin w (i - internals w) ++ bits, by simp [treeItems, hleaf, hb]⟩
      · obtain ⟨nd, hi⟩ := validTree_node hv (Nat.lt_of_not_le hleaf)
        have hexpand := h.expand hv hi
        obtain ⟨bits, hb⟩ := ih hexpand hf' (hexpand.length_le hv)
        exact ⟨false :: bits, by simp [treeItems, hleaf, hi, hb]⟩

/-- A valid tree can be written (44_huffman_tree R173). -/
theorem treeBits_isSome (hv : validTree w nodes = true) (hw : w ≠ 0) : ∃ bits, treeBits w nodes = some bits := by
  cases nodes with
  | nil =>
    have hlen := validTree_length hv
    have h2 : 2 ≤ 2 ^ w := Nat.le_self_pow hw 2
    rw [internals, List.length_nil] at hlen
    omega
  | cons root nodes =>
    obtain ⟨items, hi⟩ := treeItems_isSome hv (fuel := 2 * internals w) (Traversing.start hv) (Nat.le_refl _)
    exact ⟨bin 4 (w - 2) ++ items, by simp [treeBits, hi]⟩

end Sys2Proof.Machine
end

section
/-! SUPPORT. No command stops the model in a state whose histogram and tree have the form of 10_state R31 and R33
(log 12). -/

namespace Sys2Proof.Machine

/-! ## Stops of the model -/

/-- A stop that is not one of the model's own for a broken state (log 12). -/
def Unbroken (x : Halt) : Prop := ∀ f, x.why ≠ .broken f

theorem Sat.any {α : Type} {Q : α → Prop} {H : Halt → Prop} {r : Ran α} (h : Sat Q H r) : Sat (fun _ => True) H r :=
  h.mono (fun _ _ => trivial) fun _ hx => hx

theorem whileBusy_unbroken (l : List HostAction) (s : State) : Sat (fun _ => True) Unbroken (whileBusy l s) := by
  induction l generalizing s with
  | nil => trivial
  | cons a l ih =>
    simp only [whileBusy]
    split
    · exact ih _
    · exact nofun
    · exact nofun

theorem transact_unbroken (what : Transaction) (s : State) : Sat (fun _ => True) Unbroken (transact what s) := by
  refine (whileBusy_unbroken _ _).bind fun u _ => ?_
  split
  · trivial
  · trivial
  · exact nofun

/-- No port breaks the state, whatever the memories hold. -/
theorem Memory.unbroken {J : State → Prop} (hj : Memory J) : Port J Unbroken :=
  { hj.port with
    transact := fun what s h =>
      ((transact_unbroken what s).and (hj.port.transact what s h)).mono (fun _ hr => hr.2) fun _ hx => hx
    fault := fun _ _ _ => nofun }

/-- The histogram has width `hw` and the tree width `tw`, each of the form the rules rely on (10_state R31, R33). -/
def Sound (hw tw : Nat) (s : State) : Prop :=
  (s.hw = hw ∧ (hw ≠ 0 → s.counts.length = 2 ^ hw)) ∧ s.tw = tw ∧ (tw ≠ 0 → validTree tw s.nodes = true)

theorem sound_memory (hw tw : Nat) : Memory (Sound hw tw) := fun _ _ _ _ _ _ _ _ _ _ _ _ _ _ h => h

theorem sound_streams (hw tw : Nat) : Streams (Sound hw tw) Unbroken :=
  Reader.streams { (sound_memory hw tw).unbroken with reader := fun _ _ h => h }

/-- Where a rule needs no memory of the block. -/
theorem any_streams : Streams (fun _ => True) Unbroken :=
  have any : Memory fun _ => True := fun _ _ _ _ _ _ _ _ _ _ _ _ _ _ h => h
  Reader.streams { any.unbroken with reader := fun _ _ h => h }

variable {hw tw w : Nat} {s : State}

/-- A check stops with a fault of the block, not of the model. -/
theorem check_unbroken {β : Type} {Q : β → Prop} {c : Prop} [Decidable c] {code : FaultCode} {f : Unit → Ran β}
    (h : c → Sat Q Unbroken (f ())) : Sat Q Unbroken (require c code s >>= f) :=
  require_bind nofun h

/-! ## Histogram -/

/-- NextWord gives up only where it lacks bits (41_bitstream R137). -/
theorem fillOrEnd_lt {fuel n : Nat} {s t : State} (h : fillOrEnd fuel n s = .ok (false, t)) : t.rpend.length < n := by
  induction fuel generalizing s with
  | zero => cases h
  | succ fuel ih =>
    simp only [fillOrEnd, bind, Except.bind] at h
    split at h
    · rename_i hlt
      split at h
      · cases h
      · rename_i r e
        have hr := pullByte_rpend e
        obtain ⟨_ | b, u⟩ := r
        · cases h
          rwa [hr]
        · exact ih h
    · cases h

/-- A word has at most `w` bits. -/
theorem nextWord_lt {r : (Nat × Nat) × State} (h : nextWord w s = .ok r) : r.1.1 < 2 ^ w := by
  simp only [nextWord, bind, Except.bind] at h
  split at h
  · cases h
  · rename_i q e
    obtain ⟨full, u⟩ := q
    cases full <;> cases h
    · exact Nat.lt_trans (val_lt _) (Nat.pow_lt_pow_right (by omega) (fillOrEnd_lt e))
    · exact val_take_lt w _

theorem countWord_sound {v : Nat} (h : Sound hw tw s) (hne : hw ≠ 0) (hv : v < 2 ^ hw) :
    Sat (Sound hw tw) Unbroken (countWord v s) := by
  obtain ⟨⟨hhw, hlen⟩, htree⟩ := h
  rcases countWord_cases v s with ⟨hle, -⟩ | ⟨c, -, ⟨-, e⟩ | ⟨-, e⟩⟩
  · have := hlen hne
    omega
  · rw [e]
    exact nofun
  · rw [e]
    exact ⟨⟨hhw, fun hne => by rw [List.length_set, hlen hne]⟩, htree⟩

theorem histLoop_sound (fuel total : Nat) (h : Sound hw tw s) (hne : hw ≠ 0) :
    Sat (fun r => Sound hw tw r.2) Unbroken (histLoop hw fuel total s) := by
  induction fuel generalizing total s with
  | zero => exact h
  | succ fuel ih =>
    refine (((sound_streams hw tw).nextWord hw s h).and_ok fun _ => nextWord_lt).bind fun r ⟨hr, hlt⟩ => ?_
    simp only
    split
    · exact hr
    · exact (countWord_sound hr hne hlt).bind fun u hu => ih (total + 1) hu

theorem clearHistogram_sound (w : Nat) (h : Sound hw tw s) : Sound w tw (clearHistogram w s) :=
  ⟨⟨rfl, fun _ => clearHistogram_length w s⟩, h.2⟩

theorem histBuild_sound (h : Sound hw tw s) (hne : w ≠ 0) :
    Sat (fun r => Sound w tw r.2) Unbroken (histBuild w s) :=
  histLoop_sound _ 0 (clearHistogram_sound w h) hne

/-! ## Tree -/

theorem treeBuild_sound (h : Sound hw tw s) : Sound hw hw (treeBuild s) := by
  obtain ⟨⟨rfl, hlen⟩, -⟩ := h
  exact ⟨⟨rfl, hlen⟩, rfl, fun _ => validTree_builtNodes _ _⟩

theorem treeRead_sound (h : Sound hw tw s) :
    Sat (fun r => r.1 ≠ 0 ∧ Sound hw r.1 r.2) Unbroken (treeRead s) := by
  refine (((sound_streams hw tw).getBits 4 s h).and_ok fun _ => getBits_lt).bind fun f ⟨hf, _⟩ => ?_
  refine ((sound_streams hw tw).rebuildLoop hf (Rebuilding.start (by omega))).bind fun r ⟨hr, hb, hs⟩ => ?_
  simp only
  split
  · exact nofun
  · obtain ⟨-, hv⟩ := hb.done hs (by have := hb.next.2; omega)
    exact ⟨Nat.succ_ne_zero _, hr.1, rfl, fun _ => hv⟩

theorem treeWrite_sound (h : Sound hw tw s) (hne : tw ≠ 0) : Sat (Sound hw tw) Unbroken (treeWrite s) := by
  obtain ⟨bits, hb⟩ : ∃ bits, treeBits s.tw s.nodes = some bits := by
    obtain ⟨-, rfl, hv⟩ := h
    exact treeBits_isSome (hv hne) hne
  simp only [treeWrite, hb]
  exact (sound_streams hw tw).putString bits h

/-- A walk that began at node 0 reaches a leaf within N turns in all (44_huffman_tree R176). -/
theorem walk_sound {nodes : List Node} (hv : validTree w nodes = true) {p : Bits} {i fuel : Nat}
    (hp : follow nodes p 0 = some i) (hf : internals w ≤ p.length + fuel) (h : Sound hw tw s) :
    Sat (fun r => Sound hw tw r.2) Unbroken (walk w nodes fuel i s) := by
  induction fuel generalizing p i s with
  | zero =>
    simp only [walk]
    split
    · exact h
    · rename_i hi
      obtain ⟨nd, hn⟩ := validTree_node hv (Nat.lt_of_not_le hi)
      have := follow_length_le hv (follow_child hp hn false)
      simp only [List.length_append, List.length_singleton] at this
      omega
  | succ fuel ih =>
    simp only [walk]
    split
    · exact h
    · rename_i hi
      obtain ⟨nd, hn⟩ := validTree_node hv (Nat.lt_of_not_le hi)
      refine ((sound_streams hw tw).getBits 1 s h).bind fun b hb => ?_
      have hnext : (if b.1 = 0 then nd.left else nd.right) = branch nd (decide (b.1 ≠ 0)) := by
        by_cases h0 : b.1 = 0 <;> simp [h0, branch]
      simp only [hn, hnext]
      refine ih (follow_child hp hn _) ?_ hb
      simp only [List.length_append, List.length_singleton]
      omega

theorem treeDecode_sound (h : Sound hw tw s) (hne : tw ≠ 0) :
    Sat (fun r => Sound hw tw r.2) Unbroken (treeDecode s) := by
  have hv : validTree s.tw s.nodes = true := by
    obtain ⟨-, rfl, hv⟩ := h
    exact hv hne
  exact walk_sound hv (p := []) rfl (Nat.le_of_eq (Nat.zero_add _).symm) h

theorem codeOperand_unbroken (h : Sound hw tw s) : Sat (fun _ => True) Unbroken (codeOperand s) := by
  refine check_unbroken fun hne => check_unbroken fun hlt => ?_
  obtain ⟨-, rfl, hv⟩ := h
  obtain ⟨c, hc⟩ := code_isSome (hv hne) hne hlt
  simp only [hc]
  exact check_unbroken fun _ => trivial

/-! ## Huffman containers -/

theorem putCode_sound {x : Nat} (h : Sound hw tw s) (hne : tw ≠ 0) (hx : x < 2 ^ tw) :
    Sat (Sound hw tw) Unbroken (putCode x s) := by
  obtain ⟨c, hc⟩ : ∃ c, code s.tw s.nodes x = some c := by
    obtain ⟨-, rfl, hv⟩ := h
    exact code_isSome (hv hne) hne hx
  simp only [putCode, hc]
  exact (sound_streams hw tw).putString c h

theorem codeLoop_sound (fuel : Nat) (h : Sound hw tw s) (hne : tw ≠ 0) :
    Sat (Sound hw tw) Unbroken (codeLoop tw fuel s) := by
  induction fuel generalizing s with
  | zero => exact h
  | succ fuel ih =>
    refine (((sound_streams hw tw).nextWord tw s h).and_ok fun _ => nextWord_lt).bind fun r ⟨hr, hlt⟩ => ?_
    simp only
    split
    · exact hr
    · exact (putCode_sound hr hne hlt).bind fun u hu => ih hu

theorem decodeLoop_sound (fuel rem : Nat) (h : Sound hw tw s) (hne : tw ≠ 0) :
    Sat (Sound hw tw) Unbroken (decodeLoop w fuel rem s) := by
  induction fuel generalizing rem s with
  | zero => exact h
  | succ fuel ih =>
    simp only [decodeLoop]
    split
    · exact h
    · refine (treeDecode_sound h hne).bind fun r hr => ?_
      exact ((sound_streams hw tw).putBits _ _ hr).bind fun u hu => ih _ hu

theorem hufComp_unbroken (h : Sound hw tw s) : Sat (fun _ => True) Unbroken (hufCompRule w s) := by
  refine check_unbroken fun ⟨h2, _⟩ => check_unbroken fun _ => ?_
  have hne : w ≠ 0 := by omega
  refine ((sound_streams hw tw).srcLen h).bind fun l hl => ((sound_streams hw tw).srcRewind hl).bind fun a ha => ?_
  refine (histBuild_sound ha hne).bind fun b hb => ?_
  refine ((sound_streams w w).srcRewind (treeBuild_sound hb)).bind fun c hc => ?_
  refine ((sound_streams w w).putBits _ _ (s := { c with rpend := [] }) hc).bind fun d hd => ?_
  refine (treeWrite_sound hd hne).bind fun e he => (codeLoop_sound _ he hne).bind fun f hf => ?_
  exact ((sound_streams w w).flush hf).bind fun _ _ => trivial

theorem hufDecomp_unbroken (h : Sound hw tw s) : Sat (fun _ => True) Unbroken (hufDecompRule s) := by
  refine check_unbroken fun _ => ((sound_streams hw tw).getBits 64 s h).bind fun l hl => ?_
  exact (treeRead_sound hl).bind fun r ⟨hne, hr⟩ => (decodeLoop_sound _ _ hr hne).bind fun _ _ => trivial

/-! ## LZ78 containers -/

theorem lzEncLoop_unbroken (fuel : Nat) (s : State) : Sat (fun _ => True) Unbroken (lzEncLoop fuel s) := by
  induction fuel generalizing s with
  | zero => trivial
  | succ fuel ih =>
    refine (any_streams.pullByte trivial).bind fun r _ => ?_
    obtain ⟨_ | b, u⟩ := r
    · trivial
    · simp only
      split
      · exact ih _
      · exact nofun
      · exact (any_streams.gammaPut _ trivial).bind fun _ _ => (any_streams.putBits _ _ trivial).bind fun _ _ => ih _

theorem lzEncEnd_unbroken (s : State) : Sat (fun _ => True) Unbroken (lzEncEnd s) := by
  simp only [lzEncEnd]
  split
  · exact any_streams.gammaPut _ trivial
  · split
    · exact nofun
    · exact (any_streams.gammaPut _ trivial).bind fun _ _ => any_streams.gammaPut _ trivial

theorem lzEnc_unbroken (s : State) : Sat (fun _ => True) Unbroken (lzEncRule s) := by
  refine check_unbroken fun _ => check_unbroken fun _ => (any_streams.gammaPut _ trivial).bind fun _ _ => ?_
  refine (lzEncLoop_unbroken _ _).bind fun _ _ => (lzEncEnd_unbroken _).bind fun _ _ => ?_
  exact (any_streams.flush trivial).bind fun _ _ => trivial

theorem lzDecAdd_unbroken (s : State) : Sat (fun _ => True) Unbroken (lzDecAdd s) := by
  simp only [lzDecAdd]
  split
  · trivial
  · trivial
  · exact nofun

theorem lzDecLoop_unbroken (fuel : Nat) (s : State) : Sat (fun _ => True) Unbroken (lzDecLoop fuel s) := by
  induction fuel generalizing s with
  | zero => trivial
  | succ fuel ih =>
    refine (any_streams.gammaGet trivial).bind fun i _ => ?_
    simp only
    split
    · trivial
    split
    · refine (any_streams.gammaGet trivial).bind fun j _ => ?_
      split
      · exact nofun
      · exact any_streams.putBytes _ trivial
    · refine (any_streams.getBits 8 _ trivial).bind fun lit _ => ?_
      split
      · exact nofun
      · exact (any_streams.putBytes _ trivial).bind fun _ _ => (lzDecAdd_unbroken _).bind fun _ _ => ih _

theorem lzDec_unbroken (s : State) : Sat (fun _ => True) Unbroken (lzDecRule s) :=
  check_unbroken fun _ => (any_streams.gammaGet trivial).bind fun _ _ =>
    (lzDecLoop_unbroken _ _).bind fun _ _ => trivial

/-! ## Every command -/

/-- No command stops the model where histogram and tree have their form. -/
theorem ruleOf_unbroken (i : Instr) (h : Sound hw tw s) : Sat (fun _ => True) Unbroken (ruleOf i s) := by
  cases i with
  | bwWrite n => exact check_unbroken fun _ => any_streams.putBits _ _ trivial
  | bwFlush => exact any_streams.flush trivial
  | brRead n => exact check_unbroken fun _ => (any_streams.getBits n s trivial).bind fun _ _ => trivial
  | brWord w => exact check_unbroken fun _ => (any_streams.nextWord w s trivial).bind fun _ _ => trivial
  | inRewind => exact (any_streams.srcRewind trivial).bind fun _ _ => trivial
  | inLength => exact (any_streams.srcLen trivial).bind fun _ _ => trivial
  | gammaEnc => exact check_unbroken fun _ => any_streams.gammaPut _ trivial
  | gammaDec => exact (any_streams.gammaGet trivial).bind fun _ _ => trivial
  | histBuild w =>
    exact check_unbroken fun ⟨h1, _⟩ => (histBuild_sound h (by omega)).bind fun _ _ => trivial
  | histClear w => exact check_unbroken fun _ => trivial
  | histSet =>
    refine check_unbroken fun hne => check_unbroken fun hlt => ?_
    obtain ⟨⟨rfl, hlen⟩, -⟩ := h
    rw [if_pos (by rwa [hlen hne])]
    trivial
  | histGet =>
    refine check_unbroken fun hne => check_unbroken fun hlt => ?_
    obtain ⟨⟨rfl, hlen⟩, -⟩ := h
    rw [List.getElem?_eq_getElem (by rwa [hlen hne])]
    trivial
  | htBuild => exact check_unbroken fun _ => trivial
  | htWrite =>
    refine check_unbroken fun hne => check_unbroken fun _ => (treeWrite_sound h ?_).any
    obtain ⟨-, rfl, -⟩ := h
    exact hne
  | htRead => exact (treeRead_sound h).bind fun _ _ => trivial
  | htEnc => exact (codeOperand_unbroken h).bind fun _ _ => any_streams.putBits _ _ trivial
  | htDec =>
    refine check_unbroken fun hne => (treeDecode_sound h ?_).bind fun _ _ => trivial
    obtain ⟨-, rfl, -⟩ := h
    exact hne
  | htCode => exact (codeOperand_unbroken h).bind fun _ _ => trivial
  | htNode =>
    refine check_unbroken fun hne => check_unbroken fun hlt => ?_
    obtain ⟨-, rfl, hv⟩ := h
    obtain ⟨nd, hn⟩ := validTree_node (hv hne) hlt
    rw [hn]
    trivial
  | hufComp w => exact hufComp_unbroken h
  | hufDecomp => exact hufDecomp_unbroken h
  | lzAdd =>
    refine check_unbroken fun _ => ?_
    split
    · trivial
    · trivial
    · exact nofun
  | lzGet => simp only [ruleOf, lzGetRule]; split <;> trivial
  | lzFind => simp only [ruleOf, lzFindRule]; split <;> trivial
  | lzNode => simp only [ruleOf, lzNodeRule]; split <;> trivial
  | pbPush => exact check_unbroken fun _ => trivial
  | pbGet => simp only [ruleOf, pbGetRule]; split <;> trivial
  | lzEnc => exact lzEnc_unbroken s
  | lzDec => exact lzDec_unbroken s
  | nop | zzEnc | zzDec | lzInit | lzSize | pbClear => trivial

/-! ## The end of a command on ports that answer -/

/-- On ports that answer every fault of the block ends the command (60_exceptions R234). -/
theorem finish_fault_quiet (op : Byte) (c : FaultCode) (keep : Bool) {v : State} (hv : v.Quiet) :
    ∃ t, finish op (.error ⟨.fault c keep, v⟩) = .next t ∧ EndsInFault op c t := by
  by_cases hc : c = .ioOut
  · subst hc
    obtain ⟨t, ht, hend, -⟩ := finish_ioOut op keep v
    exact ⟨t, ht, hend⟩
  · obtain ⟨t, ht, hend, -⟩ := finish_fault op keep hc (.inr hv)
    exact ⟨t, ht, hend⟩

/-- On ports that answer a command completes, faults, or stops the model, which a sound state does not let it. -/
theorem exec_ends (i : Instr) (hq : s.Quiet) (h : Sound hw tw s) :
    ∃ t, exec i s = .next t ∧ t.busy = false ∧ t.done = true := by
  obtain ⟨hi, ho, hds⟩ := hq
  have hrule : Sat (fun _ => True) Unbroken (runFrom i s s.draws) := ruleOf_unbroken i (s := started s) h
  have he : exec i s = finish i.op (runFrom i s s.draws) := exec_idle i ho
  rw [he]
  obtain ⟨out, g, D, -, e, -⟩ | ⟨c, keep, l, u, D, hu, hD, e⟩ | ⟨f, u, e⟩ :=
    (Script.runFrom i hi).answering (D := s.draws) hds <;> rw [e] at hrule ⊢
  · exact ⟨_, rfl, rfl, rfl⟩
  · obtain ⟨t, ht, -, -, -, hbusy, hdone⟩ := finish_fault_quiet i.op c keep (hu.quiet ho hD)
    exact ⟨t, ht, hbusy, hdone⟩
  · exact absurd rfl (hrule f)

theorem State.Inv.sound (h : s.Inv) (herr : s.err = false) : Sound s.hw s.tw s := by
  obtain ⟨-, -, ⟨-, hlen⟩, ⟨-, -, hv⟩, -⟩ := h
  exact ⟨⟨rfl, fun hne => hlen.trans (if_neg hne)⟩, rfl, hv herr⟩

end Sys2Proof.Machine

open Sys2Proof Sys2Proof.Machine

namespace Sys2Proof.Proofs

/-- Settles O25: with the histogram and the tree of the invariant no command stops the model, and on ports that answer a
completion or a fault is all that is left. -/
theorem everyCommandEnds : Obligations.EveryCommandEnds := fun i _ hs hq herr =>
  exec_ends i hq (hs.sound herr)

end Sys2Proof.Proofs
end

section
/-! SUPPORT. What every command leaves as it was: DROP on any ports, and on ports that answer the arguments, IE, the
parameters and the source (40_control R122, R126). -/

namespace Sys2Proof.Machine

/-! ## Properties that see no result and no memory -/

/-- What does not depend on the results and the memories of the block goes through every rule. -/
theorem Reader.rules {P : State → Prop} {H : Halt → Prop} (hp : Reader P H)
    (check : ∀ c s, P s → H ⟨.fault c true, s⟩) (broken : ∀ f s, P s → H ⟨.broken f, s⟩)
    (blind : ∀ s res0 res1 endFlag existsFlag nfFlag hw counts tw nodes strat lznodes lzindex pb, P s → P { s with
      res0 := res0, res1 := res1, endFlag := endFlag, existsFlag := existsFlag, nfFlag := nfFlag, hw := hw
      counts := counts, tw := tw, nodes := nodes, strat := strat, lznodes := lznodes, lzindex := lzindex, pb := pb }) :
    Rules P H :=
  { hp.streams with
    check := check
    broken := broken
    emptied := fun s h => hp.reader [] s h
    results := fun res0 res1 e x n s h =>
      blind s res0 res1 e x n s.hw s.counts s.tw s.nodes s.strat s.lznodes s.lzindex s.pb h
    cleared := fun w s h _ _ =>
      blind s s.res0 s.res1 s.endFlag s.existsFlag s.nfFlag w _ s.tw s.nodes s.strat s.lznodes s.lzindex s.pb h
    counts := fun l s h _ =>
      blind s s.res0 s.res1 s.endFlag s.existsFlag s.nfFlag s.hw l s.tw s.nodes s.strat s.lznodes s.lzindex s.pb h
    built := fun s h =>
      blind s s.res0 s.res1 s.endFlag s.existsFlag s.nfFlag s.hw s.counts _ _ s.strat s.lznodes s.lzindex s.pb h
    tree := fun w nodes s h _ _ _ =>
      blind s s.res0 s.res1 s.endFlag s.existsFlag s.nfFlag s.hw s.counts w nodes s.strat s.lznodes s.lzindex s.pb h
    init := fun v s h =>
      blind s s.res0 s.res1 s.endFlag s.existsFlag s.nfFlag s.hw s.counts s.tw s.nodes v [] [] s.pb h
    add := fun _ s t h _ ht => by
      rw [dictAdd_frame ht]
      exact blind s s.res0 s.res1 s.endFlag s.existsFlag s.nfFlag s.hw s.counts s.tw s.nodes s.strat _ _ s.pb h
    phrase := fun l s h _ =>
      blind s s.res0 s.res1 s.endFlag s.existsFlag s.nfFlag s.hw s.counts s.tw s.nodes s.strat s.lznodes s.lzindex l h }

/-! ## DROP on any ports (40_control R122) -/

/-- STATUS.DROP = 1 (10_state R23). -/
def Dropped (s : State) : Prop := s.drop = true

/-- A stop with DROP as it was, or a reset. -/
def DroppedHalt (x : Halt) : Prop := Dropped x.st ∨ (x.why = .wasReset ∧ x.st = resetBlock x.st.ie x.st)

theorem whileBusy_dropped (l : List HostAction) {s : State} (h : Dropped s) :
    Sat Dropped DroppedHalt (whileBusy l s) := by
  induction l generalizing s with
  | nil => exact h
  | cons a l ih =>
    simp only [whileBusy]
    split
    · rename_i e
      obtain ⟨_, _, _, _, _, _, _, _, _, _, rfl, hdrop, -, -⟩ := hostAction_goOn e
      exact ih (hdrop h)
    · rename_i e
      obtain ⟨ie, rst, log, rfl, -⟩ := hostAction_wasReset e
      exact .inr ⟨rfl, rfl⟩
    · exact .inl h

theorem dropped_reader : Reader Dropped DroppedHalt where
  transact what s h := by
    have hwaiting : Dropped { s with
        draws := s.draws.tail, inflight := some ⟨what, (s.draws.headD Draw.prompt).took⟩ } := h
    refine (whileBusy_dropped _ hwaiting).bind fun u hu => ?_
    split
    · exact hu
    · exact hu
    · exact .inl hu
  sink _ _ h := h
  move _ _ h _ := h
  writer _ _ h _ := h
  fault _ _ h := .inl h
  reader _ _ h := h

theorem dropped_rules : Rules Dropped DroppedHalt :=
  dropped_reader.rules (fun _ _ h => .inl h) (fun _ _ h => .inl h) fun _ _ _ _ _ _ _ _ _ _ _ _ _ _ h => h

theorem takeFault_dropped (op : Byte) (c : FaultCode) (keep : Bool) {s : State} (h : Dropped s) :
    Sat Dropped DroppedHalt (takeFault op c keep s) := by
  have hf : Dropped (faulted op c keep s) := by cases keep <;> exact h
  by_cases hc : c = .ioOut
  · subst hc
    exact hf
  · have hflush := dropped_reader.faultFlush hf fun c k u hu => hu.resolve_right nofun
    rw [takeFault_flush op keep s hc]
    exact (hflush.mono (fun _ hu => hu) fun _ hx => hx.1).bind fun _ hu => hu

/-- Whatever a stop leaves as the next state, DROP is as it was or the block is reset. -/
theorem stopOutcome_dropped {x : Halt} {t : State} (h : DroppedHalt x) (ht : stopOutcome x = .next t) :
    Dropped t ∨ t = resetBlock t.ie t := by
  obtain ⟨why, u⟩ := x
  cases why <;> cases ht <;> exact h.imp_right And.right

theorem runCommand_dropped {op : Byte} {rule : State → Ran State} {s t : State} (hs : Dropped s)
    (hrule : ∀ u, Dropped u → Sat Dropped DroppedHalt (rule u)) (ht : runCommand op rule s = .next t) :
    Dropped t ∨ t = resetBlock t.ie t := by
  have haccepted : Dropped { accept s with overlaps := s.overlaps.tail } := hs
  have hr : Sat Dropped DroppedHalt (overlap (accept s) >>= rule) := (whileBusy_dropped _ haccepted).bind hrule
  obtain ⟨u, e, rfl⟩ | ⟨c, k, u, e, hf⟩ | e | e := finish_cases ht <;> rw [e] at hr
  · exact .inl hr
  · have hfault := takeFault_dropped op c k (s := u) (hr.resolve_right nofun)
    cases hx : takeFault op c k u with
    | ok v => rw [hx] at hf hfault; cases hf; exact .inl hfault
    | error x => rw [hx] at hf hfault; exact stopOutcome_dropped hfault hf
  · exact stopOutcome_dropped hr rfl
  · exact stopOutcome_dropped hr rfl

/-! ## The arguments and the source on ports that answer (40_control R126) -/

/-- Inside a command that began as `s`, on ports that answer: what no command writes is as it was. -/
def Held (s u : State) : Prop :=
  u.Quiet ∧ u.arg0 = s.arg0 ∧ u.arg1 = s.arg1 ∧ u.ie = s.ie ∧ u.params = s.params ∧ u.src = s.src
    ∧ u.seekable = s.seekable ∧ u.drop = s.drop ∧ u.host = s.host ∧ u.log = s.log

/-- On ports that answer a command stops with a fault of the block, or where its state breaks the spec (log 12). -/
def HeldHalt (s : State) (x : Halt) : Prop :=
  match x.why with
  | .fault _ _ => Held s x.st
  | .hung => False
  | .wasReset => False
  | .refused _ => False
  | .broken _ => True

theorem held_reader (s : State) : Reader (Held s) (HeldHalt s) where
  transact what u h := by
    rw [transact_quiet what h.1]
    exact ⟨h.1.drop 1 rfl rfl (by simp), h.2⟩
  sink _ _ h := h
  move _ _ h _ := h
  writer _ _ h _ := h
  fault _ _ h := h
  reader _ _ h := h

theorem held_rules (s : State) : Rules (Held s) (HeldHalt s) :=
  (held_reader s).rules (fun _ _ h => h) (fun _ _ _ => trivial) fun _ _ _ _ _ _ _ _ _ _ _ _ _ _ h => h

/-- On ports that answer a transaction of a script takes one draw, and the script goes on. -/
theorem Answering.goes {α : Type} {F K : List Draw → Ran α} {D : List Draw} (hD : Answering D)
    (goes : ∀ took D, F (⟨[], .ok, took⟩ :: D) = K D) (last : F [] = K []) : F D = K D.tail ∧ Answering D.tail := by
  cases D with
  | nil => exact ⟨last, hD⟩
  | cons d ds =>
    obtain ⟨during, answer, took⟩ := d
    obtain ⟨rfl, rfl⟩ := hD _ List.mem_cons_self
    exact ⟨goes took ds, fun d hd => hD d (List.mem_cons_of_mem _ hd)⟩

/-- On ports that answer a script only appends to SINK, whether it ends or faults (20_memory R65). -/
theorem Script.sink_prefix {s : State} {l : List Byte} {F : List Draw → Ran State} (h : Script s (Leaves s) l F)
    {D : List Draw} (hD : Answering D) :
    Sat (fun t => l <+: t.sink) (fun x => ∀ c k, x.why = .fault c k → l <+: x.st.sink) (F D) := by
  induction h generalizing D with
  | done hg =>
    obtain ⟨u, ⟨-, -, -, -, rfl⟩, rfl⟩ := hg
    exact List.prefix_refl _
  | fault c k hu =>
    obtain ⟨-, -, -, -, rfl⟩ := hu
    exact fun _ _ _ => List.prefix_refl _
  | broken f _ => exact nofun
  | ask _ goes last _ ih =>
    obtain ⟨hF, hD'⟩ := hD.goes goes last
    rw [hF]
    exact (ih hD').mono (fun _ ht => (List.prefix_append _ _).trans ht)
      fun _ hx c k e => (List.prefix_append _ _).trans (hx c k e)

/-- What holds after the command too: SINK only grew. -/
def Kept (s u : State) : Prop := Held s u ∧ s.sink <+: u.sink

theorem Kept.flushed {s u : State} (h : Kept s u) : Kept s (flushed u) := by
  obtain ⟨⟨hq, hrest⟩, hsink⟩ := h
  refine ⟨⟨flushed_quiet hq, ?_⟩, ?_⟩
  · rw [flushed_eq]
    exact hrest
  · simp only [Machine.flushed]
    split
    · exact hsink
    · exact hsink.trans (List.prefix_append _ _)

/-- A fault on ports that answer ends the command with what it kept. -/
theorem Kept.takeFault {s u : State} (op : Byte) (c : FaultCode) (keep : Bool) (h : Kept s u) :
    ∃ t, takeFault op c keep u = .ok t ∧ Kept s t := by
  have hf : Kept s (faulted op c keep u) := by cases keep <;> exact h
  by_cases hc : c = .ioOut
  · subst hc
    exact ⟨endCommand (faulted op .ioOut keep u), rfl, hf⟩
  · refine ⟨endCommand (Machine.flushed (faulted op c keep u)), ?_, hf.flushed⟩
    rw [takeFault_flush op keep u hc, faultFlush_quiet hf.1.1]
    rfl

theorem exec_kept {i : Instr} {s t : State} (hq : s.Quiet) (ht : exec i s = .next t) : Kept s t := by
  have hr : Sat (Held s) (HeldHalt s) (ruleOf i (started s)) :=
    (held_rules s).ruleOf i ⟨started_quiet hq, rfl, rfl, rfl, rfl, rfl, rfl, rfl, rfl, rfl⟩
  obtain ⟨hi, ho, hds⟩ := hq
  have hsink : Sat (fun t => s.sink <+: t.sink) (fun x => ∀ c k, x.why = .fault c k → s.sink <+: x.st.sink)
      (ruleOf i (started s)) := (Script.runFrom i hi).sink_prefix (D := s.draws) hds
  rw [exec_idle i ho] at ht
  obtain ⟨u, e, rfl⟩ | ⟨c, k, u, e, hf⟩ | e | e := finish_cases ht <;> rw [e] at hr hsink
  · exact ⟨hr, hsink⟩
  · obtain ⟨v, hv, hk⟩ := Kept.takeFault i.op c k ⟨hr, hsink c k rfl⟩
    rw [hv] at hf
    cases hf
    exact hk
  · exact absurd hr id
  · exact absurd hr id

end Sys2Proof.Machine

open Sys2Proof Sys2Proof.Machine

namespace Sys2Proof.Proofs

/-- Settles O23: no command runs while ERR = 1, the host clears neither register, and a command keeps DROP unless the host
resets it. -/
theorem onlyResetClearsDropAndFault : Obligations.OnlyResetClearsDropAndFault := by
  intro s t ht
  obtain ⟨-, rfl⟩ | ⟨a, rest, -, ⟨c, hc, hrun⟩ | ⟨-, hgo | hreset⟩⟩ := step_cases ht
  · exact ⟨.inl, fun herr => .inl ⟨herr, rfl, rfl⟩⟩
  · obtain ⟨-, hidle, -⟩ := commandOf_some hc
    refine ⟨fun hdrop => ?_, fun herr => absurd (herr.symm.trans hidle) (by decide)⟩
    have hs : Dropped (respond .ack { s with host := rest }) := hdrop
    obtain ⟨i, -, hexec⟩ | ⟨_, -, hill⟩ := hrun
    · rw [exec_eq_runCommand] at hexec
      exact runCommand_dropped hs (fun u hu => dropped_rules.ruleOf i hu) hexec
    · refine runCommand_dropped hs (fun u hu => ?_) hill
      exact dropped_rules.check _ u hu
  · obtain ⟨_, _, _, _, _, _, _, _, _, _, rfl, hdrop, -⟩ := hostAction_goOn hgo
    exact ⟨fun h => .inl (hdrop h), fun herr => .inl ⟨herr, rfl, rfl⟩⟩
  · obtain ⟨ie, rst, log, rfl, -⟩ := hostAction_wasReset hreset
    exact ⟨fun _ => .inr rfl, fun _ => .inr rfl⟩

/-- Settles O24: no rule and no fault entry writes them, and a script only appends to SINK. -/
theorem commandsKeepArgumentsAndSource : Obligations.CommandsKeepArgumentsAndSource := by
  intro i s t hq ht
  obtain ⟨⟨-, harg0, harg1, hie, hparams, hsrc, hseek, hdrop, hhost, hlog⟩, hsink⟩ := exec_kept hq ht
  exact ⟨harg0, harg1, hie, hparams, hsrc, hseek, hdrop, hhost, hlog, hsink⟩

end Sys2Proof.Proofs
end

section
/-! SUPPORT. The issue of a command, accesses of the host to a busy block, and NOP (40_control R121, R122, R125, R127). -/

namespace Sys2Proof.Machine

/-- A write to CMD that the block accepts is fetched as a command (40_control R121). -/
theorem fetch_command {s : State} {c : Word} {rest : List HostAction} (hh : s.host = .write s.params.base 8 c :: rest)
    (hrst : s.rst = false) (hbusy : s.busy = false) (herr : s.err = false) :
    fetch s = .command c (respond .ack { s with host := rest }) := by
  have ht : target s.params s.params.base 8 = .reg .cmd := target_reg s.params (off := 0) rfl
  have hc : commandOf s (.write s.params.base 8 c) = some c := if_pos ⟨ht, hrst, hbusy, herr⟩
  simp only [fetch, hh, hc]

/-- A read of a register while BUSY = 1 (40_control R125). -/
theorem step_read_busy {s : State} {off : Nat} {rest : List HostAction} {r : Reg}
    (hh : s.host = .read (s.params.base + off) 8 :: rest) (hr : regAt off = some r) (hrst : s.rst = false)
    (hbusy : s.busy = true) :
    step s = .next { s with
      host := rest, log := s.log ++ [.data (busyReadReg (Config.busyRead s.fresh) s r)], fresh := s.fresh + 1 } := by
  have ht := target_reg s.params hr
  have hread : ∀ any, busyReadReg any { s with host := rest } r = busyReadReg any s r := by intro any; cases r <;> rfl
  rw [step_hostAction hh rfl]
  simp only [hostAction, hostRead, ht]
  rw [if_neg (by simp [hrst]), if_pos hbusy, hread]
  rfl

/-- STATUS shows BUSY and DROP while BUSY = 1, whatever stands in the free fields (40_control R125). -/
theorem busyStatusWord_bits (any : Word) (s : State) :
    (busyStatusWord any s).getLsbD 0 = true ∧ (busyStatusWord any s).getLsbD 3 = s.drop := by
  have hfree : busyStatusFree[3] = false := by decide
  have htrue : ∀ d : Bool, (0#60 ++ BitVec.ofBool d ++ 0#2 ++ 1#1 : Word)[0] = true
      ∧ (0#60 ++ BitVec.ofBool d ++ 0#2 ++ 1#1 : Word)[3] = d := by decide
  simp [busyStatusWord, hfree, htrue]

end Sys2Proof.Machine

open Sys2Proof Sys2Proof.Machine

namespace Sys2Proof.Proofs

/-- Settles O5: the step decodes the word it fetched. -/
theorem stepRunsAcceptedCommand : Obligations.StepRunsAcceptedCommand := by
  intro s c rest hh hrst hbusy herr
  have hf := fetch_command hh hrst hbusy herr
  exact ⟨fun i hd => by simp only [step, hf, hd], fun e hd => by simp only [step, hf, hd]⟩

/-- Settles O7: the arms of `writeReg` for a busy block. -/
theorem busyBlockDropsWrites : Obligations.BusyBlockDropsWrites := by
  intro s off v rest hh hrst hbusy
  refine ⟨?_, ?_⟩
  · rintro (rfl | rfl | rfl)
    · rw [step_write hh (r := .cmd) rfl hrst fun _ => .inl hbusy]
      simp [writeReg, hbusy, replyOutcome, respond, dropWrite]
    · rw [step_write hh (r := .arg0) rfl hrst nofun]
      simp [writeReg, hbusy, replyOutcome, respond, dropWrite]
    · rw [step_write hh (r := .arg1) rfl hrst nofun]
      simp [writeReg, hbusy, replyOutcome, respond, dropWrite]
  · rintro rfl hv
    rw [step_write hh (r := .ctrl) rfl hrst nofun]
    simp only [writeReg, writeCtrl_ie hv]
    rfl

/-- Settles O13: the arms of `busyReadReg`. -/
theorem busyReadsShowBusyAndDrop : Obligations.BusyReadsShowBusyAndDrop := by
  intro s off rest hh h8 hlt hrst hbusy
  obtain ⟨r, hr⟩ := regAt_aligned h8 hlt
  refine ⟨_, step_read_busy hh hr hrst hbusy, ?_, ?_, ?_, ?_, ?_⟩ <;> rintro rfl <;> cases Option.some.inj hr
  · rfl
  · rfl
  · exact busyStatusWord_bits _ s
  · rfl
  · rfl

/-- Settles O33: the rule of NOP leaves the state in which the command started. -/
theorem nopOnlyEnds : Obligations.NopOnlyEnds := fun _ hq => runCommand_ok (rule := nopRule) hq rfl

end Sys2Proof.Proofs
end

section
/-! SUPPORT. The rules of the bit stream commands on ports that answer (41_bitstream R132 to R140). -/

namespace Sys2Proof.Machine

/-! ## The ports after a command -/

theorem ran_quiet {s : State} (h : s.Quiet) : (ran s).Quiet :=
  h.mono rfl (fun _ m => List.mem_of_mem_tail m) (fun _ m => m)

/-- A flush of an empty writer does nothing (41_bitstream R134). -/
theorem flushed_of_empty {s : State} (h : s.wpend = []) : flushed s = s := if_pos h

theorem flushed_started (s : State) : flushed (started s) = started (flushed s) := by
  by_cases h : s.wpend = [] <;> simp [flushed, started, h]

/-- Every fault but IO_OUT ends, on ports that answer, with nothing pending (60_exceptions R237). -/
theorem finish_fault_wpend {op : Byte} {c : FaultCode} {keep : Bool} {v t : State} (hc : c ≠ .ioOut) (hv : v.Quiet)
    (h : finish op (.error ⟨.fault c keep, v⟩) = .next t) : t.wpend = [] := by
  obtain ⟨-, -, -, hdraws, hin, hov⟩ := faulted_frame op c keep v
  have hq : (faulted op c keep v).Quiet := hv.mono hin (by simp [hov]) (by simp [hdraws])
  simp only [finish, takeFault_flush op keep v hc, faultFlush_quiet hq] at h
  cases h
  exact flushed_wpend _

/-! ## A bit string through the writer and back (41_bitstream R141) -/

/-- What the flush of the next command adds to SINK. -/
theorem flushed_ran_emit (bs : Bits) {s : State} (hw : s.wpend = []) :
    (flushed (ran (emit bs s))).sink = s.sink ++ wholeBytes (padBits bs) := by
  rw [← flushed_emit bs hw]
  exact flushed_sink_congr rfl rfl

/-- The bytes of a padded bit string give it back before their padding. -/
theorem prefix_incoming_padBits {bs : Bits} {u : State} (hr : u.rpend = []) (hp : u.pos = 0)
    (hsrc : u.src = wholeBytes (padBits bs)) : bs <+: incoming u := by
  rw [incoming, hr, hp, hsrc, List.nil_append, List.drop_zero, bytesBits_padBits]
  exact List.prefix_append _ _

/-! ## The rules -/

theorem bwWriteRule_quiet {n : Nat} {s : State} (h : s.Quiet) (hw : s.wpend.length ≤ 7) (hn : n ≤ 64) :
    bwWriteRule n s = .ok (emit (bin n s.arg0.toNat) s) := by
  simp only [bwWriteRule, require_true hn]
  exact putBits_quiet _ n h hw

theorem brReadRule_quiet {n : Nat} {s : State} (h : s.Quiet) (h64 : n ≤ 64) (hn : n ≤ (incoming s).length) :
    brReadRule n s = .ok { consume n s with res0 := BitVec.ofNat 64 (val ((incoming s).take n)) } := by
  simp only [brReadRule, require_true h64, getBits_quiet h hn]
  rfl

/-- Past the end of the input the rest of SRC is used up (41_bitstream R135). -/
theorem brReadRule_short {n : Nat} {s : State} (h : s.Quiet) (hp : s.pos ≤ s.src.length) (h64 : n ≤ 64)
    (hn : (incoming s).length < n) :
    brReadRule n s = .error ⟨.fault .endOfStream false,
      { pulled (s.src.length - s.pos) s with draws := s.draws.drop (s.src.length - s.pos + 1) }⟩ := by
  simp only [brReadRule, require_true h64, getBits_short h hp hn]
  rfl

theorem brWordRule_full {w : Nat} {s : State} (h : s.Quiet) (h1 : 1 ≤ w) (h64 : w ≤ 64) (hw : w ≤ (incoming s).length) :
    brWordRule w s = .ok { consume w s with
      res0 := BitVec.ofNat 64 (val ((incoming s).take w)), res1 := BitVec.ofNat 64 w, endFlag := false } := by
  have hend : (w == 0) = false := beq_false_of_ne (by omega)
  simp only [brWordRule, require_true (And.intro h1 h64), nextWord_full h hw, bind, Except.bind, hend]
  rfl

theorem brWordRule_end {w : Nat} {s : State} (h : s.Quiet) (h1 : 1 ≤ w) (h64 : w ≤ 64) (hp : s.pos ≤ s.src.length)
    (hw : (incoming s).length < w) :
    brWordRule w s = .ok { s with
      res0 := BitVec.ofNat 64 (val (incoming s)), res1 := BitVec.ofNat 64 (incoming s).length
      rpend := [], pos := s.src.length, draws := s.draws.drop (s.src.length - s.pos + 1)
      endFlag := decide (incoming s = []) } := by
  have hend : ((incoming s).length == 0) = decide (incoming s = []) := by cases incoming s <;> simp
  simp only [brWordRule, require_true (And.intro h1 h64), nextWord_end h hp hw, bind, Except.bind, hend]
  rfl

theorem inRewindRule_quiet {s : State} (h : s.Quiet) (hs : s.seekable = true) :
    inRewindRule s = .ok { s with pos := 0, rpend := [], draws := s.draws.tail } := by
  simp only [inRewindRule, srcRewind_quiet h hs]
  rfl

theorem inLengthRule_quiet {s : State} (h : s.Quiet) (hs : s.seekable = true) (hlen : s.src.length < 2 ^ 64) :
    inLengthRule s = .ok { s with res0 := BitVec.ofNat 64 s.src.length, draws := s.draws.tail } := by
  have hl : lengthWord s.src.length = BitVec.ofNat 64 s.src.length := if_pos hlen
  simp only [inLengthRule, srcLen_quiet h hs, hl]
  rfl

end Sys2Proof.Machine

open Sys2Proof Sys2Proof.Machine

namespace Sys2Proof.Proofs

/-- Settles O31: GetBits stops with the rest of SRC pulled, the fault entry flushes the writer, and no command writes its
arguments. -/
theorem shortInputFaultsEndOfStream : Obligations.ShortInputFaultsEndOfStream := by
  intro s n hq hs h64 hn
  obtain ⟨-, -, hp⟩ := hs
  have hrule := brReadRule_short (started_quiet hq) hp h64 hn
  have hv := (started_quiet hq).drop (t := { pulled (s.src.length - s.pos) (started s) with
    draws := s.draws.drop (s.src.length - s.pos + 1) }) _ rfl rfl rfl
  have hc : FaultCode.endOfStream ≠ .ioOut := nofun
  obtain ⟨t, ht, ⟨herr, hcode, hop, hbusy, hdone⟩, hpos, hsink⟩ := finish_fault 0x12 false hc (.inr hv)
  have hexec : exec (.brRead n) s = .next t := by
    rw [← ht]
    exact (runCommand_quiet 0x12 (brReadRule n) hq).trans (congrArg (finish 0x12) hrule)
  obtain ⟨⟨-, harg0, harg1, -⟩, -⟩ := exec_kept hq hexec
  exact ⟨t, hexec, herr, hcode, hop, hbusy, hdone, hpos.trans (Nat.add_sub_cancel' hp),
    hsink.trans (flushed_sink_congr rfl rfl), finish_fault_wpend hc hv ht, harg0, harg1⟩

/-- Settles O34: the rule puts `bin n` of ARG0 into the writer. -/
theorem bwWriteEmitsLowBits : Obligations.BwWriteEmitsLowBits := fun _ _ hq hw hn =>
  runCommand_ok hq (bwWriteRule_quiet (started_quiet hq) hw hn)

/-- Settles O35: after a flush nothing is pending, so that a second one does nothing. -/
theorem bwFlushPadsOnce : Obligations.BwFlushPadsOnce := by
  have hflush : ∀ s : State, s.Quiet → exec .bwFlush s = .next (ran (flushed s)) := by
    intro s hq
    have h := runCommand_ok (op := 0x11) hq (flush_quiet (started_quiet hq))
    rwa [flushed_started] at h
  refine fun s hq => ⟨hflush s hq, ?_⟩
  have hempty : (ran (flushed s)).wpend = [] := flushed_wpend s
  rw [hflush _ (ran_quiet (flushed_quiet hq)), flushed_of_empty hempty]

/-- Settles O36: GetBits gives the next bits of the input. -/
theorem brReadTakesBits : Obligations.BrReadTakesBits := fun _ _ hq h64 hn =>
  runCommand_ok hq (brReadRule_quiet (started_quiet hq) h64 hn)

/-- Settles O37: NextWord with a full word left and at the end of the input. -/
theorem brWordGivesNextWord : Obligations.BrWordGivesNextWord := fun _ _ hq h1 h64 hp =>
  ⟨fun hw => runCommand_ok hq (brWordRule_full (started_quiet hq) h1 h64 hw),
    fun hw => runCommand_ok hq (brWordRule_end (started_quiet hq) h1 h64 hp hw)⟩

/-- Settles O38: one transaction of a seekable source. -/
theorem rewindAndLength : Obligations.RewindAndLength := fun _ hq hs =>
  ⟨runCommand_ok hq (inRewindRule_quiet (started_quiet hq) hs),
    fun hlen => runCommand_ok hq (inLengthRule_quiet (started_quiet hq) hs hlen)⟩

/-- Settles O39: from an empty writer the two commands push the padded field, and the bits of those bytes begin with the
field. -/
theorem fieldRoundTrip : Obligations.FieldRoundTrip := by
  intro s u n hq hw hqu hr hp hn
  have hwrite := bwWriteEmitsLowBits s n hq (by simp [hw]) hn
  obtain ⟨hflush, -⟩ := bwFlushPadsOnce _ (ran_quiet (emit_quiet (bin n s.arg0.toNat) hq))
  refine ⟨_, _, hwrite, hflush, fun hsrc => ?_⟩
  have hbytes : u.src = wholeBytes (padBits (bin n s.arg0.toNat)) :=
    hsrc.trans ((congrArg (List.drop _) (flushed_ran_emit _ hw)).trans List.drop_left)
  have hfield := prefix_incoming_padBits hr hp hbytes
  have hlen : n ≤ (incoming u).length := by simpa using hfield.length_le
  have htake : (incoming u).take n = bin n s.arg0.toNat := by simpa using (List.prefix_iff_eq_take.mp hfield).symm
  refine ⟨_, brReadTakesBits u n hqu hn hlen, ?_⟩
  have hlt : s.arg0.toNat % 2 ^ n < 2 ^ 64 := Nat.lt_of_le_of_lt (Nat.mod_le _ _) s.arg0.isLt
  calc (BitVec.ofNat 64 (val ((incoming u).take n))).toNat
      = s.arg0.toNat % 2 ^ n % 2 ^ 64 := by rw [htake, val_bin, BitVec.toNat_ofNat]
    _ = s.arg0.toNat % 2 ^ n := Nat.mod_eq_of_lt hlt

end Sys2Proof.Proofs
end

section
/-! SUPPORT. Zigzag as a bijection of integers and natural numbers, and the rules of the universal code commands on ports
that answer (42_universal R150 to R158). -/

namespace Sys2Proof.Machine

/-! ## Zigzag (42_universal R155, R157) -/

/-- The two cases of the argument of unzz. -/
theorem eq_two_mul_or_succ (u : Nat) : ∃ k, u = 2 * k ∨ u = 2 * k + 1 := ⟨u / 2, by omega⟩

theorem zz_of_nonneg {s : Int} (h : 0 ≤ s) : (zz s : Int) = 2 * s := by
  rw [zz, if_pos h]
  omega

theorem zz_of_neg {s : Int} (h : s < 0) : (zz s : Int) = -2 * s - 1 := by
  rw [zz, if_neg (Int.not_le.mpr h)]
  omega

theorem unzz_even (k : Nat) : unzz (2 * k) = k := by
  rw [unzz, if_pos (by omega), Nat.mul_div_cancel_left k (by decide)]
  rfl

theorem unzz_odd (k : Nat) : unzz (2 * k + 1) = -(k : Int) - 1 := by
  rw [unzz, if_neg (by omega), show (2 * k + 1) / 2 = k by omega]
  rfl

theorem unzz_zz (s : Int) : unzz (zz s) = s := by
  by_cases h : 0 ≤ s
  · have hz := zz_of_nonneg h
    rw [show zz s = 2 * s.toNat by omega, unzz_even]
    omega
  · have hz := zz_of_neg (Int.not_le.mp h)
    rw [show zz s = 2 * (-s - 1).toNat + 1 by omega, unzz_odd]
    omega

theorem zz_unzz (u : Nat) : zz (unzz u) = u := by
  obtain ⟨k, rfl | rfl⟩ := eq_two_mul_or_succ u
  · have hz := zz_of_nonneg (Int.natCast_nonneg k)
    rw [unzz_even]
    omega
  · have hz := zz_of_neg (s := -(k : Int) - 1) (by omega)
    rw [unzz_odd]
    omega

/-- The integer of an unsigned 64-bit value fits in a signed one. -/
theorem unzz_range {u : Nat} (h : u < 2 ^ 64) : -2 ^ 63 ≤ unzz u ∧ unzz u < 2 ^ 63 := by
  obtain ⟨k, rfl | rfl⟩ := eq_two_mul_or_succ u
  · rw [unzz_even]
    omega
  · rw [unzz_odd]
    omega

/-! ## The rules -/

theorem gammaEncRule_quiet {s : State} (h : s.Quiet) (hw : s.wpend.length ≤ 7) (hv : s.arg0.toNat ≤ 2 ^ 64 - 2) :
    gammaEncRule s = .ok (emit (gammaCode s.arg0.toNat) s) := by
  have hcheck : arg0Nat s ≤ 2 ^ 64 - 2 := hv
  simp only [gammaEncRule, require_true hcheck]
  exact gammaPut_quiet _ h hw

theorem gammaDecRule_quiet {v : Nat} {s : State} (h : s.Quiet) (hv : v ≤ 2 ^ 64 - 2) (hp : gammaCode v <+: incoming s) :
    gammaDecRule s = .ok { consume (gammaCode v).length s with res0 := BitVec.ofNat 64 v } := by
  simp only [gammaDecRule, gammaGet_quiet h hv hp]
  rfl

theorem gammaDecRule_malformed {s : State} (h : s.Quiet) (hp : List.replicate 64 false <+: incoming s) :
    gammaDecRule s = .error ⟨.fault .malformed false, consume 64 s⟩ := by
  simp only [gammaDecRule, gammaGet_malformed h hp]
  rfl

theorem zzEncRule_eq (s : State) : zzEncRule s = .ok { s with res0 := BitVec.ofInt 64 (zz s.arg0.toInt) } := by
  rw [BitVec.ofInt_natCast]
  rfl

theorem zzDecRule_eq (s : State) : zzDecRule s = .ok { s with res0 := bits64 (unzz s.arg0.toNat) } := rfl

end Sys2Proof.Machine

open Sys2Proof Sys2Proof.Machine

namespace Sys2Proof.Proofs

/-- Settles O40: an ARG0 in range passes the check, and GammaPut writes its code. -/
theorem gammaEncEmitsCode : Obligations.GammaEncEmitsCode := fun s hq hw hv =>
  ⟨runCommand_ok hq (gammaEncRule_quiet (started_quiet hq) hw hv), length_gammaCode s.arg0.toNat⟩

/-- Settles O41: GammaGet reads the code back, or stops at the 64th zero bit. -/
theorem gammaDecReadsCode : Obligations.GammaDecReadsCode := by
  refine fun s hq => ⟨fun v hv hp => runCommand_ok hq (gammaDecRule_quiet (started_quiet hq) hv hp), fun hp => ?_⟩
  obtain ⟨t, ht, herr, hcode, hop, -⟩ := finish_fault_quiet 0x21 .malformed false (consume_quiet 64 (started_quiet hq))
  refine ⟨t, ?_, herr, hcode, hop⟩
  calc exec .gammaDec s
      = finish 0x21 (gammaDecRule (started s)) := runCommand_quiet 0x21 gammaDecRule hq
    _ = finish 0x21 (.error ⟨.fault .malformed false, consume 64 (started s)⟩) :=
        congrArg (finish 0x21) (gammaDecRule_malformed (started_quiet hq) hp)
    _ = .next t := ht

/-- Settles O42: each command applies its function to ARG0, and the two functions are inverse on all integers and natural
numbers, those of 64 bits among them. -/
theorem zigzagCommands : Obligations.ZigzagCommands := by
  refine ⟨fun s hq => ?_, fun v => ⟨zz_lt v.le_toInt v.toInt_lt, unzz_zz _⟩, fun u => ?_⟩
  · have henc : exec .zzEnc s = .next (ran { s with res0 := BitVec.ofInt 64 (zz s.arg0.toInt) }) :=
      runCommand_ok hq (zzEncRule_eq (started s))
    have hdec : exec .zzDec s = .next (ran { s with res0 := bits64 (unzz s.arg0.toNat) }) :=
      runCommand_ok hq (zzDecRule_eq (started s))
    refine ⟨fun h => ?_, fun h => ?_, fun k h => ?_, fun k h => ?_⟩
    · rw [henc, zz_of_nonneg h]
    · rw [henc, zz_of_neg h]
    · rw [hdec, h, unzz_even, bits64, BitVec.ofInt_natCast]
    · rw [hdec, h, unzz_odd, bits64]
  · obtain ⟨hlo, hhi⟩ := unzz_range u.isLt
    exact ⟨BitVec.toInt_ofInt_eq_self (by decide) hlo hhi, zz_unzz _⟩

end Sys2Proof.Proofs
end

section
/-! SUPPORT. Counting the words of the input, and the rules of the histogram commands on ports that answer (43_histogram). -/

namespace Sys2Proof.Machine

/-! ## Words and counts -/

/-- A bit string has at most as many words as bits. -/
theorem length_wordsOf_le (w : Nat) (bs : Bits) : (wordsOf w bs).length ≤ bs.length := by
  have hseg : ∀ n bs, (segments w n bs).length ≤ n := by
    intro n
    induction n with
    | zero => exact fun _ => Nat.le_refl 0
    | succ n ih =>
      intro bs
      simp only [segments]
      split
      · exact Nat.zero_le _
      · exact Nat.succ_le_succ (ih _)
  simpa [wordsOf] using hseg bs.length bs

/-- COUNTS of width `w` after the words `xs` (43_histogram R160). -/
def tally (w : Nat) (xs : List Nat) : List Word := (List.range (2 ^ w)).map fun x => BitVec.ofNat 64 (xs.count x)

theorem tally_getElem? {w v : Nat} (xs : List Nat) (hv : v < 2 ^ w) :
    (tally w xs)[v]? = some (BitVec.ofNat 64 (xs.count v)) := by simp [tally, hv]

/-- A cleared histogram has counted no word. -/
theorem clearHistogram_tally (w : Nat) (s : State) : (clearHistogram w s).counts = tally w [] := by
  refine (List.eq_replicate_iff.mpr ⟨?_, fun c hc => ?_⟩).symm
  · rw [tally, List.length_map, List.length_range]
  · obtain ⟨x, -, rfl⟩ := List.mem_map.mp hc
    rfl

/-- One more word is one more in its slot. -/
theorem tally_set (w v : Nat) (xs : List Nat) :
    (tally w xs).set v (BitVec.ofNat 64 (xs.count v) + 1) = tally w (xs ++ [v]) := by
  refine List.ext_getElem (by simp [tally]) fun x _ _ => ?_
  by_cases hx : v = x
  · subst hx
    simp [tally, BitVec.ofNat_add]
  · simp [tally, List.count_append, hx]

/-- A word in range is counted: no count passes the number of words (43_histogram R160). -/
theorem countWord_tally {w v : Nat} {seen : List Nat} {s : State} (hc : s.counts = tally w seen) (hv : v < 2 ^ w)
    (hlen : (seen ++ [v]).length < 2 ^ 64) : countWord v s = .ok { s with counts := tally w (seen ++ [v]) } := by
  have hslot : s.counts[v]? = some (BitVec.ofNat 64 (seen.count v)) := by rw [hc, tally_getElem? seen hv]
  have hcount : (BitVec.ofNat 64 (seen.count v)).toNat ≠ 2 ^ 64 - 1 := by
    have hle : seen.count v ≤ seen.length := List.count_le_length
    simp only [List.length_append, List.length_singleton] at hlen
    rw [BitVec.toNat_ofNat]
    omega
  simp only [countWord, hslot, hcount, if_false]
  rw [hc, tally_set]

/-! ## The loop -/

/-- The number of bits the reader can still deliver is the length of the input. -/
theorem length_incoming (s : State) : (incoming s).length = inputBits s := by simp [incoming, inputBits]

/-- From the counts of the words `seen` the loop goes on to those of all words `xs` of the input. -/
theorem histLoop_quiet {w fuel : Nat} {seen xs : List Nat} {s : State} (h : s.Quiet) (hp : s.pos ≤ s.src.length)
    (hw : 1 ≤ w) (hc : s.counts = tally w seen) (hxs : seen ++ wordsOf w (incoming s) = xs)
    (hlen : xs.length < 2 ^ 64) (hfuel : xs.length < seen.length + fuel) :
    ∃ k, histLoop w fuel seen.length s =
      .ok (xs.length,
        { s with counts := tally w xs, rpend := [], pos := s.src.length, draws := s.draws.drop k }) := by
  induction fuel generalizing seen s with
  | zero =>
    have hseen : seen.length ≤ xs.length := by simp [← hxs]
    omega
  | succ fuel ih =>
    by_cases hin : incoming s = []
    · have hall : seen = xs := by simpa [hin, wordsOf_nil] using hxs
      have hread := nextWord_end h hp (by rw [hin]; exact hw)
      refine ⟨s.src.length - s.pos + 1, ?_⟩
      simp only [histLoop, hread, bind, Except.bind, hin, List.length_nil, if_true, ← hc, ← hall]
    · obtain ⟨t, hread, ht, hrest, htp, k, hframe⟩ := nextWord_quiet (w := w) h hp
      have hsome : min w (incoming s).length ≠ 0 := by
        have := List.length_pos_iff.mpr hin
        omega
      have hv : val ((incoming s).take w) < 2 ^ w := val_take_lt w _
      rw [wordsOf_cons hw hin, ← hrest, List.append_cons] at hxs
      generalize val ((incoming s).take w) = v at *
      have hseen : (seen ++ [v]).length ≤ xs.length := by simp [← hxs]
      have hcount : countWord v t = .ok { t with counts := tally w (seen ++ [v]) } :=
        countWord_tally (by rw [hframe, hc]) hv (Nat.lt_of_le_of_lt hseen hlen)
      have hone : (seen ++ [v]).length = seen.length + 1 := List.length_append
      obtain ⟨j, hloop⟩ := ih (seen := seen ++ [v]) (s := { t with counts := tally w (seen ++ [v]) })
        (ht.drop 0 rfl rfl rfl) htp rfl hxs (by omega)
      refine ⟨k + j, ?_⟩
      rw [hone] at hloop
      simp only [histLoop, hread, bind, Except.bind, hsome, if_false, hcount, hloop]
      rw [hframe, List.drop_drop]

/-- HistBuild counts all words of the input from a cleared histogram (43_histogram R160). -/
theorem histBuild_quiet {w : Nat} {s : State} (h : s.Quiet) (hp : s.pos ≤ s.src.length) (hw : 1 ≤ w)
    (hlen : (incoming s).length < 2 ^ 64) :
    ∃ k, histBuild w s =
      .ok ((wordsOf w (incoming s)).length,
        { s with
          hw := w, counts := tally w (wordsOf w (incoming s))
          rpend := [], pos := s.src.length, draws := s.draws.drop k }) := by
  have hle := length_wordsOf_le w (incoming s)
  have hbits := length_incoming s
  refine histLoop_quiet (seen := []) (s := clearHistogram w s) (h.drop 0 rfl rfl rfl) hp hw
    (clearHistogram_tally w s) (List.nil_append _) (by omega) ?_
  rw [List.length_nil, Nat.zero_add]
  exact Nat.lt_succ_of_le (Nat.le_trans hle (Nat.le_of_eq hbits))

/-! ## The rules -/

theorem histBuildRule_quiet {w : Nat} {s : State} (h : s.Quiet) (hp : s.pos ≤ s.src.length) (hw : 1 ≤ w)
    (hmax : w ≤ s.params.maxHistW) (hlen : (incoming s).length < 2 ^ 64) :
    ∃ k, histBuildRule w s =
      .ok { s with
        hw := w, counts := tally w (wordsOf w (incoming s))
        res0 := BitVec.ofNat 64 (wordsOf w (incoming s)).length
        rpend := [], pos := s.src.length, draws := s.draws.drop k } := by
  obtain ⟨k, hk⟩ := histBuild_quiet h hp hw hlen
  refine ⟨k, ?_⟩
  simp only [histBuildRule, require_true (And.intro hw hmax), hk]
  rfl

theorem histClearRule_eq {w : Nat} {s : State} (hw : 1 ≤ w) (hmax : w ≤ s.params.maxHistW) :
    histClearRule w s = .ok (clearHistogram w s) := by
  simp only [histClearRule, require_true (And.intro hw hmax)]
  rfl

theorem histSetRule_eq {s : State} (hne : s.hw ≠ 0) (hx : s.arg0.toNat < 2 ^ s.hw) (hlen : s.counts.length = 2 ^ s.hw) :
    histSetRule s = .ok { s with counts := s.counts.set s.arg0.toNat s.arg1 } := by
  have hcheck : arg0Nat s < 2 ^ s.hw := hx
  have hslot : arg0Nat s < s.counts.length := hlen ▸ hx
  simp only [histSetRule, require_true hne, require_true hcheck, hslot, if_true]
  rfl

theorem histGetRule_eq {s : State} {c : Word} (hne : s.hw ≠ 0) (hx : s.arg0.toNat < 2 ^ s.hw)
    (hc : s.counts[s.arg0.toNat]? = some c) : histGetRule s = .ok { s with res0 := c } := by
  have hcheck : arg0Nat s < 2 ^ s.hw := hx
  have hslot : s.counts[arg0Nat s]? = some c := hc
  simp only [histGetRule, require_true hne, require_true hcheck, hslot]
  rfl

end Sys2Proof.Machine

open Sys2Proof Sys2Proof.Machine

namespace Sys2Proof.Proofs

/-- Settles O43: before each turn of the loop COUNTS is the tally of the words read so far, and the input, at least one bit
a word, is too short for a count to pass 2^64 - 1. -/
theorem histBuildCountsWords : Obligations.HistBuildCountsWords := by
  intro s w hq hw hmax hp hlen
  obtain ⟨k, hrule⟩ := histBuildRule_quiet (started_quiet hq) hp hw hmax hlen
  exact ⟨k, runCommand_ok hq hrule⟩

/-- Settles O44: in the histogram's form every slot below 2^HW is there. -/
theorem histogramAccess : Obligations.HistogramAccess := by
  refine fun s hq =>
    ⟨fun w hw hmax => runCommand_ok hq (histClearRule_eq (s := started s) hw hmax), fun hform hne hx => ?_⟩
  obtain ⟨-, hlen⟩ := hform
  rw [if_neg hne] at hlen
  have hslot : s.counts[s.arg0.toNat]? = some s.counts[s.arg0.toNat] := List.getElem?_eq_getElem (hlen ▸ hx)
  exact ⟨runCommand_ok hq (histSetRule_eq (s := started s) hne hx hlen), _, hslot,
    runCommand_ok hq (histGetRule_eq (s := started s) hne hx hslot)⟩

end Sys2Proof.Proofs
end

section
/-! SUPPORT. The order in which TreeBuild merges the entries of its queue (44_huffman_tree R172). -/

namespace Sys2Proof.Machine

/-! ## The least entries of a queue -/

/-- The ids of a queue are pairwise different and below `n`, the id of the next node. -/
def FreshIds (n : Nat) (q : List QEntry) : Prop := (q.map QEntry.id).Nodup ∧ ∀ e ∈ q, e.id < n

theorem FreshIds.perm {n : Nat} {p q : List QEntry} (h : FreshIds n p) (hp : q.Perm p) : FreshIds n q :=
  ⟨(hp.map QEntry.id).nodup_iff.mpr h.1, fun e he => h.2 e (hp.mem_iff.mp he)⟩

theorem firstQueue_ids (w : Nat) (counts : List Word) : FreshIds (2 ^ w) (firstQueue w counts) := by
  refine FreshIds.perm ⟨?_, fun e he => ?_⟩ (firstQueue_perm w counts)
  · rw [List.map_map]
    exact (List.map_id' (List.range (2 ^ w))).symm ▸ List.nodup_range
  · obtain ⟨x, hx, rfl⟩ := List.mem_map.mp he
    exact List.mem_range.mp hx

theorem FreshIds.tail {n : Nat} {a : QEntry} {q : List QEntry} (h : FreshIds n (a :: q)) : FreshIds n q :=
  ⟨(List.nodup_cons.mp h.1).2, fun e he => h.2 e (List.mem_cons_of_mem a he)⟩

/-- The new node of a turn has the next id. -/
theorem FreshIds.turn {n : Nat} {a b e : QEntry} {q : List QEntry} (h : FreshIds n (a :: b :: q)) (he : e.id = n) :
    FreshIds (n + 1) (enqueue e q) := by
  obtain ⟨hnodup, hlt⟩ := h.tail.tail
  refine FreshIds.perm (p := e :: q) ⟨List.nodup_cons.mpr ⟨fun hm => ?_, hnodup⟩, fun x hx => ?_⟩ (enqueue_perm e q)
  · obtain ⟨x, hx, hid⟩ := List.mem_map.mp hm
    have := hlt x hx
    omega
  · rcases List.mem_cons.mp hx with rfl | hx
    · omega
    · exact Nat.lt_succ_of_lt (hlt x hx)

/-- Of two entries with different ids that are in order the first is less. -/
theorem QEntry.less_of_not_before {a b : QEntry} (h : b.before a = false) (hid : a.id ≠ b.id) : a.less b := by
  simp only [QEntry.before, Bool.or_eq_false_iff, Bool.and_eq_false_iff, decide_eq_false_iff_not,
    beq_eq_false_iff_ne] at h
  unfold QEntry.less
  omega

/-- The head of a queue in order is less than every other entry. -/
theorem Sorted.head_less {n : Nat} {a : QEntry} {q : List QEntry} (h : Sorted (a :: q)) (hid : FreshIds n (a :: q)) :
    ∀ e ∈ q, a.less e := fun _ he =>
  QEntry.less_of_not_before (List.rel_of_pairwise_cons h he) fun heq =>
    (List.nodup_cons.mp hid.1).1 (heq ▸ List.mem_map_of_mem he)

/-! ## The turns of the loop -/

/-- The queue of `mergeLoop w left q` after `k` turns; the second argument is `k`. -/
def queueAfter (w : Nat) : Nat → Nat → List QEntry → List QEntry
  | 0, _, q => q
  | k + 1, left + 1, a :: b :: q =>
    queueAfter w k left (enqueue ⟨a.freq + b.freq, 2 ^ w + (internals w - (left + 1)), left⟩ q)
  | _ + 1, _, q => q

theorem queueAfter_zero (w left : Nat) (q : List QEntry) : queueAfter w 0 left q = q := rfl

theorem queueAfter_turn (w left k : Nat) (a b : QEntry) (q : List QEntry) :
    queueAfter w (k + 1) (left + 1) (a :: b :: q) =
      queueAfter w k left (enqueue ⟨a.freq + b.freq, 2 ^ w + (internals w - (left + 1)), left⟩ q) := rfl

/-- A finished node keeps its place behind the nodes still to come. -/
theorem mergeLoop_getElem? (w left i : Nat) (q : List QEntry) (acc : List Node) (hq : q.length = left + 1) :
    (mergeLoop w left q acc)[left + i]? = acc[i]? := by
  induction left generalizing q acc i with
  | zero => simp [mergeLoop]
  | succ left ih =>
    match q, hq with
    | a :: b :: q, hq =>
      rw [mergeLoop_turn, Nat.add_assoc, Nat.add_comm 1 i, ih (i + 1) _ _ (by simp at hq ⊢; omega),
        List.getElem?_cons_succ]

/-- One turn of 44_huffman_tree R172 as `mergesLeast` states it: the two least entries of `q` become the children of
node `index`, which goes into `q'` with the id `id`. -/
def MergesOnce (nodes : List Node) (id index : Nat) (q q' : List QEntry) : Prop :=
  ∃ a b rest, q.Perm (a :: b :: rest) ∧ a.less b ∧ (∀ e ∈ rest, b.less e) ∧ nodes[index]? = some ⟨a.index, b.index⟩
    ∧ q'.Perm (⟨a.freq + b.freq, id, index⟩ :: rest)

/-- Each turn of the loop merges the head of a queue in order, whose ids are different, and the entry after it. -/
theorem mergeLoop_mergesOnce {w left k : Nat} {q : List QEntry} {acc : List Node} (hle : left ≤ internals w)
    (hq : q.length = left + 1) (hs : Sorted q) (hid : FreshIds (2 ^ w + (internals w - left)) q) (hk : k < left) :
    MergesOnce (mergeLoop w left q acc) (2 ^ w + (internals w - left + k)) (left - 1 - k) (queueAfter w k left q)
      (queueAfter w (k + 1) left q) := by
  induction left generalizing q acc k with
  | zero => omega
  | succ left ih =>
    match q, hq with
    | a :: b :: q, hq =>
      have hsb : Sorted (b :: q) := hs.of_cons
      have hlen : (enqueue ⟨a.freq + b.freq, 2 ^ w + (internals w - (left + 1)), left⟩ q).length = left + 1 := by
        simp at hq ⊢
        omega
      rw [mergeLoop_turn, queueAfter_turn]
      cases k with
      | zero =>
        have hnode := mergeLoop_getElem? w left 0 _ (⟨a.index, b.index⟩ :: acc) hlen
        rw [queueAfter_zero, queueAfter_zero]
        exact ⟨a, b, q, .refl _, hs.head_less hid b List.mem_cons_self, hsb.head_less hid.tail, hnode, enqueue_perm _ _⟩
      | succ k =>
        have hturn : internals w - (left + 1) + (k + 1) = internals w - left + k := by omega
        have hindex : left + 1 - 1 - (k + 1) = left - 1 - k := by omega
        have hnext : 2 ^ w + (internals w - left) = 2 ^ w + (internals w - (left + 1)) + 1 := by omega
        rw [queueAfter_turn, hturn, hindex]
        exact ih (by omega) hlen (enqueue_sorted _ hsb.of_cons) (hnext ▸ hid.turn rfl) (by omega)

theorem builtNodes_mergesLeast (w : Nat) (counts : List Word) : mergesLeast w counts (builtNodes w counts) := by
  have hpos : 0 < 2 ^ w := Nat.two_pow_pos w
  have hlen : (firstQueue w counts).length = internals w + 1 := by
    rw [length_firstQueue, internals]
    omega
  have hid : FreshIds (2 ^ w + (internals w - internals w)) (firstQueue w counts) := by
    simpa using firstQueue_ids w counts
  refine ⟨fun k => queueAfter w k (internals w) (firstQueue w counts), firstQueue_perm w counts, fun k hk => ?_⟩
  have h := mergeLoop_mergesOnce (acc := []) (Nat.le_refl _) hlen (firstQueue_sorted w counts) hid hk
  rwa [Nat.sub_self, Nat.zero_add] at h

theorem htBuildRule_eq {s : State} (hne : s.hw ≠ 0) :
    htBuildRule s = .ok { s with tw := s.hw, nodes := builtNodes s.hw s.counts } := by
  simp only [htBuildRule, require_true hne]
  rfl

end Sys2Proof.Machine

open Sys2Proof Sys2Proof.Machine

namespace Sys2Proof.Proofs

/-- Settles O45: the queue stays in order and its ids different, so that each turn takes the two least entries. -/
theorem htBuildGivesValidTree : Obligations.HtBuildGivesValidTree := fun s hq hne =>
  ⟨runCommand_ok hq (htBuildRule_eq (s := started s) hne), validTree_builtNodes s.hw s.counts,
    builtNodes_mergesLeast s.hw s.counts⟩

end Sys2Proof.Proofs
end

section
/-! SUPPORT. The items TreeWrite writes and TreeRead accepts: TreeRead rebuilds from the items of a valid tree a tree
with the same items (44_huffman_tree R173, R174, R179). -/

namespace Sys2Proof.Machine

variable {w : Nat} {nodes : List Node}

theorem internals_pos (hw : 1 ≤ w) : 1 ≤ internals w := by
  have : 2 ≤ 2 ^ w := Nat.le_self_pow (by omega) 2
  rw [internals]
  omega

/-- An index past the nodes is the leaf of a symbol below 2^W. -/
theorem leaf_symbol_lt {i : Nat} (h : i ≤ 2 * internals w) : i - internals w < 2 ^ w := by
  have := Nat.two_pow_pos w
  simp only [internals] at h ⊢
  omega

/-! ## The items of a stack of indices (44_huffman_tree R173) -/

theorem treeItems_nil (w fuel : Nat) (nodes : List Node) : treeItems w nodes fuel [] = some [] := by simp [treeItems]

theorem treeItems_leaf {fuel i : Nat} {stack : List Nat} (hi : internals w ≤ i) :
    treeItems w nodes (fuel + 1) (i :: stack) =
      (treeItems w nodes fuel stack).map fun rest => true :: bin w (i - internals w) ++ rest := by
  rw [treeItems, if_pos hi]

theorem treeItems_node {fuel i : Nat} {nd : Node} {stack : List Nat} (hi : i < internals w) (hn : nodes[i]? = some nd) :
    treeItems w nodes (fuel + 1) (i :: stack) =
      (treeItems w nodes fuel (nd.left :: nd.right :: stack)).map fun rest => false :: rest := by
  rw [treeItems, if_neg (Nat.not_le_of_lt hi), hn]

/-- The first item of a traversal that ends: a leaf with its symbol, or a node with its children before the rest. -/
theorem treeItems_cons_cases {fuel i : Nat} {stack : List Nat} {bits : Bits}
    (h : treeItems w nodes (fuel + 1) (i :: stack) = some bits) :
    (internals w ≤ i ∧ ∃ rest, treeItems w nodes fuel stack = some rest
        ∧ bits = true :: bin w (i - internals w) ++ rest)
      ∨ (i < internals w ∧ ∃ nd rest, nodes[i]? = some nd
        ∧ treeItems w nodes fuel (nd.left :: nd.right :: stack) = some rest ∧ bits = false :: rest) := by
  by_cases hi : internals w ≤ i
  · rw [treeItems_leaf hi] at h
    obtain ⟨rest, hr, rfl⟩ := Option.map_eq_some_iff.mp h
    exact .inl ⟨hi, rest, hr, rfl⟩
  · have hlt := Nat.lt_of_not_le hi
    cases hn : nodes[i]? with
    | none => simp [treeItems, hi, hn] at h
    | some nd =>
      rw [treeItems_node hlt hn] at h
      obtain ⟨rest, hr, rfl⟩ := Option.map_eq_some_iff.mp h
      exact .inr ⟨hlt, nd, rest, rfl, hr, rfl⟩

/-! ## Every index is met -/

/-- The children of node 0 and of every index met are met or on the stack. -/
def Covering (nodes : List Node) (met stack : List Nat) : Prop :=
  ∀ k nd b, nodes[k]? = some nd → k = 0 ∨ k ∈ met → branch nd b ∈ met ++ stack

theorem Covering.start (root : Node) (nodes : List Node) : Covering (root :: nodes) [] [root.left, root.right] := by
  rintro k nd b hk (rfl | hm)
  · cases hk
    cases b <;> simp [branch]
  · cases hm

theorem Covering.meet {met stack : List Nat} {i : Nat} (h : Covering nodes met (i :: stack)) (hi : nodes[i]? = none) :
    Covering nodes (i :: met) stack := by
  rintro k nd b hk hm
  refine List.perm_middle.mem_iff.mp (h k nd b hk (hm.imp_right fun hm => ?_))
  rcases List.mem_cons.mp hm with rfl | hm
  · rw [hi] at hk
    cases hk
  · exact hm

theorem Covering.expand {met stack : List Nat} {i : Nat} {nd : Node} (h : Covering nodes met (i :: stack))
    (hi : nodes[i]? = some nd) : Covering nodes (i :: met) (nd.left :: nd.right :: stack) := by
  have hold : ∀ x, x ∈ met ++ i :: stack → x ∈ i :: met ++ nd.left :: nd.right :: stack := by
    intro x
    simp only [List.mem_append, List.mem_cons]
    rintro (hx | hx | hx)
    · exact .inl (.inr hx)
    · exact .inl (.inl hx)
    · exact .inr (.inr (.inr hx))
  intro k nd' b hk hm
  by_cases hki : k = i
  · subst hki
    cases hi.symm.trans hk
    cases b <;> simp [branch]
  · refine hold _ (h k nd' b hk (hm.imp_right fun hm => ?_))
    exact (List.mem_cons.mp hm).resolve_left hki

/-- With the stack empty every index that a path leads to was met. -/
theorem Covering.met_of_follow {met : List Nat} (h : Covering nodes met []) {p : Bits} {i : Nat}
    (hp : follow nodes p 0 = some i) : i = 0 ∨ i ∈ met := by
  obtain ⟨n, hn⟩ : ∃ n, p.length = n := ⟨_, rfl⟩
  induction n generalizing p i with
  | zero =>
    cases List.length_eq_zero_iff.mp hn
    cases hp
    exact .inl rfl
  | succ n ih =>
    rcases eq_nil_or_snoc p with rfl | ⟨q, b, rfl⟩
    · cases hn
    · obtain ⟨k, nd, hq, hk, rfl⟩ := follow_snoc hp
      rw [List.length_append, List.length_singleton] at hn
      have hmet := h k nd b hk (ih hq (Nat.succ.inj hn))
      rw [List.append_nil] at hmet
      exact .inr hmet

/-- In a valid tree every index from 1 to 2N was met. -/
theorem Covering.met_all (hv : validTree w nodes = true) {met : List Nat} (h : Covering nodes met []) {i : Nat}
    (h1 : 1 ≤ i) (h2 : i ≤ 2 * internals w) : i ∈ met := by
  obtain ⟨p, hp⟩ := Option.isSome_iff_exists.mp (validTree_reached hv h1 h2)
  obtain ⟨q, -, hq, -⟩ := pathTo_follow hp
  exact (h.met_of_follow hq).resolve_left (by omega)

/-! ## Reading items (44_huffman_tree R174) -/

/-- TreeRead goes from `r` to `r'` over these items, in at most as many turns as the first number says. -/
inductive Reads (w : Nat) : Nat → Rebuild → Bits → Rebuild → Prop
  | done {fuel next : Nat} {slots : List Slots} {seen : List Nat} :
    Reads w fuel ⟨slots, next, seen, []⟩ [] ⟨slots, next, seen, []⟩
  | leaf {fuel next t x : Nat} {slots : List Slots} {seen rest : List Nat} {bits : Bits} {r' : Rebuild}
    (hx : x < 2 ^ w) (hs : x ∉ seen)
    (h : Reads w fuel (Rebuild.place ⟨slots, next, x :: seen, t :: rest⟩ t rest (internals w + x) []) bits r') :
    Reads w (fuel + 1) ⟨slots, next, seen, t :: rest⟩ (true :: bin w x ++ bits) r'
  | node {fuel next t : Nat} {slots : List Slots} {seen rest : List Nat} {bits : Bits} {r' : Rebuild}
    (hn : next ≠ internals w)
    (h : Reads w fuel (Rebuild.place ⟨slots, next + 1, seen, t :: rest⟩ t rest next [next]) bits r') :
    Reads w (fuel + 1) ⟨slots, next, seen, t :: rest⟩ ([false] ++ bits) r'

@[simp] theorem Rebuild.place_next (r : Rebuild) (t : Nat) (rest : List Nat) (c : Nat) (opened : List Nat) :
    (r.place t rest c opened).next = r.next := by
  unfold Rebuild.place
  split <;> rfl

@[simp] theorem Rebuild.place_seen (r : Rebuild) (t : Nat) (rest : List Nat) (c : Nat) (opened : List Nat) :
    (r.place t rest c opened).seen = r.seen := by
  unfold Rebuild.place
  split <;> rfl

theorem Reads.rebuilding {fuel : Nat} {r r' : Rebuild} {bits : Bits} (h : Reads w fuel r bits r')
    (hr : Rebuilding w r) : Rebuilding w r' ∧ r'.stack = [] := by
  induction h with
  | done => exact ⟨hr, rfl⟩
  | leaf hx hs _ ih => exact ih (hr.leaf hx hs)
  | node hn _ ih => exact ih (hr.node hn)

/-- One bit for each node opened, and 1 + W bits for each symbol seen. -/
theorem Reads.length_bits {fuel : Nat} {r r' : Rebuild} {bits : Bits} (h : Reads w fuel r bits r') :
    bits.length + r.next + (1 + w) * r.seen.length = r'.next + (1 + w) * r'.seen.length := by
  induction h with
  | done => simp
  | leaf _ _ _ ih =>
    simp only [Rebuild.place_next, Rebuild.place_seen, List.length_cons, Nat.mul_succ] at ih
    simp only [List.cons_append, List.length_cons, List.length_append, length_bin]
    omega
  | node _ _ ih =>
    simp only [Rebuild.place_next, Rebuild.place_seen] at ih
    simp only [List.length_append, List.length_singleton]
    omega

theorem Rebuild.start_root (hw : 1 ≤ w) : (Rebuild.start w).slots[0]? = some ⟨none, none⟩ := by
  have := internals_pos hw
  rw [Rebuild.start, List.getElem?_replicate, if_pos (by omega)]

/-- The node on top of the stack has a free slot, is not below itself, and was opened. -/
theorem Rebuilding.top {next t : Nat} {slots : List Slots} {seen rest : List Nat}
    (h : Rebuilding w ⟨slots, next, seen, t :: rest⟩) :
    (∃ l, slots[t]? = some ⟨l, none⟩) ∧ t ∉ rest ∧ t < next :=
  ⟨h.slots.opened t List.mem_cons_self, (List.nodup_cons.mp h.slots.nodup).1, h.slots.below t List.mem_cons_self⟩

/-- The next node to be opened is empty, whatever its parent holds. -/
theorem Rebuilding.next_empty {next t : Nat} {slots : List Slots} {seen rest : List Nat}
    (h : Rebuilding w ⟨slots, next, seen, t :: rest⟩) (hn : next < internals w) (sl : Slots) :
    (slots.set t sl)[next]? = some ⟨none, none⟩ := by
  obtain ⟨-, -, htn⟩ := h.top
  rw [List.getElem?_set_ne (Nat.ne_of_lt htn)]
  exact h.slots.empty next (Nat.le_refl _) hn

/-! ## The slots still to be filled -/

/-- The fields of `nd` for which `sl` has no child yet. -/
def Slots.free (sl : Slots) (nd : Node) : List Nat :=
  (if sl.left = none then [nd.left] else []) ++ if sl.right = none then [nd.right] else []

/-- The indices that the nodes `T` hold in the slots still to be filled, in the order TreeRead fills them. -/
def pending (T : List Node) (slots : List Slots) (stack : List Nat) : List Nat :=
  stack.flatMap fun t => (slots.getD t ⟨none, none⟩).free (T.getD t default)

theorem pending_cons {T : List Node} {slots : List Slots} {t : Nat} {sl : Slots} (h : slots[t]? = some sl)
    (rest : List Nat) : pending T slots (t :: rest) = sl.free (T.getD t default) ++ pending T slots rest := by
  simp [pending, List.getD, h]

/-- A slot of another node changes nothing. -/
theorem pending_set {T : List Node} {slots : List Slots} {t : Nat} {sl : Slots} {rest : List Nat} (h : t ∉ rest) :
    pending T (slots.set t sl) rest = pending T slots rest := by
  refine congrArg List.flatten (List.map_congr_left fun k hk => ?_)
  have hne : t ≠ k := fun e => h (e ▸ hk)
  simp [List.getD, List.getElem?_set_ne hne]

/-- The first slot to be filled is the free one of the top of the stack. -/
theorem pending_fill {T : List Node} {slots : List Slots} {t : Nat} {rest : List Nat} {l : Option Nat}
    (hl : slots[t]? = some ⟨l, none⟩) (hr : t ∉ rest) (c : Nat) :
    pending T slots (t :: rest) =
      branch (T.getD t default) l.isSome
        :: pending T (slots.set t (Slots.fill ⟨l, none⟩ c)) (keptStack ⟨l, none⟩ t rest) := by
  have hlt : t < slots.length := (List.getElem?_eq_some_iff.mp hl).1
  rw [pending_cons hl]
  cases l with
  | none =>
    have hself : (slots.set t ⟨some c, none⟩)[t]? = some ⟨some c, none⟩ := List.getElem?_set_self hlt
    simp only [keptStack, if_true, Slots.fill, pending_cons hself, pending_set hr]
    simp [Slots.free, branch]
  | some l =>
    simp only [keptStack, reduceCtorEq, if_false, Slots.fill, pending_set hr]
    simp [Slots.free, branch]

/-- A node of TreeRead agrees with a finished node in the slots filled so far. -/
def Slots.Agrees (sl : Slots) (nd : Node) : Prop := (∀ c ∈ sl.left, nd.left = c) ∧ ∀ c ∈ sl.right, nd.right = c

/-- The nodes of TreeRead agree with the finished nodes `T`. -/
def SlotsAgree (slots : List Slots) (T : List Node) : Prop :=
  ∀ (t : Nat) (sl : Slots), slots[t]? = some sl → ∃ nd, T[t]? = some nd ∧ sl.Agrees nd

theorem Rebuild.agree_nodes (r : Rebuild) : SlotsAgree r.slots r.nodes := by
  intro t sl h
  refine ⟨⟨sl.left.getD 0, sl.right.getD 0⟩, by simp [Rebuild.nodes, h], ?_, ?_⟩
  · rintro c hc
    simp [Option.mem_def.mp hc]
  · rintro c hc
    simp [Option.mem_def.mp hc]

/-- Where the nodes agree after a slot was filled, they agreed before, and the finished node holds the child put in. -/
theorem SlotsAgree.of_fill {T : List Node} {slots : List Slots} {t c : Nat} {l : Option Nat}
    (hl : slots[t]? = some ⟨l, none⟩) (h : SlotsAgree (slots.set t (Slots.fill ⟨l, none⟩ c)) T) :
    SlotsAgree slots T ∧ branch (T.getD t default) l.isSome = c := by
  have hlt : t < slots.length := (List.getElem?_eq_some_iff.mp hl).1
  obtain ⟨nd, hnd, hleft, hright⟩ := h t _ (List.getElem?_set_self hlt)
  refine ⟨fun k sl hk => ?_, ?_⟩
  · by_cases hkt : t = k
    · subst hkt
      cases hl.symm.trans hk
      refine ⟨nd, hnd, fun d hd => ?_, nofun⟩
      cases hd
      exact hleft d rfl
    · exact h k sl (by rw [List.getElem?_set_ne hkt, hk])
  · cases l with
    | none => simpa [List.getD, hnd, branch] using hleft c rfl
    | some l => simpa [List.getD, hnd, branch] using hright c rfl

/-- The items read are the items of the slots filled, as the finished nodes hold them. -/
theorem Reads.items {fuel : Nat} {r r' : Rebuild} {bits : Bits} (h : Reads w fuel r bits r') (hr : Rebuilding w r) :
    SlotsAgree r.slots r'.nodes ∧ treeItems w r'.nodes fuel (pending r'.nodes r.slots r.stack) = some bits := by
  induction h with
  | done => exact ⟨Rebuild.agree_nodes _, treeItems_nil _ _ _⟩
  | @leaf fuel next t x slots seen rest bits r' hx hs _ ih =>
    obtain ⟨⟨l, hl⟩, ht, -⟩ := hr.top
    obtain ⟨hagree, hitems⟩ := ih (hr.leaf hx hs)
    rw [Rebuild.place_eq (by exact hl)] at hagree hitems
    obtain ⟨hbefore, hchild⟩ := hagree.of_fill hl
    refine ⟨hbefore, ?_⟩
    simp only [List.nil_append] at hitems
    rw [pending_fill hl ht, hchild, treeItems_leaf (Nat.le_add_right _ _), hitems, Nat.add_sub_cancel_left]
    rfl
  | @node fuel next t slots seen rest bits r' hn _ ih =>
    obtain ⟨⟨l, hl⟩, ht, -⟩ := hr.top
    obtain ⟨hagree, hitems⟩ := ih (hr.node hn)
    have hlt : next < internals w := Nat.lt_of_le_of_ne hr.next.2 hn
    rw [Rebuild.place_eq (by exact hl)] at hagree hitems
    obtain ⟨hbefore, hchild⟩ := hagree.of_fill hl
    have hempty := hr.next_empty hlt (Slots.fill ⟨l, none⟩ next)
    obtain ⟨nd, hnd, -⟩ := hagree next _ hempty
    refine ⟨hbefore, ?_⟩
    simp only [List.singleton_append, pending_cons hempty, List.getD, hnd, Option.getD_some] at hitems
    rw [pending_fill hl ht, hchild, treeItems_node hlt hnd]
    exact congrArg (Option.map _) hitems

/-- What TreeRead accepted is the serialization of the tree it made. -/
theorem Reads.treeBits_eq (hw : 1 ≤ w) {bits : Bits} {r : Rebuild}
    (h : Reads w (2 * internals w) (Rebuild.start w) bits r) : treeBits w r.nodes = some (bin 4 (w - 2) ++ bits) := by
  obtain ⟨hagree, hitems⟩ := h.items (Rebuilding.start hw)
  obtain ⟨root, hn, -⟩ := hagree 0 _ (Rebuild.start_root hw)
  have hstack : (Rebuild.start w).stack = [0] := rfl
  rw [hstack, pending_cons (Rebuild.start_root hw)] at hitems
  obtain ⟨rest, he⟩ : ∃ rest, r.nodes = root :: rest := by
    cases hr : r.nodes with
    | nil => simp [hr] at hn
    | cons nd rest => exact ⟨rest, by rw [hr] at hn; cases hn; rfl⟩
  rw [he] at hitems ⊢
  exact congrArg (Option.map _) hitems

/-! ## Reading the items of a valid tree -/

/-- TreeRead after the items of the indices `met`: it has opened as many nodes, has seen the symbols of their leaves, and
has a slot to fill for each index on the stack. -/
structure Mirrors (w : Nat) (met stack : List Nat) (r : Rebuild) : Prop where
  next : r.next = 1 + met.countP (· < internals w)
  seen : r.seen = (met.filter (internals w ≤ ·)).map (· - internals w)
  free : (pending [] r.slots r.stack).length = stack.length

/-- At most N - 1 different indices from 1 on are nodes. -/
theorem countP_internal_lt {l : List Nat} (hw : 1 ≤ internals w) (hnd : l.Nodup) (h1 : ∀ i ∈ l, 1 ≤ i) :
    l.countP (· < internals w) < internals w := by
  have hsub : l.filter (· < internals w) ⊆ List.range' 1 (internals w - 1) := fun i hi => by
    obtain ⟨hm, hlt⟩ := List.mem_filter.mp hi
    have := h1 i hm
    simp only [decide_eq_true_eq] at hlt
    simp only [List.mem_range'_1]
    omega
  have hnodup : (l.filter (· < internals w)).Nodup := hnd.sublist List.filter_sublist
  have hle := hnodup.length_le_of_subset hsub
  rw [List.length_range', ← List.countP_eq_length_filter] at hle
  omega

theorem Traversing.range {met stack : List Nat} (hv : validTree w nodes = true) (h : Traversing nodes met stack) :
    ∀ i ∈ met ++ stack, 1 ≤ i ∧ i ≤ 2 * internals w := fun i hi => by
  obtain ⟨k, nd, b, hk, rfl, -⟩ := h.parent i hi
  exact validTree_child hv (child_mem_children hk b)

/-- A node on the stack has a slot to fill. -/
theorem Rebuilding.stack_eq_nil {r : Rebuild} (h : Rebuilding w r) (T : List Node)
    (hp : pending T r.slots r.stack = []) : r.stack = [] := by
  cases hs : r.stack with
  | nil => rfl
  | cons t rest =>
    obtain ⟨l, hl⟩ := h.slots.opened t (by rw [hs]; exact List.mem_cons_self)
    rw [hs, pending_cons hl] at hp
    simp [Slots.free] at hp

/-- The leaf `i` fills a slot of the top of the stack. -/
theorem Mirrors.leaf {met stack seen rest : List Nat} {i t next : Nat} {slots : List Slots}
    (h : Mirrors w met (i :: stack) ⟨slots, next, seen, t :: rest⟩) (hr : Rebuilding w ⟨slots, next, seen, t :: rest⟩)
    (hi : internals w ≤ i) :
    Mirrors w (i :: met) stack
      (Rebuild.place ⟨slots, next, (i - internals w) :: seen, t :: rest⟩ t rest (internals w + (i - internals w))
        []) := by
  obtain ⟨⟨l, hl⟩, ht, -⟩ := hr.top
  obtain ⟨hnext, hseen, hfree⟩ := h
  rw [Rebuild.place_eq (by exact hl)]
  refine ⟨?_, ?_, ?_⟩
  · simpa [Nat.not_lt_of_le hi] using hnext
  · simpa [hi] using hseen
  · simpa [pending_fill hl ht (internals w + (i - internals w))] using hfree

/-- The node `i` fills a slot of the top of the stack with a new node, which has two slots to fill. -/
theorem Mirrors.node {met stack seen rest : List Nat} {i t next : Nat} {slots : List Slots} (a b : Nat)
    (h : Mirrors w met (i :: stack) ⟨slots, next, seen, t :: rest⟩) (hr : Rebuilding w ⟨slots, next, seen, t :: rest⟩)
    (hi : i < internals w) (hn : next < internals w) :
    Mirrors w (i :: met) (a :: b :: stack) (Rebuild.place ⟨slots, next + 1, seen, t :: rest⟩ t rest next [next]) := by
  obtain ⟨⟨l, hl⟩, ht, -⟩ := hr.top
  obtain ⟨hnext, hseen, hfree⟩ := h
  have hempty := hr.next_empty hn (Slots.fill ⟨l, none⟩ next)
  rw [Rebuild.place_eq (by exact hl)]
  refine ⟨?_, ?_, ?_⟩
  · simp only at hnext
    simp [hi, hnext, Nat.add_assoc]
  · simpa [Nat.not_le_of_lt hi] using hseen
  · simpa [pending_fill hl ht next, pending_cons hempty, Slots.free] using hfree

/-- With no index left on the stack TreeRead is done. -/
theorem Mirrors.reads_done {met : List Nat} {r : Rebuild} (h : Mirrors w met [] r) (hr : Rebuilding w r) (fuel : Nat) :
    Reads w fuel r [] r := by
  have hs := hr.stack_eq_nil [] (List.length_eq_zero_iff.mp h.free)
  obtain ⟨slots, next, seen, stack⟩ := r
  cases hs
  exact .done

/-- With an index left on the stack there is a slot to fill. -/
theorem Mirrors.stack_cons {met stack : List Nat} {i : Nat} {r : Rebuild} (h : Mirrors w met (i :: stack) r) :
    ∃ slots next seen t rest, r = ⟨slots, next, seen, t :: rest⟩ := by
  obtain ⟨slots, next, seen, _ | ⟨t, rest⟩⟩ := r
  · cases h.free
  · exact ⟨slots, next, seen, t, rest, rfl⟩

/-- The symbol of a leaf not met yet was not seen. -/
theorem Mirrors.notMem_seen {met stack : List Nat} {i : Nat} {r : Rebuild} (h : Mirrors w met stack r) (hm : i ∉ met)
    (hi : internals w ≤ i) : i - internals w ∉ r.seen := by
  rw [h.seen]
  intro hx
  obtain ⟨k, hk, he⟩ := List.mem_map.mp hx
  obtain ⟨hkm, hki⟩ := List.mem_filter.mp hk
  simp only [decide_eq_true_eq] at hki
  obtain rfl : k = i := by omega
  exact hm hkm

/-- TreeRead accepts the items of every stack of a traversal, to its end. -/
theorem treeItems_reads (hv : validTree w nodes = true) {fuel : Nat} {met stack : List Nat} {r : Rebuild} {bits : Bits}
    (htr : Traversing nodes met stack) (hco : Covering nodes met stack) (hm : Mirrors w met stack r)
    (hr : Rebuilding w r) (h : treeItems w nodes fuel stack = some bits) :
    ∃ r' met', Reads w fuel r bits r' ∧ Mirrors w met' [] r' ∧ Covering nodes met' [] := by
  induction fuel generalizing met stack r bits with
  | zero =>
    cases stack with
    | nil =>
      cases (treeItems_nil w 0 nodes).symm.trans h
      exact ⟨r, met, hm.reads_done hr 0, hm, hco⟩
    | cons i stack => cases h
  | succ fuel ih =>
    cases stack with
    | nil =>
      cases (treeItems_nil w _ nodes).symm.trans h
      exact ⟨r, met, hm.reads_done hr _, hm, hco⟩
    | cons i stack =>
      obtain ⟨slots, next, seen, t, rest, rfl⟩ := hm.stack_cons
      have hrange := htr.range hv i (by simp)
      have hnew : i ∉ met := fun hi => (List.nodup_cons.mp htr.meet.nodup).1 (List.mem_append_left _ hi)
      obtain ⟨hi, bits, hrest, rfl⟩ | ⟨hi, nd, bits, hn, hrest, rfl⟩ := treeItems_cons_cases h
      · have hx : i - internals w < 2 ^ w := leaf_symbol_lt hrange.2
        have hs := hm.notMem_seen hnew hi
        have hnone : nodes[i]? = none := List.getElem?_eq_none (by rwa [validTree_length hv])
        obtain ⟨r', met', hreads, hend⟩ := ih htr.meet (hco.meet hnone) (hm.leaf hr hi) (hr.leaf hx hs) hrest
        exact ⟨r', met', .leaf hx hs hreads, hend⟩
      · have hcount : (i :: met).countP (· < internals w) < internals w := by
          refine countP_internal_lt (by omega) ?_ fun k hk => ?_
          · exact htr.meet.nodup.sublist (List.sublist_append_left _ _)
          · exact (htr.meet.range hv k (List.mem_append_left _ hk)).1
        have hlt : next < internals w := by
          have hnext : next = 1 + met.countP (· < internals w) := hm.next
          simp only [List.countP_cons, hi, decide_true, if_true] at hcount
          omega
        have hne := Nat.ne_of_lt hlt
        obtain ⟨r', met', hreads, hend⟩ :=
          ih (htr.expand hv hn) (hco.expand hn) (hm.node nd.left nd.right hr hi hlt) (hr.node hne) hrest
        exact ⟨r', met', .node hne hreads, hend⟩

/-- With every index met all nodes were opened. -/
theorem Mirrors.next_eq (hv : validTree w nodes = true) (hw : 1 ≤ internals w) {met : List Nat} {r : Rebuild}
    (h : Mirrors w met [] r) (hr : Rebuilding w r) (hco : Covering nodes met []) : r.next = internals w := by
  have hsub : List.range' 1 (internals w - 1) ⊆ met.filter (· < internals w) := fun i hi => by
    rw [List.mem_range'_1] at hi
    exact List.mem_filter.mpr ⟨hco.met_all hv (by omega) (by omega), by simp; omega⟩
  have hle := (List.nodup_range' (s := 1)).length_le_of_subset hsub
  rw [List.length_range', ← List.countP_eq_length_filter] at hle
  have := hr.next.2
  have := h.next
  omega

/-- TreeRead accepts the serialization of a valid tree. -/
theorem treeBits_reads (hv : validTree w nodes = true) (hw : 1 ≤ w) {bits : Bits} (h : treeBits w nodes = some bits) :
    ∃ items r, bits = bin 4 (w - 2) ++ items ∧ Reads w (2 * internals w) (Rebuild.start w) items r
      ∧ r.next = internals w := by
  cases nodes with
  | nil => cases h
  | cons root nodes =>
    obtain ⟨items, hi, rfl⟩ := Option.map_eq_some_iff.mp h
    have hstart := Rebuilding.start hw
    have hm : Mirrors w [] [root.left, root.right] (Rebuild.start w) :=
      ⟨rfl, rfl, (congrArg List.length (pending_cons (Rebuild.start_root hw) [])).trans rfl⟩
    obtain ⟨r, met, hreads, hmet, hco⟩ :=
      treeItems_reads hv (Traversing.start hv) (Covering.start root nodes) hm hstart hi
    exact ⟨items, r, rfl, hreads, hmet.next_eq hv (internals_pos hw) (hreads.rebuilding hstart).1 hco⟩

/-- The serialization of a valid tree has a flag for every node but the root, and W bits for every symbol. -/
theorem length_treeBits (hv : validTree w nodes = true) (hw : 1 ≤ w) {bits : Bits} (h : treeBits w nodes = some bits) :
    bits.length = 4 + (2 ^ (w + 1) - 2) + w * 2 ^ w := by
  obtain ⟨items, r, rfl, hreads, hnext⟩ := treeBits_reads hv hw h
  obtain ⟨hr, hs⟩ := hreads.rebuilding (Rebuilding.start hw)
  obtain ⟨hlen, -⟩ := hr.done hs hnext
  have hgiven : (r.slots.flatMap Slots.given).length = 2 * internals w := by
    rw [← hlen, ← length_children, Rebuild.nodes, children_nodes (hr.full hs hnext)]
  have hseen : r.seen.length = 2 ^ w := by simpa using (hr.leaves hnext hgiven).length_eq
  have hbits := hreads.length_bits
  have hpos := Nat.two_pow_pos w
  simp only [Rebuild.start, List.length_nil, Nat.mul_zero, hnext, hseen, Nat.add_mul, internals] at hbits
  simp only [List.length_append, length_bin, Nat.pow_succ]
  omega

end Sys2Proof.Machine
end

section
/-! SUPPORT. Valid trees with the same serialization have the same codes (44_huffman_tree R171, R179). -/

namespace Sys2Proof.Machine

variable {w : Nat} {nodes nodes' : List Node}

/-- In a valid tree the code of a symbol is the way from node 0 to its leaf (44_huffman_tree R171). -/
theorem code_eq_some_iff (hv : validTree w nodes = true) {x : Nat} {c : Bits} :
    code w nodes x = some c ↔ follow nodes c 0 = some (internals w + x) := by
  refine ⟨fun h => (code_follow h).1, fun h => ?_⟩
  rw [code, pathTo_of_follow (validTree_nodup hv) (validTree_zero_notMem hv) h, if_pos (follow_length_le hv h),
    List.append_nil]

/-- The same ways lead from `i` in one tree and from `j` in the other to the leaf of each symbol. -/
def SameLeaves (w : Nat) (nodes nodes' : List Node) (i j : Nat) : Prop :=
  ∀ p x, follow nodes p i = some (internals w + x) ↔ follow nodes' p j = some (internals w + x)

/-- The leaf of one symbol. -/
theorem SameLeaves.leaf (hv : validTree w nodes = true) (hv' : validTree w nodes' = true) {i : Nat}
    (hi : internals w ≤ i) : SameLeaves w nodes nodes' i i := by
  have hend : ∀ {T : List Node}, validTree w T = true → T[i]? = none := fun h =>
    List.getElem?_eq_none (by rwa [validTree_length h])
  rintro (_ | ⟨b, p⟩) x
  · rfl
  · simp [follow, hend hv, hend hv']

/-- Nodes whose children have the same leaves. -/
theorem SameLeaves.node {i j : Nat} {nd nd' : Node} (hi : nodes[i]? = some nd) (hj : nodes'[j]? = some nd')
    (hlt : i < internals w) (hlt' : j < internals w) (hleft : SameLeaves w nodes nodes' nd.left nd'.left)
    (hright : SameLeaves w nodes nodes' nd.right nd'.right) : SameLeaves w nodes nodes' i j := by
  rintro (_ | ⟨_ | _, p⟩) x
  · simp only [follow, Option.some.injEq]
    omega
  · simpa [follow, hi, hj] using hleft p x
  · simpa [follow, hi, hj] using hright p x

/-- The children of a valid tree are at most 2N. -/
theorem children_le (hv : validTree w nodes = true) {k : Nat} {nd : Node} (hk : nodes[k]? = some nd) {stack : List Nat}
    (hs : ∀ i ∈ stack, i ≤ 2 * internals w) : ∀ i ∈ nd.left :: nd.right :: stack, i ≤ 2 * internals w := by
  intro i hi
  simp only [List.mem_cons] at hi
  rcases hi with rfl | rfl | hi
  · exact (validTree_child hv (child_mem_children hk false)).2
  · exact (validTree_child hv (child_mem_children hk true)).2
  · exact hs i hi

/-- The same items come from stacks of indices with the same leaves. -/
theorem treeItems_sameLeaves (hv : validTree w nodes = true) (hv' : validTree w nodes' = true) {fuel : Nat}
    {stack stack' : List Nat} {bits : Bits} (hs : ∀ i ∈ stack, i ≤ 2 * internals w)
    (hs' : ∀ i ∈ stack', i ≤ 2 * internals w) (h : treeItems w nodes fuel stack = some bits)
    (h' : treeItems w nodes' fuel stack' = some bits) (hlen : stack.length = stack'.length) :
    ∀ ij ∈ stack.zip stack', SameLeaves w nodes nodes' ij.1 ij.2 := by
  induction fuel generalizing stack stack' bits with
  | zero =>
    match stack, stack', hlen with
    | [], [], _ => exact List.forall_mem_nil _
    | _ :: _, _ :: _, _ => cases h
  | succ fuel ih =>
    match stack, stack', hlen with
    | [], [], _ => exact List.forall_mem_nil _
    | i :: stack, j :: stack', hlen =>
      simp only [List.length_cons, Nat.add_right_cancel_iff] at hlen
      obtain ⟨hi2, hs⟩ := List.forall_mem_cons.mp hs
      obtain ⟨hj2, htail⟩ := List.forall_mem_cons.mp hs'
      obtain ⟨hi, rest, hrest, rfl⟩ | ⟨hi, nd, rest, hn, hrest, rfl⟩ := treeItems_cons_cases h
      · obtain ⟨hj, rest', hrest', he⟩ | ⟨-, _, _, -, -, he⟩ := treeItems_cons_cases h'
        · obtain ⟨hsym, rfl⟩ := List.append_inj (List.tail_eq_of_cons_eq he) (by simp)
          have hval := congrArg val hsym
          rw [val_bin, val_bin, Nat.mod_eq_of_lt (leaf_symbol_lt hi2), Nat.mod_eq_of_lt (leaf_symbol_lt hj2)] at hval
          obtain rfl : i = j := by omega
          exact List.forall_mem_cons.mpr ⟨.leaf hv hv' hi, ih hs htail hrest hrest' hlen⟩
        · cases he
      · obtain ⟨-, _, -, he⟩ | ⟨hj, nd', rest', hn', hrest', he⟩ := treeItems_cons_cases h'
        · cases he
        · cases he
          have hall := ih (children_le hv hn hs) (children_le hv' hn' htail) hrest hrest' (by simp [hlen])
          simp only [List.zip_cons_cons, List.forall_mem_cons] at hall
          obtain ⟨hleft, hright, hstack⟩ := hall
          exact List.forall_mem_cons.mpr ⟨.node hn hn' hi hj hleft hright, hstack⟩

/-- Valid trees with the same serialization have the same codes (44_huffman_tree R179). -/
theorem code_eq_of_treeBits_eq (hv : validTree w nodes = true) (hv' : validTree w nodes' = true) (hw : 1 ≤ w)
    {bits : Bits} (h : treeBits w nodes = some bits) (h' : treeBits w nodes' = some bits) (x : Nat) :
    code w nodes x = code w nodes' x := by
  obtain _ | ⟨root, tl⟩ := nodes
  · cases h
  obtain _ | ⟨root', tl'⟩ := nodes'
  · cases h'
  obtain ⟨items, hi, rfl⟩ := Option.map_eq_some_iff.mp h
  obtain ⟨items', hi', he⟩ := Option.map_eq_some_iff.mp h'
  obtain rfl := List.append_cancel_left he
  have hnil : ∀ i ∈ ([] : List Nat), i ≤ 2 * internals w := List.forall_mem_nil _
  have hroot : (root :: tl)[0]? = some root := rfl
  have hroot' : (root' :: tl')[0]? = some root' := rfl
  have hall := treeItems_sameLeaves hv hv' (children_le hv hroot hnil) (children_le hv' hroot' hnil) hi hi' rfl
  simp only [List.zip_cons_cons, List.forall_mem_cons] at hall
  obtain ⟨hleft, hright, -⟩ := hall
  have hN := internals_pos hw
  have hsame : SameLeaves w (root :: tl) (root' :: tl') 0 0 := .node hroot hroot' hN hN hleft hright
  refine Option.ext fun c => ?_
  rw [code_eq_some_iff hv, code_eq_some_iff hv']
  exact hsame c x

end Sys2Proof.Machine
end

section
/-! SUPPORT. The rules of the tree commands on ports that answer (44_huffman_tree R173 to R178), and the statements
about them. -/

namespace Sys2Proof.Machine

variable {w : Nat} {nodes : List Node}

/-! ## TreeRead (44_huffman_tree R174) -/

theorem bin_val_take {n : Nat} {bs : Bits} (h : n ≤ bs.length) : bin n (val (bs.take n)) = bs.take n := by
  have := bin_val (bs.take n)
  rwa [List.length_take, Nat.min_eq_left h] at this

/-- Taking `p` and then `q` from the input is taking both. -/
theorem consume_append {p q : Bits} {s : State} (hp : p ++ q <+: incoming s) :
    consume q.length (consume p.length s) = consume (p ++ q).length s := by
  rw [consume_consume (by simpa using hp.length_le), List.length_append]

/-- What begins the input after `p` goes on from `p`. -/
theorem prefix_of_consume {p q : Bits} {s : State} (hp : p <+: incoming s) (hq : q <+: incoming (consume p.length s)) :
    p ++ q <+: incoming s := by
  rw [incoming_consume hp.length_le] at hq
  obtain ⟨rest, hr⟩ := hp
  rw [← hr, List.drop_left] at hq
  rw [← hr]
  exact (List.prefix_append_right_inj p).mpr hq

/-- The item of a symbol: `malformed` where the symbol was seen. -/
theorem rebuildLoop_leaf {fuel next t x : Nat} {slots : List Slots} {seen rest : List Nat} {s : State} (hq : s.Quiet)
    (hx : x < 2 ^ w) (hp : true :: bin w x <+: incoming s) :
    rebuildLoop w (fuel + 1) ⟨slots, next, seen, t :: rest⟩ s =
      if x ∈ seen then raise .malformed (consume (true :: bin w x).length s)
      else rebuildLoop w fuel (Rebuild.place ⟨slots, next, x :: seen, t :: rest⟩ t rest (internals w + x) [])
        (consume (true :: bin w x).length s) := by
  have hp' : [true] ++ bin w x <+: incoming s := hp
  have hflag := getBits_prefix hq ((List.prefix_append _ _).trans hp')
  have hsym := getBits_prefix (consume_quiet 1 hq) (prefix_consume hp')
  have hval : val [true] = 1 := rfl
  rw [length_bin, val_bin, Nat.mod_eq_of_lt hx] at hsym
  rw [List.length_singleton, hval] at hflag
  have hc := consume_append hp'
  rw [length_bin, List.length_singleton] at hc
  simp only [rebuildLoop, hflag, bind, Except.bind, if_true, hsym, hc, List.singleton_append]

/-- The item of a node: `malformed` where all nodes were opened. -/
theorem rebuildLoop_node {fuel next t : Nat} {slots : List Slots} {seen rest : List Nat} {s : State} (hq : s.Quiet)
    (hp : [false] <+: incoming s) :
    rebuildLoop w (fuel + 1) ⟨slots, next, seen, t :: rest⟩ s =
      if next = internals w then raise .malformed (consume [false].length s)
      else rebuildLoop w fuel (Rebuild.place ⟨slots, next + 1, seen, t :: rest⟩ t rest next [next])
        (consume [false].length s) := by
  have hflag := getBits_prefix hq hp
  have hval : val [false] = 0 := rfl
  rw [List.length_singleton, hval] at hflag
  simp only [rebuildLoop, List.length_singleton, hflag, bind, Except.bind, Nat.zero_ne_one, if_false]

theorem rebuildLoop_nil (w fuel next : Nat) (slots : List Slots) (seen : List Nat) (s : State) :
    rebuildLoop w fuel ⟨slots, next, seen, []⟩ s = .ok (⟨slots, next, seen, []⟩, s) := by
  cases fuel <;> rfl

/-- The loop of TreeRead on items it accepts. -/
theorem Reads.rebuildLoop_eq {fuel : Nat} {r r' : Rebuild} {bits : Bits} {s : State} (h : Reads w fuel r bits r')
    (hq : s.Quiet) (hp : bits <+: incoming s) : rebuildLoop w fuel r s = .ok (r', consume bits.length s) := by
  induction h generalizing s with
  | done => rw [rebuildLoop_nil, List.length_nil, consume_zero]
  | leaf hx hs _ ih =>
    rw [rebuildLoop_leaf hq hx ((List.prefix_append _ _).trans hp), if_neg hs,
      ih (consume_quiet _ hq) (prefix_consume hp), consume_append hp]
  | node hn _ ih =>
    rw [rebuildLoop_node hq ((List.prefix_append _ _).trans hp), if_neg hn,
      ih (consume_quiet _ hq) (prefix_consume hp), consume_append hp]

/-- An input that is long enough begins with an item. -/
theorem item_prefix {s : State} (hlen : 1 + w ≤ (incoming s).length) :
    (∃ x, x < 2 ^ w ∧ true :: bin w x <+: incoming s) ∨ [false] <+: incoming s := by
  cases hin : incoming s with
  | nil =>
    rw [hin, List.length_nil] at hlen
    omega
  | cons b more =>
    rw [hin, List.length_cons] at hlen
    cases b with
    | false => exact .inr (List.prefix_append [false] more)
    | true =>
      refine .inl ⟨val (more.take w), val_take_lt w more, ?_⟩
      rw [bin_val_take (by omega), List.prefix_cons_inj]
      exact List.take_prefix w more

/-- `s` has run on to `v`, which read IN alone. -/
def OnlyRead (s v : State) : Prop := v.Quiet ∧ v.wpend = s.wpend ∧ v.sink = s.sink

theorem onlyRead_consume {s : State} (h : s.Quiet) (n : Nat) : OnlyRead s (consume n s) := ⟨consume_quiet n h, rfl, rfl⟩

/-- On an input that is long enough the loop of TreeRead accepts items or raises MALFORMED. -/
theorem rebuildLoop_total (fuel : Nat) (r : Rebuild) {s : State} (hq : s.Quiet)
    (hlen : fuel * (1 + w) ≤ (incoming s).length) :
    (∃ bits r', Reads w fuel r bits r' ∧ bits <+: incoming s)
      ∨ ∃ v, rebuildLoop w fuel r s = .error ⟨.fault .malformed false, v⟩ ∧ OnlyRead s v := by
  induction fuel generalizing r s with
  | zero =>
    obtain ⟨slots, next, seen, _ | ⟨t, rest⟩⟩ := r
    · exact .inl ⟨[], _, .done, List.nil_prefix⟩
    · exact .inr ⟨s, rfl, hq, rfl, rfl⟩
  | succ fuel ih =>
    obtain ⟨slots, next, seen, _ | ⟨t, rest⟩⟩ := r
    · exact .inl ⟨[], _, .done, List.nil_prefix⟩
    rw [Nat.succ_mul] at hlen
    have hafter : ∀ {p : Bits}, p <+: incoming s → p.length ≤ 1 + w →
        fuel * (1 + w) ≤ (incoming (consume p.length s)).length := fun hp hpl => by
      rw [incoming_consume hp.length_le, List.length_drop]
      omega
    obtain ⟨x, hx, hp⟩ | hp := item_prefix (w := w) (s := s) (by omega)
    · rw [rebuildLoop_leaf hq hx hp]
      by_cases hs : x ∈ seen
      · rw [if_pos hs]
        exact .inr ⟨_, rfl, onlyRead_consume hq _⟩
      · rw [if_neg hs]
        refine (ih _ (consume_quiet _ hq) (hafter hp (by simp [Nat.add_comm]))).imp_left ?_
        rintro ⟨bits, r', hreads, hbits⟩
        exact ⟨_, r', .leaf hx hs hreads, prefix_of_consume hp hbits⟩
    · rw [rebuildLoop_node hq hp]
      by_cases hn : next = internals w
      · rw [if_pos hn]
        exact .inr ⟨_, rfl, onlyRead_consume hq _⟩
      · rw [if_neg hn]
        refine (ih _ (consume_quiet _ hq) (hafter hp (by simp))).imp_left ?_
        rintro ⟨bits, r', hreads, hbits⟩
        exact ⟨_, r', .node hn hreads, prefix_of_consume hp hbits⟩

/-- TreeRead of the serialization of a valid tree leaves a valid tree with the same codes (44_huffman_tree R174,
R179). -/
theorem treeRead_quiet {s : State} {bits : Bits} (hq : s.Quiet) (h2 : 2 ≤ w) (h17 : w ≤ 17)
    (hv : validTree w nodes = true) (ht : treeBits w nodes = some bits) (hp : bits <+: incoming s) :
    ∃ nodes', validTree w nodes' = true ∧ (∀ x, code w nodes' x = code w nodes x)
      ∧ treeRead s = .ok (w, { consume bits.length s with tw := w, nodes := nodes' }) := by
  have hw : 1 ≤ w := by omega
  obtain ⟨items, r, rfl, hreads, hnext⟩ := treeBits_reads hv hw ht
  obtain ⟨hr, hs⟩ := hreads.rebuilding (Rebuilding.start hw)
  obtain ⟨-, hv'⟩ := hr.done hs hnext
  have hwidth := getBits_prefix hq ((List.prefix_append _ _).trans hp)
  have hfield : val (bin 4 (w - 2)) + 2 = w := by
    rw [val_bin]
    omega
  have hloop := hreads.rebuildLoop_eq (consume_quiet _ hq) (prefix_consume hp)
  refine ⟨r.nodes, hv', code_eq_of_treeBits_eq hv' hv hw (hreads.treeBits_eq hw) ht, ?_⟩
  rw [length_bin] at hwidth
  simp only [treeRead, hwidth, bind, Except.bind, hfield]
  rw [length_bin] at hloop
  simp only [hloop, hnext, Nat.lt_irrefl, if_false, ← consume_append hp, length_bin]

/-- TreeRead raises MALFORMED where the input begins with no serialization of a valid tree (44_huffman_tree R174). -/
theorem treeRead_malformed {s : State} (hq : s.Quiet) (h : noTree (incoming s)) :
    ∃ v, treeRead s = .error ⟨.fault .malformed false, v⟩ ∧ OnlyRead s v := by
  obtain ⟨hlen, hno⟩ := h
  have hwidth := getBits_quiet (n := 4) hq (by omega)
  have hf := val_take_lt 4 (incoming s)
  have hfield : bin 4 (val ((incoming s).take 4)) = (incoming s).take 4 := bin_val_take (by omega)
  generalize val ((incoming s).take 4) = f at *
  have hp : bin 4 f <+: incoming s := hfield ▸ List.take_prefix 4 _
  simp only [treeRead, hwidth, bind, Except.bind]
  obtain ⟨bits, r, hreads, hbits⟩ | ⟨v, hloop, hv, hwpend, hsink⟩ :=
    rebuildLoop_total (w := f + 2) (2 * internals (f + 2)) (Rebuild.start (f + 2)) (consume_quiet 4 hq) (by
      rw [incoming_consume (by omega), List.length_drop]
      omega)
  · have hnext : r.next ≠ internals (f + 2) := fun hn => by
      obtain ⟨hr, hs⟩ := hreads.rebuilding (Rebuilding.start (by omega))
      obtain ⟨-, hv⟩ := hr.done hs hn
      exact hno _ _ _ (by omega) (by omega) hv (hreads.treeBits_eq (by omega)) (prefix_of_consume hp hbits)
    obtain ⟨hr, -⟩ := hreads.rebuilding (Rebuilding.start (by omega))
    have hlt : r.next < internals (f + 2) := Nat.lt_of_le_of_ne hr.next.2 hnext
    simp only [hreads.rebuildLoop_eq (consume_quiet 4 hq) hbits, hlt, if_true]
    exact ⟨_, rfl, consume_quiet _ (consume_quiet 4 hq), rfl, rfl⟩
  · simp only [hloop]
    exact ⟨v, rfl, hv, hwpend, hsink⟩

/-! ## The other rules -/

theorem htReadRule_quiet {s : State} {bits : Bits} (hq : s.Quiet) (h2 : 2 ≤ w) (h17 : w ≤ 17)
    (hv : validTree w nodes = true) (ht : treeBits w nodes = some bits) (hp : bits <+: incoming s) :
    ∃ nodes', validTree w nodes' = true ∧ (∀ x, code w nodes' x = code w nodes x)
      ∧ htReadRule s =
        .ok { consume bits.length s with tw := w, nodes := nodes', res0 := BitVec.ofNat 64 w } := by
  obtain ⟨nodes', hv', hcode, hread⟩ := treeRead_quiet hq h2 h17 hv ht hp
  refine ⟨nodes', hv', hcode, ?_⟩
  simp only [htReadRule, hread]
  rfl

theorem htReadRule_malformed {s : State} (hq : s.Quiet) (h : noTree (incoming s)) :
    ∃ v, htReadRule s = .error ⟨.fault .malformed false, v⟩ ∧ OnlyRead s v := by
  obtain ⟨v, hread, hv⟩ := treeRead_malformed hq h
  refine ⟨v, ?_, hv⟩
  simp only [htReadRule, hread]
  rfl

/-- HUF.DECOMP reads the tree before it pushes anything (45_huffman_codec R192). -/
theorem hufDecompRule_malformed {s : State} (hq : s.Quiet) (hw : s.wpend = []) (hr : s.rpend = [])
    (h : noTree ((incoming s).drop 64)) :
    ∃ v, hufDecompRule s = .error ⟨.fault .malformed false, v⟩ ∧ OnlyRead s v := by
  have haligned : s.wpend.length = 0 ∧ s.rpend.length = 0 := ⟨by rw [hw]; rfl, by rw [hr]; rfl⟩
  have h64 : 64 ≤ (incoming s).length := by
    have := h.1
    rw [List.length_drop] at this
    omega
  rw [← incoming_consume h64] at h
  obtain ⟨v, hread, hv⟩ := treeRead_malformed (consume_quiet 64 hq) h
  refine ⟨v, ?_, hv⟩
  simp only [hufDecompRule, requireAligned, require_true haligned, getBits_quiet hq h64, bind, Except.bind, hread]

/-- A command that read IN alone and raises MALFORMED ends with the writer flushed (60_exceptions R234, R237). -/
theorem runCommand_malformed {op : Byte} {rule : State → Ran State} {s v : State} (hq : s.Quiet)
    (hr : rule (started s) = .error ⟨.fault .malformed false, v⟩) (hv : OnlyRead (started s) v) :
    ∃ t, runCommand op rule s = .next t ∧ t.err = true ∧ t.errcode = .malformed ∧ t.errop = op ∧ t.busy = false
      ∧ t.done = true ∧ t.sink = (flushed s).sink := by
  obtain ⟨hvq, hwpend, hsink⟩ := hv
  obtain ⟨t, ht, ⟨herr, hcode, hop, hbusy, hdone⟩, -, hts⟩ :=
    finish_fault op (c := .malformed) false nofun (.inr hvq)
  exact ⟨t, by rw [runCommand_quiet op rule hq, hr, ht], herr, hcode, hop, hbusy, hdone,
    hts.trans (flushed_sink_congr hsink hwpend)⟩

theorem htWriteRule_quiet {s : State} {bits : Bits} (hq : s.Quiet) (hw : s.wpend.length ≤ 7) (h2 : 2 ≤ s.tw)
    (h17 : s.tw ≤ 17) (ht : treeBits s.tw s.nodes = some bits) : htWriteRule s = .ok (emit bits s) := by
  have hne : s.tw ≠ 0 := by omega
  simp only [htWriteRule, require_true hne, require_true (And.intro h2 h17), treeWrite, ht]
  exact putString_quiet bits hq hw

/-- The code of a symbol is not empty, since its leaf is not node 0. -/
theorem code_length_pos {x : Nat} {c : Bits} (hw : 1 ≤ w) (h : code w nodes x = some c) : 1 ≤ c.length := by
  obtain ⟨hf, -⟩ := code_follow h
  have hN := internals_pos hw
  cases c with
  | nil =>
    simp only [follow, Option.some.injEq] at hf
    omega
  | cons b c => exact Nat.succ_pos _

theorem codeOperand_ok {s : State} {c : Bits} (hne : s.tw ≠ 0) (hx : s.arg0.toNat < 2 ^ s.tw)
    (hc : code s.tw s.nodes s.arg0.toNat = some c) (hmax : c.length ≤ s.params.maxCodeLen) :
    codeOperand s = .ok c := by
  have hx' : arg0Nat s < 2 ^ s.tw := hx
  have hc' : code s.tw s.nodes (arg0Nat s) = some c := hc
  simp only [codeOperand, require_true hne, require_true hx', hc', require_true hmax]
  rfl

/-- A code that is too long is a check fault (44_huffman_tree R175, R177). -/
theorem codeOperand_capacity {s : State} {c : Bits} (hne : s.tw ≠ 0) (hx : s.arg0.toNat < 2 ^ s.tw)
    (hc : code s.tw s.nodes s.arg0.toNat = some c) (hmax : s.params.maxCodeLen < c.length) :
    codeOperand s = .error ⟨.fault .capacity true, s⟩ := by
  have hx' : arg0Nat s < 2 ^ s.tw := hx
  have hc' : code s.tw s.nodes (arg0Nat s) = some c := hc
  simp only [codeOperand, require_true hne, require_true hx', hc', require_false (Nat.not_le_of_lt hmax)]
  rfl

theorem htEncRule_quiet {s : State} {c : Bits} (hq : s.Quiet) (hw : s.wpend.length ≤ 7) (h : codeOperand s = .ok c) :
    htEncRule s = .ok (emit c s) := by
  have hput := putBits_quiet (val c) c.length hq hw
  rw [bin_val] at hput
  simp only [htEncRule, h]
  exact hput

theorem htCodeRule_eq {s : State} {c : Bits} (h : codeOperand s = .ok c) :
    htCodeRule s = .ok { s with res0 := BitVec.ofNat 64 (val c), res1 := BitVec.ofNat 64 c.length } := by
  simp only [htCodeRule, h]
  rfl

/-- TreeDecode from `i` along a way to a leaf (44_huffman_tree R176). -/
theorem walk_quiet {p : Bits} {fuel i x : Nat} {s : State} (hlen : nodes.length = internals w) (hq : s.Quiet)
    (hf : follow nodes p i = some (internals w + x)) (hp : p <+: incoming s) (hfuel : p.length ≤ fuel) :
    walk w nodes fuel i s = .ok (x, consume p.length s) := by
  induction p generalizing fuel i s with
  | nil =>
    cases Option.some.inj hf
    have hleaf : internals w ≤ internals w + x := Nat.le_add_right _ _
    cases fuel <;> simp [walk, hleaf, consume_zero]
  | cons b p ih =>
    obtain ⟨fuel, rfl⟩ : ∃ f, fuel = f + 1 := ⟨fuel - 1, by simp at hfuel; omega⟩
    cases hn : nodes[i]? with
    | none => simp [follow, hn] at hf
    | some nd =>
      have hi : ¬ internals w ≤ i := by
        have := (List.getElem?_eq_some_iff.mp hn).1
        omega
      have hp' : [b] ++ p <+: incoming s := hp
      have hbit := getBits_prefix hq ((List.prefix_append _ _).trans hp')
      have hnext : (if val [b] = 0 then nd.left else nd.right) = if b then nd.right else nd.left := by cases b <;> rfl
      simp only [follow, hn] at hf
      have hrest := ih (consume_quiet _ hq) hf (prefix_consume hp') (Nat.le_of_succ_le_succ hfuel)
      rw [consume_append hp'] at hrest
      simp only [List.length_singleton] at hbit
      simp only [walk, hi, if_false, hbit, bind, Except.bind, hn, hnext]
      exact hrest

/-- TreeDecode of the code of a symbol gives the symbol and takes its bits (44_huffman_tree R176). -/
theorem treeDecode_quiet {s : State} {x : Nat} {c : Bits} (hq : s.Quiet) (hv : validTree s.tw s.nodes = true)
    (hc : code s.tw s.nodes x = some c) (hp : c <+: incoming s) : treeDecode s = .ok (x, consume c.length s) := by
  obtain ⟨hf, hle⟩ := code_follow hc
  exact walk_quiet (validTree_length hv) hq hf hp hle

theorem htDecRule_quiet {s : State} {x : Nat} {c : Bits} (hq : s.Quiet) (hne : s.tw ≠ 0)
    (hv : validTree s.tw s.nodes = true) (hc : code s.tw s.nodes x = some c) (hp : c <+: incoming s) :
    htDecRule s = .ok { consume c.length s with res0 := BitVec.ofNat 64 x } := by
  simp only [htDecRule, require_true hne, treeDecode_quiet hq hv hc hp]
  rfl

theorem htNodeRule_eq {s : State} {nd : Node} (hne : s.tw ≠ 0) (hx : s.arg0.toNat < 2 ^ s.tw - 1)
    (hn : s.nodes[s.arg0.toNat]? = some nd) :
    htNodeRule s = .ok { s with res0 := BitVec.ofNat 64 nd.left, res1 := BitVec.ofNat 64 nd.right } := by
  have hx' : arg0Nat s < 2 ^ s.tw - 1 := hx
  have hn' : s.nodes[arg0Nat s]? = some nd := hn
  simp only [htNodeRule, require_true hne, require_true hx', hn']
  rfl

end Sys2Proof.Machine

open Sys2Proof Sys2Proof.Machine

namespace Sys2Proof.Proofs

/-- Settles O47: TreeRead accepts the items of a valid tree, and what it accepts is the serialization of the valid tree
it made, so that the two trees have the same codes and other bits are not accepted. -/
theorem htReadRebuildsTree : Obligations.HtReadRebuildsTree := by
  refine ⟨fun s w nodes bits hq h2 h17 hv ht hp => ?_, fun s hq hno => ?_, fun s hq hw hr hno => ?_⟩
  · obtain ⟨nodes', hv', hcode, hrule⟩ := htReadRule_quiet (started_quiet hq) h2 h17 hv ht hp
    exact ⟨nodes', hv', fun x _ => hcode x, runCommand_ok hq hrule⟩
  · obtain ⟨v, hrule, hv⟩ := htReadRule_malformed (started_quiet hq) hno
    exact runCommand_malformed hq hrule hv
  · obtain ⟨v, hrule, hv⟩ := hufDecompRule_malformed (started_quiet hq) hw hr hno
    obtain ⟨t, ht, herr, hcode, hop, hbusy, hdone, hsink⟩ := runCommand_malformed (op := 0x51) hq hrule hv
    exact ⟨t, ht, herr, hcode, hop, hbusy, hdone, by rw [hsink, flushed_of_empty hw]⟩

/-- Settles O46: a valid tree has a serialization, which TreeRead accepts, and so has the length of 2N items. -/
theorem htWriteEmitsTree : Obligations.HtWriteEmitsTree := by
  intro s hq hw h2 h17 hv
  obtain ⟨bits, ht⟩ := treeBits_isSome hv (by omega)
  exact ⟨bits, ht, length_treeBits hv (by omega) ht,
    runCommand_ok hq (htWriteRule_quiet (started_quiet hq) hw h2 h17 ht)⟩

/-- Settles O48: the two commands share their checks, and differ in what they do with the code. -/
theorem htEncAndHtCode : Obligations.HtEncAndHtCode := by
  intro s hq hw hne hv hx
  obtain ⟨c, hc⟩ := code_isSome hv hne hx
  refine ⟨c, hc, code_length_pos (Nat.one_le_iff_ne_zero.mpr hne) hc, (code_follow hc).2, fun hmax => ?_,
    fun hmax => ?_⟩
  · have hoperand : codeOperand (started s) = .ok c := codeOperand_ok hne hx hc hmax
    exact ⟨runCommand_ok hq (htEncRule_quiet (started_quiet hq) hw hoperand),
      runCommand_ok hq (htCodeRule_eq hoperand)⟩
  · have hoperand : codeOperand (started s) = _ := codeOperand_capacity hne hx hc hmax
    exact ⟨runCommand_check hq nofun (by simp only [htEncRule, hoperand]; rfl),
      runCommand_check hq nofun (by simp only [htCodeRule, hoperand]; rfl)⟩

/-- Settles O49: the code of a symbol is the way from node 0 to its leaf, which TreeDecode walks. -/
theorem htDecReadsCode : Obligations.HtDecReadsCode := fun _ _ _ hq hne hv _ hc hp =>
  runCommand_ok hq (htDecRule_quiet (started_quiet hq) hne hv hc hp)

/-- Settles O50: NODES has an entry for every index below N. -/
theorem htNodeShowsEntry : Obligations.HtNodeShowsEntry := by
  rintro s hq ⟨-, hlen, -⟩ hne hx
  have hlt : s.arg0.toNat < s.nodes.length := hlen ▸ hx
  have hn : s.nodes[s.arg0.toNat]? = some s.nodes[s.arg0.toNat] := List.getElem?_eq_getElem hlt
  exact ⟨_, hn, runCommand_ok hq (htNodeRule_eq (s := started s) hne hx hn)⟩

end Sys2Proof.Proofs
end

section
/-! SUPPORT. The rules of the Huffman container commands on ports that answer (45_huffman_codec R191, R192), and the
statements about them. -/

namespace Sys2Proof.Machine

variable {w : Nat} {nodes : List Node}

/-! ## The codes of a list of words -/

/-- The codes of the words `xs`, first to last (30_encoding R94). -/
def codesOf (w : Nat) (nodes : List Node) (xs : List Nat) : Bits := xs.flatMap fun x => (code w nodes x).getD []

theorem containerBits_eq (tb : Bits) (d : List Byte) :
    containerBits w nodes tb d = bin 64 d.length ++ tb ++ codesOf w nodes (wordsOf w (bytesBits d)) := rfl

theorem codesOf_cons {x : Nat} {c : Bits} (hc : code w nodes x = some c) (xs : List Nat) :
    codesOf w nodes (x :: xs) = c ++ codesOf w nodes xs := by simp [codesOf, hc]

theorem codesOf_wordsOf_nil : codesOf w nodes (wordsOf w []) = [] := by rw [wordsOf_nil, codesOf, List.flatMap_nil]

theorem codesOf_congr {nodes' : List Node} (h : ∀ x, code w nodes' x = code w nodes x) :
    codesOf w nodes' = codesOf w nodes := by
  funext xs
  simp only [codesOf, h]

/-- The codes of a bit string's words begin with that of its first word. -/
theorem codesOf_wordsOf (hv : validTree w nodes = true) (hw : 1 ≤ w) {bs : Bits} (hne : bs ≠ []) :
    ∃ c, code w nodes (val (bs.take w)) = some c
      ∧ codesOf w nodes (wordsOf w bs) = c ++ codesOf w nodes (wordsOf w (bs.drop w)) := by
  obtain ⟨c, hc⟩ := code_isSome hv (by omega) (val_take_lt w bs)
  exact ⟨c, hc, by rw [wordsOf_cons hw hne, codesOf_cons hc]⟩

/-! ## The writer and the reader -/

/-- A container command may start where nothing is pending (45_huffman_codec R190). -/
theorem requireAligned_empty {s : State} (hpend : s.wpend = []) (hr : s.rpend = []) : requireAligned s = .ok () :=
  require_true ⟨by rw [hpend]; rfl, by rw [hr]; rfl⟩ _ _

/-- The reader and the writer do not touch one another. -/
theorem consume_emit (n : Nat) (bs : Bits) (s : State) : consume n (emit bs s) = emit bs (consume n s) := by
  simp only [consume, emit, pulls, List.drop_drop, Nat.add_comm]

/-- Whole bytes through an empty writer leave it empty. -/
theorem emit_bytesBits {s : State} (hpend : s.wpend = []) (d : List Byte) :
    emit (bytesBits d) s = { s with sink := s.sink ++ d, draws := s.draws.drop d.length } := by
  have hbytes : wholeBytes (bytesBits d) = d := by simpa [wholeBytes_short] using wholeBytes_bytesBits_append d []
  have htail : tailBits (bytesBits d) = [] := by simpa [tailBits_short] using tailBits_bytesBits_append d []
  have hdraws : (bytesBits d).length / 8 = d.length := by rw [length_bytesBits]; omega
  simp only [emit, hpend, List.nil_append, hbytes, htail, hdraws]

/-! ## The second pass of HUF.COMP (45_huffman_codec R191) -/

theorem treeWrite_quiet {s : State} {tb : Bits} (h : s.Quiet) (hw : s.wpend.length ≤ 7)
    (ht : treeBits s.tw s.nodes = some tb) : treeWrite s = .ok (emit tb s) := by
  simp only [treeWrite, ht, putString_quiet tb h hw]

theorem putCode_quiet {s : State} {x : Nat} {c : Bits} (h : s.Quiet) (hw : s.wpend.length ≤ 7)
    (hc : code s.tw s.nodes x = some c) : putCode x s = .ok (emit c s) := by
  simp only [putCode, hc, putString_quiet c h hw]

/-- The state with IN read to its end, `k` transactions later. -/
def atEnd (k : Nat) (s : State) : State :=
  { s with rpend := [], pos := s.src.length, draws := s.draws.drop k }

theorem atEnd_quiet (k : Nat) {s : State} (h : s.Quiet) : (atEnd k s).Quiet := h.drop k rfl rfl rfl

/-- The loop writes the code of every word of the input, and ends at the end of IN. -/
theorem codeLoop_quiet {fuel : Nat} {s : State} (h : s.Quiet) (hp : s.pos ≤ s.src.length) (hw : 1 ≤ w)
    (htw : s.tw = w) (hnodes : s.nodes = nodes) (hv : validTree w nodes = true) (hpend : s.wpend.length ≤ 7)
    (hfuel : (incoming s).length < fuel) :
    ∃ k, codeLoop w fuel s = .ok (atEnd k (emit (codesOf w nodes (wordsOf w (incoming s))) s)) := by
  induction fuel generalizing s with
  | zero => omega
  | succ fuel ih =>
    by_cases hin : incoming s = []
    · have hread := nextWord_end h hp (by rw [hin]; exact hw)
      refine ⟨s.src.length - s.pos + 1, ?_⟩
      rw [hin, codesOf_wordsOf_nil, emit_nil hpend]
      simp only [codeLoop, hread, bind, Except.bind, hin, List.length_nil, if_true, atEnd]
    · obtain ⟨t, hread, ht, hrest, htp, k, hframe⟩ := nextWord_quiet (w := w) h hp
      have hlen := List.length_pos_iff.mpr hin
      have hsome : min w (incoming s).length ≠ 0 := by omega
      obtain ⟨c, hc, hcodes⟩ := codesOf_wordsOf hv hw hin
      have htw' : t.tw = w := by rw [hframe, htw]
      have hnodes' : t.nodes = nodes := by rw [hframe, hnodes]
      have hpend' : t.wpend.length ≤ 7 := by rw [hframe]; exact hpend
      have hput := putCode_quiet (c := c) ht hpend' (by rw [htw', hnodes']; exact hc)
      have hrest' : incoming (emit c t) = (incoming s).drop w := hrest
      obtain ⟨j, hloop⟩ := ih (s := emit c t) (emit_quiet c ht) htp htw' hnodes' (emit_wpend_lt c t)
        (by rw [hrest', List.length_drop]; omega)
      rw [hrest', emit_append, ← hcodes] at hloop
      refine ⟨k + j, ?_⟩
      simp only [codeLoop, hread, bind, Except.bind, hsome, if_false, hput, hloop]
      rw [hframe]
      simp only [atEnd, emit, List.drop_drop, Nat.add_left_comm, Nat.add_comm, Nat.add_assoc]

/-- A flush uses at most one draw. -/
theorem flushed_draws (s : State) : ∃ k, (flushed s).draws = s.draws.drop k := by
  by_cases h : s.wpend = []
  · exact ⟨0, by simp only [flushed, if_pos h, List.drop_zero]⟩
  · exact ⟨1, by simp only [flushed, if_neg h, List.drop_one]⟩

/-- After a rewind the input is the whole source. -/
theorem incoming_rewound {s : State} (hr : s.rpend = []) (hp : s.pos = 0) : incoming s = bytesBits s.src := by
  rw [incoming, hr, hp, List.nil_append, List.drop_zero]

/-- What HUF.COMP does after its first pass, for a source of `l` bytes (45_huffman_codec R191). -/
def writeContainer (w l : Nat) (s : State) : Ran State := do
  let s ← putBits l 64 s
  let s ← treeWrite s
  let s ← codeLoop w (inputBits s + 1) s
  let s ← flush s
  .ok (setRes0 (BitVec.ofNat 64 l) s)

/-- The second pass pushes the padded container. -/
theorem writeContainer_quiet {s : State} {tb : Bits} (h : s.Quiet) (hpend : s.wpend = []) (hr : s.rpend = [])
    (hp : s.pos = 0) (hw : 1 ≤ w) (htw : s.tw = w) (hnodes : s.nodes = nodes) (hv : validTree w nodes = true)
    (ht : treeBits w nodes = some tb) :
    ∃ k, writeContainer w s.src.length s =
      .ok { s with
        sink := s.sink ++ wholeBytes (padBits (containerBits w nodes tb s.src))
        pos := s.src.length, res0 := BitVec.ofNat 64 s.src.length, draws := s.draws.drop k } := by
  have hlength := putBits_quiet s.src.length 64 h (by rw [hpend]; exact Nat.zero_le 7)
  have hq := emit_quiet (bin 64 s.src.length) h
  have htree := treeWrite_quiet (tb := tb) hq (emit_wpend_lt _ s) (by rw [← ht, ← htw, ← hnodes]; rfl)
  rw [emit_append] at htree
  have hin : incoming (emit (bin 64 s.src.length ++ tb) s) = bytesBits s.src := incoming_rewound hr hp
  obtain ⟨k, hcodes⟩ := codeLoop_quiet (s := emit (bin 64 s.src.length ++ tb) s) (emit_quiet _ h)
    (hp ▸ Nat.zero_le _) hw htw hnodes hv (emit_wpend_lt _ s) (Nat.lt_succ_of_le (Nat.le_of_eq (length_incoming _)))
  rw [hin, emit_append, ← containerBits_eq] at hcodes
  obtain ⟨t, hstate⟩ : ∃ t, t = atEnd k (emit (containerBits w nodes tb s.src) s) := ⟨_, rfl⟩
  rw [← hstate] at hcodes
  have hflush : flush t = .ok (flushed t) := flush_quiet (hstate ▸ atEnd_quiet k (emit_quiet _ h))
  obtain ⟨j, hdraws⟩ := flushed_draws t
  have hsink : (flushed t).sink = s.sink ++ wholeBytes (padBits (containerBits w nodes tb s.src)) := by
    rw [hstate]
    rw [← flushed_emit _ hpend]
    exact flushed_sink_congr rfl rfl
  refine ⟨(s.wpend ++ containerBits w nodes tb s.src).length / 8 + k + j, ?_⟩
  simp only [writeContainer, hlength, bind, Except.bind, htree, hcodes, hflush]
  rw [flushed_eq, hsink, hdraws]
  simp only [hstate, atEnd, emit, setRes0, List.drop_drop, hpend, hr]

/-! ## The first pass of HUF.COMP -/

/-- The state between the two passes, `k` transactions after the start: the histogram and the tree of the source, and IN
at its start. -/
def surveyed (w k : Nat) (s : State) : State :=
  { s with
    hw := w, counts := tally w (wordsOf w (bytesBits s.src))
    tw := w, nodes := builtNodes w (tally w (wordsOf w (bytesBits s.src)))
    rpend := [], pos := 0, draws := s.draws.drop k }

theorem surveyed_quiet (w k : Nat) {s : State} (h : s.Quiet) : (surveyed w k s).Quiet := h.drop k rfl rfl rfl

theorem hufCompRule_firstPass {s : State} (h : s.Quiet) (hs : s.seekable = true) (hpend : s.wpend = [])
    (hr : s.rpend = []) (h2 : 2 ≤ w) (h17 : w ≤ 17) (hlen : 8 * s.src.length < 2 ^ 64) :
    ∃ k, hufCompRule w s = writeContainer w s.src.length (surveyed w k s) := by
  have hlength : lengthWord s.src.length = BitVec.ofNat 64 s.src.length := if_pos (by omega)
  have hl : (BitVec.ofNat 64 s.src.length).toNat = s.src.length := by
    rw [BitVec.toNat_ofNat, Nat.mod_eq_of_lt (by omega)]
  have hrewind := srcRewind_quiet (s := { s with draws := s.draws.tail }) (h.drop 1 rfl rfl List.drop_one.symm) hs
  have hin : incoming { s with pos := 0, draws := s.draws.tail.tail } = bytesBits s.src := incoming_rewound hr rfl
  obtain ⟨k, hhist⟩ := histBuild_quiet (w := w) (s := { s with pos := 0, draws := s.draws.tail.tail })
    (h.drop 2 rfl rfl (by simp only [← List.drop_one, List.drop_drop])) (Nat.zero_le _) (by omega)
    (by rw [hin, length_bytesBits]; exact hlen)
  rw [hin] at hhist
  have hagain := srcRewind_quiet (s := treeBuild { s with
      hw := w, counts := tally w (wordsOf w (bytesBits s.src))
      rpend := [], pos := s.src.length, draws := s.draws.tail.tail.drop k })
    (h.drop (1 + 1 + k) rfl rfl (by simp only [treeBuild, ← List.drop_one, List.drop_drop])) hs
  refine ⟨1 + 1 + k + 1, ?_⟩
  simp only [hufCompRule, require_true (And.intro h2 h17), requireAligned_empty hpend hr, srcLen_quiet h hs, bind,
    Except.bind, hrewind, hhist, hagain, hlength, hl]
  simp only [writeContainer, surveyed, treeBuild, ← List.drop_one, List.drop_drop, bind, Except.bind]

/-- HUF.COMP writes the container of the whole source (45_huffman_codec R191). -/
theorem hufCompRule_quiet {s : State} {tb : Bits} (h : s.Quiet) (hs : s.seekable = true) (hpend : s.wpend = [])
    (hr : s.rpend = []) (h2 : 2 ≤ w) (h17 : w ≤ 17) (hlen : 8 * s.src.length < 2 ^ 64)
    (hnodes : builtNodes w (tally w (wordsOf w (bytesBits s.src))) = nodes) (ht : treeBits w nodes = some tb) :
    ∃ k, hufCompRule w s =
      .ok { s with
        sink := s.sink ++ wholeBytes (padBits (containerBits w nodes tb s.src))
        hw := w, counts := tally w (wordsOf w (bytesBits s.src)), tw := w, nodes := nodes, pos := s.src.length
        res0 := BitVec.ofNat 64 s.src.length, draws := s.draws.drop k } := by
  obtain ⟨k, hfirst⟩ := hufCompRule_firstPass h hs hpend hr h2 h17 hlen
  have hv : validTree w nodes = true := hnodes ▸ validTree_builtNodes w _
  have hw : 1 ≤ w := Nat.le_of_succ_le h2
  obtain ⟨j, hsecond⟩ := writeContainer_quiet (surveyed_quiet w k h) hpend rfl rfl hw rfl hnodes hv ht
  refine ⟨k + j, hfirst.trans (hsecond.trans ?_)⟩
  simp only [surveyed, hnodes, hr, List.drop_drop]

/-! ## HUF.DECOMP (45_huffman_codec R192) -/

theorem decodeLoop_nil {s : State} (hpend : s.wpend.length ≤ 7) (fuel : Nat) :
    decodeLoop w fuel 0 s = .ok (emit [] (consume (codesOf w nodes (wordsOf w [])).length s)) := by
  rw [codesOf_wordsOf_nil, List.length_nil, consume_zero, emit_nil hpend]
  cases fuel with
  | zero => rfl
  | succ fuel => exact if_pos rfl

/-- The loop of HUF.DECOMP on the codes of the words of `bits` writes `bits`, the short last word with its own width. -/
theorem decodeLoop_quiet {fuel : Nat} {bits : Bits} {s : State} (h : s.Quiet) (hw : 1 ≤ w) (htw : s.tw = w)
    (hnodes : s.nodes = nodes) (hv : validTree w nodes = true) (hpend : s.wpend.length ≤ 7)
    (hp : codesOf w nodes (wordsOf w bits) <+: incoming s) (hfuel : bits.length ≤ fuel) :
    decodeLoop w fuel bits.length s =
      .ok (emit bits (consume (codesOf w nodes (wordsOf w bits)).length s)) := by
  induction fuel generalizing bits s with
  | zero =>
    obtain rfl : bits = [] := List.length_eq_zero_iff.mp (Nat.le_zero.mp hfuel)
    exact decodeLoop_nil hpend 0
  | succ fuel ih =>
    by_cases hne : bits = []
    · rw [hne]
      exact decodeLoop_nil hpend (fuel + 1)
    · obtain ⟨c, hc, hcodes⟩ := codesOf_wordsOf hv hw hne
      rw [hcodes] at hp ⊢
      have hlen := List.length_pos_iff.mpr hne
      have hdecode : treeDecode s = .ok (val (bits.take w), consume c.length s) :=
        treeDecode_quiet h (by rw [htw, hnodes, hv]) (by rw [htw, hnodes, hc]) ((List.prefix_append _ _).trans hp)
      have hword : bin (min w bits.length) (val (bits.take w)) = bits.take w := by
        rw [← List.length_take, bin_val]
      have hput := putBits_quiet (val (bits.take w)) (min w bits.length) (consume_quiet c.length h) hpend
      rw [hword] at hput
      have hrem : bits.length - min w bits.length = (bits.drop w).length := by rw [List.length_drop]; omega
      have hloop := ih (bits := bits.drop w) (s := emit (bits.take w) (consume c.length s))
        (emit_quiet _ (consume_quiet _ h)) htw hnodes (emit_wpend_lt _ _) (prefix_consume hp)
        (by rw [List.length_drop]; omega)
      rw [consume_emit, consume_append hp, emit_append, List.take_append_drop] at hloop
      simp only [decodeLoop, Nat.ne_of_gt hlen, if_false, hdecode, bind, Except.bind, hput, hrem, hloop]

/-- HUF.DECOMP reads the length, a tree with the container's codes, and the codes of the words of `d`. -/
theorem hufDecompRule_quiet {s : State} {tb : Bits} {d : List Byte} (h : s.Quiet) (hpend : s.wpend = [])
    (hr : s.rpend = []) (h2 : 2 ≤ w) (h17 : w ≤ 17) (hv : validTree w nodes = true)
    (ht : treeBits w nodes = some tb) (hd : d.length < 2 ^ 64) (hp : containerBits w nodes tb d <+: incoming s) :
    ∃ k nodes', validTree w nodes' = true ∧ (∀ x, code w nodes' x = code w nodes x)
      ∧ hufDecompRule s =
        .ok { s with
          sink := s.sink ++ d, pos := s.pos + ((containerBits w nodes tb d).length + 7) / 8
          tw := w, nodes := nodes', res0 := BitVec.ofNat 64 d.length, res1 := BitVec.ofNat 64 w
          draws := s.draws.drop k } := by
  rw [containerBits_eq] at hp
  have hp1 : bin 64 d.length ++ tb <+: incoming s := (List.prefix_append _ _).trans hp
  have hlength := getBits_prefix h ((List.prefix_append _ _).trans hp1)
  rw [length_bin, val_bin, Nat.mod_eq_of_lt hd] at hlength
  obtain ⟨nodes', hv', hcode, hread⟩ := treeRead_quiet (consume_quiet _ h) h2 h17 hv ht (prefix_consume hp1)
  rw [consume_append hp1, length_bin] at hread
  have hloop : decodeLoop w (8 * d.length) (8 * d.length)
        { consume (bin 64 d.length ++ tb).length s with tw := w, nodes := nodes' } =
      .ok { emit (bytesBits d) (consume (containerBits w nodes tb d).length s) with tw := w, nodes := nodes' } := by
    rw [containerBits_eq, ← consume_append hp, ← codesOf_congr hcode, ← length_bytesBits d]
    refine decodeLoop_quiet (consume_quiet _ h) (Nat.le_of_succ_le h2) rfl rfl hv' ?_ ?_ (Nat.le_refl _)
    · exact hpend ▸ Nat.zero_le 7
    · rw [codesOf_congr hcode]
      exact prefix_consume hp
  rw [emit_bytesBits (s := consume _ s) hpend] at hloop
  refine ⟨pulls (containerBits w nodes tb d).length s + d.length, nodes', hv', hcode, ?_⟩
  simp only [hufDecompRule, requireAligned_empty hpend hr, hlength, bind, Except.bind, hread, hloop]
  simp only [setRes0, setRes1, consume, pulls, hr, List.drop_drop, List.length_nil, Nat.sub_zero]

end Sys2Proof.Machine

open Sys2Proof Sys2Proof.Machine

namespace Sys2Proof.Proofs

/-- Settles O52: the first pass leaves the tally and the tree of the words of the source, the second writes the length,
the tree and the code of every word, and the flush pads them. -/
theorem hufCompWritesContainer : Obligations.HufCompWritesContainer := by
  intro s w hq _ hs hpend hr h2 h17 hlen
  have hv := validTree_builtNodes w (tally w (wordsOf w (bytesBits s.src)))
  obtain ⟨tb, ht⟩ := treeBits_isSome hv (by omega)
  obtain ⟨k, hrule⟩ := hufCompRule_quiet (started_quiet hq) hs hpend hr h2 h17 hlen rfl ht
  exact ⟨k, _, _, tb, rfl, rfl, hv, ht, runCommand_ok hq hrule⟩

/-- Settles O53: the container's three parts are read one after the other, the third by the loop, and nothing is pending
after the whole bytes of `d`. -/
theorem hufDecompExpandsContainer : Obligations.HufDecompExpandsContainer := by
  intro s w nodes tb d hq hpend hr h2 h17 hv ht hd hp
  obtain ⟨k, nodes', hv', hcode, hrule⟩ := hufDecompRule_quiet (started_quiet hq) hpend hr h2 h17 hv ht hd hp
  exact ⟨k, nodes', hv', fun x _ => hcode x, runCommand_ok hq hrule⟩

/-- Settles O54: the bytes HUF.COMP pushed begin with the container of the source, which HUF.DECOMP expands. -/
theorem huffmanRoundTrip : Obligations.HuffmanRoundTrip := by
  intro s u w hq hwf hs hpend hr h2 h17 hlen hqu hpendu hru hpos
  obtain ⟨k, counts, nodes, tb, -, -, hv, ht, hcomp⟩ := hufCompWritesContainer s w hq hwf hs hpend hr h2 h17 hlen
  refine ⟨_, hcomp, fun hsrc => ?_⟩
  have hbytes : u.src = wholeBytes (padBits (containerBits w nodes tb s.src)) := hsrc.trans List.drop_left
  obtain ⟨j, nodes', -, -, hdecomp⟩ := hufDecompExpandsContainer u w nodes tb s.src hqu hpendu hru h2 h17 hv ht
    (by omega) (prefix_incoming_padBits hru hpos hbytes)
  exact ⟨_, hdecomp, rfl, rfl, rfl, rfl⟩

end Sys2Proof.Proofs
end

section
/-! SUPPORT. LzAdd under each strategy, the lookups of the dictionary, and the rules of its commands and of the phrase
buffer's on ports that answer (46_lz78_dictionary R202 to R213). -/

namespace Sys2Proof.Machine

/-! ## The strategies (10_state R36, 46_lz78_dictionary R202) -/

theorem strategyKind_of_zero {v : Word} (h : v.toInt = 0) : strategyKind v = .never := if_pos h

theorem strategyKind_of_pos {v : Word} (h : 0 < v.toInt) : strategyKind v = .dropAt v.toInt.toNat := by
  rw [strategyKind, if_neg (by omega), if_pos h]

theorem strategyKind_of_neg {v : Word} (h : v.toInt < 0) : strategyKind v = .freezeAt (-v.toInt).toNat := by
  rw [strategyKind, if_neg (by omega), if_neg (by omega)]

/-- A dictionary is frozen exactly under Freeze at its limit. -/
theorem frozen_iff (s : State) : frozen s = true ↔ s.strat.toInt < 0 ∧ -s.strat.toInt ≤ s.lznodes.length := by
  rcases Int.lt_trichotomy s.strat.toInt 0 with h | h | h
  · have hlimit : (-s.strat.toInt).toNat ≤ s.lznodes.length ↔ s.strat.toInt < 0 ∧ -s.strat.toInt ≤ s.lznodes.length := by
      omega
    simp only [frozen, strategyKind_of_neg h]
    exact decide_eq_true_iff.trans hlimit
  · simp only [frozen, strategyKind_of_zero h, h, Int.lt_irrefl, false_and, reduceCtorEq]
  · simp only [frozen, strategyKind_of_pos h, Int.not_lt.mpr (Int.le_of_lt h), false_and, reduceCtorEq]

/-- Step 1 of LzAdd clears the dictionary exactly under Drop at its limit. -/
theorem dropIfFull_eq (s : State) :
    dropIfFull s =
      if 0 < s.strat.toInt ∧ s.strat.toInt ≤ s.lznodes.length then { s with lznodes := [], lzindex := [] } else s := by
  rcases Int.lt_trichotomy s.strat.toInt 0 with h | h | h
  · rw [if_neg (by omega)]
    simp only [dropIfFull, strategyKind_of_neg h]
  · rw [if_neg (by omega)]
    simp only [dropIfFull, strategyKind_of_zero h]
  · have hlimit : s.strat.toInt.toNat ≤ s.lznodes.length ↔ 0 < s.strat.toInt ∧ s.strat.toInt ≤ s.lznodes.length := by
      omega
    simp only [dropIfFull, strategyKind_of_pos h, dictSize, hlimit, clearDictionary]

/-- Step 1 of LzAdd does not look at what the start of a command sets. -/
theorem dropIfFull_started (s : State) : dropIfFull (started s) = started (dropIfFull s) := by
  rw [dropIfFull_eq, dropIfFull_eq, apply_ite started]
  rfl

theorem dropIfFull_of_frozen {s : State} (h : frozen s = true) : dropIfFull s = s := by
  have hneg := (frozen_iff s).mp h
  rw [dropIfFull_eq, if_neg (by omega)]

/-- A dictionary cleared in step 1 of LzAdd is not frozen in step 2: one strategy does not do both. -/
theorem frozen_dropIfFull (s : State) : frozen (dropIfFull s) = frozen s := by
  rw [dropIfFull_eq]
  split
  next h =>
    rw [Bool.eq_iff_iff, frozen_iff, frozen_iff]
    show s.strat.toInt < 0 ∧ _ ↔ _
    omega
  next => rfl

theorem dropIfFull_params (s : State) : (dropIfFull s).params = s.params := by
  rcases dropIfFull_cases s with e | e <;> rw [e]
  rfl

theorem dictForm_dropIfFull {s : State} (h : DictForm s.lznodes s.lzindex) :
    DictForm (dropIfFull s).lznodes (dropIfFull s).lzindex := by
  rcases dropIfFull_cases s with e | e <;> rw [e]
  · exact h
  · exact dictForm_nil

/-- The index finds each of its keys, none of which is the empty phrase. -/
theorem DictForm.lookup {nodes : List LzNode} {index : List (List Byte × Nat)} (h : DictForm nodes index)
    {ph : List Byte} {k : Nat} (hm : (ph, k) ∈ index) : ph ≠ [] ∧ indexLookup index ph = some k := by
  obtain ⟨-, -, hnodup, hne⟩ := h
  exact ⟨hne _ hm, indexLookup_of_mem hnodup hm⟩

/-! ## LzAdd (46_lz78_dictionary R202), `u` being the state after step 1 -/

theorem dictAdd_of_frozen {s : State} (ph : List Byte) (h : frozen s = true) :
    dictAdd ph s = .pair 0 (ph.getLastD 0) s := by
  simp only [dictAdd, dropIfFull_of_frozen h, h, if_true]

theorem dictAdd_of_lookup {s u : State} {ph : List Byte} {k : Nat} (hu : dropIfFull s = u) (hf : frozen s = false)
    (hk : indexLookup u.lzindex ph = some k) : dictAdd ph s = .known u := by
  rw [← frozen_dropIfFull, hu] at hf
  simp only [dictAdd, hu, hf, Bool.false_eq_true, if_false, hk]

theorem dictAdd_of_new {s u : State} {ph : List Byte} (hu : dropIfFull s = u) (hf : frozen s = false)
    (hnew : indexLookup u.lzindex ph = none) (hroom : u.lznodes.length < s.params.dictCap) :
    dictAdd ph s =
      .pair (prefixNode ph u) (ph.getLastD 0)
        { u with
          lznodes := u.lznodes ++ [⟨prefixNode ph u, ph.getLastD 0⟩]
          lzindex := u.lzindex ++ [(ph, u.lznodes.length + 1)] } := by
  rw [← dropIfFull_params, hu] at hroom
  rw [← frozen_dropIfFull, hu] at hf
  simp only [dictAdd, dictSize, hu, hf, Bool.false_eq_true, if_false, hnew, Nat.not_le_of_lt hroom]

/-- The parent of a new node is the node of the phrase less its last byte, 0 where the index does not have that phrase; it
never has the empty one. -/
theorem prefixNode_snoc {s : State} {q : List Byte} {p : Nat} (b : Byte) (h : DictForm s.lznodes s.lzindex)
    (hp : (q, p) ∈ s.lzindex ∨ (p = 0 ∧ ∀ kv ∈ s.lzindex, kv.1 ≠ q)) : prefixNode (q ++ [b]) s = p := by
  rw [prefixNode, List.dropLast_concat]
  rcases hp with hmem | ⟨rfl, habsent⟩
  · obtain ⟨hne, hlookup⟩ := h.lookup hmem
    rw [if_neg hne, hlookup, Option.getD_some]
  · rw [indexLookup_none.mpr habsent, Option.getD_none, ite_self]

/-! ## The lookups (46_lz78_dictionary R203, R204) -/

theorem dictGet_of_size_lt {i : Nat} {s : State} (h : s.lznodes.length < i) : dictGet i s = none := if_pos h

theorem dictNode_of_ne_zero {k : Nat} {s : State} (h : k ≠ 0) : dictNode k s = s.lznodes[k - 1]? := if_neg h

theorem dictNode_eq_none {k : Nat} {s : State} (h : k = 0 ∨ s.lznodes.length < k) : dictNode k s = none := by
  by_cases h0 : k = 0
  · exact if_pos h0
  · rw [dictNode_of_ne_zero h0]
    exact List.getElem?_eq_none (by omega)

theorem dictFind_nil (s : State) : dictFind [] s = some 0 := rfl

theorem dictFind_of_mem {s : State} {ph : List Byte} {k : Nat} (h : DictForm s.lznodes s.lzindex)
    (hm : (ph, k) ∈ s.lzindex) : dictFind ph s = some k := by
  obtain ⟨hne, hlookup⟩ := h.lookup hm
  rw [dictFind, if_neg hne, hlookup]

theorem dictFind_of_absent {s : State} {ph : List Byte} (hne : ph ≠ []) (h : ∀ kv ∈ s.lzindex, kv.1 ≠ ph) :
    dictFind ph s = none := by
  rw [dictFind, if_neg hne, indexLookup_none.mpr h]

/-! ## The rules -/

theorem lzInitRule_eq (s : State) : lzInitRule s = .ok { s with strat := s.arg0, lznodes := [], lzindex := [] } := rfl

theorem lzAddRule_of_known {s t : State} {ph : List Byte} (hpb : s.pb = ph) (hne : ph ≠ [])
    (h : dictAdd ph s = .known t) : lzAddRule s = .ok { t with existsFlag := true, res0 := 0, res1 := 0 } := by
  have hcheck : 1 ≤ ph.length := List.length_pos_iff.mpr hne
  simp only [lzAddRule, hpb, require_true hcheck, h]
  rfl

theorem lzAddRule_of_pair {s t : State} {ph : List Byte} {p : Nat} {b : Byte} (hpb : s.pb = ph) (hne : ph ≠ [])
    (h : dictAdd ph s = .pair p b t) :
    lzAddRule s = .ok { t with res0 := BitVec.ofNat 64 p, res1 := BitVec.ofNat 64 b.toNat } := by
  have hcheck : 1 ≤ ph.length := List.length_pos_iff.mpr hne
  simp only [lzAddRule, hpb, require_true hcheck, h, BitVec.ofNat_toNat]
  rfl

theorem lzGetRule_of_some {s : State} {ph : List Byte} (h : dictGet s.arg0.toNat s = some ph) :
    lzGetRule s = .ok { s with pb := ph, res0 := BitVec.ofNat 64 ph.length } := by
  simp only [lzGetRule, arg0Nat, h, setRes0]

theorem lzGetRule_of_none {s : State} (h : dictGet s.arg0.toNat s = none) :
    lzGetRule s = .ok { s with res0 := 0, nfFlag := true } := by
  simp only [lzGetRule, arg0Nat, h, setRes0, setNotFound]

theorem lzFindRule_of_some {s : State} {k : Nat} (h : dictFind s.pb s = some k) :
    lzFindRule s = .ok { s with res0 := BitVec.ofNat 64 k } := by
  simp only [lzFindRule, h, setRes0]

theorem lzFindRule_of_none {s : State} (h : dictFind s.pb s = none) :
    lzFindRule s = .ok { s with res0 := 0, nfFlag := true } := by
  simp only [lzFindRule, h, setRes0, setNotFound]

theorem lzSizeRule_eq (s : State) :
    lzSizeRule s = .ok { s with res0 := BitVec.ofNat 64 s.lznodes.length, res1 := s.strat } := rfl

theorem lzNodeRule_of_some {s : State} {nd : LzNode} (h : dictNode s.arg0.toNat s = some nd) :
    lzNodeRule s = .ok { s with res0 := BitVec.ofNat 64 nd.parent, res1 := BitVec.ofNat 64 nd.byte.toNat } := by
  simp only [lzNodeRule, arg0Nat, h, setRes0, setRes1, BitVec.ofNat_toNat]

theorem lzNodeRule_of_none {s : State} (h : dictNode s.arg0.toNat s = none) :
    lzNodeRule s = .ok { s with res0 := 0, res1 := 0, nfFlag := true } := by
  simp only [lzNodeRule, arg0Nat, h, setRes0, setRes1, setNotFound]

theorem arg0Byte_eq (s : State) : arg0Byte s = BitVec.ofNat 8 (s.arg0.toNat % 256) :=
  BitVec.eq_of_toNat_eq (by simp [arg0Byte])

theorem pbPushRule_eq {s : State} (h : s.pb.length < s.params.pbCap) :
    pbPushRule s = .ok { s with pb := s.pb ++ [BitVec.ofNat 8 (s.arg0.toNat % 256)] } := by
  simp only [pbPushRule, require_true h, arg0Byte_eq]
  rfl

theorem pbGetRule_of_some {s : State} {b : Byte} (h : s.pb[s.arg0.toNat]? = some b) :
    pbGetRule s = .ok { s with res0 := BitVec.ofNat 64 b.toNat, res1 := BitVec.ofNat 64 s.pb.length } := by
  simp only [pbGetRule, arg0Nat, h, setRes0, setRes1, BitVec.ofNat_toNat]

theorem pbGetRule_of_none {s : State} (h : s.pb[s.arg0.toNat]? = none) :
    pbGetRule s = .ok { s with res0 := 0, res1 := BitVec.ofNat 64 s.pb.length, nfFlag := true } := by
  simp only [pbGetRule, arg0Nat, h, setRes0, setRes1, setNotFound]

end Sys2Proof.Machine

open Sys2Proof Sys2Proof.Machine

namespace Sys2Proof.Proofs

/-- Settles O56: parents are smaller than their nodes, so every chain ends at 0, and LZINDEX is a finite map without the
empty phrase. -/
theorem dictionaryLookups : Obligations.DictionaryLookups := by
  rintro s hq ⟨-, hdict⟩ herr
  have hform : DictForm s.lznodes s.lzindex := hdict herr
  refine ⟨fun h0 => ?_, fun nd hne hn => ?_, fun hlt => ?_, fun h => ?_, fun hpb => ?_, fun k hk => ?_, fun hne hnew => ?_⟩
  · have hget : dictGet s.arg0.toNat (started s) = some [] := by rw [h0]; exact dictGet_zero _
    exact runCommand_ok hq (lzGetRule_of_some (s := started s) hget)
  · have hk : s.arg0.toNat ≠ 0 := fun h => hne (BitVec.eq_of_toNat_eq h)
    obtain ⟨ph, hparent, hget⟩ := dictGet_node (s := started s) hform hk hn
    have hget' := lzGetRule_of_some (s := started s) hget
    rw [List.length_append, List.length_singleton] at hget'
    exact ⟨ph, hparent, runCommand_ok hq hget',
      runCommand_ok hq (lzNodeRule_of_some (s := started s) ((dictNode_of_ne_zero hk).trans hn))⟩
  · exact runCommand_ok hq (lzGetRule_of_none (s := started s) (dictGet_of_size_lt hlt))
  · have hk : s.arg0.toNat = 0 ∨ s.lznodes.length < s.arg0.toNat := h.imp_left (congrArg BitVec.toNat)
    exact runCommand_ok hq (lzNodeRule_of_none (s := started s) (dictNode_eq_none hk))
  · have hfind : dictFind s.pb (started s) = some 0 := by rw [hpb]; exact dictFind_nil _
    exact runCommand_ok hq (lzFindRule_of_some (s := started s) hfind)
  · exact runCommand_ok hq (lzFindRule_of_some (s := started s) (dictFind_of_mem hform hk))
  · exact runCommand_ok hq (lzFindRule_of_none (s := started s) (dictFind_of_absent hne hnew))

/-- Settles O57: `s1` is the state after step 1 of LzAdd, and the four cases are its results but CAPACITY. -/
theorem lzAddInserts : Obligations.LzAddInserts := by
  rintro s s1 q b hq ⟨-, hdict⟩ herr hpb hs1
  obtain rfl : s1 = dropIfFull s := hs1.trans (dropIfFull_eq s).symm
  have hform : DictForm (dropIfFull s).lznodes (dropIfFull s).lzindex := dictForm_dropIfFull (hdict herr)
  have hne : q ++ [b] ≠ [] := List.concat_ne_nil b q
  refine ⟨fun hneg hlimit => ?_, fun hlive => ?_⟩
  · have hf : frozen (started s) = true := (frozen_iff s).mpr ⟨hneg, hlimit⟩
    have hadd := dictAdd_of_frozen (q ++ [b]) hf
    rw [List.getLastD_concat] at hadd
    exact runCommand_ok hq (lzAddRule_of_pair hpb hne hadd)
  · have hf : frozen (started s) = false := Bool.eq_false_iff.mpr fun h => hlive ((frozen_iff s).mp h)
    refine ⟨fun k hk => ?_, fun p hnew hroom hp => ?_⟩
    · have hadd := dictAdd_of_lookup (dropIfFull_started s) hf (hform.lookup hk).2
      exact runCommand_ok hq (lzAddRule_of_known hpb hne hadd)
    · have hadd := dictAdd_of_new (dropIfFull_started s) hf (indexLookup_none.mpr hnew) hroom
      rw [List.getLastD_concat, prefixNode_snoc (s := started (dropIfFull s)) b hform hp] at hadd
      exact runCommand_ok hq (lzAddRule_of_pair hpb hne hadd)

/-- Settles O55: none of the five commands uses a port, and each has one result per case. -/
theorem dictionarySetupAndPhraseBuffer : Obligations.DictionarySetupAndPhraseBuffer := fun s hq =>
  ⟨runCommand_ok hq (lzInitRule_eq (started s)), runCommand_ok hq (lzSizeRule_eq (started s)),
    runCommand_ok (rule := pbClearRule) hq rfl, fun hroom => runCommand_ok hq (pbPushRule_eq (s := started s) hroom),
    fun _ hb => runCommand_ok hq (pbGetRule_of_some (s := started s) hb),
    fun hlen => runCommand_ok hq (pbGetRule_of_none (s := started s) (List.getElem?_eq_none hlen))⟩

end Sys2Proof.Proofs
end

section
/-! SUPPORT. The dictionary inside a container command: what LzAdd, the phrases and the pairs see of the state, and what
they keep (46_lz78_dictionary R200 to R203, 30_encoding R95). -/

namespace Sys2Proof.Machine

/-! ## A dictionary in a state -/

/-- The state `s` with the dictionary of `d`, and the phrase `q` in PB. -/
def lzState (d : State) (q : List Byte) (s : State) : State :=
  { s with params := d.params, strat := d.strat, lznodes := d.lznodes, lzindex := d.lzindex, pb := q }

theorem lzState_quiet (d : State) (q : List Byte) {s : State} (h : s.Quiet) : (lzState d q s).Quiet := h

/-- The loops of LZ.ENC and LZ.DEC begin with the empty dictionary of their strategy. -/
theorem codecStart_eq (v : Word) {e s : State} (h : e.params = s.params) :
    codecStart v s = lzState (dictInit v e) [] s := by
  simp only [lzState, dictInit_params, h]
  rfl

/-- A result of LzAdd with another state in it. -/
def AddResult.map (f : State → State) : AddResult → AddResult
  | .known s => .known (f s)
  | .pair p b s => .pair p b (f s)
  | .full => .full

variable {d d' e s : State} {q ph last : List Byte} {p : Nat × Byte} {ps : List (Nat × Byte)}
  {phs : List (List Byte)}

theorem dropIfFull_lzState (d : State) (q : List Byte) (s : State) :
    dropIfFull (lzState d q s) = lzState (dropIfFull d) q s := by
  rw [dropIfFull_eq, dropIfFull_eq, apply_ite (lzState · q s)]
  rfl

/-- LzAdd sees nothing of the state but the dictionary. -/
theorem dictAdd_lzState (ph : List Byte) (d : State) (q : List Byte) (s : State) :
    dictAdd ph (lzState d q s) = (dictAdd ph d).map (lzState · q s) := by
  simp only [dictAdd, dropIfFull_lzState]
  generalize dropIfFull d = u
  have hfrozen : frozen (lzState u q s) = frozen u := rfl
  have hindex : (lzState u q s).lzindex = u.lzindex := rfl
  rw [hfrozen, hindex]
  cases frozen u with
  | true => rfl
  | false =>
    cases indexLookup u.lzindex ph with
    | some k => rfl
    | none =>
      simp only [apply_ite (AddResult.map (lzState · q s))]
      rfl

theorem pairPhrase_lzState (i : Nat) (lit : Byte) (d : State) (q : List Byte) (s : State) :
    pairPhrase i lit (lzState d q s) = pairPhrase i lit d := rfl

theorem dictGet_lzState (i : Nat) (d : State) (q : List Byte) (s : State) :
    dictGet i (lzState d q s) = dictGet i d := rfl

/-! ## Pairs (30_encoding R95) -/

/-- A pair that plays has a phrase, and LzAdd of that phrase leaves the dictionary. -/
theorem playPair_some : playPair p d = some (ph, d') ↔
    pairPhrase p.1 p.2 d = some ph ∧ (dictAdd ph d).state? = some d' := by
  simp only [playPair]
  cases pairPhrase p.1 p.2 d with
  | none => simp only [reduceCtorEq, false_and]
  | some l =>
    simp only [Option.some.injEq]
    constructor
    · intro h
      cases hadd : dictAdd l d <;> rw [hadd] at h <;> cases h <;> exact ⟨rfl, by rw [hadd]; rfl⟩
    · rintro ⟨rfl, h⟩
      cases hadd : dictAdd l d <;> rw [hadd] at h <;> cases h <;> rfl

theorem playPairs_cons : playPairs (p :: ps) d = some (phs, d') ↔
    ∃ ph phs' e, playPair p d = some (ph, e) ∧ playPairs ps e = some (phs', d') ∧ phs = ph :: phs' := by
  simp only [playPairs]
  cases playPair p d with
  | none => simp only [reduceCtorEq, false_and, exists_false]
  | some r =>
    obtain ⟨ph, e⟩ := r
    simp only [Option.map_eq_some_iff, Prod.mk.injEq, Prod.exists, Option.some.injEq]
    constructor
    · rintro ⟨phs', u, hu, rfl, rfl⟩
      exact ⟨ph, phs', e, ⟨rfl, rfl⟩, hu, rfl⟩
    · rintro ⟨_, phs', _, ⟨rfl, rfl⟩, hu, rfl⟩
      exact ⟨phs', d', hu, rfl, rfl⟩

/-- The pairs of a container see nothing of the state but the dictionary. -/
theorem playPairs_lzState (q : List Byte) (s : State) (h : playPairs ps d = some (phs, d')) :
    playPairs ps (lzState d q s) = some (phs, lzState d' q s) := by
  induction ps generalizing d phs with
  | nil =>
    cases h
    rfl
  | cons p ps ih =>
    obtain ⟨ph, phs', e, hp, hps, rfl⟩ := playPairs_cons.mp h
    obtain ⟨hph, hadd⟩ := playPair_some.mp hp
    refine playPairs_cons.mpr ⟨ph, phs', lzState e q s, playPair_some.mpr ⟨hph, ?_⟩, ih hps, rfl⟩
    rw [dictAdd_lzState]
    cases hr : dictAdd ph d <;> rw [hr] at hadd <;> cases hadd <;> rfl

/-! ## What the pairs keep -/

/-- What holds of the dictionary all through LZ.DEC, for parameters in range. -/
structure LzForm (d : State) : Prop where
  params : d.params.wf = true
  form   : DictForm d.lznodes d.lzindex
  cap    : d.lznodes.length ≤ d.params.dictCap

theorem LzForm.init (v : Word) (h : s.params.wf = true) : LzForm (dictInit v s) := ⟨h, dictForm_nil, Nat.zero_le _⟩

/-- Every number a container can hold for such a dictionary has a gamma code that GammaGet accepts. -/
theorem LzForm.size_le (h : LzForm d) : d.lznodes.length + 2 ≤ 2 ^ 64 - 2 := by
  have hcap : d.params.dictCap ≤ 2 ^ 24 - 2 := by
    have hwf := h.params
    simp only [Params.wf, Bool.and_eq_true, decide_eq_true_eq] at hwf
    omega
  have hle := h.cap
  omega

theorem LzForm.add (h : LzForm d) (hne : ph ≠ []) (ht : (dictAdd ph d).state? = some e) : LzForm e := by
  obtain ⟨hform, hcap, hframe⟩ := dictAdd_keeps h.form h.cap hne ht
  refine ⟨?_, hform, hcap⟩
  rw [hframe]
  exact h.params

theorem LzForm.pair (h : LzForm d) (hp : playPair p d = some (ph, e)) : LzForm e := by
  obtain ⟨hph, hadd⟩ := playPair_some.mp hp
  exact h.add (pairPhrase_some hph).1 hadd

theorem LzForm.pairs (h : LzForm d) (hp : playPairs ps d = some (phs, d')) : LzForm d' := by
  induction ps generalizing d phs with
  | nil =>
    cases hp
    exact h
  | cons p ps ih =>
    obtain ⟨ph, phs', e, hpair, hps, rfl⟩ := playPairs_cons.mp hp
    exact ih (h.pair hpair) hps

/-- Pairs change nothing but the dictionary. -/
theorem playPairs_frame (h : playPairs ps d = some (phs, d')) :
    d' = { d with lznodes := d'.lznodes, lzindex := d'.lzindex } := by
  induction ps generalizing d phs with
  | nil =>
    cases h
    rfl
  | cons p ps ih =>
    obtain ⟨ph, phs', e, hp, hps, rfl⟩ := playPairs_cons.mp h
    rw [ih hps, dictAdd_frame (playPair_some.mp hp).2]

/-- The state at the end of the pairs of a container for the strategy `v`. -/
theorem lzState_playPairs {v : Word} (he : e.params = s.params) (h : playPairs ps (dictInit v e) = some (phs, d)) :
    lzState d q s = { s with strat := v, lznodes := d.lznodes, lzindex := d.lzindex, pb := q } := by
  rw [playPairs_frame h]
  simp only [lzState, dictInit_params, dictInit_strat, he]

/-- The index of a pair with a phrase is a node, or 0. -/
theorem pairPhrase_index_le {i : Nat} {lit : Byte} (h : pairPhrase i lit d = some ph) : i ≤ d.lznodes.length := by
  by_cases h0 : i = 0
  · exact h0 ▸ Nat.zero_le _
  · rw [pairPhrase, if_neg h0] at h
    obtain ⟨q, hq, -⟩ := Option.map_eq_some_iff.mp h
    exact (dictGet_length hq).1

theorem pairPhrase_of_size_lt {i : Nat} (lit : Byte) (h : d.lznodes.length < i) : pairPhrase i lit d = none := by
  rw [pairPhrase, if_neg (by omega), dictGet_of_size_lt h, Option.map_none]

end Sys2Proof.Machine
end

section
/-! SUPPORT. LZ.DEC on ports that answer (47_lz78_codec R222), and the statement about it. -/

namespace Sys2Proof.Machine

variable {d d' e s : State} {q ph last : List Byte} {p : Nat × Byte} {ps : List (Nat × Byte)}
  {phs : List (List Byte)} {v : Word}

/-! ## The bits of a container (30_encoding R95) -/

/-- The bits of one pair. -/
def pairBits (p : Nat × Byte) : Bits := gammaCode p.1 ++ binByte p.2

/-- The bits of the end marker, for a dictionary of `size` nodes. -/
def endBits (size : Nat) : Option Nat → Bits
  | none => gammaCode (size + 1)
  | some j => gammaCode (size + 2) ++ gammaCode j

theorem lzPairBits_eq (v : Word) (ps : List (Nat × Byte)) :
    lzPairBits v ps = gammaCode (zz v.toInt) ++ ps.flatMap pairBits := rfl

theorem lzContainerBits_eq (v : Word) (ps : List (Nat × Byte)) (size : Nat) (j : Option Nat) :
    lzContainerBits v ps size j = lzPairBits v ps ++ endBits size j := by
  cases j <;> rfl

theorem gammaCode_length_pos (n : Nat) : 0 < (gammaCode n).length := by
  rw [length_gammaCode]
  exact Nat.succ_pos _

theorem pairBits_length_pos (p : Nat × Byte) : 0 < (pairBits p).length :=
  Nat.lt_of_lt_of_le (gammaCode_length_pos p.1) (List.prefix_append _ _).length_le

theorem endBits_length_pos (size : Nat) : ∀ j, 0 < (endBits size j).length
  | none => gammaCode_length_pos _
  | some _ => Nat.lt_of_lt_of_le (gammaCode_length_pos _) (List.prefix_append _ _).length_le

theorem length_le_flatMap_pairBits (ps : List (Nat × Byte)) : ps.length ≤ (ps.flatMap pairBits).length := by
  induction ps with
  | nil => exact Nat.le_refl 0
  | cons p ps ih =>
    simp only [List.flatMap_cons, List.length_append, List.length_cons, pairBits, length_binByte]
    omega

/-- The strategy of a container other than -2^63 has a gamma code that GammaGet accepts. -/
theorem zz_strategy_le (hv : v ≠ 0x8000000000000000#64) : zz v.toInt ≤ 2 ^ 64 - 2 := by
  have hlow : v.toInt ≠ -2 ^ 63 := fun h => hv (BitVec.eq_of_toInt_eq h)
  have hlo := v.le_toInt
  have hhi := v.toInt_lt
  rcases Int.lt_or_le v.toInt 0 with h | h
  · have := zz_of_neg h
    omega
  · have := zz_of_nonneg h
    omega

theorem bits64_unzz_zz (v : Word) : bits64 (unzz (zz v.toInt)) = v := by
  rw [unzz_zz, bits64, BitVec.ofInt_toInt]

/-! ## One turn of the loop -/

theorem putBytes_quiet (l : List Byte) (h : s.Quiet) (hw : s.wpend.length ≤ 7) :
    putBytes l s = .ok (emit (bytesBits l) s) := by
  induction l generalizing s with
  | nil => rw [putBytes, bytesBits_nil, emit_nil hw]
  | cons b l ih =>
    have hbyte : putBits b.toNat 8 s = .ok (emit (binByte b) s) := putBits_quiet _ _ h hw
    simp only [putBytes, hbyte, bind, Except.bind, ih (emit_quiet _ h) (emit_wpend_lt _ s), emit_append,
      bytesBits_cons]

/-- What LZ.DEC does with a pair it has read: `fuel` is what is left for the turns after it. -/
def expandPair (fuel : Nat) (p : Nat × Byte) (s : State) : Ran State :=
  match pairPhrase p.1 p.2 s with
  | none => raise .malformed s
  | some ph => do
    let s ← putBytes ph { s with pb := ph }
    let s ← lzDecAdd s
    lzDecLoop fuel s

/-- An index that is neither of the two end markers is that of a pair. -/
theorem lzDecLoop_reads (fuel : Nat) (h : s.Quiet) (hi : p.1 ≤ 2 ^ 64 - 2) (h1 : p.1 ≠ d.lznodes.length + 1)
    (h2 : p.1 ≠ d.lznodes.length + 2) (hp : pairBits p <+: incoming s) :
    lzDecLoop (fuel + 1) (lzState d q s) = expandPair fuel p (lzState d q (consume (pairBits p).length s)) := by
  have hindex := gammaGet_quiet (lzState_quiet d q h) hi ((List.prefix_append _ _).trans hp)
  have hlit := getBits_prefix (consume_quiet (gammaCode p.1).length (lzState_quiet d q h)) (prefix_consume hp)
  have hbyte : BitVec.ofNat 8 (val (binByte p.2)) = p.2 := valByte_binByte p.2
  have hsize : dictSize (consume (gammaCode p.1).length (lzState d q s)) = d.lznodes.length := rfl
  have hc : consume (binByte p.2).length (consume (gammaCode p.1).length (lzState d q s)) =
      lzState d q (consume (pairBits p).length s) := consume_append (s := lzState d q s) hp
  rw [hc, length_binByte] at hlit
  simp only [lzDecLoop, hindex, bind, Except.bind, hsize, h1, h2, if_false, hlit, hbyte]
  rfl

/-- LzAdd in LZ.DEC: a new dictionary, or no room for a node. -/
theorem lzDecAdd_lzState (ph : List Byte) (d s : State) :
    lzDecAdd (lzState d ph s) =
      match (dictAdd ph d).state? with
      | some e => .ok (lzState e ph s)
      | none => raise .capacity (lzState d ph s) := by
  have hpb : (lzState d ph s).pb = ph := rfl
  simp only [lzDecAdd, hpb, dictAdd_lzState]
  cases dictAdd ph d <;> rfl

/-- A pair with a phrase pushes it, and LzAdd decides about the turns after it. -/
theorem lzDecLoop_expands (fuel : Nat) (h : s.Quiet) (hpend : s.wpend = []) (hd : LzForm d)
    (hph : pairPhrase p.1 p.2 d = some ph) (hp : pairBits p <+: incoming s) :
    lzDecLoop (fuel + 1) (lzState d q s) =
      lzDecAdd (lzState d ph (emit (bytesBits ph) (consume (pairBits p).length s))) >>= lzDecLoop fuel := by
  have hle := pairPhrase_index_le hph
  have hsize := hd.size_le
  have hput := putBytes_quiet (s := lzState d ph (consume (pairBits p).length s)) ph
    (lzState_quiet d ph (consume_quiet _ h)) (hpend ▸ Nat.zero_le 7)
  rw [lzDecLoop_reads fuel h (by omega) (by omega) (by omega) hp, expandPair, pairPhrase_lzState, hph]
  exact congrArg (· >>= fun t => lzDecAdd t >>= lzDecLoop fuel) hput

theorem lzDecLoop_pair (fuel : Nat) (h : s.Quiet) (hpend : s.wpend = []) (hd : LzForm d)
    (hplay : playPair p d = some (ph, e)) (hp : pairBits p <+: incoming s) :
    lzDecLoop (fuel + 1) (lzState d q s) =
      lzDecLoop fuel (lzState e ph (emit (bytesBits ph) (consume (pairBits p).length s))) := by
  obtain ⟨hph, hadd⟩ := playPair_some.mp hplay
  rw [lzDecLoop_expands fuel h hpend hd hph hp, lzDecAdd_lzState, hadd]
  rfl

theorem lzDecLoop_full (fuel : Nat) (h : s.Quiet) (hpend : s.wpend = []) (hd : LzForm d)
    (hph : pairPhrase p.1 p.2 d = some ph) (hfull : dictAdd ph d = .full) (hp : pairBits p <+: incoming s) :
    lzDecLoop (fuel + 1) (lzState d q s) =
      .error ⟨.fault .capacity false, lzState d ph (emit (bytesBits ph) (consume (pairBits p).length s))⟩ := by
  rw [lzDecLoop_expands fuel h hpend hd hph hp, lzDecAdd_lzState, hfull]
  rfl

/-- A pair whose index is above both end markers has no phrase. -/
theorem lzDecLoop_malformed (fuel : Nat) (h : s.Quiet) (hi : p.1 ≤ 2 ^ 64 - 2) (hlt : d.lznodes.length + 2 < p.1)
    (hp : pairBits p <+: incoming s) :
    lzDecLoop (fuel + 1) (lzState d q s) =
      .error ⟨.fault .malformed false, lzState d q (consume (pairBits p).length s)⟩ := by
  rw [lzDecLoop_reads fuel h hi (by omega) (by omega) hp, expandPair, pairPhrase_lzState,
    pairPhrase_of_size_lt p.2 (by omega)]
  rfl

/-- The end marker at a phrase boundary ends the loop. -/
theorem lzDecLoop_boundary (fuel : Nat) (h : s.Quiet) (hd : LzForm d)
    (hp : gammaCode (d.lznodes.length + 1) <+: incoming s) :
    lzDecLoop (fuel + 1) (lzState d q s) =
      .ok (lzState d q (consume (gammaCode (d.lznodes.length + 1)).length s)) := by
  have hsize := hd.size_le
  have hindex := gammaGet_quiet (lzState_quiet d q h) (by omega) hp
  simp only [lzDecLoop, hindex, bind, Except.bind]
  exact if_pos rfl

/-- The end marker inside a phrase: what the index after it stands for is the last phrase. -/
theorem lzDecLoop_inside (fuel : Nat) {i : Nat} (h : s.Quiet) (hpend : s.wpend = []) (hd : LzForm d)
    (hi : i ≤ 2 ^ 64 - 2) (hp : endBits d.lznodes.length (some i) <+: incoming s) :
    lzDecLoop (fuel + 1) (lzState d q s) =
      match dictGet i d with
      | none => raise .malformed (lzState d q (consume (endBits d.lznodes.length (some i)).length s))
      | some ph =>
        .ok (lzState d ph (emit (bytesBits ph) (consume (endBits d.lznodes.length (some i)).length s))) := by
  have hmark := gammaGet_quiet (lzState_quiet d q h) hd.size_le ((List.prefix_append _ _).trans hp)
  have hindex := gammaGet_quiet (consume_quiet (gammaCode (d.lznodes.length + 2)).length (lzState_quiet d q h)) hi
    (prefix_consume hp)
  have hsize : dictSize (consume (gammaCode (d.lznodes.length + 2)).length (lzState d q s)) = d.lznodes.length := rfl
  have hinside : ¬ d.lznodes.length + 2 = d.lznodes.length + 1 := Nat.succ_ne_self _
  have hc : consume (gammaCode i).length (consume (gammaCode (d.lznodes.length + 2)).length (lzState d q s)) =
      lzState d q (consume (endBits d.lznodes.length (some i)).length s) := consume_append (s := lzState d q s) hp
  rw [hc] at hindex
  simp only [lzDecLoop, hmark, bind, Except.bind, hsize, if_neg hinside, if_true, hindex, dictGet_lzState]
  cases dictGet i d with
  | none => rfl
  | some ph => exact putBytes_quiet ph (lzState_quiet d ph (consume_quiet _ h)) (hpend ▸ Nat.zero_le 7)

theorem lzDecLoop_noPhrase (fuel : Nat) {i : Nat} (h : s.Quiet) (hpend : s.wpend = []) (hd : LzForm d)
    (hi : i ≤ 2 ^ 64 - 2) (hlt : d.lznodes.length < i) (hp : endBits d.lznodes.length (some i) <+: incoming s) :
    lzDecLoop (fuel + 1) (lzState d q s) =
      .error ⟨.fault .malformed false, lzState d q (consume (endBits d.lznodes.length (some i)).length s)⟩ := by
  rw [lzDecLoop_inside fuel h hpend hd hi hp, dictGet_of_size_lt hlt]
  rfl

/-- The end marker of a container ends the loop with its last phrase. -/
theorem lzDecLoop_end (fuel : Nat) {j : Option Nat} (h : s.Quiet) (hpend : s.wpend = []) (hd : LzForm d)
    (hj : j = none ∧ last = [] ∨ ∃ i, j = some i ∧ dictGet i d = some last)
    (hp : endBits d.lznodes.length j <+: incoming s) :
    lzDecLoop (fuel + 1) (lzState d q s) =
      .ok (lzState d (if j = none then q else last)
        (emit (bytesBits last) (consume (endBits d.lznodes.length j).length s))) := by
  rcases hj with ⟨rfl, rfl⟩ | ⟨i, rfl, hi⟩
  · rw [if_pos rfl, bytesBits_nil, emit_nil (hpend ▸ Nat.zero_le 7)]
    exact lzDecLoop_boundary fuel h hd hp
  · have hle := (dictGet_length hi).1
    have hsize := hd.size_le
    rw [lzDecLoop_inside fuel h hpend hd (by omega) hp, hi, if_neg nofun]

/-! ## The pairs -/

theorem emit_bytesBits_wpend (hpend : s.wpend = []) (l : List Byte) : (emit (bytesBits l) s).wpend = [] := by
  rw [emit_bytesBits hpend]
  exact hpend

/-- The turns of the pairs of a container push their phrases and build their dictionary. -/
theorem lzDecLoop_pairs (fuel : Nat) (h : s.Quiet) (hpend : s.wpend = []) (hd : LzForm d)
    (hplay : playPairs ps d = some (phs, d')) (hp : ps.flatMap pairBits <+: incoming s) :
    lzDecLoop (ps.length + fuel) (lzState d q s) =
      lzDecLoop fuel
        (lzState d' (phs.getLastD q) (emit (bytesBits phs.flatten) (consume (ps.flatMap pairBits).length s))) := by
  induction ps generalizing d phs q s with
  | nil =>
    cases hplay
    have hempty : emit [] s = s := emit_nil (hpend ▸ Nat.zero_le 7)
    simp only [List.length_nil, Nat.zero_add, List.getLastD_nil, List.flatten_nil, bytesBits_nil, List.flatMap_nil,
      consume_zero, hempty]
  | cons p ps ih =>
    obtain ⟨ph, phs', e, hpair, hps, rfl⟩ := playPairs_cons.mp hplay
    have hp' : pairBits p ++ ps.flatMap pairBits <+: incoming s := hp
    have hturn := lzDecLoop_pair (q := q) (ps.length + fuel) h hpend hd hpair ((List.prefix_append _ _).trans hp')
    have hwpend := emit_bytesBits_wpend (s := consume (pairBits p).length s) hpend ph
    have hrest := ih (q := ph) (emit_quiet (bytesBits ph) (consume_quiet (pairBits p).length h)) hwpend (hd.pair hpair)
      hps (prefix_consume hp')
    rw [consume_emit, consume_append hp', emit_append, ← bytesBits_append] at hrest
    rw [List.length_cons, Nat.succ_add_eq_add_succ, Nat.add_succ, hturn, hrest, List.flatMap_cons, List.flatten_cons,
      List.getLastD_cons]

/-! ## The rule -/

/-- The end of LZ.DEC: the rest of the last byte is dropped (47_lz78_codec R222). -/
def lzDecDone (v : Word) (s : State) : Ran State :=
  .ok { s with rpend := [], res0 := BitVec.ofNat 64 s.lznodes.length, res1 := v }

/-- LZ.DEC reads the strategy and begins with its empty dictionary. -/
theorem lzDecRule_starts (h : s.Quiet) (hpend : s.wpend = []) (hr : s.rpend = []) (hv : v ≠ 0x8000000000000000#64)
    (hp : gammaCode (zz v.toInt) <+: incoming s) :
    lzDecRule s =
      lzDecLoop (inputBits (consume (gammaCode (zz v.toInt)).length s) + 1)
        (codecStart v (consume (gammaCode (zz v.toInt)).length s)) >>= lzDecDone v := by
  have hstrat := gammaGet_quiet h (zz_strategy_le hv) hp
  simp only [lzDecRule, requireAligned_empty hpend hr, hstrat, bind, Except.bind, bits64_unzz_zz]
  rfl

/-- After the pairs of a container at least one turn is left for the bits `tail` that follow them. -/
theorem lzDecRule_pairs {tail : Bits} (h : s.Quiet) (hpend : s.wpend = []) (hr : s.rpend = [])
    (hv : v ≠ 0x8000000000000000#64) (hwf : s.params.wf = true) (he : e.params = s.params)
    (hplay : playPairs ps (dictInit v e) = some (phs, d)) (hp : lzPairBits v ps ++ tail <+: incoming s)
    (htail : 0 < tail.length) :
    ∃ fuel, lzDecRule s =
      lzDecLoop (fuel + 1)
        (lzState d (phs.getLastD []) (emit (bytesBits phs.flatten) (consume (lzPairBits v ps).length s)))
        >>= lzDecDone v := by
  have hpairs : gammaCode (zz v.toInt) ++ ps.flatMap pairBits <+: incoming s := (List.prefix_append _ _).trans hp
  rw [lzPairBits_eq, List.append_assoc] at hp
  have hstart := lzDecRule_starts h hpend hr hv ((List.prefix_append _ _).trans hp)
  have hrest := prefix_consume hp
  have hlen := hrest.length_le
  have hps := length_le_flatMap_pairBits ps
  rw [length_incoming, List.length_append] at hlen
  obtain ⟨fuel, hfuel⟩ : ∃ fuel, inputBits (consume (gammaCode (zz v.toInt)).length s) = ps.length + fuel :=
    Nat.exists_eq_add_of_le (by omega)
  have hloop := lzDecLoop_pairs (q := []) (fuel + 1) (consume_quiet (gammaCode (zz v.toInt)).length h) hpend
    (LzForm.init v (he ▸ hwf)) hplay ((List.prefix_append _ _).trans hrest)
  rw [consume_append hpairs, ← lzPairBits_eq] at hloop
  refine ⟨fuel, ?_⟩
  rw [hstart, codecStart_eq v (s := consume _ s) he, hfuel, Nat.add_assoc, hloop]

/-- LZ.DEC of a whole container. -/
theorem lzDecRule_quiet {j : Option Nat} (h : s.Quiet) (hpend : s.wpend = []) (hr : s.rpend = [])
    (hv : v ≠ 0x8000000000000000#64) (hwf : s.params.wf = true) (he : e.params = s.params)
    (hplay : playPairs ps (dictInit v e) = some (phs, d))
    (hj : j = none ∧ last = [] ∨ ∃ i, j = some i ∧ dictGet i d = some last)
    (hp : lzContainerBits v ps d.lznodes.length j <+: incoming s) :
    ∃ k, lzDecRule s =
      .ok { s with
        sink := s.sink ++ phs.flatten ++ last
        pos := s.pos + ((lzContainerBits v ps d.lznodes.length j).length + 7) / 8
        strat := v, lznodes := d.lznodes, lzindex := d.lzindex, pb := if j = none then phs.getLastD [] else last
        res0 := BitVec.ofNat 64 d.lznodes.length, res1 := v, draws := s.draws.drop k } := by
  rw [lzContainerBits_eq] at hp ⊢
  have hd : LzForm d := (LzForm.init v (he ▸ hwf)).pairs hplay
  obtain ⟨fuel, hrule⟩ := lzDecRule_pairs h hpend hr hv hwf he hplay hp (endBits_length_pos _ _)
  have hq := emit_quiet (bytesBits phs.flatten) (consume_quiet (lzPairBits v ps).length h)
  have hwpend := emit_bytesBits_wpend (s := consume (lzPairBits v ps).length s) hpend phs.flatten
  have hloop := lzDecLoop_end (q := phs.getLastD []) fuel hq hwpend hd hj (prefix_consume hp)
  rw [consume_emit, consume_append hp, emit_append, ← bytesBits_append] at hloop
  refine ⟨pulls (lzPairBits v ps ++ endBits d.lznodes.length j).length s + (phs.flatten ++ last).length, ?_⟩
  rw [hrule, hloop, lzState_playPairs (s := emit _ (consume _ s)) he hplay, emit_bytesBits (s := consume _ s) hpend]
  simp only [bind, Except.bind, lzDecDone, consume, pulls, hr, List.drop_drop, List.length_nil, Nat.sub_zero,
    List.append_assoc]

/-- Where the turn after the pairs faults with `l` pushed, so does LZ.DEC, and `out` is what SINK holds then. -/
theorem exec_lzDec_fault {tail : Bits} {c : FaultCode} {l out : List Byte} (h : s.Quiet) (hpend : s.wpend = [])
    (hr : s.rpend = []) (hv : v ≠ 0x8000000000000000#64) (hwf : s.params.wf = true)
    (hplay : playPairs ps (dictInit v s) = some (phs, d)) (hp : lzPairBits v ps ++ tail <+: incoming s)
    (htail : 0 < tail.length) (hc : c ≠ .ioOut) (hout : s.sink ++ phs.flatten ++ l = out)
    (hturn : ∀ fuel u, u.Quiet → u.wpend = [] → tail <+: incoming u →
      ∃ t, lzDecLoop (fuel + 1) (lzState d (phs.getLastD []) u) = .error ⟨.fault c false, t⟩ ∧ t.wpend = []
        ∧ t.sink = u.sink ++ l) :
    ∃ t, exec .lzDec s = .next t ∧ t.err = true ∧ t.errcode = c ∧ t.errop = 0x71 ∧ t.busy = false ∧ t.done = true
      ∧ t.sink = out := by
  have hqs := started_quiet h
  obtain ⟨fuel, hrule⟩ := lzDecRule_pairs (s := started s) (e := s) hqs hpend hr hv hwf rfl hplay hp htail
  have hu := emit_bytesBits (s := consume (lzPairBits v ps).length (started s)) hpend phs.flatten
  have hqu := emit_quiet (bytesBits phs.flatten) (consume_quiet (lzPairBits v ps).length hqs)
  obtain ⟨x, hloop, hwpend, hsink⟩ := hturn fuel _ hqu (by rw [hu]; exact hpend) (prefix_consume (s := started s) hp)
  obtain ⟨t, ht, ⟨herr, hcode, hop, hbusy, hdone⟩, -, htsink⟩ := finish_fault 0x71 false hc (.inl hwpend)
  rw [hloop] at hrule
  refine ⟨t, ?_, herr, hcode, hop, hbusy, hdone, ?_⟩
  · rw [← ht]
    exact (runCommand_quiet 0x71 lzDecRule h).trans (congrArg (finish 0x71) hrule)
  · rw [htsink, flushed_of_empty hwpend, hsink, hu, ← hout]
    rfl

end Sys2Proof.Machine


open Sys2Proof Sys2Proof.Machine

namespace Sys2Proof.Proofs

/-- Settles O59: the turns of the pairs push their phrases, and the turn after them ends the loop or faults. -/
theorem lzDecExpandsContainer : Obligations.LzDecExpandsContainer := by
  intro s d v ps phs hq hwf hpend hr hv hplay
  have hd : LzForm d := (LzForm.init v hwf).pairs hplay
  refine ⟨fun j last hj hp => ?_, fun i lit hlt hi hp => ?_, fun i hlt hi hp => ?_, fun i lit ph hph hfull hp => ?_⟩
  · obtain ⟨k, hrule⟩ := lzDecRule_quiet (e := s) (started_quiet hq) hpend hr hv hwf rfl hplay hj hp
    exact ⟨k, runCommand_ok hq hrule⟩
  · rw [List.append_assoc] at hp
    exact exec_lzDec_fault hq hpend hr hv hwf hplay hp (pairBits_length_pos (i, lit)) nofun (List.append_nil _)
      fun fuel u hu hw htail =>
        ⟨_, lzDecLoop_malformed (p := (i, lit)) fuel hu hi hlt htail, hw, (List.append_nil _).symm⟩
  · rw [lzContainerBits_eq] at hp
    exact exec_lzDec_fault hq hpend hr hv hwf hplay hp (endBits_length_pos _ _) nofun (List.append_nil _)
      fun fuel u hu hw htail => ⟨_, lzDecLoop_noPhrase fuel hu hw hd hi hlt htail, hw, (List.append_nil _).symm⟩
  · rw [List.append_assoc] at hp
    exact exec_lzDec_fault hq hpend hr hv hwf hplay hp (pairBits_length_pos (i, lit)) nofun rfl
      fun fuel u hu hw htail =>
        ⟨_, lzDecLoop_full (p := (i, lit)) fuel hu hw hd hph hfull htail,
          emit_bytesBits_wpend (s := consume _ u) hw ph, congrArg State.sink (emit_bytesBits (s := consume _ u) hw ph)⟩

end Sys2Proof.Proofs
end

section
/-! SUPPORT. The greedy parse of LZ.ENC on the dictionary alone (46_lz78_dictionary R202, R203, 47_lz78_codec R221). -/

namespace Sys2Proof.Machine

variable {d d' e s : State} {q ph last bytes : List Byte} {b lit : Byte} {n i : Nat} {p : Nat × Byte}
  {ps : List (Nat × Byte)} {phs : List (List Byte)}

/-! ## What LzAdd says of a pair and of a full dictionary -/

/-- The two ways LzAdd gives a pair: the literal of a frozen dictionary, or a new node. -/
theorem dictAdd_eq_pair (h : dictAdd ph d = .pair i lit e) :
    lit = ph.getLastD 0
      ∧ (frozen d = true ∧ i = 0 ∧ e = d
        ∨ indexLookup (dropIfFull d).lzindex ph = none ∧ i = prefixNode ph (dropIfFull d)
          ∧ e = { dropIfFull d with
              lznodes := (dropIfFull d).lznodes ++ [⟨i, lit⟩]
              lzindex := (dropIfFull d).lzindex ++ [(ph, (dropIfFull d).lznodes.length + 1)] }) := by
  cases hf : frozen d with
  | true =>
    cases (dictAdd_of_frozen ph hf).symm.trans h
    exact ⟨rfl, .inl ⟨rfl, rfl, rfl⟩⟩
  | false =>
    cases hl : indexLookup (dropIfFull d).lzindex ph with
    | some k => cases (dictAdd_of_lookup rfl hf hl).symm.trans h
    | none =>
      by_cases hroom : (dropIfFull d).lznodes.length < d.params.dictCap
      · cases (dictAdd_of_new rfl hf hl hroom).symm.trans h
        exact ⟨rfl, .inr ⟨rfl, rfl, rfl⟩⟩
      · rw [← dropIfFull_params] at hroom
        simp only [dictAdd, frozen_dropIfFull, hf, hl, dictSize, Nat.le_of_not_lt hroom, if_true, Bool.false_eq_true,
          if_false, reduceCtorEq] at h

theorem dictAdd_full (h : dictAdd ph d = .full) :
    frozen d = false ∧ d.params.dictCap ≤ (dropIfFull d).lznodes.length := by
  cases hf : frozen d with
  | true => cases (dictAdd_of_frozen ph hf).symm.trans h
  | false =>
    refine ⟨rfl, Nat.le_of_not_lt fun hroom => ?_⟩
    cases hl : indexLookup (dropIfFull d).lzindex ph with
    | some k => cases (dictAdd_of_lookup rfl hf hl).symm.trans h
    | none => cases (dictAdd_of_new rfl hf hl hroom).symm.trans h

/-! ## Room for the rest of the source -/

/-- There is room for `n` more nodes, or the limit of the strategy comes before DICT_CAP. -/
def Roomy (n : Nat) (d : State) : Prop :=
  d.lznodes.length + n ≤ d.params.dictCap ∨ (d.strat.toInt ≠ 0 ∧ d.strat.toInt.natAbs ≤ d.params.dictCap)

theorem Roomy.mono (h : Roomy (n + 1) d) : Roomy n d := h.imp_left fun hle => by omega

theorem Roomy.not_full (h : Roomy (n + 1) d) (ph : List Byte) : dictAdd ph d ≠ .full := by
  intro hadd
  obtain ⟨hf, hcap⟩ := dictAdd_full hadd
  have hlive : ¬ (d.strat.toInt < 0 ∧ -d.strat.toInt ≤ d.lznodes.length) := by
    rw [← frozen_iff, hf]
    exact Bool.false_ne_true
  rw [dropIfFull_eq] at hcap
  split at hcap
  · have hzero : d.params.dictCap ≤ 0 := hcap
    rcases h with h | h <;> omega
  · rcases h with h | h <;> omega

theorem Roomy.pair (h : Roomy (n + 1) d) (hadd : dictAdd ph d = .pair i lit e) : Roomy n e := by
  have hframe := dictAdd_frame (t := e) (by rw [hadd]; rfl)
  have hlen : e.lznodes.length ≤ d.lznodes.length + 1 := by
    obtain ⟨-, ⟨-, -, rfl⟩ | ⟨-, -, rfl⟩⟩ := dictAdd_eq_pair hadd
    · exact Nat.le_succ _
    · rcases dropIfFull_cases d with hu | hu <;> simp [hu]
  have hparams : e.params = d.params := by rw [hframe]
  have hstrat : e.strat = d.strat := by rw [hframe]
  rw [Roomy, hparams, hstrat]
  exact h.imp_left fun hle => by omega

/-! ## The phrases of the index -/

theorem chain_append {nodes : List LzNode} {fuel : Nat} {out : List Byte} (l : List LzNode)
    (h : chain nodes fuel i out = some ph) : chain (nodes ++ l) fuel i out = some ph := by
  induction fuel generalizing i out with
  | zero => exact h
  | succ fuel ih =>
    simp only [chain] at h ⊢
    split
    next h0 => rwa [if_pos h0] at h
    next h0 =>
      rw [if_neg h0] at h
      cases hn : nodes[i - 1]? with
      | none => rw [hn] at h; cases h
      | some nd =>
        rw [hn] at h
        rw [List.getElem?_append_left (List.getElem?_eq_some_iff.mp hn).1, hn]
        exact ih h

/-- More nodes do not change the phrases of those before. -/
theorem dictGet_append {l : List LzNode} (he : e.lznodes = d.lznodes ++ l) (h : dictGet i d = some ph) :
    dictGet i e = some ph := by
  have hle := (dictGet_length h).1
  have hd : ¬ dictSize d < i := Nat.not_lt.mpr hle
  have hi : ¬ dictSize e < i := by
    rw [dictSize, he, List.length_append]
    omega
  rw [dictGet, if_neg hd] at h
  rw [dictGet, if_neg hi, he]
  exact chain_append l h

/-- A new node stands for the phrase of its parent followed by its byte. -/
theorem dictGet_new (hform : DictForm e.lznodes e.lzindex) (he : e.lznodes = d.lznodes ++ [⟨i, b⟩])
    (h : dictGet i d = some q) : dictGet (d.lznodes.length + 1) e = some (q ++ [b]) := by
  have hnode : e.lznodes[d.lznodes.length + 1 - 1]? = some ⟨i, b⟩ := by rw [he]; simp
  obtain ⟨r, hparent, hget⟩ := dictGet_node hform (Nat.succ_ne_zero _) hnode
  cases hparent.symm.trans (dictGet_append he h)
  exact hget

/-- What holds of the dictionary all through LZ.ENC: its form, and each node stands for the phrase that is registered
under its number. -/
structure EncForm (d : State) : Prop extends LzForm d where
  spelled : ∀ kv ∈ d.lzindex, dictGet kv.2 d = some kv.1

theorem EncForm.init (v : Word) (h : s.params.wf = true) : EncForm (dictInit v s) := ⟨LzForm.init v h, nofun⟩

theorem EncForm.afterDrop (h : EncForm d) : EncForm (dropIfFull d) := by
  rcases dropIfFull_cases d with hu | hu <;> rw [hu]
  · exact h
  · exact ⟨⟨h.params, dictForm_nil, Nat.zero_le _⟩, nofun⟩

/-! ## A phrase the encoder extends (47_lz78_codec R221) -/

/-- Every part of `q` from its start is known to the dictionary of `d`. -/
def KnownTo (d : State) (q : List Byte) : Prop := ∀ n, 1 ≤ n → n ≤ q.length → dictAdd (q.take n) d = .known d

theorem KnownTo.nil (d : State) : KnownTo d [] := fun _ h1 hn => absurd hn (Nat.not_le.mpr h1)

theorem KnownTo.snoc (h : KnownTo d q) (hk : dictAdd (q ++ [b]) d = .known d) : KnownTo d (q ++ [b]) := by
  intro n h1 hn
  rw [List.length_append, List.length_singleton] at hn
  by_cases hq : n ≤ q.length
  · rw [List.take_append_of_le_length hq]
    exact h n h1 hq
  · rw [List.take_of_length_le (by rw [List.length_append, List.length_singleton]; omega)]
    exact hk

theorem KnownTo.endsPhrase (h : KnownTo d q) (hp : dictAdd (q ++ [b]) d = .pair p.1 p.2 e) :
    endsPhrase (q ++ [b]) p d := by
  refine ⟨fun n h1 hn => ?_, e, hp⟩
  rw [List.length_append, List.length_singleton] at hn
  rw [List.take_append_of_le_length (Nat.le_of_lt_succ hn)]
  exact h n h1 (Nat.le_of_lt_succ hn)

/-- A phrase begun is in the index, and LzAdd neither clears that dictionary nor finds it frozen. -/
theorem KnownTo.live (h : KnownTo d q) (hne : q ≠ []) :
    dropIfFull d = d ∧ frozen d = false ∧ ∃ k, (q, k) ∈ d.lzindex := by
  have hk : dictAdd q d = .known d := by
    have := h q.length (List.length_pos_iff.mpr hne) (Nat.le_refl _)
    rwa [List.take_length] at this
  refine ⟨dropIfFull_below fun n hn => dictAdd_known_below hk hn, Bool.eq_false_iff.mpr fun hf => ?_, ?_⟩
  · cases hk.symm.trans (dictAdd_of_frozen q hf)
  · obtain ⟨-, k, hl⟩ := dictAdd_known hk
    exact ⟨k, indexLookup_mem hl⟩

/-- The parent of a phrase and one byte more is the node of that phrase, also where LzAdd clears the dictionary: then no
phrase was begun. -/
theorem prefixNode_of_knownTo (b : Byte) (hd : EncForm d) (hk : KnownTo d q) :
    dictGet (prefixNode (q ++ [b]) (dropIfFull d)) (dropIfFull d) = some q
      ∧ pairPhrase (prefixNode (q ++ [b]) (dropIfFull d)) b d = some (q ++ [b]) := by
  by_cases hne : q = []
  · subst hne
    exact ⟨dictGet_zero _, rfl⟩
  · obtain ⟨hu, -, k, hmem⟩ := hk.live hne
    have hspelled : dictGet k d = some q := hd.spelled _ hmem
    rw [hu, prefixNode_snoc b hd.form (.inl hmem)]
    refine ⟨hspelled, ?_⟩
    rw [pairPhrase, if_neg (Nat.ne_of_gt (hd.form.range hmem).1), hspelled, Option.map_some]

/-- Where the phrase ends, its pair stands for it, and the dictionary keeps its form. -/
theorem EncForm.pair (hd : EncForm d) (hk : KnownTo d q) (hadd : dictAdd (q ++ [b]) d = .pair i lit e) :
    lit = b ∧ playPair (i, b) d = some (q ++ [b], e) ∧ EncForm e := by
  have hstate : (dictAdd (q ++ [b]) d).state? = some e := by rw [hadd]; rfl
  have hform : LzForm e := hd.toLzForm.add (List.concat_ne_nil b q) hstate
  obtain ⟨hget, hphrase⟩ := prefixNode_of_knownTo b hd hk
  obtain ⟨hlit, ⟨hf, rfl, rfl⟩ | ⟨-, hi, he⟩⟩ := dictAdd_eq_pair hadd <;> rw [List.getLastD_concat] at hlit
  · have hq : q = [] := by
      by_contra hne
      obtain ⟨-, hlive, -⟩ := hk.live hne
      exact Bool.false_ne_true (hlive.symm.trans hf)
    subst hq
    exact ⟨hlit, playPair_some.mpr ⟨rfl, hstate⟩, hd⟩
  · rw [← hi] at hget hphrase
    have hnodes : e.lznodes = (dropIfFull d).lznodes ++ [⟨i, b⟩] := by rw [he, hlit]
    have hindex : e.lzindex = (dropIfFull d).lzindex ++ [(q ++ [b], (dropIfFull d).lznodes.length + 1)] := by rw [he]
    refine ⟨hlit, playPair_some.mpr ⟨hphrase, hstate⟩, hform, fun kv hkv => ?_⟩
    rw [hindex, List.mem_append, List.mem_singleton] at hkv
    rcases hkv with hkv | rfl
    · exact dictGet_append hnodes (hd.afterDrop.spelled kv hkv)
    · exact dictGet_new hform.form hnodes hget

/-! ## The parse -/

/-- The greedy parse of `bytes` from the dictionary of `d` (47_lz78_codec R221): the pairs, their phrases, the known
phrase that is left, and the dictionary after them. -/
structure Parse (d : State) (bytes : List Byte) (ps : List (Nat × Byte)) (phs : List (List Byte)) (last : List Byte)
    (d' : State) : Prop where
  plays  : playPairs ps d = some (phs, d')
  greedy : ∀ m p ph before phs', ps[m]? = some p → phs[m]? = some ph →
    playPairs (ps.take m) d = some (phs', before) → endsPhrase ph p before
  known  : KnownTo d' last
  covers : phs.flatten ++ last = bytes
  form   : EncForm d'

theorem Parse.nil (hd : EncForm d) (hk : KnownTo d q) : Parse d q [] [] q d := by
  refine ⟨rfl, fun m p ph before phs' hp => ?_, hk, rfl, hd⟩
  rw [List.getElem?_nil] at hp
  cases hp

/-- A phrase and the parse of what follows it. -/
theorem Parse.cons (hplay : playPair p d = some (ph, e)) (hends : endsPhrase ph p d)
    (h : Parse e bytes ps phs last d') : Parse d (ph ++ bytes) (p :: ps) (ph :: phs) last d' := by
  refine ⟨playPairs_cons.mpr ⟨ph, phs, e, hplay, h.plays, rfl⟩, ?_, h.known, ?_, h.form⟩
  · intro m p' ph' before phs' hp hph hbefore
    cases m with
    | zero =>
      cases hp
      cases hph
      cases hbefore
      exact hends
    | succ m =>
      obtain ⟨r, rest, e', hr, hrest, -⟩ := playPairs_cons.mp hbefore
      cases hplay.symm.trans hr
      exact h.greedy m p' ph' before rest hp hph hrest
  · rw [List.flatten_cons, List.append_assoc, h.covers]

end Sys2Proof.Machine
end

section
/-! SUPPORT. LZ.ENC on ports that answer (47_lz78_codec R221), its round trip (R223), and the statements about them. -/

namespace Sys2Proof.Machine

variable {d e s : State} {q last : List Byte} {b : Byte} {n : Nat} {ps : List (Nat × Byte)} {phs : List (List Byte)}

/-! ## The loop -/

/-- The state after one byte of IN was pulled. -/
def byteTaken (s : State) : State := { s with pos := s.pos + 1, draws := s.draws.tail }

theorem byteTaken_quiet (h : s.Quiet) : (byteTaken s).Quiet := h.drop 1 rfl rfl List.drop_one.symm

/-- One turn of LZ.ENC with a byte left: LzAdd decides whether the phrase goes on. -/
theorem lzEncLoop_turn (fuel : Nat) (h : s.Quiet) (hpend : s.wpend.length ≤ 7) (hb : s.src[s.pos]? = some b) :
    lzEncLoop (fuel + 1) (lzState d q s) =
      match dictAdd (q ++ [b]) d with
      | .known e => lzEncLoop fuel (lzState e (q ++ [b]) (byteTaken s))
      | .full => raise .capacity (lzState d (q ++ [b]) (byteTaken s))
      | .pair i lit e => lzEncLoop fuel (lzState e [] (emit (pairBits (i, lit)) (byteTaken s))) := by
  have hpull : pullByte (lzState d q s) = .ok (some b, lzState d q (byteTaken s)) :=
    pullByte_some (lzState_quiet d q h) hb
  have hpb : (lzState d q (byteTaken s)).pb = q := rfl
  have hset : { lzState d q (byteTaken s) with pb := q ++ [b] } = lzState d (q ++ [b]) (byteTaken s) := rfl
  simp only [lzEncLoop, hpull, bind, Except.bind, hpb, hset, dictAdd_lzState]
  cases dictAdd (q ++ [b]) d with
  | known e => rfl
  | full => rfl
  | pair i lit e =>
    have hindex := gammaPut_quiet i (lzState_quiet e (q ++ [b]) (byteTaken_quiet h)) hpend
    have hlit := putBits_quiet lit.toNat 8 (emit_quiet (gammaCode i) (lzState_quiet e (q ++ [b]) (byteTaken_quiet h)))
      (emit_wpend_lt _ _)
    simp only [AddResult.map, hindex, hlit, emit_append]
    rfl

/-- Bytes pulled before bits went through the writer. -/
theorem atEnd_emit_pulled (k : Nat) (bs : Bits) (s : State) :
    atEnd k (emit bs (byteTaken s)) = atEnd (k + 1) (emit bs s) := by
  simp only [atEnd, emit, byteTaken, ← List.drop_one, List.drop_drop, Nat.add_comm, Nat.add_assoc]

/-- The loop faults CAPACITY where there is no room, or writes the pairs of the greedy parse of the rest of the
source. -/
theorem lzEncLoop_quiet {fuel : Nat} (h : s.Quiet) (hr : s.rpend = []) (hpend : s.wpend.length ≤ 7)
    (hp : s.pos + n = s.src.length) (hfuel : n < fuel) (hd : EncForm d) (hk : KnownTo d q) :
    (¬ Roomy n d ∧ ∃ t, t.Quiet ∧ lzEncLoop fuel (lzState d q s) = .error ⟨.fault .capacity false, t⟩)
      ∨ ∃ k ps phs last e, Parse d (q ++ s.src.drop s.pos) ps phs last e
        ∧ lzEncLoop fuel (lzState d q s) = .ok (lzState e last (atEnd k (emit (ps.flatMap pairBits) s))) := by
  induction fuel generalizing n d q s with
  | zero => exact absurd hfuel (Nat.not_lt_zero n)
  | succ fuel ih =>
    cases n with
    | zero =>
      have hend : s.pos = s.src.length := hp
      have hpull := pullByte_end (lzState_quiet d q h) (Nat.le_of_eq hend.symm)
      have hrest : q ++ s.src.drop s.pos = q := by rw [List.drop_of_length_le (Nat.le_of_eq hend.symm), List.append_nil]
      refine .inr ⟨1, [], [], q, d, by rw [hrest]; exact Parse.nil hd hk, ?_⟩
      rw [List.flatMap_nil, emit_nil hpend]
      simp only [lzEncLoop, hpull, bind, Except.bind, atEnd, List.drop_one]
      rw [← hr, ← hend]
      rfl
    | succ n =>
      obtain ⟨b, hb⟩ : ∃ b, s.src[s.pos]? = some b := ⟨_, List.getElem?_eq_getElem (by omega)⟩
      obtain ⟨hlt, hbyte⟩ := List.getElem?_eq_some_iff.mp hb
      have hrest : s.src.drop s.pos = b :: s.src.drop (s.pos + 1) := by rw [List.drop_eq_getElem_cons hlt, hbyte]
      have hnext : (byteTaken s).Quiet := byteTaken_quiet h
      have hp' : (byteTaken s).pos + n = (byteTaken s).src.length := (Nat.succ_add_eq_add_succ s.pos n).trans hp
      rw [lzEncLoop_turn fuel h hpend hb, hrest]
      cases hadd : dictAdd (q ++ [b]) d with
      | full => exact .inl ⟨fun hroom => hroom.not_full _ hadd, lzState d (q ++ [b]) (byteTaken s), hnext, rfl⟩
      | known e =>
        obtain rfl : e = d := (dictAdd_known hadd).1
        rcases ih hnext hr hpend hp' (Nat.lt_of_succ_lt_succ hfuel) hd (hk.snoc hadd) with
          ⟨hroom, t, ht, hloop⟩ | ⟨k, ps, phs, last, e', hparse, hloop⟩
        · exact .inl ⟨fun h => hroom h.mono, t, ht, hloop⟩
        · rw [List.append_assoc] at hparse
          exact .inr ⟨k + 1, ps, phs, last, e', hparse, by rw [← atEnd_emit_pulled]; exact hloop⟩
      | pair i lit e =>
        obtain ⟨rfl, hplay, he⟩ := hd.pair hk hadd
        rcases ih (emit_quiet (pairBits (i, lit)) hnext) hr (emit_wpend_lt _ _) hp'
          (Nat.lt_of_succ_lt_succ hfuel) he (KnownTo.nil e) with
          ⟨hroom, t, ht, hloop⟩ | ⟨k, ps, phs, last, e', hparse, hloop⟩
        · exact .inl ⟨fun h => hroom (h.pair hadd), t, ht, hloop⟩
        · have hall := hparse.cons hplay (hk.endsPhrase (p := (i, lit)) hadd)
          rw [List.nil_append, List.append_assoc] at hall
          rw [emit_append, atEnd_emit_pulled] at hloop
          exact .inr ⟨k + 1, _, _, last, e', hall, hloop⟩

/-! ## The end marker -/

/-- What the end marker says of the phrase that is left (47_lz78_codec R221). -/
def LeavesPhrase (d : State) (j : Option Nat) (last : List Byte) : Prop :=
  j = none ∧ last = [] ∨ ∃ i, j = some i ∧ i ≠ 0 ∧ dictGet i d = some last

theorem lzEncEnd_quiet (h : s.Quiet) (hpend : s.wpend.length ≤ 7) (hd : EncForm d) (hk : KnownTo d last) :
    ∃ j, LeavesPhrase d j last
      ∧ lzEncEnd (lzState d last s) = .ok (lzState d last (emit (endBits d.lznodes.length j) s)) := by
  by_cases hne : last = []
  · have hempty : (lzState d last s).pb.length = 0 := List.length_eq_zero_iff.mpr hne
    refine ⟨none, .inl ⟨rfl, hne⟩, ?_⟩
    rw [lzEncEnd, if_pos hempty]
    exact gammaPut_quiet _ (lzState_quiet d last h) hpend
  · have hbegun : ¬ (lzState d last s).pb.length = 0 := fun h0 => hne (List.length_eq_zero_iff.mp h0)
    obtain ⟨-, -, k, hmem⟩ := hk.live hne
    have hfind : dictFind (lzState d last s).pb (lzState d last s) = some k := dictFind_of_mem hd.form hmem
    have hmark := gammaPut_quiet (d.lznodes.length + 2) (lzState_quiet d last h) hpend
    have hindex := gammaPut_quiet k (emit_quiet (gammaCode (d.lznodes.length + 2)) (lzState_quiet d last h))
      (emit_wpend_lt _ _)
    rw [emit_append] at hindex
    refine ⟨some k, .inr ⟨k, rfl, Nat.ne_of_gt (hd.form.range hmem).1, hd.spelled _ hmem⟩, ?_⟩
    rw [lzEncEnd, if_neg hbegun, hfind]
    exact (congrArg (· >>= gammaPut k) hmark).trans hindex

/-! ## The rule -/

theorem atEnd_emit (k : Nat) (bs : Bits) (s : State) : emit bs (atEnd k s) = atEnd k (emit bs s) := by
  simp only [atEnd, emit, List.drop_drop, Nat.add_comm]

/-- What LZ.ENC does after its loop (47_lz78_codec R221). -/
def closeContainer (s : State) : Ran State := do
  let s ← lzEncEnd s
  let s ← flush s
  .ok (setRes0 (BitVec.ofNat 64 s.lznodes.length) s)

/-- LZ.ENC writes its strategy and begins with its empty dictionary. -/
theorem lzEncRule_starts (h : s.Quiet) (hpend : s.wpend = []) (hr : s.rpend = [])
    (hv : s.arg0 ≠ 0x8000000000000000#64) :
    lzEncRule s =
      lzEncLoop (s.src.length - s.pos + 1) (codecStart s.arg0 (emit (gammaCode (zz s.arg0.toInt)) s))
        >>= closeContainer := by
  have hstrat := gammaPut_quiet (zz s.arg0.toInt) h (hpend ▸ Nat.zero_le 7)
  simp only [lzEncRule, require_true hv, requireAligned_empty hpend hr, hstrat, bind, Except.bind]
  rfl

/-- With IN at its end and `bits` in the writer since it was empty, the end marker and the flush complete the
container. -/
theorem closeContainer_quiet {k : Nat} {bits : Bits} (h : s.Quiet) (hpend : s.wpend = []) (hd : EncForm d)
    (hk : KnownTo d last) :
    ∃ m j, LeavesPhrase d j last
      ∧ closeContainer (lzState d last (atEnd k (emit bits s))) =
        .ok { lzState d last s with
          sink := s.sink ++ wholeBytes (padBits (bits ++ endBits d.lznodes.length j))
          rpend := [], pos := s.src.length, res0 := BitVec.ofNat 64 d.lznodes.length, draws := s.draws.drop m } := by
  obtain ⟨j, hj, hmark⟩ := lzEncEnd_quiet (atEnd_quiet k (emit_quiet bits h)) (emit_wpend_lt bits s) hd hk
  rw [atEnd_emit, emit_append] at hmark
  obtain ⟨t, ht⟩ : ∃ t, t = lzState d last (atEnd k (emit (bits ++ endBits d.lznodes.length j) s)) := ⟨_, rfl⟩
  rw [← ht] at hmark
  have hflush : flush t = .ok (flushed t) := flush_quiet (ht ▸ atEnd_quiet k (emit_quiet _ h))
  obtain ⟨i, hdraws⟩ := flushed_draws t
  have hsink : (flushed t).sink = s.sink ++ wholeBytes (padBits (bits ++ endBits d.lznodes.length j)) := by
    rw [ht, ← flushed_emit _ hpend]
    exact flushed_sink_congr rfl rfl
  refine ⟨(s.wpend ++ (bits ++ endBits d.lznodes.length j)).length / 8 + k + i, j, hj, ?_⟩
  simp only [closeContainer, hmark, bind, Except.bind, hflush]
  rw [flushed_eq, hsink, hdraws]
  simp only [ht, lzState, atEnd, emit, setRes0, List.drop_drop, hpend]

/-- LZ.ENC faults CAPACITY where there is no room, or writes the container of the greedy parse of the rest of the
source. -/
theorem lzEncRule_quiet (h : s.Quiet) (hwf : s.params.wf = true) (hpend : s.wpend = []) (hr : s.rpend = [])
    (hp : s.pos ≤ s.src.length) (hv : s.arg0 ≠ 0x8000000000000000#64) (he : e.params = s.params) :
    (¬ Roomy (s.src.length - s.pos) (dictInit s.arg0 e)
        ∧ ∃ t, t.Quiet ∧ lzEncRule s = .error ⟨.fault .capacity false, t⟩)
      ∨ ∃ k ps phs d j last, Parse (dictInit s.arg0 e) (s.src.drop s.pos) ps phs last d ∧ LeavesPhrase d j last
        ∧ lzEncRule s =
          .ok { s with
            sink := s.sink ++ wholeBytes (padBits (lzContainerBits s.arg0 ps d.lznodes.length j))
            strat := s.arg0, lznodes := d.lznodes, lzindex := d.lzindex, pb := last, pos := s.src.length
            res0 := BitVec.ofNat 64 d.lznodes.length, draws := s.draws.drop k } := by
  have hloop := lzEncLoop_quiet (q := []) (emit_quiet (gammaCode (zz s.arg0.toInt)) h) hr (emit_wpend_lt _ s)
    (Nat.add_sub_cancel' hp) (Nat.lt_succ_self _) (EncForm.init s.arg0 (he ▸ hwf)) (KnownTo.nil _)
  have hstart := lzEncRule_starts h hpend hr hv
  rw [codecStart_eq s.arg0 (s := emit _ s) he] at hstart
  rcases hloop with ⟨hroom, t, ht, hfull⟩ | ⟨k, ps, phs, last, d, hparse, hdone⟩
  · refine .inl ⟨hroom, t, ht, ?_⟩
    rw [hstart]
    exact congrArg (· >>= closeContainer) hfull
  · rw [emit_append, ← lzPairBits_eq] at hdone
    obtain ⟨m, j, hj, hclose⟩ := closeContainer_quiet (k := k) (bits := lzPairBits s.arg0 ps) h hpend hparse.form
      hparse.known
    refine .inr ⟨m, ps, phs, d, j, last, hparse, hj, ?_⟩
    rw [hstart]
    refine (congrArg (· >>= closeContainer) hdone).trans (hclose.trans ?_)
    rw [lzState_playPairs he hparse.plays, lzContainerBits_eq]
    simp only [hr]

/-- On ports that answer LZ.ENC ends with ERR = 1 where there is no room, or completes. -/
theorem exec_lzEnc (h : s.Quiet) (hwf : s.params.wf = true) (hpend : s.wpend = []) (hr : s.rpend = [])
    (hp : s.pos ≤ s.src.length) (hv : s.arg0 ≠ 0x8000000000000000#64) :
    (¬ Roomy (s.src.length - s.pos) (dictInit s.arg0 s) ∧ ∃ t, exec .lzEnc s = .next t ∧ t.err = true)
      ∨ ∃ k ps phs d j last, Parse (dictInit s.arg0 s) (s.src.drop s.pos) ps phs last d ∧ LeavesPhrase d j last
        ∧ exec .lzEnc s =
          .next (ran { s with
            sink := s.sink ++ wholeBytes (padBits (lzContainerBits s.arg0 ps d.lznodes.length j))
            strat := s.arg0, lznodes := d.lznodes, lzindex := d.lzindex, pb := last, pos := s.src.length
            res0 := BitVec.ofNat 64 d.lznodes.length, draws := s.draws.drop k }) := by
  rcases lzEncRule_quiet (s := started s) (e := s) (started_quiet h) hwf hpend hr hp hv rfl with
    ⟨hroom, u, hu, hrule⟩ | ⟨k, ps, phs, d, j, last, hparse, hj, hrule⟩
  · obtain ⟨t, ht, herr, -⟩ := finish_fault_quiet 0x70 .capacity false hu
    refine .inl ⟨hroom, t, ?_, herr⟩
    rw [← ht]
    exact (runCommand_quiet 0x70 lzEncRule h).trans (congrArg (finish 0x70) hrule)
  · exact .inr ⟨k, ps, phs, d, j, last, hparse, hj, runCommand_ok h hrule⟩

/-- The strategy -2^63 is refused (47_lz78_codec R221). -/
theorem exec_lzEnc_invalid (h : s.Quiet) (hv : s.arg0 = 0x8000000000000000#64) :
    exec .lzEnc s = .next (checkFaulted 0x70 .invalidParam s) := by
  have hv' : ¬ (started s).arg0 ≠ 0x8000000000000000#64 := fun hne => hne hv
  refine runCommand_check (rule := lzEncRule) h nofun ?_
  simp only [lzEncRule, require_false hv']
  rfl

end Sys2Proof.Machine

open Sys2Proof Sys2Proof.Machine

namespace Sys2Proof.Proofs

/-- Settles O58: the loop keeps a phrase all of whose parts are known, and the room its hypothesis gives is never used
up. -/
theorem lzEncWritesContainer : Obligations.LzEncWritesContainer := by
  intro s hq hwf hpend hr hp hv hroom
  have hroom' : Roomy (s.src.length - s.pos) (dictInit s.arg0 s) :=
    hroom.imp (fun hle => by simpa using hle) fun ⟨hne, hle⟩ => ⟨fun h0 => hne (BitVec.eq_of_toInt_eq h0), hle⟩
  obtain ⟨hnone, -⟩ | ⟨k, ps, phs, d, j, last, hparse, hj, hexec⟩ := exec_lzEnc hq hwf hpend hr hp hv
  · exact absurd hroom' hnone
  · exact ⟨k, ps, phs, d, j, last, hparse.plays, hparse.greedy, hparse.known, hj, hparse.covers, hexec⟩

/-- Settles O60: the bytes LZ.ENC pushed begin with the container of the source, and its pairs play on the dictionary of
LZ.DEC as they did on that of LZ.ENC. -/
theorem lzRoundTrip : Obligations.LzRoundTrip := by
  intro s t u hq hwf hpend hr hp hs hexec herr hqu hparams hpendu hru hposu hu hsrc
  have hv : s.arg0 ≠ 0x8000000000000000#64 := by
    intro hmin
    cases (exec_lzEnc_invalid hq hmin).symm.trans hexec
    cases herr
  obtain ⟨-, r, hfault, hrerr⟩ | ⟨k, ps, phs, d, j, last, hparse, hj, hdone⟩ := exec_lzEnc hq hwf hpend hr hp hv
  · cases hfault.symm.trans hexec
    exact absurd (hrerr.symm.trans herr) (by decide)
  · cases hdone.symm.trans hexec
    have hbytes : u.src = wholeBytes (padBits (lzContainerBits s.arg0 ps d.lznodes.length j)) :=
      hsrc.trans List.drop_left
    have hinit : dictInit s.arg0 u = lzState (dictInit s.arg0 s) u.pb u := by
      simp only [lzState, dictInit_params, ← hparams]
      rfl
    have hplay := playPairs_lzState u.pb u hparse.plays
    rw [← hinit] at hplay
    obtain ⟨hexpand, -⟩ := lzDecExpandsContainer u _ s.arg0 ps phs hqu (hparams ▸ hwf) hpendu hru hv hplay
    have hlast : j = none ∧ last = [] ∨ ∃ i, j = some i ∧ dictGet i (lzState d u.pb u) = some last :=
      hj.imp_right fun ⟨i, hi, _, hget⟩ => ⟨i, hi, hget⟩
    obtain ⟨m, hdec⟩ := hexpand j last hlast (prefix_incoming_padBits hru hposu hbytes)
    refine ⟨_, hdec, hu, ?_, rfl, rfl, rfl, rfl, rfl⟩
    show u.sink ++ phs.flatten ++ last = _
    rw [List.append_assoc, hparse.covers]

end Sys2Proof.Proofs
end

section
/-! SUPPORT. The faults the rule of each command can raise, on any ports and with any host (60_exceptions R232). A lemma
about an operation asks that its faults be in the list; for a command's row that is read off the table. -/

namespace Sys2Proof.Machine

/-! ## Results that raise certain faults only -/

/-- If the stop is a fault of the block, its code is one of `l`. -/
def FaultIn (l : List FaultCode) (x : Halt) : Prop := ∀ c k, x.why = .fault c k → c ∈ l

/-- All the faults of the block that the result can be are in `l`. -/
def Raises {α : Type} (l : List FaultCode) (r : Ran α) : Prop := Sat (fun _ => True) (FaultIn l) r

variable {α β : Type} {l : List FaultCode}

theorem Raises.ok (a : α) : Raises l (.ok a : Ran α) := trivial

theorem Raises.bind {r : Ran α} {f : α → Ran β} (h : Raises l r) (hf : ∀ a, Raises l (f a)) : Raises l (r >>= f) :=
  Sat.bind h fun a _ => hf a

theorem Raises.raise {c : FaultCode} (s : State) (hc : c ∈ l) : Raises l (raise c s : Ran α) := by
  rintro _ _ ⟨⟩
  exact hc

theorem Raises.raiseKeeping {c : FaultCode} (s : State) (hc : c ∈ l) : Raises l (raiseKeeping c s : Ran α) := by
  rintro _ _ ⟨⟩
  exact hc

theorem Raises.broken (f : Fault) (s : State) : Raises l (broken f s : Ran α) := nofun

/-- A check and what follows it (60_exceptions R235). -/
theorem Raises.check {c : Prop} [Decidable c] {code : FaultCode} {s : State} {f : Unit → Ran β} (hf : Raises l (f ()))
    (hc : code ∈ l := by simp [possibleFaults]) : Raises l (require c code s >>= f) :=
  require_bind (by rintro _ _ ⟨⟩; exact hc) fun _ => hf

/-! ## Ports -/

theorem Raises.whileBusy (during : List HostAction) (s : State) : Raises l (whileBusy during s) := by
  induction during generalizing s with
  | nil => trivial
  | cons a rest ih =>
    simp only [Machine.whileBusy]
    split
    · exact ih _
    · exact nofun
    · exact nofun

/-- A transaction that fails is no fault yet: what asked for it raises the fault. -/
theorem Raises.transact (what : Transaction) (s : State) : Raises l (transact what s) := by
  refine (Raises.whileBusy _ _).bind fun u => ?_
  split
  · trivial
  · trivial
  · exact nofun

theorem Raises.pullByte (s : State) (hin : .ioIn ∈ l) : Raises l (pullByte s) := by
  refine (Raises.transact _ _).bind fun r => ?_
  simp only
  split
  · split <;> trivial
  · exact .raise _ hin

theorem Raises.srcLen (s : State) (hin : .ioIn ∈ l := by simp [possibleFaults]) : Raises l (srcLen s) := by
  refine (Raises.transact _ _).bind fun r => ?_
  simp only
  split
  · trivial
  · exact .raise _ hin

theorem Raises.srcRewind (s : State) (hin : .ioIn ∈ l := by simp [possibleFaults]) : Raises l (srcRewind s) := by
  refine (Raises.transact _ _).bind fun r => ?_
  simp only
  split
  · trivial
  · exact .raise _ hin

theorem Raises.pushByte (b : Byte) (s : State) (hout : .ioOut ∈ l) : Raises l (pushByte b s) := by
  refine (Raises.transact _ _).bind fun r => ?_
  simp only
  split
  · trivial
  · exact .raise _ hout

/-! ## Writer -/

theorem Raises.putBit (b : Bool) (s : State) (hout : .ioOut ∈ l) : Raises l (putBit b s) := by
  simp only [Machine.putBit]
  split
  · exact (Raises.pushByte _ _ hout).bind fun _ => trivial
  · trivial

theorem Raises.putString (bs : Bits) (s : State) (hout : .ioOut ∈ l) : Raises l (putString bs s) := by
  induction bs generalizing s with
  | nil => trivial
  | cons b bs ih => exact (Raises.putBit _ _ hout).bind fun _ => ih _

theorem Raises.putBits (v n : Nat) (s : State) (hout : .ioOut ∈ l := by simp [possibleFaults]) :
    Raises l (putBits v n s) :=
  .putString _ _ hout

theorem Raises.flush (s : State) (hout : .ioOut ∈ l := by simp [possibleFaults]) : Raises l (flush s) := by
  simp only [Machine.flush]
  split
  · trivial
  · exact (Raises.pushByte _ _ hout).bind fun _ => trivial

theorem Raises.gammaPut (v : Nat) (s : State) (hout : .ioOut ∈ l := by simp [possibleFaults]) :
    Raises l (gammaPut v s) :=
  (Raises.putBits _ _ _ hout).bind fun _ => .putBits _ _ _ hout

theorem Raises.putBytes (bs : List Byte) (s : State) (hout : .ioOut ∈ l) : Raises l (putBytes bs s) := by
  induction bs generalizing s with
  | nil => trivial
  | cons b bs ih => exact (Raises.putBits _ _ _ hout).bind fun _ => ih _

/-! ## Reader -/

theorem Raises.fill (fuel n : Nat) (s : State) (hin : .ioIn ∈ l) (hend : .endOfStream ∈ l) : Raises l (fill fuel n s) := by
  induction fuel generalizing s with
  | zero => trivial
  | succ fuel ih =>
    simp only [Machine.fill]
    split
    · refine (Raises.pullByte _ hin).bind fun r => ?_
      split
      · exact .raise _ hend
      · exact ih _
    · trivial

theorem Raises.getBits (n : Nat) (s : State) (hin : .ioIn ∈ l := by simp [possibleFaults])
    (hend : .endOfStream ∈ l := by simp [possibleFaults]) : Raises l (getBits n s) :=
  (Raises.fill n n s hin hend).bind fun _ => trivial

/-- NextWord takes the end of IN for an answer (41_bitstream R137). -/
theorem Raises.fillOrEnd (fuel w : Nat) (s : State) (hin : .ioIn ∈ l) : Raises l (fillOrEnd fuel w s) := by
  induction fuel generalizing s with
  | zero => trivial
  | succ fuel ih =>
    simp only [Machine.fillOrEnd]
    split
    · refine (Raises.pullByte _ hin).bind fun r => ?_
      split
      · trivial
      · exact ih _
    · trivial

theorem Raises.nextWord (w : Nat) (s : State) (hin : .ioIn ∈ l := by simp [possibleFaults]) :
    Raises l (nextWord w s) := by
  refine (Raises.fillOrEnd w w s hin).bind fun r => ?_
  simp only
  split <;> trivial

theorem Raises.gammaZeros (left n : Nat) (s : State) (hin : .ioIn ∈ l) (hend : .endOfStream ∈ l)
    (hmal : .malformed ∈ l) : Raises l (gammaZeros left n s) := by
  induction left generalizing n s with
  | zero => exact .raise _ hmal
  | succ left ih =>
    refine (Raises.getBits 1 s hin hend).bind fun r => ?_
    simp only
    split
    · trivial
    · exact ih _ _

theorem Raises.gammaGet (s : State) (hin : .ioIn ∈ l := by simp [possibleFaults])
    (hend : .endOfStream ∈ l := by simp [possibleFaults]) (hmal : .malformed ∈ l := by simp [possibleFaults]) :
    Raises l (gammaGet s) := by
  refine (Raises.gammaZeros 64 0 s hin hend hmal).bind fun r => ?_
  simp only
  split
  · trivial
  · exact (Raises.getBits _ _ hin hend).bind fun _ => trivial

/-! ## Histogram and tree -/

theorem Raises.countWord (v : Nat) (s : State) (hcap : .capacity ∈ l) : Raises l (countWord v s) := by
  rcases countWord_cases v s with ⟨-, e⟩ | ⟨c, -, ⟨-, e⟩ | ⟨-, e⟩⟩ <;> rw [e]
  · exact .broken _ _
  · exact .raise _ hcap
  · trivial

theorem Raises.histLoop (w fuel total : Nat) (s : State) (hin : .ioIn ∈ l) (hcap : .capacity ∈ l) :
    Raises l (histLoop w fuel total s) := by
  induction fuel generalizing total s with
  | zero => trivial
  | succ fuel ih =>
    refine (Raises.nextWord w s hin).bind fun r => ?_
    simp only
    split
    · trivial
    · exact (Raises.countWord _ _ hcap).bind fun _ => ih _ _

theorem Raises.histBuild (w : Nat) (s : State) (hin : .ioIn ∈ l := by simp [possibleFaults])
    (hcap : .capacity ∈ l := by simp [possibleFaults]) : Raises l (histBuild w s) :=
  .histLoop _ _ _ _ hin hcap

theorem Raises.treeWrite (s : State) (hout : .ioOut ∈ l := by simp [possibleFaults]) : Raises l (treeWrite s) := by
  simp only [Machine.treeWrite]
  split
  · exact .broken _ _
  · exact .putString _ _ hout

theorem Raises.rebuildLoop (w fuel : Nat) (r : Rebuild) (s : State) (hin : .ioIn ∈ l) (hend : .endOfStream ∈ l)
    (hmal : .malformed ∈ l) : Raises l (rebuildLoop w fuel r s) := by
  induction fuel generalizing r s with
  | zero =>
    obtain ⟨slots, next, seen, _ | ⟨t, rest⟩⟩ := r
    · trivial
    · exact .raise _ hmal
  | succ fuel ih =>
    obtain ⟨slots, next, seen, _ | ⟨t, rest⟩⟩ := r
    · trivial
    refine (Raises.getBits 1 s hin hend).bind fun f => ?_
    simp only
    split
    · refine (Raises.getBits w _ hin hend).bind fun x => ?_
      split
      · exact .raise _ hmal
      · exact ih _ _
    · split
      · exact .raise _ hmal
      · exact ih _ _

theorem Raises.treeRead (s : State) (hin : .ioIn ∈ l := by simp [possibleFaults])
    (hend : .endOfStream ∈ l := by simp [possibleFaults]) (hmal : .malformed ∈ l := by simp [possibleFaults]) :
    Raises l (treeRead s) := by
  refine (Raises.getBits 4 s hin hend).bind fun f => (Raises.rebuildLoop _ _ _ _ hin hend hmal).bind fun r => ?_
  simp only
  split
  · exact .raise _ hmal
  · trivial

theorem Raises.walk (w : Nat) (nodes : List Node) (fuel i : Nat) (s : State) (hin : .ioIn ∈ l)
    (hend : .endOfStream ∈ l) : Raises l (walk w nodes fuel i s) := by
  induction fuel generalizing i s with
  | zero =>
    simp only [Machine.walk]
    split
    · trivial
    · exact .broken _ _
  | succ fuel ih =>
    simp only [Machine.walk]
    split
    · trivial
    · refine (Raises.getBits 1 s hin hend).bind fun b => ?_
      split
      · exact .broken _ _
      · exact ih _ _

theorem Raises.treeDecode (s : State) (hin : .ioIn ∈ l := by simp [possibleFaults])
    (hend : .endOfStream ∈ l := by simp [possibleFaults]) : Raises l (treeDecode s) :=
  .walk _ _ _ _ _ hin hend

theorem Raises.codeOperand (s : State) (hst : .state ∈ l := by simp [possibleFaults])
    (hno : .noEntry ∈ l := by simp [possibleFaults]) (hcap : .capacity ∈ l := by simp [possibleFaults]) :
    Raises l (codeOperand s) := by
  refine .check (.check ?_ hno) hst
  split
  · exact .broken _ _
  · exact .check (.ok _) hcap

/-! ## Containers -/

theorem Raises.codeLoop (w fuel : Nat) (s : State) (hin : .ioIn ∈ l := by simp [possibleFaults])
    (hout : .ioOut ∈ l := by simp [possibleFaults]) : Raises l (codeLoop w fuel s) := by
  induction fuel generalizing s with
  | zero => trivial
  | succ fuel ih =>
    refine (Raises.nextWord w s hin).bind fun r => ?_
    simp only [Machine.putCode]
    split
    · trivial
    · refine Raises.bind ?_ fun _ => ih _
      split
      · exact .broken _ _
      · exact .putString _ _ hout

theorem Raises.decodeLoop (w fuel rem : Nat) (s : State) (hin : .ioIn ∈ l := by simp [possibleFaults])
    (hend : .endOfStream ∈ l := by simp [possibleFaults]) (hout : .ioOut ∈ l := by simp [possibleFaults]) :
    Raises l (decodeLoop w fuel rem s) := by
  induction fuel generalizing rem s with
  | zero => trivial
  | succ fuel ih =>
    simp only [Machine.decodeLoop]
    split
    · trivial
    · exact (Raises.treeDecode s hin hend).bind fun _ => (Raises.putBits _ _ _ hout).bind fun _ => ih _ _

theorem Raises.lzEncLoop (fuel : Nat) (s : State) (hin : .ioIn ∈ l := by simp [possibleFaults])
    (hcap : .capacity ∈ l := by simp [possibleFaults]) (hout : .ioOut ∈ l := by simp [possibleFaults]) :
    Raises l (lzEncLoop fuel s) := by
  induction fuel generalizing s with
  | zero => trivial
  | succ fuel ih =>
    refine (Raises.pullByte s hin).bind fun r => ?_
    simp only
    split
    · trivial
    · split
      · exact ih _
      · exact .raise _ hcap
      · exact (Raises.gammaPut _ _ hout).bind fun _ => (Raises.putBits _ _ _ hout).bind fun _ => ih _

theorem Raises.lzEncEnd (s : State) (hst : .state ∈ l := by simp [possibleFaults])
    (hout : .ioOut ∈ l := by simp [possibleFaults]) : Raises l (lzEncEnd s) := by
  simp only [Machine.lzEncEnd]
  split
  · exact .gammaPut _ _ hout
  · split
    · exact .raise _ hst
    · exact (Raises.gammaPut _ _ hout).bind fun _ => .gammaPut _ _ hout

theorem Raises.lzDecAdd (s : State) (hcap : .capacity ∈ l) : Raises l (lzDecAdd s) := by
  simp only [Machine.lzDecAdd]
  split
  · trivial
  · trivial
  · exact .raise _ hcap

theorem Raises.lzDecLoop (fuel : Nat) (s : State) (hin : .ioIn ∈ l := by simp [possibleFaults])
    (hend : .endOfStream ∈ l := by simp [possibleFaults]) (hmal : .malformed ∈ l := by simp [possibleFaults])
    (hcap : .capacity ∈ l := by simp [possibleFaults]) (hout : .ioOut ∈ l := by simp [possibleFaults]) :
    Raises l (lzDecLoop fuel s) := by
  induction fuel generalizing s with
  | zero => trivial
  | succ fuel ih =>
    refine (Raises.gammaGet s hin hend hmal).bind fun i => ?_
    simp only
    split
    · trivial
    split
    · refine (Raises.gammaGet _ hin hend hmal).bind fun j => ?_
      split
      · exact .raise _ hmal
      · exact .putBytes _ _ hout
    · refine (Raises.getBits 8 _ hin hend).bind fun lit => ?_
      split
      · exact .raise _ hmal
      · exact (Raises.putBytes _ _ hout).bind fun _ => (Raises.lzDecAdd _ hcap).bind fun _ => ih _

/-! ## Every command -/

/-- The rule of a command raises the faults of its row of the table only (60_exceptions R232). -/
theorem ruleOf_raises (i : Instr) (s : State) : Raises (possibleFaults i) (ruleOf i s) := by
  cases i with
  | nop => exact .ok _
  | bwWrite n => exact .check (.putBits _ _ _)
  | bwFlush => exact .flush _
  | brRead n => exact .check ((Raises.getBits _ _).bind fun _ => .ok _)
  | brWord w => exact .check ((Raises.nextWord _ _).bind fun _ => .ok _)
  | inRewind => exact (Raises.srcRewind _).bind fun _ => .ok _
  | inLength => exact (Raises.srcLen _).bind fun _ => .ok _
  | gammaEnc => exact .check (.gammaPut _ _)
  | gammaDec => exact (Raises.gammaGet _).bind fun _ => .ok _
  | zzEnc => exact .ok _
  | zzDec => exact .ok _
  | histBuild w => exact .check ((Raises.histBuild _ _).bind fun _ => .ok _)
  | histClear w => exact .check (.ok _)
  | histSet =>
    refine .check (.check ?_)
    split
    · exact .ok _
    · exact .broken _ _
  | histGet =>
    refine .check (.check ?_)
    split
    · exact .ok _
    · exact .broken _ _
  | htBuild => exact .check (.ok _)
  | htWrite => exact .check (.check (.treeWrite _))
  | htRead => exact (Raises.treeRead _).bind fun _ => .ok _
  | htEnc => exact (Raises.codeOperand _).bind fun _ => .putBits _ _ _
  | htDec => exact .check ((Raises.treeDecode _).bind fun _ => .ok _)
  | htCode => exact (Raises.codeOperand _).bind fun _ => .ok _
  | htNode =>
    refine .check (.check ?_)
    split
    · exact .broken _ _
    · exact .ok _
  | hufComp w =>
    refine .check (.check ((Raises.srcLen _).bind fun _ => (Raises.srcRewind _).bind fun _ => ?_))
    refine (Raises.histBuild _ _).bind fun _ => (Raises.srcRewind _).bind fun _ => ?_
    refine (Raises.putBits _ _ _).bind fun _ => (Raises.treeWrite _).bind fun _ => ?_
    exact (Raises.codeLoop _ _ _).bind fun _ => (Raises.flush _).bind fun _ => .ok _
  | hufDecomp =>
    refine .check ((Raises.getBits _ _).bind fun _ => (Raises.treeRead _).bind fun _ => ?_)
    exact (Raises.decodeLoop _ _ _ _).bind fun _ => .ok _
  | lzInit => exact .ok _
  | lzAdd =>
    refine .check ?_
    split
    · exact .ok _
    · exact .ok _
    · exact .raiseKeeping _ (by simp [possibleFaults])
  | lzGet =>
    simp only [ruleOf, lzGetRule]
    split <;> exact .ok _
  | lzFind =>
    simp only [ruleOf, lzFindRule]
    split <;> exact .ok _
  | lzSize => exact .ok _
  | lzNode =>
    simp only [ruleOf, lzNodeRule]
    split <;> exact .ok _
  | pbClear => exact .ok _
  | pbPush => exact .check (.ok _)
  | pbGet =>
    simp only [ruleOf, pbGetRule]
    split <;> exact .ok _
  | lzEnc =>
    refine .check (.check ((Raises.gammaPut _ _).bind fun _ => ?_))
    refine (Raises.lzEncLoop _ _).bind fun _ => (Raises.lzEncEnd _).bind fun _ => ?_
    exact (Raises.flush _).bind fun _ => .ok _
  | lzDec => exact .check ((Raises.gammaGet _).bind fun _ => (Raises.lzDecLoop _ _).bind fun _ => .ok _)

/-! ## The fault record -/

/-- The fault record, where there is one, has a code of `l` and the opcode `op` (60_exceptions R234). -/
def Recorded (l : List FaultCode) (op : Byte) (s : State) : Prop := s.err = true → s.errcode ∈ l ∧ s.errop = op

variable {op : Byte}

/-- The host sets no fault record: it leaves it or resets it. -/
theorem recorded_closed (l : List FaultCode) (op : Byte) : Closed (Recorded l op) where
  goOn _ _ _ h e := by
    obtain ⟨_, _, _, _, _, _, _, _, _, _, rfl, -⟩ := hostAction_goOn e
    exact h
  wasReset _ _ _ _ e := by
    obtain ⟨_, _, _, rfl, -⟩ := hostAction_wasReset e
    exact nofun
  queue _ _ h := h
  draw _ _ _ h := h
  overlap _ _ h := h

theorem recorded_reader (l : List FaultCode) (op : Byte) : Reader (Recorded l op) (fun x => Recorded l op x.st) where
  transact what _ h := transact_sat (recorded_closed l op) what h
  sink _ _ h := h
  move _ _ h _ := h
  writer _ _ h _ := h
  fault _ _ h := h
  reader _ _ h := h

theorem recorded_rules (l : List FaultCode) (op : Byte) : Rules (Recorded l op) (fun x => Recorded l op x.st) :=
  (recorded_reader l op).rules (fun _ _ h => h) (fun _ _ h => h) fun _ _ _ _ _ _ _ _ _ _ _ _ _ _ h => h

/-- The fault entry records its fault, and its flush records no other (60_exceptions R234, R238). -/
theorem takeFault_recorded {c : FaultCode} (keep : Bool) (s : State) (hc : c ∈ l) :
    Sat (Recorded l op) (fun x => Recorded l op x.st) (takeFault op c keep s) := by
  have hf : Recorded l op (faulted op c keep s) := fun _ => by
    obtain ⟨⟨-, hcode, hop⟩, -⟩ := faulted_frame op c keep s
    exact ⟨by rw [hcode]; exact hc, hop⟩
  by_cases hio : c = .ioOut
  · subst hio
    exact hf
  · rw [takeFault_flush op keep s hio]
    have hflush := (recorded_reader l op).faultFlush hf fun _ _ _ h => h
    exact (hflush.mono (fun _ h => h) fun _ hx => hx.1).bind fun _ h => h

theorem stopOutcome_st {x : Halt} {t : State} (h : stopOutcome x = .next t) : x.st = t := by
  obtain ⟨why, u⟩ := x
  cases why <;> cases h <;> rfl

/-- A rule that raises the faults of `l` only makes a command that records no other. -/
theorem runCommand_recorded {rule : State → Ran State} {s t : State} (hs : Recorded l op s)
    (hkeeps : ∀ u, Recorded l op u → Sat (Recorded l op) (fun x => Recorded l op x.st) (rule u))
    (hraises : ∀ u, Raises l (rule u)) (h : runCommand op rule s = .next t) : Recorded l op t := by
  have hr := (overlap_sat (recorded_closed l op) (s := accept s) hs).bind hkeeps
  have hl : Raises l (overlap (accept s) >>= rule) := (Raises.whileBusy _ _).bind hraises
  obtain ⟨u, e, rfl⟩ | ⟨c, k, u, e, hf⟩ | e | e := finish_cases h <;> rw [e] at hr hl
  · exact hr
  · have hfault : Sat (Recorded l op) (fun x => Recorded l op x.st) (takeFault op c k u) :=
      takeFault_recorded k u (hl c k rfl)
    cases e : takeFault op c k u <;> rw [e] at hf hfault
    · exact stopOutcome_st hf ▸ hfault
    · cases hf
      exact hfault
  · exact hr
  · exact hr

end Sys2Proof.Machine

open Sys2Proof Sys2Proof.Machine

namespace Sys2Proof.Proofs

/-- Settles O26: the rule raises the faults of its row only, and neither the host nor the fault flush sets the fault
record. -/
theorem faultsAreThoseOfTheTable : Obligations.FaultsAreThoseOfTheTable := by
  intro i s t hs h
  have hstart : Recorded (possibleFaults i) i.op s := fun herr => absurd (hs.symm.trans herr) (by decide)
  rw [exec_eq_runCommand] at h
  exact runCommand_recorded hstart (fun _ hu => (recorded_rules _ _).ruleOf i hu) (ruleOf_raises i) h

end Sys2Proof.Proofs
end

section
/-! SUPPORT. Commands that stop at a check, on ports that answer (60_exceptions R231, R235). -/

namespace Sys2Proof.Machine

variable {α : Type} {c : Prop} [Decidable c] {code : FaultCode} {i : Instr} {s u : State}

/-- The pseudocode goes on behind a check that passes. -/
theorem require_bind_pass {r : Ran α} {f : Unit → Ran α} (hc : c) (hf : f () = r) : require c code s >>= f = r := by
  rw [require_true hc]
  exact hf

/-- The pseudocode ends where its first part stops. -/
theorem bind_stop {β : Type} {r : Ran β} {f : β → Ran α} {x : Halt} (h : r = .error x) : r >>= f = .error x := by
  rw [h]
  rfl

/-- The pseudocode ends at a check that fails. -/
theorem require_bind_fail {f : Unit → Ran α} (hc : ¬c) : require c code s >>= f = .error ⟨.fault code true, s⟩ :=
  bind_stop (require_false hc code s)

/-- A command whose rule stops at a check changes nothing else (60_exceptions R235). -/
theorem exec_check (h : s.Quiet) (hcode : code ≠ .ioOut)
    (hr : ruleOf i (started s) = .error ⟨.fault code true, started s⟩) :
    exec i s = .next (checkFaulted i.op code s) := by
  rw [exec_eq_runCommand]
  exact runCommand_check h hcode hr

/-! ## Pending bits and a full dictionary -/

/-- Bits pending in the writer or the reader (45_huffman_codec R190). -/
theorem requireAligned_bind_fail {f : Unit → Ran α} (h : u.wpend ≠ [] ∨ u.rpend ≠ []) :
    requireAligned u >>= f = .error ⟨.fault .state true, u⟩ :=
  require_bind_fail fun ⟨hw, hr⟩ =>
    h.elim (· (List.length_eq_zero_iff.mp hw)) (· (List.length_eq_zero_iff.mp hr))

/-- LzAdd of a new phrase to a full dictionary that its strategy neither clears nor freezes (46_lz78_dictionary R202). -/
theorem dictAdd_of_full {ph : List Byte} (hdrop : dropIfFull u = u) (hf : frozen u = false)
    (hnew : indexLookup u.lzindex ph = none) (hfull : u.params.dictCap ≤ u.lznodes.length) : dictAdd ph u = .full := by
  simp only [dictAdd, dictSize, hdrop, hf, Bool.false_eq_true, if_false, hnew, hfull, if_true]

/-- LZ.ADD keeps the state where the dictionary is full (46_lz78_dictionary R202, R206; log 8). -/
theorem lzAddRule_of_full (hne : u.pb ≠ []) (h : dictAdd u.pb u = .full) :
    lzAddRule u = .error ⟨.fault .capacity true, u⟩ :=
  require_bind_pass (List.length_pos_iff.mpr hne) (by rw [h]; rfl)

end Sys2Proof.Machine

open Sys2Proof Sys2Proof.Machine

namespace Sys2Proof.Proofs

/-- Settles O27: each rule begins with the check of its operand, which only HIST.SET, HIST.GET, HT.WRITE and HT.NODE make
behind the check of their memory. -/
theorem invalidParamChecks : Obligations.InvalidParamChecks := by
  intro s hq
  refine ⟨fun n hn => ⟨?_, ?_⟩, fun w hw => ?_, fun w hw => ?_, fun w hw => ?_, fun ha => ?_,
    fun h0 ha => ⟨?_, ?_⟩, fun htw => ?_, fun h0 ha => ?_, fun hpb => ?_, exec_lzEnc_invalid hq⟩
  · exact exec_check (i := .bwWrite n) hq nofun (require_bind_fail (Nat.not_le.mpr hn))
  · exact exec_check (i := .brRead n) hq nofun (require_bind_fail (Nat.not_le.mpr hn))
  · exact exec_check (i := .brWord w) hq nofun (require_bind_fail (by omega))
  · have hwidth : ¬ (1 ≤ w ∧ w ≤ s.params.maxHistW) := by omega
    exact ⟨exec_check (i := .histBuild w) hq nofun (require_bind_fail hwidth),
      exec_check (i := .histClear w) hq nofun (require_bind_fail hwidth)⟩
  · exact exec_check (i := .hufComp w) hq nofun (require_bind_fail (by omega))
  · have hmax : ¬ s.arg0.toNat ≤ 2 ^ 64 - 2 := by rw [ha]; decide
    exact exec_check (i := .gammaEnc) hq nofun (require_bind_fail hmax)
  · exact exec_check (i := .histSet) hq nofun (require_bind_pass h0 (require_bind_fail (Nat.not_lt.mpr ha)))
  · exact exec_check (i := .histGet) hq nofun (require_bind_pass h0 (require_bind_fail (Nat.not_lt.mpr ha)))
  · have htree : s.tw ≠ 0 := by omega
    have hwidth : ¬ (2 ≤ s.tw ∧ s.tw ≤ 17) := by omega
    exact exec_check (i := .htWrite) hq nofun (require_bind_pass htree (require_bind_fail hwidth))
  · exact exec_check (i := .htNode) hq nofun (require_bind_pass h0 (require_bind_fail (Nat.not_lt.mpr ha)))
  · have hempty : ¬ 1 ≤ s.pb.length := by simp [hpb]
    exact exec_check (i := .lzAdd) hq nofun (require_bind_fail hempty)

/-- Settles O28: the check of a memory comes first, and HUF.COMP and LZ.ENC check their operand before it; LZ.ADD's
CAPACITY is the end of LzAdd in the state it began with. -/
theorem stateNoEntryAndCapacityChecks : Obligations.StateNoEntryAndCapacityChecks := by
  intro s hq
  refine ⟨fun h0 => ⟨?_, ?_, ?_⟩, fun h0 => ⟨?_, ?_, ?_, ?_, ?_⟩, fun hpend => ⟨fun w h2 h17 => ?_, ?_, fun hv => ?_, ?_⟩,
    fun h0 ha => ?_, fun hlen => ?_, fun hlow hlive hfull hne hnew => ?_⟩
  · exact exec_check (i := .histSet) hq nofun (require_bind_fail (not_not.mpr h0))
  · exact exec_check (i := .histGet) hq nofun (require_bind_fail (not_not.mpr h0))
  · exact exec_check (i := .htBuild) hq nofun (require_bind_fail (not_not.mpr h0))
  · exact exec_check (i := .htWrite) hq nofun (require_bind_fail (not_not.mpr h0))
  · exact exec_check (i := .htEnc) hq nofun (bind_stop (require_bind_fail (not_not.mpr h0)))
  · exact exec_check (i := .htDec) hq nofun (require_bind_fail (not_not.mpr h0))
  · exact exec_check (i := .htCode) hq nofun (bind_stop (require_bind_fail (not_not.mpr h0)))
  · exact exec_check (i := .htNode) hq nofun (require_bind_fail (not_not.mpr h0))
  · exact exec_check (i := .hufComp w) hq nofun (require_bind_pass ⟨h2, h17⟩ (requireAligned_bind_fail hpend))
  · exact exec_check (i := .hufDecomp) hq nofun (requireAligned_bind_fail hpend)
  · exact exec_check (i := .lzEnc) hq nofun (require_bind_pass hv (requireAligned_bind_fail hpend))
  · exact exec_check (i := .lzDec) hq nofun (requireAligned_bind_fail hpend)
  · have hcode : codeOperand (started s) = .error ⟨.fault .noEntry true, started s⟩ :=
      require_bind_pass h0 (require_bind_fail (Nat.not_lt.mpr ha))
    exact ⟨exec_check (i := .htEnc) hq nofun (bind_stop hcode),
      exec_check (i := .htCode) hq nofun (bind_stop hcode)⟩
  · exact exec_check (i := .pbPush) hq nofun (require_bind_fail (Nat.not_lt.mpr hlen))
  · have hdrop : dropIfFull (started s) = started s := (dropIfFull_eq _).trans (if_neg hlow)
    have hf : frozen (started s) = false := Bool.eq_false_iff.mpr fun h => hlive ((frozen_iff s).mp h)
    exact exec_check (i := .lzAdd) hq nofun
      (lzAddRule_of_full hne (dictAdd_of_full hdrop hf (indexLookup_none.mpr hnew) hfull))

end Sys2Proof.Proofs
end

section
/-! SUPPORT. The hardware reset (70_reset R261). -/

namespace Sys2Proof.Machine

/-- An access at an offset of the window is addressed to the block, whatever its size (20_memory R51, R52). -/
theorem target_inside (p : Params) {off : Nat} (size : Nat) (h : off < 0x100) : target p (p.base + off) size ≠ .outside := by
  have hin : ¬ (p.base + off < p.base ∨ p.base + 0x100 ≤ p.base + off) := by omega
  simp only [target, if_neg hin]
  split
  · exact nofun
  · split <;> exact nofun

/-- While RST is asserted every read of the window returns 0. -/
theorem hostRead_rst {s : State} {addr size : Nat} (hrst : s.rst = true) (hin : target s.params addr size ≠ .outside) :
    hostRead addr size s = respond (.data 0) s := by
  simp only [hostRead]
  split
  · contradiction
  · exact if_pos hrst
  · exact if_pos hrst

/-- While RST is asserted every write to the window is lost. -/
theorem hostWrite_rst {s : State} {addr size : Nat} (v : Word) (hrst : s.rst = true)
    (hin : target s.params addr size ≠ .outside) : hostWrite addr size v s = .goOn (respond .ack s) := by
  simp only [hostWrite]
  split
  · contradiction
  · exact if_pos hrst
  · exact if_pos hrst

/-- While RST is asserted no write issues a command. -/
theorem commandOf_rst {s : State} (a : HostAction) (hrst : s.rst = true) : commandOf s a = none := by
  cases h : commandOf s a with
  | none => rfl
  | some c =>
    obtain ⟨-, -, hlow⟩ := commandOf_some h
    exact absurd (hrst.symm.trans hlow) (by decide)

end Sys2Proof.Machine

open Sys2Proof Sys2Proof.Machine

namespace Sys2Proof.Proofs

/-- Settles O11: `resetBlock` sets every piece, and while RST is asserted no access of the window gets to a register. -/
theorem hardwareResetSetsEveryPiece : Obligations.HardwareResetSetsEveryPiece := by
  intro s rest
  obtain ⟨pos, sink, he, -, hnone⟩ := settleInFlight_eq { s with host := rest }
  refine ⟨fun hh => ?_, fun off size hoff hrst hh => ?_, fun off size v hoff hrst hh => ?_, fun hrst hin hh => ?_⟩
  · refine ⟨{ resetNow false { s with host := rest } with rst := true }, step_hostAction hh rfl, ?_, ?_⟩
    · rw [resetNow, he]
      rfl
    · rw [resetNow, he]
      exact hnone
  · rw [step_hostAction hh rfl, hostAction,
      hostRead_rst (s := { s with host := rest }) hrst (target_inside _ _ hoff)]
    rfl
  · rw [step_hostAction hh (commandOf_rst _ hrst), hostAction,
      hostWrite_rst (s := { s with host := rest }) v hrst (target_inside _ _ hoff)]
    rfl
  · obtain ⟨rfl, rfl⟩ := hnone hin
    rw [step_hostAction hh rfl, hostAction, if_pos hrst, resetNow, he]
    rfl

end Sys2Proof.Proofs
end
